-- ==== Sys2Proof/Word.lean ====
section
/-! DEFINITION. The widths of the values that the IOMMU's manual treats as bits: bytes, identifiers,
addresses, and the two register widths (spec/10_state.md R20, spec/20_memory.md R90). Every one is an
abbreviation of a bit vector, bit 0 least significant (spec/00_scope.md R8), unsigned (R9). -/

namespace Sys2Proof

/-- One byte of memory or of a register. -/
abbrev Byte := BitVec 8

/-- The 16-bit identifier of the originator of a transaction (R220). -/
abbrev DeviceId := BitVec 16

/-- The 16-bit number software chooses for a protection domain (R232). -/
abbrev DomainId := BitVec 16

/-- A 64-bit address: a device virtual address or a zero-extended system physical address (R90). -/
abbrev Addr := BitVec 64

/-- A control register in the memory-mapped region (R20: all eleven are 64 bits wide). -/
abbrev Reg := BitVec 64

/-- A register of the capability block in configuration space (R20: all five are 32 bits wide). -/
abbrev CapReg := BitVec 32

/-- A command or an event log entry, flat bits 127:0 (R8, R140, R422). -/
abbrev Entry := BitVec 128

end Sys2Proof
end

