-- ==== Sys2Proof/Config.lean ====
section
/-! DEFINITION. What the specification leaves to the implementation (spec/00_scope.md R6) and what it
leaves open (spec/93_implementation_defined.md). Every constant here is opaque: it has no body that a
proof could look into, so whatever is proved holds for every value. The implementation parameters that
software can read in a register (`P.NpCache`, `P.HtTunnel`, `P.IotlbSup`, `P.CapPtr`, `P.VAsize`,
`P.PAsize`, `P.MsiNum`) are fields of the registers of State, not constants here. -/

namespace Sys2Proof.Config

/-- The places at which one step of the machine draws a value that the specification leaves open. Two
draws of one step are at two points, and State's counter `draws` advances with every step, so no two
draws are tied to each other. -/
inductive Point where
  /-- Whether the head pointer frozen by a command error stays or has advanced (D16, R338). -/
  | frozenHead
  /-- Whether an interrupt is sent outside the guaranteed case of R458 (D12). -/
  | interrupt
  /-- Whether an interrupt is sent when software turns an enable on (R458). -/
  | enableInterrupt
  /-- Event fields that are not meaningful in the case at hand (D14, R422, R443). -/
  | event
  /-- The DomainID of an event when `V` = 0 and `IV` = 1 (U36). -/
  | domain
  /-- The Type field of IOTLB_INV_TIMEOUT (R449). -/
  | timeoutType
  /-- The treatment of `I` = 1 when `IotlbSup` = 0 (U24). -/
  | iotlbUnsupported
  /-- Bit 6 of the interrupt table root pointer (U27). -/
  | irtBit6
  /-- A device virtual address wider than `VAsize` (U30). -/
  | wideVirtual
  /-- A table pointer wider than `PAsize` (U31). -/
  | widePhysical
  /-- A translation entry with Next Level 000b in a level-6 table (D20, R288). -/
  | level6
  /-- Whether a zero-byte read of a readable page has its data obscured (R205). -/
  | obscure
  deriving DecidableEq, Repr

/-- The free value drawn at a point of the step whose number is `draw`. -/
opaque free (draw : Nat) (p : Point) : BitVec 64

/-- The free value drawn at a point, as one bit. -/
def freeBit (draw : Nat) (p : Point) : Bool := (free draw p).getLsbD 0

/-- What an interrupt message says, recovered from its address and data (R304, R305, R306). -/
structure IntMsg where
  /-- The 4-bit message type MT. -/
  mt : BitVec 4
  /-- The destination mode DM. -/
  dm : Bool
  /-- The 11-bit offset into the interrupt remapping table. -/
  offset : BitVec 11
  deriving DecidableEq, Repr, Inhabited

/-- One page of a translation response (R208). -/
structure PageAnswer where
  addr : Addr
  r : Bool
  w : Bool
  fc : Bool
  u : Bool
  /-- The page is `2^bits` bytes. -/
  bits : Nat
  deriving DecidableEq, Repr, Inhabited

/-- `P.IntMsgDecode` (R6): the lost Figure 12 and the link specification fix it. -/
opaque intMsgDecode (addr : Addr) (data : List Byte) : IntMsg

/-- `P.ZeroByteReadData` (R205): a constant, a random value (another one at every draw) or a function of
the address; memory is no argument, so it does not depend on what memory holds. -/
opaque zeroByteReadData (draw : Nat) (addr : Addr) (len : Nat) : List Byte

/-- The parts of a translation response that no rule states: of the first page (index 0) what R197,
R207 and R208 leave out, and every page after it where there is a relevant entry (N44). -/
opaque openPage (draw index : Nat) : PageAnswer

/-- `P.MultiPageNoPde` (R209): the whole answer to a request for several pages where no table entry is
relevant, in the exclusion range or with `Mode` = 000b. -/
opaque multiPageNoPde (draw npages : Nat) : List PageAnswer

/-- `P.InvalidateGranularity` (R352): which cached translations beyond the requested range an
invalidation removes; for the undefined range of U22, which it removes at all. The arguments are the
step's draw, whether the entry is a directory entry, and the entry's domain, base and size. -/
opaque removesBeyond (draw : Nat) (directory : Bool) (domain : DomainId) (base : Addr) (bits : Nat) : Bool

/-- `P.OverflowWhenDisabled` (R434, C22). -/
opaque overflowWhenDisabled : Bool

/-- `P.BaseAddrRO` (R22): whether the base address fields are read-only. -/
opaque baseAddrRO : Bool

/-- The fields of the Range Register (spec/10_state.md R24). -/
inductive RangeField where
  | lastDevice
  | firstDevice
  | busNumber
  | rngValid
  | unitId
  deriving DecidableEq, Repr

/-- `P.RangeRO` (R6, R24): whether each field of the Range Register is read-only. -/
opaque rangeRO : RangeField → Bool

/-- `P.HtAtsResvRO` (R25): whether `HtAtsResv` is read-only where ATS is not supported; elsewhere it is not. -/
opaque htAtsResvRO : Bool

/-- The capability blocks of the function beyond this one. -/
opaque furtherCapBlocks : Nat

/-- `P.NumCapBlocks` (R6): one or more. -/
def numCapBlocks : Nat := furtherCapBlocks + 1

/-- The choice between MSI and MSI-X where the specification leaves it. -/
opaque choosesMsiX : Bool

/-- `P.MsiKind` (R456): whether the function has MSI-X rather than MSI. With more than one capability
block it must (R457). -/
def msiX : Bool := choosesMsiX || decide (1 < numCapBlocks)

/-- `P.PortIoImplemented` (spec/40_transactions.md R191): whether the platform carries port I/O from
devices at all. -/
opaque portIoImplemented : Bool

/-- How the platform answers a table read of the IOMMU that targets the IOMMU's own register region:
with a target abort rather than a master abort (D18: some abort, the kind not stated). -/
opaque ownRegionTargetAborts : Bool

end Sys2Proof.Config
end

