-- ==== Sys2Proof/Syntax.lean ====
section
/-! DEFINITION. The instruction set: the five commands software places in the command buffer
(spec/00_scope.md R3, spec/30_encoding.md R142), one constructor per row of spec/opcode_table.json.
Addresses are written in full, as spec/30_encoding.md R157 writes them; the bits no encoding can carry
are constrained in Sys2Proof/WellFormed.lean. -/

namespace Sys2Proof

/-- The five commands of the IOMMU. -/
inductive Instr where
  /-- COMPLETION_WAIT (R143): `store` is the bit `s`, `int` the bit `i`, `fence` the bit `f`. -/
  | completionWait (store int fence : Bool) (storeAddress : Addr) (storeData : BitVec 64)
  /-- INVALIDATE_DEVTAB_ENTRY (R146). -/
  | invalidateDevtabEntry (device : DeviceId)
  /-- INVALIDATE_IOMMU_PAGES (R147): `size` is the bit `S`. -/
  | invalidateIommuPages (domain : DomainId) (size pde : Bool) (address : Addr)
  /-- INVALIDATE_IOTLB_PAGES (R149): `size` is the bit `S`. -/
  | invalidateIotlbPages (device : DeviceId) (maxpend : BitVec 8) (queue : BitVec 16) (size : Bool) (address : Addr)
  /-- INVALIDATE_INTERRUPT_TABLE (R150). -/
  | invalidateInterruptTable (device : DeviceId)
  deriving DecidableEq, Repr

end Sys2Proof
end

