-- ==== Sys2Proof/Machine/State.lean ====
section
/-! DEFINITION. The state of the machine: every register, table cache and queue the specification gives
the IOMMU (spec/10_state.md R20 to R60), system memory, the actions the other agents are going to take,
and what the IOMMU has sent. Plain data throughout. -/

namespace Sys2Proof.Machine

/-! ### Memory and platform -/

/-- System memory: address and byte pairs, addresses strictly rising, no entry equal to what an unlisted
address reads as (0, log entry 3). `Sys2Proof/Machine/Memory.lean` holds the operations and the check. -/
abbrev Memory := List Host.Cell

/-- How a read by the IOMMU can fail (spec/60_exceptions.md R439). -/
inductive ReadFailure where
  | masterAbort
  | targetAbort
  | dataError
  deriving DecidableEq, Repr

/-- A range of system physical addresses whose reads fail: nonexistent or non-DRAM addresses (an abort),
or memory whose data comes back poisoned (spec/20_memory.md R94, R95). -/
structure Hole where
  base : Nat
  size : Nat
  answer : ReadFailure
  deriving DecidableEq, Repr

/-- Attributes of an access the IOMMU makes (spec/20_memory.md R106, R107, R109). `none` where the
specification states no value. -/
structure Attrs where
  coherent : Bool
  isoc : Bool
  passPW : Option Bool
  resPassPW : Option Bool
  deriving DecidableEq, Repr

/-! ### Device transactions -/

/-- The kinds of transaction (spec/40_transactions.md R170). -/
inductive TxKind where
  | read
  | writePosted
  | writeNonPosted
  | atomic
  | zeroByteRead
  | transReq
  | response
  | fence
  | flush
  deriving DecidableEq, Repr

/-- A transaction arriving from downstream (spec/40_transactions.md R170). -/
structure Transaction where
  dev : DeviceId
  kind : TxKind
  /-- The attribute `at` = `PreTranslated`. -/
  preTranslated : Bool
  addr : Addr
  len : Nat
  data : List Byte
  coherent : Bool
  intx : Bool
  npages : Nat
  tunnel : Bool
  deriving DecidableEq, Repr

/-- A device table entry: the half governed by `V` (bits 127:0) and the half governed by `IV`
(bits 255:128) (spec/41_device_table.md R225). -/
structure Dte where
  lo : BitVec 128
  hi : BitVec 128
  deriving DecidableEq, Repr

/-- A page table walk in progress (spec/42_page_tables.md R280). -/
structure Walk where
  /-- The address being translated. -/
  dva : Addr
  /-- The table to read next, and its level. -/
  table : Addr
  level : Nat
  /-- Address bits at and above this position have been consumed. -/
  upper : Nat
  /-- Permissions of the entries passed so far, the device table entry not counted. -/
  ir : Bool
  iw : Bool
  /-- The device table entry's permissions the walk counts with (U25). -/
  dteIr : Bool
  dteIw : Bool
  /-- The caches have not been consulted yet. -/
  fresh : Bool
  deriving DecidableEq, Repr

/-- A read of one half of a device table entry. Its address is that of the one computation of `DteAddr`
for the lookup (spec/41_device_table.md R249). Where one access of 32 bytes has been issued and this half is
still to come, `issued` is the coherence the access was issued with (D33, D46); otherwise the half takes an
access of its own. -/
structure HalfRead where
  addr : Addr
  issued : Option Bool
  deriving DecidableEq, Repr

/-- How far the processing of an accepted transaction has got (spec/10_state.md R58). -/
inductive TxPhase where
  /-- The device table entry is to be looked up. -/
  | needDte
  /-- The low half has been read, the high half has not (R224). -/
  | haveLow (lo : BitVec 128) (rest : HalfRead)
  /-- The high half has been read, the low half has not. -/
  | haveHigh (hi : BitVec 128) (rest : HalfRead)
  /-- A page table walk is in progress. -/
  | walking (dte : Dte) (w : Walk)
  /-- An interrupt remapping table entry is to be read. -/
  | readIrte (dte : Dte) (offset : Nat)
  deriving DecidableEq, Repr

/-- A transaction accepted and not finished. -/
structure InFlight where
  id : Nat
  tx : Transaction
  phase : TxPhase
  /-- An invalidation of what the transaction has read, or may still read as it was before, has taken effect:
  no translation, directory entry or interrupt remapping entry that it finds is cached (spec/20_memory.md R112,
  R122, spec/44_commands.md R362). -/
  stale : Bool
  /-- An INVALIDATE_DEVTAB_ENTRY of the device has taken effect since the first half of its entry was read:
  nothing of the entry is cached (spec/44_commands.md R362, spec/20_memory.md R112). -/
  staleDte : Bool
  deriving DecidableEq, Repr

/-- The translation a forwarded transaction used: the domain and the device virtual page (spec/44_commands.md
R363, R365). -/
structure PageUse where
  domain : DomainId
  base : Addr
  bits : Nat
  deriving DecidableEq, Repr

/-- A transaction forwarded upstream: what arrived, what was sent, with which translation, and whether
read data must be obscured (R205). -/
structure Forwarded where
  id : Nat
  orig : Transaction
  sent : Transaction
  used : Option PageUse
  obscure : Bool
  deriving DecidableEq, Repr

/-- The choices one micro-step of a transaction leaves to the implementation: which cached entries it uses and what
it caches (`P.Caches`, spec/20_memory.md R122 to R124), and how it reads a device table entry (R224). An entry to be
used is named by its place in its cache: any entry that fits may hit, an older one or one filled by the same device
too, and a place whose entry does not fit, or that is empty, misses. -/
structure TxChoice where
  /-- The cached low half of the device table entry that hits. -/
  useLo : Option Nat
  /-- The cached high half of the device table entry that hits. -/
  useHi : Option Nat
  /-- Keep what is read of a device table entry. -/
  keepDte : Bool
  /-- Read both halves of a device table entry in one access. -/
  wide : Bool
  /-- That one access sees its halves at two moments (D33). -/
  torn : Bool
  /-- Read the high half first when the halves are read apart. -/
  highFirst : Bool
  /-- The cached translation that hits. -/
  useTlb : Option Nat
  /-- The addresses for which the result of the walk is kept, as far as it is a result for them: none, the one asked
  for, or several pieces of one large page (R124). -/
  keepTlb : List Addr
  /-- The cached directory entry that hits. -/
  usePdc : Option Nat
  /-- Keep the directory entry read. -/
  keepPdc : Bool
  /-- The cached interrupt remapping entry that hits. -/
  useIrte : Option Nat
  /-- Keep the interrupt remapping entry read. -/
  keepIrte : Bool
  /-- Cache a large page as 4K pieces, those of `keepTlb` (R124). -/
  split4k : Bool
  /-- A cached translation carries the permissions of the device table entry that filled it (U25). -/
  fillerPerms : Bool
  deriving DecidableEq, Repr

/-! ### Caches -/

/-- A device table cache entry: a copy of one half of a device's entry (spec/10_state.md R52). A whole entry is two
of them, which come, hit and go each by itself. -/
structure DteCacheEntry where
  dev : DeviceId
  /-- The half is bits 255:128, the one governed by `IV`; otherwise bits 127:0, the one governed by `V`. -/
  high : Bool
  half : BitVec 128
  /-- The valid bit of the other half as the IOMMU knew it when this half was cached, 0 where it did not: with
  `NpCache` = 0 it takes `V` = 1 or `IV` = 1 for an entry to be cached (spec/70_reset_and_hazards.md R497 (e)). -/
  otherValid : Bool
  deriving DecidableEq, Repr

/-- What a finished page table walk found: a page, or a fault (spec/42_page_tables.md R280). The
permissions are those of the page table entries alone. -/
inductive WalkResult where
  | page (base : Addr) (bits : Nat) (ir iw fc u : Bool)
  | fault (pr rz ir iw : Bool)
  deriving DecidableEq, Repr

/-- A translation cache entry (spec/10_state.md R53): the domain and device virtual page it is for, what
the walk found, and the permissions of the device table entry of the device that filled it. -/
structure TlbEntry where
  domain : DomainId
  dev : DeviceId
  base : Addr
  bits : Nat
  result : WalkResult
  dteIr : Bool
  dteIw : Bool
  deriving DecidableEq, Repr

/-- A page directory cache entry (spec/10_state.md R53): for the span of `2^bits` bytes at `base`, the
next table, its level, the permissions of the entries passed on the way, and the device whose walk
filled it. -/
structure PdcEntry where
  domain : DomainId
  dev : DeviceId
  base : Addr
  bits : Nat
  table : Addr
  level : Nat
  ir : Bool
  iw : Bool
  dteIr : Bool
  dteIw : Bool
  deriving DecidableEq, Repr

/-- An interrupt remapping table cache entry (spec/10_state.md R54). -/
structure IrtCacheEntry where
  dev : DeviceId
  offset : Nat
  entry : BitVec 32
  deriving DecidableEq, Repr

/-! ### Commands -/

/-- A naturally aligned range of `2^bits` bytes; the whole space is base 0, bits 64
(spec/30_encoding.md R148). -/
structure PageRange where
  base : Addr
  bits : Nat
  deriving DecidableEq, Repr

/-- How far a fetched command has got. -/
inductive Phase where
  /-- It has had no effect yet. -/
  | waiting
  /-- Its IOTLB invalidation request with this number is outstanding (spec/10_state.md R57). -/
  | requested (id : Nat)
  /-- It has taken effect and waits for the transactions with these numbers (R362 to R365). -/
  | draining (ids : List Nat)
  deriving DecidableEq, Repr

/-- A command fetched and not completed (spec/10_state.md R56). -/
structure Command where
  instr : Instr
  /-- The system physical address of the command buffer entry it came from. -/
  addr : Addr
  phase : Phase
  deriving DecidableEq, Repr

/-- An IOTLB invalidation request sent and not answered (spec/10_state.md R57). -/
structure IotlbRequest where
  id : Nat
  dev : DeviceId
  queue : BitVec 16
  /-- The address of the command it came from (spec/60_exceptions.md R449). -/
  addr : Addr
  range : PageRange
  /-- `InvTimeOut` as it was when the timer started (D46). -/
  period : BitVec 3
  deriving DecidableEq, Repr

/-- A command buffer entry read ahead of the head pointer (spec/44_commands.md R337). -/
structure Prefetched where
  index : Nat
  entry : Entry
  deriving DecidableEq, Repr

/-! ### Events -/

/-- The eight events (spec/60_exceptions.md R423) with the fields of their log entries (R435 to R451). -/
inductive Event where
  | illegalDevTableEntry (dev : DeviceId) (tr rz rw i : Bool) (addr : Addr)
  | ioPageFault (dev : DeviceId) (tr rz pe rw pr i : Bool) (domain : DomainId) (addr : Addr)
  | devTabHardwareError (dev : DeviceId) (type : BitVec 2) (tr rw i : Bool) (addr : Addr)
  | pageTabHardwareError (dev : DeviceId) (type : BitVec 2) (tr rw i : Bool) (domain : DomainId) (addr : Addr)
  | illegalCommandError (addr : Addr)
  | commandHardwareError (type : BitVec 2) (addr : Addr)
  | iotlbInvTimeout (dev : DeviceId) (type : BitVec 2) (addr : Addr)
  | invalidDeviceRequest (dev : DeviceId) (type : BitVec 3) (tr : Bool) (addr : Addr)
  deriving DecidableEq, Repr

/-- What the event log was doing when an event was detected (spec/60_exceptions.md R431, R434, R454). -/
inductive Detected where
  /-- Events were logged. -/
  | logging
  /-- The log was stopped or halted: the event is lost. -/
  | stopped
  /-- `IommuEn` = 0: there is no event. -/
  | disabled
  deriving DecidableEq, Repr

/-- An event detected and not yet reported (spec/10_state.md R59). `seDevice` names the device whose
entry has `SE` = 1, so that the first-fault state decides when it is reported (R445). -/
structure PendingEvent where
  event : Event
  seDevice : Option DeviceId
  detected : Detected
  deriving DecidableEq, Repr

/-! ### Inputs and outputs -/

/-- How the host bridge answers a non-posted transaction. -/
inductive HostStatus where
  | ok
  | masterAbort
  | targetAbort
  deriving DecidableEq, Repr

/-- The host bridge's answer: status, read data, and for an atomic operation the bytes it stored. -/
structure HostAnswer where
  status : HostStatus
  data : List Byte
  stored : List Byte
  deriving DecidableEq, Repr

/-- What an agent does next. The first group is the environment's, the second the IOMMU's own. -/
inductive Action where
  /-- A processor writes memory or a control register; `cached` says that memory itself keeps the old
  bytes until a write-back. -/
  | cpuWrite (addr : Addr) (data : List Byte) (cached : Bool)
  /-- A processor reads memory or a control register. -/
  | cpuRead (addr : Addr) (len : Nat)
  /-- Processor caches write a range back to memory. -/
  | writeBack (addr : Addr) (len : Nat)
  /-- A configuration write at an offset of the capability block. -/
  | cfgWrite (offset : Nat) (data : List Byte)
  /-- A configuration read at an offset of the capability block. -/
  | cfgRead (offset len : Nat)
  /-- A configuration read of the function's PCI class code (spec/10_state.md R20). -/
  | classRead
  /-- A transaction arrives from downstream. -/
  | arrive (tx : Transaction)
  /-- A transaction arrives from upstream. -/
  | fromUpstream (data : List Byte)
  /-- A forwarded posted write reaches the host bridge. -/
  | hostTakesWrite (k : Nat)
  /-- The host bridge answers a forwarded non-posted transaction. -/
  | hostAnswers (k : Nat) (a : HostAnswer)
  /-- A device answers an outstanding IOTLB invalidation request. -/
  | deviceAnswers (k : Nat)
  /-- System reset. -/
  | reset
  /-- The platform's answers to reads change. -/
  | platform (holes : List Hole)
  /-- The IOMMU reads a command buffer entry ahead of the head pointer. -/
  | prefetch (ahead : Nat)
  /-- The IOMMU fetches a command without beginning to execute it. -/
  | fetch
  /-- A fetched command goes on, if it can. -/
  | run (k : Nat)
  /-- An accepted transaction goes on by one table read. -/
  | advance (k : Nat) (c : TxChoice)
  /-- A detected event is reported. -/
  | report (k : Nat)
  /-- A due interrupt is sent. -/
  | sendInterrupt
  /-- The timer of an outstanding invalidation request expires. -/
  | timeout (k : Nat)
  /-- A cached half of a device table entry is dropped; the first-fault state of its device goes with it where
  `forget` says so, and in any case with the last half (spec/10_state.md R55). -/
  | dropDte (k : Nat) (forget : Bool)
  /-- A translation cache entry is dropped. -/
  | dropTlb (k : Nat)
  /-- A page directory cache entry is dropped. -/
  | dropPdc (k : Nat)
  /-- An interrupt remapping cache entry is dropped. -/
  | dropIrte (k : Nat)
  /-- CmdBufRun falls, if its condition holds. -/
  | settleCmdRun
  /-- EventLogRun falls, if its condition holds. -/
  | settleEvtRun
  deriving DecidableEq, Repr

/-- The two refusals a transaction can get (spec/40_transactions.md R176). -/
inductive Abort where
  | targetAbort
  | masterAbort
  deriving DecidableEq, Repr

/-- What the IOMMU sends or answers. -/
inductive Output where
  /-- A transaction of a device goes upstream. -/
  | forwarded (tx : Transaction)
  /-- A transaction from upstream goes downstream unaltered (R114). -/
  | passedDown (data : List Byte)
  /-- The response to a refused transaction. -/
  | aborted (tx : Transaction) (a : Abort)
  /-- A translation response (R208). -/
  | translation (tx : Transaction) (pages : List Config.PageAnswer)
  /-- Upstream's answer returns to the originator. -/
  | completed (tx : Transaction) (a : HostAnswer)
  /-- The IOMMU reads system memory. -/
  | ownRead (addr : Addr) (len : Nat) (attrs : Attrs)
  /-- The IOMMU writes system memory. -/
  | ownWrite (addr : Addr) (data : List Byte) (attrs : Attrs)
  /-- An IOTLB invalidation request goes downstream (R355). -/
  | iotlbRequest (dev : DeviceId) (queue : BitVec 16) (range : PageRange)
  /-- The IOMMU's own interrupt: its kind, its message number, and the PassPW bit it carries (R455, R456). -/
  | interrupt (msiX : Bool) (number : BitVec 5) (passPW : Bool)
  /-- Data returned to a processor's read. -/
  | cpuData (data : List Byte)
  deriving DecidableEq, Repr

/-! ### The state -/

/-- The state of the IOMMU, of system memory, and of the model's environment. -/
structure State where
  /-- IOMMU Capability Header (R21). -/
  capHeader : CapReg
  /-- IOMMU Base Address Low Register (R22). -/
  capBaseLow : CapReg
  /-- IOMMU Base Address High Register (R23). -/
  capBaseHigh : CapReg
  /-- IOMMU Range Register (R24). -/
  capRange : CapReg
  /-- IOMMU Miscellaneous Information Register (R25). -/
  capMisc : CapReg
  /-- `P.RangeReset`: what the Range Register takes at a reset (R60). -/
  rangeStrap : CapReg
  /-- Device Table Base Address Register, 0000h (R30). -/
  devTabBase : Reg
  /-- Command Buffer Base Address Register, 0008h (R31). -/
  cmdBase : Reg
  /-- Event Log Base Address Register, 0010h (R32). -/
  evtBase : Reg
  /-- IOMMU Control Register, 0018h (R33). -/
  control : Reg
  /-- IOMMU Exclusion Base Register, 0020h (R45). -/
  exclBase : Reg
  /-- IOMMU Exclusion Limit Register, 0028h (R46). -/
  exclLimit : Reg
  /-- Command Buffer Head Pointer Register, 2000h: the program counter (R40, R50). -/
  cmdHead : Reg
  /-- Command Buffer Tail Pointer Register, 2008h (R41). -/
  cmdTail : Reg
  /-- Event Log Head Pointer Register, 2010h (R42). -/
  evtHead : Reg
  /-- Event Log Tail Pointer Register, 2018h (R43). -/
  evtTail : Reg
  /-- IOMMU Status Register, 2020h (R44). -/
  status : Reg
  /-- Command processing is halted on an error (R56 (c), R333). -/
  halted : Bool
  /-- Event logging is halted by an overflow (R59, R428). -/
  evtHalted : Bool
  /-- Device table entry cache (R52). -/
  dteCache : List DteCacheEntry
  /-- Translation cache (R53). -/
  tlb : List TlbEntry
  /-- Page directory cache (R53). -/
  pdc : List PdcEntry
  /-- Interrupt remapping table cache (R54). -/
  irtCache : List IrtCacheEntry
  /-- Devices for which a page fault has been logged under `SE` while their entry, or a half of it, was in the device
  table cache: the bit of each cached entry that R55 asks for (R445). -/
  faultLogged : List DeviceId
  /-- Commands read ahead (R56 (d), R337). -/
  prefetched : List Prefetched
  /-- Commands fetched and not completed, oldest first (R56). -/
  fetched : List Command
  /-- IOTLB invalidation requests outstanding (R57). -/
  outstanding : List IotlbRequest
  /-- Transactions accepted and not finished (R58). -/
  inFlight : List InFlight
  /-- Non-posted transactions forwarded and not answered (R58, R363). -/
  upReads : List Forwarded
  /-- Posted writes forwarded and not yet at the host bridge (R365). -/
  upWrites : List Forwarded
  /-- Events detected and not yet reported (R59). -/
  pendingEvents : List PendingEvent
  /-- Interrupt messages due and not yet sent (R59). -/
  intDue : Nat
  /-- System memory as a coherent reader sees it (R107, R108). -/
  mem : Memory
  /-- What memory itself holds, which a non-coherent read returns (R108). -/
  dram : Memory
  /-- The platform's failing address ranges (R94). -/
  holes : List Hole
  /-- What the agents do next: the model's own field. -/
  agenda : List Action
  /-- What the IOMMU has sent, oldest first: the model's own field. -/
  outputs : List Output
  /-- The counter of free values: the model's own field (log entry 8). -/
  draws : Nat
  /-- The number of the next transaction or invalidation request: the model's own field. -/
  nextId : Nat
  deriving DecidableEq, Repr

/-! ### How a step can stop -/

/-- The reasons for which a step stops with a fault. -/
inductive Fault where
  /-- Raised by a processor access to a system physical address of 2^52 or above: the specification's
  address space has no such address (R90, R92). Safe: the model stops where a platform would answer. -/
  | addressOutsideSpace
  deriving DecidableEq, Repr

/-- The reasons for which a step is refused. All are safe: the model stops where the specification
gives no behaviour. -/
inductive Refusal where
  /-- Raised by an arm of exec whose instruction has no meaning yet. Safe. -/
  | notModelled (mnemonic : String)
  /-- Raised by a control register access that is not of 1, 2, 4 or 8 bytes aligned to its size
  (R28, D4), and by a configuration access not of 1, 2 or 4 aligned bytes. Safe. -/
  | registerAccessSize
  /-- Raised by a configuration access outside the capability block, whose registers the
  specification does not describe (N20). Safe. -/
  | configOutsideBlock
  /-- Raised by a write that leaves ComLen or EventLen below 1000b (U20). Safe. -/
  | reservedLength
  /-- Raised by a write that covers a bit of EventLen or EventBase while EventLogRun = 1 (U10). Safe. -/
  | eventBaseWhileRunning
  /-- Raised by a write of the command head pointer while CmdBufRun = 1 (U11). Safe. -/
  | commandHeadWhileRunning
  /-- Raised by a command head pointer outside ComLen (U12). Safe. -/
  | commandHeadOutside
  /-- Raised by a command tail pointer advanced to or past the head (U13). Safe. -/
  | commandTailPastHead
  /-- Raised by a command tail pointer beyond the buffer (U14). Safe. -/
  | commandTailOutside
  /-- Raised by an event head pointer advanced beyond the tail (U15). Safe. -/
  | eventHeadPastTail
  /-- Raised by an event head pointer beyond the log (U16). Safe. -/
  | eventHeadOutside
  /-- Raised by a write of the event tail pointer while EventLogRun = 1 (U17). Safe. -/
  | eventTailWhileRunning
  /-- Raised by an event tail pointer outside EventLen (U18). Safe. -/
  | eventTailOutside
  /-- Raised by INVALIDATE_IOTLB_PAGES with Address[63:32] = FFFF_FFFFh (U23, R153). Safe. -/
  | undefinedIotlbAddress
  /-- Raised by a COMPLETION_WAIT store outside system memory (U33, R344). Safe. -/
  | storeOutsideMemory
  /-- Raised by a page table walk under a domain whose devices have different tables in the device table
  in memory (U26, R233). Safe. -/
  | domainTablesDiffer
  /-- Raised by a device transaction whose bytes do not lie within one 4K page (D32, R101). Safe. -/
  | crossesPage
  /-- Raised by a transaction through a tunnel the device does not have (R172). Safe. -/
  | noTunnel
  /-- Raised by a processor access to addresses that are no system memory and not the IOMMU's: a
  device the specification does not describe. Safe. -/
  | foreignWindow
  /-- Raised when a device's write reaches the IOMMU's own register region (N30, R97). Safe. -/
  | dmaToRegisters
  deriving DecidableEq, Repr

/-- What a step of this machine answers. -/
abbrev Result := Host.Outcome State Fault Refusal

/-- The machine after reset (R60, R481): registers at the values of R21 to R46, hidden state empty and
idle (D19), nothing in memory, nothing to do. The values the specification leaves to the implementation
are those of log entries 4 and 5. -/
def State.reset : State where
  capHeader := 0x030B000F
  capBaseLow := 0
  capBaseHigh := 0
  capRange := 0
  capMisc := 0x00203400
  rangeStrap := 0
  devTabBase := 0
  cmdBase := 0x0800000000000000
  evtBase := 0x0800000000000000
  control := 0x400
  exclBase := 0
  exclLimit := 0
  cmdHead := 0
  cmdTail := 0
  evtHead := 0
  evtTail := 0
  status := 0
  halted := false
  evtHalted := false
  dteCache := []
  tlb := []
  pdc := []
  irtCache := []
  faultLogged := []
  prefetched := []
  fetched := []
  outstanding := []
  inFlight := []
  upReads := []
  upWrites := []
  pendingEvents := []
  intDue := 0
  mem := []
  dram := []
  holes := []
  agenda := []
  outputs := []
  draws := 0
  nextId := 0

end Sys2Proof.Machine
end

