-- ==== Sys2Proof/Machine/Memory.lean ====
section
/-! DEFINITION. The named operations over system memory: one byte, runs of bytes, the canonical form. An
address that is not listed reads as 0 (log entry 3). Little-endian (spec/20_memory.md R98). -/

namespace Sys2Proof.Machine

/-- What an address that nothing has written reads as (DESIGN CHOICE, log entry 3). -/
def Memory.unlisted : Byte := 0

/-- One byte of memory. -/
def Memory.read : Memory → Nat → Byte
  | [], _ => Memory.unlisted
  | (k, v) :: rest, a => if k = a then v else Memory.read rest a

/-- Write one byte, keeping the canonical form: writing what an unlisted address reads as removes the
entry. -/
def Memory.write : Memory → Nat → Byte → Memory
  | [], a, v => if v = Memory.unlisted then [] else [(a, v)]
  | (k, w) :: rest, a, v =>
    if a < k then (if v = Memory.unlisted then (k, w) :: rest else (a, v) :: (k, w) :: rest)
    else if a = k then (if v = Memory.unlisted then rest else (a, v) :: rest)
    else (k, w) :: Memory.write rest a v

/-- The `n` bytes at `a`, lowest address first. -/
def Memory.readBytes (m : Memory) (a : Nat) : Nat → List Byte
  | 0 => []
  | n + 1 => m.read a :: Memory.readBytes m (a + 1) n

/-- Store bytes at `a`, lowest address first. -/
def Memory.writeBytes (m : Memory) (a : Nat) : List Byte → Memory
  | [] => m
  | b :: bs => Memory.writeBytes (m.write a b) (a + 1) bs

/-- Every address of a memory is above a bound, and the canonical form holds. -/
def Memory.wfAbove : Nat → Memory → Bool
  | _, [] => true
  | lo, (k, v) :: rest => decide (lo ≤ k) && v != Memory.unlisted && Memory.wfAbove (k + 1) rest

/-- The canonical form: addresses strictly rising, no entry equal to what an unlisted address reads as. -/
def Memory.wf (m : Memory) : Bool := Memory.wfAbove 0 m

end Sys2Proof.Machine
end

