-- ==== Sys2Proof/Machine/Registers.lean ====
section
/-! DEFINITION. The registers' fields by name (spec/10_state.md R20 to R46) and the register-derived
quantities: sizes of the rings, base addresses, entry addresses, the lock. A register is a whole word;
these are its named places. -/

namespace Sys2Proof.Machine

/-- The bits `lo+n-1:lo` of a register as a number. -/
def fieldOf {w : Nat} (r : BitVec w) (lo n : Nat) : Nat := (r.extractLsb' lo n).toNat

/-- A register with one bit replaced. -/
def withBit (r : Reg) (n : Nat) (b : Bool) : Reg :=
  if b then r ||| (1#64 <<< n) else r &&& ~~~(1#64 <<< n)

/-! ### Capability block -/

/-- `Cap.Header.CapPtr`, bits 15:8 (R21). -/
def State.capPtr (s : State) : Nat := fieldOf s.capHeader 8 8
/-- `Cap.Range.UnitID`, bits 4:0 (R24). -/
def State.unitId (s : State) : Nat := fieldOf s.capRange 0 5
/-- `Cap.Header.NpCache`, bit 26 (R21). -/
def State.npCache (s : State) : Bool := s.capHeader.getLsbD 26
/-- `Cap.Header.HtTunnel`, bit 25 (R21). -/
def State.htTunnel (s : State) : Bool := s.capHeader.getLsbD 25
/-- `Cap.Header.IotlbSup`, bit 24 (R21). -/
def State.iotlbSup (s : State) : Bool := s.capHeader.getLsbD 24
/-- `Cap.BaseLow.Enable`: the capability lock (R22, R26). -/
def State.locked (s : State) : Bool := s.capBaseLow.getLsbD 0
/-- `Cap.Misc.HtAtsResv`, bit 22 (R25). -/
def State.htAtsResv (s : State) : Bool := s.capMisc.getLsbD 22
/-- `Cap.Misc.VAsize`, bits 21:15: the number of virtual address bits (R25). -/
def State.vaSize (s : State) : Nat := fieldOf s.capMisc 15 7
/-- `Cap.Misc.PAsize`, bits 14:8: the number of physical address bits (R25). -/
def State.paSize (s : State) : Nat := fieldOf s.capMisc 8 7
/-- `Cap.Misc.MsiNum`, bits 4:0 (R25). -/
def State.msiNum (s : State) : BitVec 5 := s.capMisc.extractLsb' 0 5
/-- `MmioBase`: the 16K-byte-aligned base of the control registers (R23). -/
def State.mmioBase (s : State) : Nat :=
  s.capBaseHigh.toNat * 2 ^ 32 + fieldOf s.capBaseLow 14 18 * 2 ^ 14

/-! ### Control register (R33) -/

/-- Bit 12, `CmdBufEn` (R34). -/
def State.cmdBufEn (s : State) : Bool := s.control.getLsbD 12
/-- Bit 11, `Isoc` (R35). -/
def State.isoc (s : State) : Bool := s.control.getLsbD 11
/-- Bit 10, `Coherent` (R35). -/
def State.coherent (s : State) : Bool := s.control.getLsbD 10
/-- Bit 9, `ResPassPW` (R35). -/
def State.resPassPW (s : State) : Bool := s.control.getLsbD 9
/-- Bit 8, `PassPW` (R35). -/
def State.passPW (s : State) : Bool := s.control.getLsbD 8
/-- Bits 7:5, `InvTimeOut` (R36). -/
def State.invTimeOut (s : State) : BitVec 3 := s.control.extractLsb' 5 3
/-- Bit 4, `ComWaitIntEn` (R37). -/
def State.comWaitIntEn (s : State) : Bool := s.control.getLsbD 4
/-- Bit 3, `EventIntEn` (R37). -/
def State.eventIntEn (s : State) : Bool := s.control.getLsbD 3
/-- Bit 2, `EventLogEn` (R38). -/
def State.eventLogEn (s : State) : Bool := s.control.getLsbD 2
/-- Bit 1, `HtTunEn` (R39). -/
def State.htTunEn (s : State) : Bool := s.control.getLsbD 1
/-- Bit 0, `IommuEn` (R39). -/
def State.iommuEn (s : State) : Bool := s.control.getLsbD 0

/-! ### Status register (R44) -/

/-- Bit 4, `CmdBufRun`. -/
def State.cmdBufRun (s : State) : Bool := s.status.getLsbD 4
/-- Bit 3, `EventLogRun`. -/
def State.eventLogRun (s : State) : Bool := s.status.getLsbD 3
/-- Bit 2, `ComWaitInt`. -/
def State.comWaitInt (s : State) : Bool := s.status.getLsbD 2
/-- Bit 1, `EventLogInt`. -/
def State.eventLogInt (s : State) : Bool := s.status.getLsbD 1
/-- Bit 0, `EventOverflow`. -/
def State.eventOverflow (s : State) : Bool := s.status.getLsbD 0

/-- `Fetching` (R333). -/
def State.fetching (s : State) : Bool := s.cmdBufEn && s.iommuEn && !s.halted
/-- `Logging` (R428). -/
def State.logging (s : State) : Bool := s.eventLogEn && s.iommuEn && !s.evtHalted
/-- Events are logged: `EventLogRun` is 1 (R421), logging is not halted by an overflow, which `EventLogRun` is
still to show (R428, R431), and the IOMMU is enabled (R434). `EventLogEn` = 0 by itself stops the log only once
`EventLogRun` has fallen. -/
def State.logRuns (s : State) : Bool := s.eventLogRun && !s.evtHalted && s.iommuEn
/-- What the event log is doing when an event is detected (R433, R434, R454). -/
def State.detected (s : State) : Detected :=
  if !s.iommuEn then .disabled else if s.logRuns then .logging else .stopped

/-! ### The rings -/

/-- A ring pointer as an entry index, bits 18:4 (R40 to R43). -/
def pointerIndex (r : Reg) : Nat := fieldOf r 4 15
/-- The pointer register that holds an entry index: a byte offset, 16 per entry (R40). -/
def pointerOf (index : Nat) : Reg := (BitVec.ofNat 15 index).setWidth 64 <<< 4
/-- The number of entries of a ring from its base register: `2^ComLen`, `2^EventLen` (R31, R32). -/
def ringEntries (base : Reg) : Nat := 2 ^ fieldOf base 56 4
/-- The base address of a ring, bits 51:12 of its base register (R31, R32). -/
def ringBase (base : Reg) : Addr := (base.extractLsb' 12 40).setWidth 64 <<< 12
/-- The system physical address of entry `n` of a ring (R331, R429). -/
def ringAddr (base : Reg) (n : Nat) : Addr := ringBase base + BitVec.ofNat 64 (16 * n)

/-- `CmdEntries` (R31). -/
def State.cmdEntries (s : State) : Nat := ringEntries s.cmdBase
/-- `EvtEntries` (R32). -/
def State.evtEntries (s : State) : Nat := ringEntries s.evtBase
/-- `CmdHeadPtr` as an index (R40). -/
def State.headIndex (s : State) : Nat := pointerIndex s.cmdHead
/-- `CmdTailPtr` as an index (R41). -/
def State.tailIndex (s : State) : Nat := pointerIndex s.cmdTail
/-- `EventHeadPtr` as an index (R42). -/
def State.evtHeadIndex (s : State) : Nat := pointerIndex s.evtHead
/-- `EventTailPtr` as an index (R43). -/
def State.evtTailIndex (s : State) : Nat := pointerIndex s.evtTail
/-- The system physical address of the command at the head (R40, R334). -/
def State.headAddr (s : State) : Addr := ringAddr s.cmdBase s.headIndex
/-- Where the next event is written (R429). -/
def State.evtTailAddr (s : State) : Addr := ringAddr s.evtBase s.evtTailIndex

/-- The head pointer after one command: modulo the ring (R335). -/
def State.nextHead (s : State) : Reg := pointerOf ((s.headIndex + 1) % s.cmdEntries)

/-! ### The device table and the exclusion range -/

/-- `DteAddr(dev)` (R223). -/
def State.dteAddr (s : State) (dev : DeviceId) : Addr :=
  (s.devTabBase.extractLsb' 12 40).setWidth 64 <<< 12 + BitVec.ofNat 64 (32 * dev.toNat)
/-- `InTable(dev)` (R223). -/
def State.inTable (s : State) (dev : DeviceId) : Bool :=
  decide (32 * dev.toNat < (fieldOf s.devTabBase 0 9 + 1) * 4096)
/-- `InExclusionRange(a)` (R194). -/
def State.inExclusionRange (s : State) (a : Addr) : Bool :=
  s.exclBase.getLsbD 0 && decide (fieldOf s.exclBase 12 40 * 4096 ≤ a.toNat) &&
    decide (a.toNat ≤ fieldOf s.exclLimit 12 40 * 4096 + 4095)
/-- `Mmio.ExclBase.Allow` (R45). -/
def State.exclAllow (s : State) : Bool := s.exclBase.getLsbD 1

/-! ### Free values -/

/-- The free value of this step at a point. -/
def State.free (s : State) (p : Config.Point) : BitVec 64 := Config.free s.draws p
/-- The free value of this step at a point, as one bit. -/
def State.freeBit (s : State) (p : Config.Point) : Bool := Config.freeBit s.draws p
/-- The next step draws afresh. -/
def State.tick (s : State) : State := { s with draws := s.draws + 1 }

/-- Something is sent or answered. -/
def State.emit (s : State) (o : Output) : State := { s with outputs := s.outputs ++ [o] }

end Sys2Proof.Machine
end

