-- ==== Sys2Proof/Machine/Operands.lean ====
section
/-! DEFINITION. The operand forms: the range a page invalidation names (spec/30_encoding.md R148), the
first-zero-bit size encoding it shares with page table entries (spec/42_page_tables.md R276), ranges and
pages against each other, and the special address ranges (spec/40_transactions.md R180). -/

namespace Sys2Proof.Machine

/-- The least bit position at or above `j`, among the next `fuel` ones, where a word has a 0. -/
def firstZero {w : Nat} (v : BitVec w) (j : Nat) : Nat → Option Nat
  | 0 => none
  | fuel + 1 => if v.getLsbD j then firstZero v (j + 1) fuel else some j

/-- An address with its low `bits` bits cleared. -/
def alignDown (a : Addr) (bits : Nat) : Addr := BitVec.ofNat 64 (a.toNat / 2 ^ bits * 2 ^ bits)

/-- `InvRange(S, Address)` (R148): `none` is the undefined encoding of R153; the whole space is base 0,
64 bits. -/
def invRange (size : Bool) (address : Addr) : Option PageRange :=
  if size then
    match firstZero address 12 52 with
    | none => none
    | some k => some ⟨alignDown address (k + 1), k + 1⟩
  else some ⟨alignDown address 12, 12⟩

/-- Two naturally aligned power-of-two ranges share an address. -/
def rangesMeet (b₁ : Addr) (n₁ : Nat) (b₂ : Addr) (n₂ : Nat) : Bool :=
  decide (b₁.toNat / 2 ^ max n₁ n₂ = b₂.toNat / 2 ^ max n₁ n₂)

/-- An address lies in a range. -/
def PageRange.holds (r : PageRange) (a : Addr) : Bool := rangesMeet r.base r.bits a 0

/-- A page meets a range. -/
def PageRange.meets (r : PageRange) (base : Addr) (bits : Nat) : Bool := rangesMeet r.base r.bits base bits

/-- A span lies wholly inside a range. -/
def PageRange.covers (r : PageRange) (base : Addr) (bits : Nat) : Bool :=
  decide (bits ≤ r.bits) && rangesMeet r.base r.bits base bits

/-- INVALIDATE_IOTLB_PAGES with this Address is undefined: bits 63:32 all ones (R153, U23). -/
def iotlbAddressUndefined (address : Addr) : Bool := decide (address.extractLsb' 32 32 = 0xFFFFFFFF#32)

/-- The special address ranges of spec/20_memory.md R93. -/
inductive SpecialRange where
  | reservedInterrupt
  | interruptEoi
  | legacyPicIack
  | systemManagement
  | reserved1
  | addressTranslation
  | ioSpace
  | configuration
  | extendedConfiguration
  | reserved2
  | ordinary
  deriving DecidableEq, Repr

/-- `RangeOf(a)` (R180): an address with a bit above bit 39 is ordinary (R91). -/
def rangeOf (addr : Addr) : SpecialRange :=
  let a := addr.toNat
  if a < 0xFD00000000 then .ordinary
  else if a < 0xFDF8000000 then .reservedInterrupt
  else if a < 0xFDF9000000 then .interruptEoi
  else if a < 0xFDF9100000 then .legacyPicIack
  else if a < 0xFDF9200000 then .systemManagement
  else if a < 0xFDFB000000 then .reserved1
  else if a < 0xFDFC000000 then .addressTranslation
  else if a < 0xFDFE000000 then .ioSpace
  else if a < 0xFE00000000 then .configuration
  else if a < 0xFE20000000 then .extendedConfiguration
  else if a < 0x10000000000 then .reserved2
  else .ordinary

/-- `Posted(tx)` (R170). -/
def TxKind.posted : TxKind → Bool
  | .writePosted => true
  | _ => false

/-- `Permitted` (R204): what a kind of transaction needs of the cumulative permissions. -/
def TxKind.permitted (ir iw : Bool) : TxKind → Bool
  | .read => ir
  | .writePosted => iw
  | .writeNonPosted => iw
  | .atomic => ir && iw
  | .zeroByteRead => ir || iw
  | _ => true

/-- The `RW` field of an event (R436, R443): 1 for a write, 0 for a read; for an atomic operation the
specification gives no value and the free bit stands. -/
def TxKind.rw (freeBit : Bool) : TxKind → Bool
  | .writePosted => true
  | .writeNonPosted => true
  | .read => false
  | .zeroByteRead => false
  | _ => freeBit

end Sys2Proof.Machine
end

