-- ==== Sys2Proof/Machine/Dte.lean ====
section
/-! DEFINITION. The device table entry: its fields by bit number (spec/41_device_table.md R225 to R246),
the entry a DeviceID beyond the table gets (spec/40_transactions.md R178), and the checks that make an
entry illegal (R247). `lo` is bits 127:0, `hi` bits 255:128; the bit numbers below are those of the half. -/

namespace Sys2Proof.Machine

/-- `V`, bit 0 (R226). -/
def Dte.v (d : Dte) : Bool := d.lo.getLsbD 0
/-- `TV`, bit 1 (R227). -/
def Dte.tv (d : Dte) : Bool := d.lo.getLsbD 1
/-- `Mode`, bits 11:9 (R228). -/
def Dte.mode (d : Dte) : Nat := (d.lo.extractLsb' 9 3).toNat
/-- Page Table Root Pointer, bits 51:12, as an address (R229). -/
def Dte.root (d : Dte) : Addr := (d.lo.extractLsb' 12 40).setWidth 64 <<< 12
/-- `IR`, bit 61 (R230). -/
def Dte.ir (d : Dte) : Bool := d.lo.getLsbD 61
/-- `IW`, bit 62 (R230). -/
def Dte.iw (d : Dte) : Bool := d.lo.getLsbD 62
/-- `DomainID`, bits 79:64 (R232). -/
def Dte.domain (d : Dte) : DomainId := d.lo.extractLsb' 64 16
/-- `I`, bit 96 (R234). -/
def Dte.iotlb (d : Dte) : Bool := d.lo.getLsbD 96
/-- `SE`, bit 97 (R235). -/
def Dte.se (d : Dte) : Bool := d.lo.getLsbD 97
/-- `SA`, bit 98 (R236). -/
def Dte.sa (d : Dte) : Bool := d.lo.getLsbD 98
/-- `IoCtl`, bits 100:99 (R238). -/
def Dte.ioCtl (d : Dte) : BitVec 2 := d.lo.extractLsb' 99 2
/-- `Cache`, bit 101: a hint that changes no result (R237). -/
def Dte.cacheHint (d : Dte) : Bool := d.lo.getLsbD 101
/-- `SD`, bit 102 (R239). -/
def Dte.sd (d : Dte) : Bool := d.lo.getLsbD 102
/-- `EX`, bit 103 (R240). -/
def Dte.ex (d : Dte) : Bool := d.lo.getLsbD 103
/-- `SysMgt`, bits 105:104 (R241). -/
def Dte.sysMgt (d : Dte) : BitVec 2 := d.lo.extractLsb' 104 2

/-- `IV`, bit 128 (R242). -/
def Dte.iv (d : Dte) : Bool := d.hi.getLsbD 0
/-- `IntTabLen`, bits 132:129 (R244). -/
def Dte.intTabLen (d : Dte) : Nat := (d.hi.extractLsb' 1 4).toNat
/-- `IG`, bit 133 (R244). -/
def Dte.ig (d : Dte) : Bool := d.hi.getLsbD 5
/-- Interrupt table root pointer, bits 179:134, holding address bits 51:6 in place (R243, D15). -/
def Dte.irtRoot (d : Dte) : Addr := (d.hi.extractLsb' 6 46).setWidth 64 <<< 6
/-- `InitPass`, bit 184 (R246). -/
def Dte.initPass (d : Dte) : Bool := d.hi.getLsbD 56
/-- `EIntPass`, bit 185 (R246). -/
def Dte.eIntPass (d : Dte) : Bool := d.hi.getLsbD 57
/-- `NMIPass`, bit 186 (R246). -/
def Dte.nmiPass (d : Dte) : Bool := d.hi.getLsbD 58
/-- `IntCtl`, bits 189:188 (R245). -/
def Dte.intCtl (d : Dte) : BitVec 2 := d.hi.extractLsb' 60 2
/-- `Lint0Pass`, bit 190 (R246). -/
def Dte.lint0Pass (d : Dte) : Bool := d.hi.getLsbD 62
/-- `Lint1Pass`, bit 191 (R246). -/
def Dte.lint1Pass (d : Dte) : Bool := d.hi.getLsbD 63

/-- The entry of a DeviceID beyond the end of the table: `V` = 1, `IV` = 1, the rest zero (R178). -/
def Dte.substitute : Dte := ⟨1, 1⟩

/-- The reserved bits of the low half (R247: the masks of `Q1` and `Q0`). -/
def dteLowReserved : BitVec 128 := 0xFFFFFC00FFFF0000_9FF00000000001FC#128
/-- The reserved bits of the high half (R247: all of `Q3`, and the mask of `Q2`). -/
def dteHighReserved : BitVec 128 := 0xFFFFFFFFFFFFFFFF_08F0000000000000#128

/-- `CheckDteLow` (R247), for an entry with `V` = 1: `none` if it is legal, else the event's `RZ`
(spec/60_exceptions.md R436: 0 only for the reserved paging mode; D43). -/
def Dte.checkLow (d : Dte) : Option Bool :=
  if d.lo &&& dteLowReserved ≠ 0 then some true
  else if d.ioCtl = 3 then some true
  else if d.tv && decide (d.mode = 7) then some false
  else none

/-- `CheckDteHigh` (R247), for an entry with `IV` = 1. -/
def Dte.checkHigh (d : Dte) : Option Bool :=
  if d.hi &&& dteHighReserved ≠ 0 then some true
  else if d.intCtl = 3 then some true
  else if decide (d.intCtl = 2) && decide (12 ≤ d.intTabLen) then some true
  else none

end Sys2Proof.Machine
end

