-- ==== Sys2Proof/WellFormed.lean ====
section
/-! DEFINITION. Which instructions an encoding can carry. Every other operand field is as wide as its
bit field (spec/30_encoding.md R143 to R150), so only the two address operands need a check. -/

namespace Sys2Proof

/-- A COMPLETION_WAIT store address is a 52-bit system physical address that is a multiple of 8: the
command carries bits 51:3 only (R143, R145). -/
def wfStoreAddress (a : Addr) : Bool :=
  a.extractLsb' 0 3 == 0 && a.extractLsb' 52 12 == 0

/-- The Address operand of the two page invalidations carries bits 63:12 only (R147, R149). -/
def wfPageAddress (a : Addr) : Bool :=
  a.extractLsb' 0 12 == 0

/-- The instructions that some 128-bit command encodes. -/
def Instr.wellFormed : Instr → Bool
  | .completionWait _ _ _ a _ => wfStoreAddress a
  | .invalidateDevtabEntry _ => true
  | .invalidateIommuPages _ _ _ a => wfPageAddress a
  | .invalidateIotlbPages _ _ _ _ a => wfPageAddress a
  | .invalidateInterruptTable _ => true

end Sys2Proof
end

