-- ==== Sys2Proof/Decode.lean ====
section
/-! DEFINITION. The binary form of the commands: bytes to flat bits, the decoder (spec/30_encoding.md
R155, total, refusing by name), and the encoder. The bit positions and the opcode values are those of
R141 to R150, which the specification itself takes from general knowledge (D2, GK2; log entry 1). -/

namespace Sys2Proof

/-- Little-endian bytes of a number: byte `k` holds bits `8k+7:8k` (spec/20_memory.md R98, R99). -/
def leBytes : Nat → Nat → List Byte
  | 0, _ => []
  | n + 1, v => BitVec.ofNat 8 v :: leBytes n (v / 256)

/-- The number that little-endian bytes spell (R98). -/
def leNat : List Byte → Nat
  | [] => 0
  | b :: bs => b.toNat + 256 * leNat bs

/-- Why a command is refused (R152). Whether INVALIDATE_IOTLB_PAGES is supported is not the
decoder's question but the state's (`Cap.Header.IotlbSup`). -/
inductive DecodeError where
  /-- Fewer than 16 bytes were given. -/
  | truncated
  /-- The opcode is not one of 0001b to 0101b (case (a)). -/
  | unsupportedOpcode
  /-- A reserved bit of the command is 1 (case (c)). -/
  | reservedBits
  deriving DecidableEq, Repr

/-- What decoding answers. -/
inductive Decoded where
  | instr (i : Instr)
  | illegal (e : DecodeError)
  deriving DecidableEq, Repr

/-- The reserved bits of each command (R151); an opcode with no command has no mask. -/
def reservedMask (op : BitVec 4) : Entry :=
  if op = 1 then 0x0FF00000_00000000#128
  else if op = 2 then 0xFFFFFFFF_FFFFFFFF_0FFFFFFF_FFFF0000#128
  else if op = 3 then 0x00000000_00000FFC_0FFF0000_FFFFFFFF#128
  else if op = 4 then 0x00000000_00000FFE_0FFF0000_00FF0000#128
  else if op = 5 then 0xFFFFFFFF_FFFFFFFF_0FFFFFFF_FFFF0000#128
  else 0

/-- The 4-bit opcode, flat bits 63:60 (R141). -/
def opcodeOf (w : Entry) : BitVec 4 := w.extractLsb' 60 4

/-- The full store address of a COMPLETION_WAIT, flat bits 51:3 (R145). -/
def storeAddressOf (w : Entry) : Addr := (w.extractLsb' 3 49).setWidth 64 <<< 3

/-- The full Address operand of a page invalidation, flat bits 127:76 (R147). -/
def pageAddressOf (w : Entry) : Addr := (w.extractLsb' 76 52).setWidth 64 <<< 12

/-- The fields of the command with the given opcode (R143 to R150), reserved bits not looked at. -/
def fieldsOf (op : BitVec 4) (w : Entry) : Option Instr :=
  if op = 1 then
    some (.completionWait (w.getLsbD 0) (w.getLsbD 1) (w.getLsbD 2) (storeAddressOf w) (w.extractLsb' 64 64))
  else if op = 2 then some (.invalidateDevtabEntry (w.extractLsb' 0 16))
  else if op = 3 then
    some (.invalidateIommuPages (w.extractLsb' 32 16) (w.getLsbD 64) (w.getLsbD 65) (pageAddressOf w))
  else if op = 4 then
    some (.invalidateIotlbPages (w.extractLsb' 0 16) (w.extractLsb' 24 8) (w.extractLsb' 32 16) (w.getLsbD 64)
      (pageAddressOf w))
  else if op = 5 then some (.invalidateInterruptTable (w.extractLsb' 0 16))
  else none

/-- Decode one 128-bit command (R155). -/
def decodeEntry (w : Entry) : Decoded :=
  match fieldsOf (opcodeOf w) w with
  | none => .illegal .unsupportedOpcode
  | some i => if w &&& reservedMask (opcodeOf w) = 0 then .instr i else .illegal .reservedBits

/-- Decode a command from its bytes in memory order (R99, R140): the first 16 bytes are read, the rest
left alone. -/
def decode (bytes : List Byte) : Decoded :=
  if bytes.length < 16 then .illegal .truncated
  else decodeEntry (BitVec.ofNat 128 (leNat (bytes.take 16)))

/-- A field placed at a flat bit position. -/
def placed {n : Nat} (v : BitVec n) (lo : Nat) : Entry := v.setWidth 128 <<< lo

/-- One flag placed at a flat bit position. -/
def placedBit (b : Bool) (lo : Nat) : Entry := placed (BitVec.ofBool b) lo

/-- The 128-bit word of an instruction, from the same field tables (R143 to R150). -/
def encodeEntry : Instr → Entry
  | .completionWait s i f a d =>
    placed (1 : BitVec 4) 60 ||| placedBit s 0 ||| placedBit i 1 ||| placedBit f 2 |||
      placed (a.extractLsb' 3 49) 3 ||| placed d 64
  | .invalidateDevtabEntry v => placed (2 : BitVec 4) 60 ||| placed v 0
  | .invalidateIommuPages m s p a =>
    placed (3 : BitVec 4) 60 ||| placed m 32 ||| placedBit s 64 ||| placedBit p 65 |||
      placed (a.extractLsb' 12 52) 76
  | .invalidateIotlbPages v x q s a =>
    placed (4 : BitVec 4) 60 ||| placed v 0 ||| placed x 24 ||| placed q 32 ||| placedBit s 64 |||
      placed (a.extractLsb' 12 52) 76
  | .invalidateInterruptTable v => placed (5 : BitVec 4) 60 ||| placed v 0

/-- The 16 bytes of an instruction in memory order (R140). -/
def encode (i : Instr) : List Byte := leBytes 16 (encodeEntry i).toNat

/-- The bytes of a command given as a number of `nbits` bits, every bit above them zero. -/
def tableBytes (nbits w : Nat) : List Byte := leBytes 16 (w % 2 ^ nbits)

/-- The instruction the decoder reads from an instruction whose bits are `w`, numbered as the opcode
table numbers them: flat bit 0 is the least significant bit of the word at `+00` (R8). -/
def decodeTableWord (nbits w : Nat) : Option Instr :=
  match decode (tableBytes nbits w) with
  | .instr i => some i
  | .illegal _ => none

end Sys2Proof
end

