-- ==== Sys2Proof/Machine/Flags.lean ====
section
/-! DEFINITION. The status register as the machine's flags (spec/10_state.md R44, R47) and the interrupt
that setting one may cause (spec/60_exceptions.md R455 to R459). -/

namespace Sys2Proof.Machine

/-- The three status bits that are interrupt sources (R44). -/
inductive StatusBit where
  | eventOverflow
  | eventLogInt
  | comWaitInt
  deriving DecidableEq, Repr

/-- The bit's place in the register. -/
def StatusBit.place : StatusBit → Nat
  | .eventOverflow => 0
  | .eventLogInt => 1
  | .comWaitInt => 2

/-- `Enabled(b)` (R458). -/
def State.intEnabled (s : State) : StatusBit → Bool
  | .comWaitInt => s.comWaitIntEn
  | .eventLogInt => s.eventIntEn
  | .eventOverflow => s.eventIntEn

/-- None of the three interrupt source bits is set. -/
def noSourceSet (status : Reg) : Bool := decide (status.extractLsb' 0 3 = 0)

/-- `InterruptCheck(b)` (R458): how many messages become due when hardware sets `b` with the status
register as it was just before: one if no source was set, one or none otherwise (D12). -/
def State.interruptsFor (s : State) (b : StatusBit) : Nat :=
  if s.intEnabled b then (if noSourceSet s.status || s.freeBit .interrupt then 1 else 0) else 0

/-- Hardware sets a status bit (R345, R430, R431): the bit is set, then the interrupt is due. -/
def State.raiseFlag (s : State) (b : StatusBit) : State :=
  { s with
    status := withBit s.status b.place true
    intDue := s.intDue + s.interruptsFor b }

/-- The rise of `CmdBufRun` when `Fetching` holds (R333). -/
def riseCmdRun (fetching : Bool) (status : Reg) : Reg := if fetching then withBit status 4 true else status

/-- The rise of `EventLogRun`, with the clearing of `EventOverflow`, when `Logging` becomes true (R428). -/
def riseEvtRun (before after : Bool) (status : Reg) : Reg :=
  if after && !before then withBit (withBit status 3 true) 0 false else status

/-- `CmdBufRun` falls when `Fetching` is false and every fetched command has completed (R333, D24). -/
def State.cmdRunFalls (s : State) : Bool := s.cmdBufRun && !s.fetching && s.fetched.isEmpty

/-- `EventLogRun` falls when `Logging` is false; an entry write is one step, so none is in progress
(R428). -/
def State.evtRunFalls (s : State) : Bool := s.eventLogRun && !s.logging

/-- `CmdBufRun` falls if its condition holds. -/
def State.settleCmdRun (s : State) : State :=
  if s.cmdRunFalls then { s with status := withBit s.status 4 false } else s

/-- `EventLogRun` falls if its condition holds. -/
def State.settleEvtRun (s : State) : State :=
  if s.evtRunFalls then { s with status := withBit s.status 3 false } else s

/-- A due interrupt message is sent, with the number in `MsiNum` and PassPW clear (R455, R456,
spec/20_memory.md R109). -/
def State.sendInterrupt (s : State) : State :=
  if s.intDue = 0 then s
  else { s with intDue := s.intDue - 1, outputs := s.outputs ++ [.interrupt Config.msiX s.msiNum false] }

/-- The level of the IOMMU's INTx interrupt, where that delivers it: asserted while a status bit is set
whose enable is set (R459; PRESUMED from the PCI convention that the specification itself marks GK4, log
entry 12). -/
def State.intxAsserted (s : State) : Bool :=
  (s.comWaitInt && s.comWaitIntEn) || ((s.eventLogInt || s.eventOverflow) && s.eventIntEn)

/-- A software write to the status register clears each of bits 2, 1 and 0 for which the data has a 1
(R44, RW1C). -/
def clearByOnes (status written : Reg) : Reg := status &&& ~~~(written &&& 7)

end Sys2Proof.Machine
end

