-- ==== Sys2Proof/Machine/Ops.lean ====
section
/-! DEFINITION. The shared operations: the accesses the IOMMU itself makes to system memory
(spec/20_memory.md R95, R102 to R109), the events as the exceptions of this machine, raised, reported
and encoded (spec/60_exceptions.md R421 to R452), the halt of command processing
(spec/44_commands.md R338), and the fetch of a command (R334). There is no return from an event (R453):
what software does to go on is a register write (Sys2Proof/Machine/Mmio.lean). -/

namespace Sys2Proof.Machine

/-! ### The platform behind an address -/

/-- A range of `n` bytes at `a` shares an address with the range of `m` bytes at `b`. -/
def overlaps (a n b m : Nat) : Bool := decide (a < b + m) && decide (b < a + n)

/-- The range shares an address with the IOMMU's own register region, 16K bytes at `MmioBase`, while it
is enabled (R27). -/
def State.touchesRegisters (s : State) (a n : Nat) : Bool :=
  s.locked && overlaps a n s.mmioBase 16384

/-- How the first hole that the range shares an address with answers. -/
def holeAnswer (holes : List Hole) (a n : Nat) : Option ReadFailure :=
  (holes.find? fun h => overlaps a n h.base h.size).map (·.answer)

/-- How the platform answers a read by the IOMMU: `none` is success (spec/20_memory.md R94, R95; D18).
An address above the 52-bit space is claimed by no agent. -/
def State.readAnswer (s : State) (a n : Nat) : Option ReadFailure :=
  if 2 ^ 52 < a + n then some .masterAbort
  else if s.touchesRegisters a n then
    some (if Config.ownRegionTargetAborts then .targetAbort else .masterAbort)
  else holeAnswer s.holes a n

/-- The range lies in system memory: a write to it reaches memory. Poisoned memory is memory. -/
def State.isMemory (s : State) (a n : Nat) : Bool :=
  decide (a + n ≤ 2 ^ 52) && !s.touchesRegisters a n &&
    (s.holes.all fun h => !(overlaps a n h.base h.size) || decide (h.answer = .dataError))

/-- Bytes reach memory itself and are what every reader sees. -/
def State.store (s : State) (a : Nat) (data : List Byte) : State :=
  { s with mem := s.mem.writeBytes a data, dram := s.dram.writeBytes a data }

/-! ### Attributes of the IOMMU's accesses (spec/20_memory.md R106, R107, R109) -/

/-- `DevTabAttrs`: device table reads. -/
def State.devTabAttrs (s : State) : Attrs := ⟨s.coherent, s.isoc, some s.passPW, some s.resPassPW⟩
/-- `PageTabAttrs(dte)` (R290): page table reads, snooped unless `SD` = 1. -/
def State.pageTabAttrs (s : State) (sd : Bool) : Attrs := ⟨!sd, s.isoc, some s.passPW, some s.resPassPW⟩
/-- `IrtAttrs` (R311): interrupt remapping table reads are always coherent. -/
def State.irtAttrs (s : State) : Attrs := ⟨true, s.isoc, none, none⟩
/-- Command buffer reads and event log writes: coherent, normal channel (R334, R429). -/
def ringAttrs : Attrs := ⟨true, false, none, none⟩
/-- The store of a COMPLETION_WAIT: coherent, normal channel, PassPW clear (R344). -/
def waitStoreAttrs : Attrs := ⟨true, false, some false, none⟩

/-! ### Reads -/

/-- The failure drawn for an address wider than `PAsize` (U31): an error whose type is not stated. -/
def drawnFailure (v : BitVec 64) : ReadFailure :=
  if v.getLsbD 1 then .targetAbort else if v.getLsbD 2 then .dataError else .masterAbort

/-- Where an access of the IOMMU at `a` goes: an address with a bit at or above `PAsize` either loses its
upper bits or the access fails (spec/20_memory.md R90, R92; U31, log entry 20). -/
def State.tableTarget (s : State) (a : Nat) : Except ReadFailure Nat :=
  if a < 2 ^ s.paSize then .ok a
  else if s.freeBit .widePhysical then .ok (a % 2 ^ s.paSize)
  else .error (drawnFailure (s.free .widePhysical))

/-- `MemRead(a, n, attrs)`: the bytes, or how the read failed (R108: coherent reads see the latest
write, the others what memory itself holds). A read is issued and answered in one step, so that no register and no
byte changes between the two, but for the second half of a device table entry read in one access; spec/10_state.md R58
has reads issued whose response has not arrived (DESIGN CHOICE, log entry 43). -/
def State.tableRead (s : State) (a : Addr) (n : Nat) (coherent : Bool) : Except ReadFailure (List Byte) :=
  match s.tableTarget a.toNat with
  | .error f => .error f
  | .ok t =>
    match s.readAnswer t n with
    | some f => .error f
    | none => .ok ((if coherent then s.mem else s.dram).readBytes t n)

/-- The address an access of the IOMMU carries: what is left of it within `PAsize` bits (R90, R92); the
pointer itself stands for an access that fails for its width. -/
def State.onLink (s : State) (a : Addr) : Addr :=
  match s.tableTarget a.toNat with
  | .ok t => BitVec.ofNat 64 t
  | .error _ => a

/-- A read of the IOMMU leaves a trace of the access it made. -/
def State.sawRead (s : State) (a : Addr) (n : Nat) (attrs : Attrs) : State := s.emit (.ownRead (s.onLink a) n attrs)

/-- The little-endian number of `w` bits that bytes spell (R98). -/
def wordOf (w : Nat) (bytes : List Byte) : BitVec w := BitVec.ofNat w (leNat bytes)

/-! ### Writes -/

/-- `MemWrite`: the IOMMU writes system memory, at no more than `PAsize` address bits (R90, R92). Where no
memory is, or the access fails for its width (U31), nothing happens and no event is raised: the
specification names none for a write (N45, N50). -/
def State.ownWrite (s : State) (a : Addr) (data : List Byte) (attrs : Attrs) : State :=
  (match s.tableTarget a.toNat with
    | .ok t => if s.isMemory t data.length then s.store t data else s
    | .error _ => s).emit (.ownWrite (s.onLink a) data attrs)

/-! ### Event log entries (spec/60_exceptions.md R422) -/

/-- `code(f)` (R439). -/
def ReadFailure.code : ReadFailure → BitVec 2
  | .masterAbort => 1
  | .targetAbort => 2
  | .dataError => 3

/-- The event code (R423). -/
def Event.code : Event → BitVec 4
  | .illegalDevTableEntry .. => 1
  | .ioPageFault .. => 2
  | .devTabHardwareError .. => 3
  | .pageTabHardwareError .. => 4
  | .illegalCommandError .. => 5
  | .commandHardwareError .. => 6
  | .iotlbInvTimeout .. => 7
  | .invalidDeviceRequest .. => 8

/-- An address field that carries bits 63:4 of a system physical address. -/
def addressField4 (a : Addr) : Entry := placed (a.extractLsb' 4 60) 68

/-- The fields of the entry below its code. -/
def Event.fields : Event → Entry
  | .illegalDevTableEntry d tr rz rw i a =>
    placed d 0 ||| placedBit tr 56 ||| placedBit rz 55 ||| placedBit rw 53 ||| placedBit i 51 |||
      placed (a.extractLsb' 2 62) 66
  | .ioPageFault d tr rz pe rw pr i m a =>
    placed d 0 ||| placedBit tr 56 ||| placedBit rz 55 ||| placedBit pe 54 ||| placedBit rw 53 |||
      placedBit pr 52 ||| placedBit i 51 ||| placed m 32 ||| placed a 64
  | .devTabHardwareError d t tr rw i a =>
    placed d 0 ||| placed t 57 ||| placedBit tr 56 ||| placedBit rw 53 ||| placedBit i 51 ||| addressField4 a
  | .pageTabHardwareError d t tr rw i m a =>
    placed d 0 ||| placed t 57 ||| placedBit tr 56 ||| placedBit rw 53 ||| placedBit i 51 ||| placed m 32 |||
      addressField4 a
  | .illegalCommandError a => addressField4 a
  | .commandHardwareError t a => placed t 57 ||| addressField4 a
  | .iotlbInvTimeout d t a => placed d 0 ||| placed t 57 ||| addressField4 a
  | .invalidDeviceRequest d t tr a => placed d 0 ||| placed t 57 ||| placedBit tr 56 ||| placed a 64

/-- The 128-bit log entry of an event (R435 to R451). -/
def Event.entry (e : Event) : Entry := placed e.code 60 ||| e.fields

/-- The 16 bytes of a log entry (R99, R422). -/
def Event.bytes (e : Event) : List Byte := leBytes 16 e.entry.toNat

/-! ### Raising and reporting -/

/-- `raise`: a detected event waits to be reported, marked with what the log was doing (R421, R59). -/
def State.raise (s : State) (e : Event) : State :=
  { s with pendingEvents := s.pendingEvents ++ [⟨e, none, s.detected⟩] }

/-- `raise` under a condition that suppresses the event (R426). -/
def State.raiseUnless (s : State) (suppressed : Bool) (e : Event) : State :=
  if suppressed then s else s.raise e

/-- `raise` of a page fault of a device whose entry has `SE` = 1: the first-fault state decides when
the event is reported (R445). -/
def State.raiseFirst (s : State) (dev : DeviceId) (e : Event) : State :=
  { s with pendingEvents := s.pendingEvents ++ [⟨e, some dev, s.detected⟩] }

/-- `Full` (R432): all slots but one are used. -/
def State.logFull (s : State) : Bool := decide ((s.evtTailIndex + 1) % s.evtEntries = s.evtHeadIndex)

/-- The cache lookup shared by all caches: the entry at the place that the choice names, if it is one that `fits`. Which
of the fitting entries hits, or that none does, is the implementation's (`P.Caches`, spec/20_memory.md R124). -/
def pick {α : Type} (cache : List α) (place : Option Nat) (fits : α → Bool) : Option α :=
  (place.bind fun p => cache[p]?).filter fits

/-- The device table cache holds an entry, or a half of one, for the device. -/
def State.dteCached (s : State) (dev : DeviceId) : Bool := s.dteCache.any fun e => decide (e.dev = dev)

/-- The device's first fault has been logged already, which the bit of its cached entry says (R445,
spec/10_state.md R55: without a cached entry every fault is logged). -/
def State.firstFaultSeen (s : State) : Option DeviceId → Bool
  | none => false
  | some d => s.dteCached d && s.faultLogged.contains d

/-- The first fault of a device with `SE` = 1 has been written to the log: the bit of its cached entry is set,
if there is one (R445, spec/10_state.md R55). -/
def State.noteFirstFault (s : State) : Option DeviceId → State
  | none => s
  | some d => if s.dteCached d then { s with faultLogged := d :: s.faultLogged } else s

/-- The overflow (R431): the event is lost, `EventOverflow` is set, logging halts. -/
def State.overflowLog (s : State) : State := { s.raiseFlag .eventOverflow with evtHalted := true }

/-- The tail pointer after one entry: modulo the ring (R430). -/
def State.nextEvtTail (s : State) : Reg := pointerOf ((s.evtTailIndex + 1) % s.evtEntries)

/-- An entry is written, then the tail pointer moves, then `EventLogInt` is set and the interrupt is
checked (R421, R429, R430, R116). -/
def State.logEntry (s : State) (p : PendingEvent) : State :=
  ({ s.ownWrite s.evtTailAddr p.event.bytes ringAttrs with evtTail := s.nextEvtTail }.raiseFlag .eventLogInt).noteFirstFault
    p.seDevice

/-- An event is discarded because events are not logged: hardware sets `EventOverflow` or not, as the
implementation does (R434, C22). Where it does, the interrupt check of every bit that hardware sets follows
(spec/10_state.md R44, R458), which the line of R421 leaves out (DEDUCED, log entry 13). -/
def State.discardEvent (s : State) : State := if Config.overflowWhenDisabled then s.raiseFlag .eventOverflow else s

/-- `Report(e)` (R421): taking the exception. The static parts of `Suppressed(e)` were decided when
the event was raised; the first-fault state is looked at here. While `EventLogRun` = 1 an event is also
discarded where logging is halted by an overflow that software has cleared (R431), and where the IOMMU has been
disabled since (R434). An event detected while events were not logged is lost even if they are logged again by
now (R433, R454). -/
def State.report (s : State) (p : PendingEvent) : State :=
  if p.detected = .disabled then s
  else if s.firstFaultSeen p.seDevice then s
  else if !s.eventLogRun then s.discardEvent
  else if s.eventOverflow then s
  else if !s.logRuns then s.discardEvent
  else if p.detected ≠ .logging then s
  else if s.logFull then s.overflowLog
  else s.logEntry p

/-! ### The command ring -/

/-- The IOMMU may fetch: `Fetching` holds, `CmdBufRun` shows it, and the ring is not empty (R334). -/
def State.canFetch (s : State) : Bool := s.fetching && s.cmdBufRun && decide (s.cmdHead ≠ s.cmdTail)

/-- `Halt` (R338): no further fetch; the head pointer freezes at the entry in error or after it (D16). -/
def State.halt (s : State) : State :=
  { s with halted := true, cmdHead := if s.freeBit .frozenHead then s.nextHead else s.cmdHead }

/-- ILLEGAL_COMMAND_ERROR for the entry at the head (R447, R338). -/
def State.illegalCommand (s : State) : State := (s.raise (.illegalCommandError s.headAddr)).halt

/-- COMMAND_HARDWARE_ERROR for the entry at the head (R448, R338). -/
def State.commandError (s : State) (f : ReadFailure) : State :=
  (s.raise (.commandHardwareError f.code s.headAddr)).halt

/-- A read-ahead copy of a command buffer entry (R337). -/
def State.prefetchedAt (s : State) (index : Nat) : Option Entry :=
  (s.prefetched.find? fun p => decide (p.index = index)).map (·.entry)

/-- Read-ahead copies are used once. -/
def State.dropPrefetched (s : State) (index : Nat) : State :=
  { s with prefetched := s.prefetched.filter fun p => decide (p.index ≠ index) }

/-- What the fetch of the entry at the head gives (R334): the entry and the state after the access, or
how the read failed. The access is of one entry, 16 bytes; the specification states no width of it
(spec/20_memory.md R102; DESIGN CHOICE, log entry 34). -/
def State.fetchEntry (s : State) : Except ReadFailure (State × Entry) :=
  match s.prefetchedAt s.headIndex with
  | some e => .ok (s.dropPrefetched s.headIndex, e)
  | none =>
    match s.tableRead s.headAddr 16 true with
    | .error f => .error f
    | .ok bytes => .ok (s.sawRead s.headAddr 16 ringAttrs, wordOf 128 bytes)

end Sys2Proof.Machine
end

