-- ==== Sys2Proof/Machine/Ordering.lean ====
section
/-! DEFINITION. The shared operations of the commands: how a fetched command enters the set of fetched
commands (spec/44_commands.md R335, R336), what holds it back (R343, R360, R361), and when one that has
taken effect is complete (R362 to R367). -/

namespace Sys2Proof.Machine

/-- What an attempt to begin a command answers. -/
inductive Started where
  /-- An older command holds it back; it has had no effect. -/
  | wait
  /-- The specification gives no effect for these operands in this state. -/
  | refuse (r : Refusal)
  /-- It has taken effect; what it still waits for, or nothing if it has completed. -/
  | took (s : State) (rest : Option Phase)

/-- The head pointer moves past the command (R335). -/
def State.advanceHead (s : State) : State := { s with cmdHead := s.nextHead }

/-- A command joins the fetched commands, younger than all already there (R336). -/
def State.enqueue (s : State) (c : Command) : State := { s with fetched := s.fetched ++ [c] }

/-- A command just fetched takes its place according to what its beginning answered. -/
def Started.place (i : Instr) (addr : Addr) (s : State) : Started → Result
  | .wait => .next (s.enqueue ⟨i, addr, .waiting⟩)
  | .refuse r => .refused r
  | .took t none => .next t
  | .took t (some p) => .next (t.enqueue ⟨i, addr, p⟩)

/-! ### What holds a command back -/

/-- The command is a COMPLETION_WAIT with `f` = 1. -/
def Instr.isFence : Instr → Bool
  | .completionWait _ _ f _ _ => f
  | _ => false

/-- The command is INVALIDATE_DEVTAB_ENTRY. -/
def Instr.isDevtab : Instr → Bool
  | .invalidateDevtabEntry _ => true
  | _ => false

/-- The command is INVALIDATE_IOMMU_PAGES. -/
def Instr.isPages : Instr → Bool
  | .invalidateIommuPages .. => true
  | _ => false

/-- The command has had no effect yet. -/
def Command.pending (c : Command) : Bool := decide (c.phase = .waiting)

/-- An older COMPLETION_WAIT with `f` = 1 has not finished (R343). -/
def fenced (older : List Command) : Bool := older.any fun c => Instr.isFence c.instr

/-- An older INVALIDATE_DEVTAB_ENTRY has not taken effect (R360). -/
def devtabPending (older : List Command) : Bool := older.any fun c => Instr.isDevtab c.instr && c.pending

/-- An older INVALIDATE_IOMMU_PAGES has not taken effect (R361). -/
def pagesPending (older : List Command) : Bool := older.any fun c => Instr.isPages c.instr && c.pending

/-- The event was caused by a command (R363): a time-out or one of the two command errors. -/
def Event.ofCommand : Event → Bool
  | .iotlbInvTimeout .. => true
  | .illegalCommandError .. => true
  | .commandHardwareError .. => true
  | _ => false

/-- An event caused by a command is still to be logged: its log entry is ordered ahead of a COMPLETION_WAIT
store (R363, R344). That the wait is for the events of every command, and not of older ones only, is log
entry 9. -/
def State.commandEventPending (s : State) : Bool :=
  s.pendingEvents.any fun p => p.event.ofCommand && decide (p.detected = .logging)

/-! ### When an invalidation is complete -/

/-- The transaction is an interrupt message (spec/43_interrupt_remapping.md R301). -/
def Transaction.isInterrupt (tx : Transaction) : Bool :=
  decide (rangeOf tx.addr = .interruptEoi) && decide (tx.kind = .writePosted)

/-- The transactions, accepted or forwarded, that an invalidation waits for, by number (R363, R365,
R367). -/
def State.matching (s : State) (f : InFlight → Bool) (g : Forwarded → Bool) : List Nat :=
  (s.inFlight.filter f).map (·.id) ++ (s.upReads.filter g).map (·.id) ++ (s.upWrites.filter g).map (·.id)

/-- A transaction with this number is still accepted or forwarded and not finished. -/
def State.busy (s : State) (id : Nat) : Bool :=
  (s.inFlight.any fun t => decide (t.id = id)) || (s.upReads.any fun t => decide (t.id = id)) ||
    (s.upWrites.any fun t => decide (t.id = id))

/-- Every transaction of a list has finished. -/
def State.drained (s : State) (ids : List Nat) : Bool := ids.all fun id => !s.busy id

/-- What an invalidation that has taken effect still waits for. -/
def restOf (ids : List Nat) : Option Phase := if ids.isEmpty then none else some (.draining ids)

/-- The processing has read something it relies on. -/
def InFlight.hasRead (t : InFlight) : Bool := decide (t.phase ≠ .needDte)

/-- The range holds an address a transaction may be translated at: its own, or what is left of it within
`VAsize` bits (U30). -/
def State.mayHold (s : State) (r : PageRange) (a : Addr) : Bool :=
  r.holds a || r.holds (BitVec.ofNat 64 (a.toNat % 2 ^ s.vaSize))

/-- The processing translates under the domain for an address of the range: it walks its tables, or it has
read the low half of an entry of the domain and is going to (R367). A translation request for several pages counts
by the address of its first page alone: how the later pages are looked up, and so whether an invalidation of one of
them matches it, is not described (spec/40_transactions.md R209, N44; DESIGN CHOICE, log entry 10). -/
def State.translatesIn (s : State) (domain : DomainId) (r : PageRange) (t : InFlight) : Bool :=
  match t.phase with
  | .walking dte w => decide (dte.domain = domain) && r.holds w.dva
  | .haveLow lo _ => decide ((Dte.mk lo 0).domain = domain) && s.mayHold r t.tx.addr
  | _ => false

/-- The transaction was forwarded with a translation that a page invalidation removes: one of the domain
whose page meets the range, wherever in the page its own address lies (R363, R365, R350). -/
def Forwarded.usedIn (f : Forwarded) (domain : DomainId) (r : PageRange) : Bool :=
  match f.used with
  | none => false
  | some p => decide (p.domain = domain) && r.meets p.base p.bits

/-- What INVALIDATE_DEVTAB_ENTRY matches: every transaction of the device (R367). -/
def State.matchDevice (s : State) (dev : DeviceId) : List Nat :=
  s.matching (fun t => decide (t.tx.dev = dev) && t.hasRead) (fun t => decide (t.orig.dev = dev))

/-- What INVALIDATE_IOMMU_PAGES matches: transactions being translated under the domain for an address of
the range, and forwarded ones that used a translation it removes. -/
def State.matchDomain (s : State) (domain : DomainId) (r : PageRange) : List Nat :=
  s.matching (s.translatesIn domain r) (fun t => t.usedIn domain r)

/-- What INVALIDATE_IOTLB_PAGES matches: the device's transactions to the range, and its pre-translated
ones, whose device virtual address the IOMMU does not know and which rely on the device's own translation before
the IOMMU has read anything for them (spec/20_memory.md R112). A translation request for several pages counts by its
first page (N44; DESIGN CHOICE, log entry 10). -/
def State.matchIotlb (s : State) (dev : DeviceId) (r : PageRange) : List Nat :=
  s.matching (fun t => decide (t.tx.dev = dev) && (t.tx.preTranslated || r.holds t.tx.addr && t.hasRead))
    (fun t => decide (t.orig.dev = dev) && (t.orig.preTranslated || r.holds t.orig.addr))

/-- What INVALIDATE_INTERRUPT_TABLE matches: the device's interrupts. -/
def State.matchInterrupt (s : State) (dev : DeviceId) : List Nat :=
  s.matching (fun t => decide (t.tx.dev = dev) && t.tx.isInterrupt && t.hasRead)
    (fun t => decide (t.orig.dev = dev) && t.orig.isInterrupt)

end Sys2Proof.Machine
end

