-- ==== Sys2Proof/Machine/CompletionWait.lean ====
section
/-! DEFINITION. COMPLETION_WAIT (spec/44_commands.md R342 to R346). -/

namespace Sys2Proof.Machine

/-- The store of `s` = 1: 8 bytes, little-endian (R344, spec/30_encoding.md R145). -/
def State.waitStore (s : State) (store : Bool) (a : Addr) (d : BitVec 64) : State :=
  if store then s.ownWrite a (leBytes 8 d.toNat) waitStoreAttrs else s

/-- The flag of `i` = 1, after the store (R345). -/
def State.waitFlag (s : State) (int : Bool) : State := if int then s.raiseFlag .comWaitInt else s

/-- The store is refused: its address lies outside system memory (R344, U33). An address wider than
`PAsize` is looked at as the access that is then made (U31). -/
def State.storeRefused (s : State) (a : Addr) : Bool :=
  match s.tableTarget a.toNat with
  | .ok t => !s.isMemory t 8
  | .error _ => false

/-- COMPLETION_WAIT begins when every older command has completed and their events are in the log, and
finishes at once (R342). The fence bit acts on younger commands only (R343). -/
def startCompletionWait (older : List Command) (store int : Bool) (a : Addr) (d : BitVec 64) (s : State) : Started :=
  if !older.isEmpty || s.commandEventPending then .wait
  else if store && s.storeRefused a then .refuse .storeOutsideMemory
  else .took ((s.waitStore store a d).waitFlag int) none

/-- The meaning of COMPLETION_WAIT. -/
def execCompletionWait (store int fence : Bool) (a : Addr) (d : BitVec 64) (s : State) : Result :=
  (startCompletionWait s.fetched store int a d s.advanceHead).place (.completionWait store int fence a d) s.headAddr
    s.advanceHead

end Sys2Proof.Machine
end

