-- ==== Sys2Proof/Machine/Invalidate.lean ====
section
/-! DEFINITION. The four invalidation commands (spec/44_commands.md R347 to R359). Each takes effect in
one step (R351) and is complete when the transactions it matches have finished (R362). -/

namespace Sys2Proof.Machine

/-! ### INVALIDATE_DEVTAB_ENTRY -/

/-- Half of the device's entry has been read, the other has not. -/
def InFlight.halfRead (dev : DeviceId) (t : InFlight) : Bool :=
  decide (t.tx.dev = dev) &&
    match t.phase with
    | .haveLow _ _ => true
    | .haveHigh _ _ => true
    | _ => false

/-- A transaction of the device whose entry is half read caches nothing of the entry from now on: the half it
has, and one that an access issued before delivers, may be older than the invalidation (R362,
spec/20_memory.md R112). -/
def InFlight.spoilDte (dev : DeviceId) (t : InFlight) : InFlight :=
  if t.halfRead dev then { t with staleDte := true } else t

/-- The cached device table entry, both halves, and the first-fault state go, and lookups under way fill in no
older ones (R347, R445, R362). -/
def State.forgetDte (s : State) (dev : DeviceId) : State :=
  { s with
    dteCache := s.dteCache.filter fun e => decide (e.dev ≠ dev)
    faultLogged := s.faultLogged.filter fun d => decide (d ≠ dev)
    inFlight := s.inFlight.map (InFlight.spoilDte dev) }

/-- INVALIDATE_DEVTAB_ENTRY begins unless it is fenced off (R347). -/
def startInvalidateDevtabEntry (older : List Command) (dev : DeviceId) (s : State) : Started :=
  if fenced older then .wait else .took (s.forgetDte dev) (restOf (s.matchDevice dev))

/-- The meaning of INVALIDATE_DEVTAB_ENTRY. -/
def execInvalidateDevtabEntry (dev : DeviceId) (s : State) : Result :=
  (startInvalidateDevtabEntry s.fetched dev s.advanceHead).place (.invalidateDevtabEntry dev) s.headAddr s.advanceHead

/-! ### INVALIDATE_IOMMU_PAGES -/

/-- The entry is one the command must remove: of the domain and in the range; for the undefined range
there is none (R350, U22). -/
def inPages (domain : DomainId) (r : Option PageRange) (inside : PageRange → Bool) (m : DomainId) : Bool :=
  decide (m = domain) &&
    match r with
    | none => false
    | some r => inside r

/-- The cached translations the command leaves: it must remove those of the domain that meet the range,
and may remove more (R350, R352). -/
def State.keepsTlb (s : State) (domain : DomainId) (r : Option PageRange) (e : TlbEntry) : Bool :=
  !(inPages domain r (fun r => r.meets e.base e.bits) e.domain) &&
    !(Config.removesBeyond s.draws false e.domain e.base e.bits)

/-- The cached directory entries the command leaves: with `PDE` = 1 it must remove those of the domain
whose span the range covers, and it may remove more (R350, R352). The span is the full `2^(9L+3)` bytes that an entry
of level `L` maps (`descendWalk`), also where its Next Level skips levels and the pages it can reach lie in the lowest
part of them alone: R350 says only "span" and "all of the pages in a page directory entry", so that a range over just
that part need not remove it here (DESIGN CHOICE, log entry 18). -/
def State.keepsPdc (s : State) (domain : DomainId) (pde : Bool) (r : Option PageRange) (e : PdcEntry) : Bool :=
  !(pde && inPages domain r (fun r => r.covers e.base e.bits) e.domain) &&
    !(Config.removesBeyond s.draws true e.domain e.base e.bits)

/-- The processing relies on the low half of a device table entry of the domain: it walks its tables or is
going to. Where an INVALIDATE_DEVTAB_ENTRY has overtaken a lookup whose low half is still to come, that half may be
an old one, of any domain (R362). -/
def InFlight.underDomain (domain : DomainId) (t : InFlight) : Bool :=
  match t.phase with
  | .walking dte _ => decide (dte.domain = domain)
  | .haveLow lo _ => decide ((Dte.mk lo 0).domain = domain)
  | .haveHigh _ _ => t.staleDte
  | _ => false

/-- A transaction under the domain whose entry or walk is half read caches nothing from now on: what it
relies on may be older than the invalidation (R362, R367, spec/20_memory.md R112, R122). -/
def InFlight.spoil (domain : DomainId) (t : InFlight) : InFlight :=
  if t.underDomain domain then { t with stale := true } else t

/-- The processing relies on the high half of the device's entry: it is going to look up, or looks up, an
interrupt remapping table. Where an INVALIDATE_DEVTAB_ENTRY has overtaken a lookup whose high half is still to
come, that half may be an old one (R362). -/
def InFlight.remapsFor (dev : DeviceId) (t : InFlight) : Bool :=
  decide (t.tx.dev = dev) &&
    match t.phase with
    | .haveLow _ _ => t.staleDte
    | .haveHigh _ _ => true
    | .readIrte _ _ => true
    | _ => false

/-- An interrupt of the device whose entry has been read caches nothing from now on (R359, R362). -/
def InFlight.spoilIrt (dev : DeviceId) (t : InFlight) : InFlight :=
  if t.remapsFor dev then { t with stale := true } else t

/-- The removal, one atomic operation (R351). -/
def State.forgetPages (s : State) (domain : DomainId) (pde : Bool) (r : Option PageRange) : State :=
  { s with
    tlb := s.tlb.filter (s.keepsTlb domain r)
    pdc := s.pdc.filter (s.keepsPdc domain pde r)
    inFlight := s.inFlight.map (InFlight.spoil domain) }

/-- The transactions the command waits for; for the undefined range none (U22). -/
def State.matchPages (s : State) (domain : DomainId) : Option PageRange → List Nat
  | none => []
  | some r => s.matchDomain domain r

/-- INVALIDATE_IOMMU_PAGES begins unless it is fenced off or an older INVALIDATE_DEVTAB_ENTRY has not
taken effect (R350, R360). -/
def startInvalidateIommuPages (older : List Command) (domain : DomainId) (size pde : Bool) (address : Addr)
    (s : State) : Started :=
  if fenced older || devtabPending older then .wait
  else .took (s.forgetPages domain pde (invRange size address))
    (restOf (s.matchPages domain (invRange size address)))

/-- The meaning of INVALIDATE_IOMMU_PAGES. -/
def execInvalidateIommuPages (domain : DomainId) (size pde : Bool) (address : Addr) (s : State) : Result :=
  (startInvalidateIommuPages s.fetched domain size pde address s.advanceHead).place
    (.invalidateIommuPages domain size pde address) s.headAddr s.advanceHead

/-! ### INVALIDATE_IOTLB_PAGES -/

/-- How many invalidation requests are outstanding for a queue (R357). -/
def State.pendingFor (s : State) (queue : BitVec 16) : Nat := s.outstanding.countP fun r => decide (r.queue = queue)

/-- The request goes downstream and its timer starts, with the period as it now stands (R355, R463,
R490). -/
def State.sendIotlb (s : State) (dev : DeviceId) (queue : BitVec 16) (addr : Addr) (r : PageRange) : State :=
  { s with
    outstanding := s.outstanding ++ [⟨s.nextId, dev, queue, addr, r, s.invTimeOut⟩]
    nextId := s.nextId + 1
    outputs := s.outputs ++ [.iotlbRequest dev queue r] }

/-- INVALIDATE_IOTLB_PAGES sends its request unless it is fenced off, an older invalidation of the
IOMMU's own caches has not taken effect (R361), or `Maxpend` requests are outstanding for its queue
(R357, U32). The undefined operand is refused (U23). -/
def startInvalidateIotlbPages (older : List Command) (dev : DeviceId) (maxpend : BitVec 8) (queue : BitVec 16)
    (size : Bool) (address : Addr) (addr : Addr) (s : State) : Started :=
  if iotlbAddressUndefined address then .refuse .undefinedIotlbAddress
  else
    match invRange size address with
    | none => .refuse .undefinedIotlbAddress
    | some r =>
      if fenced older || devtabPending older || pagesPending older || decide (maxpend.toNat ≤ s.pendingFor queue) then .wait
      else .took (s.sendIotlb dev queue addr r) (some (.requested s.nextId))

/-- The meaning of INVALIDATE_IOTLB_PAGES: an illegal command where `IotlbSup` = 0 (R356). -/
def execInvalidateIotlbPages (dev : DeviceId) (maxpend : BitVec 8) (queue : BitVec 16) (size : Bool) (address : Addr)
    (s : State) : Result :=
  if !s.iotlbSup then .next s.illegalCommand
  else
    (startInvalidateIotlbPages s.fetched dev maxpend queue size address s.headAddr s.advanceHead).place
      (.invalidateIotlbPages dev maxpend queue size address) s.headAddr s.advanceHead

/-! ### INVALIDATE_INTERRUPT_TABLE -/

/-- The cached interrupt remapping table entries of the device go, and interrupts under way fill in no
older ones (R359). -/
def State.forgetIrt (s : State) (dev : DeviceId) : State :=
  { s with
    irtCache := s.irtCache.filter fun e => decide (e.dev ≠ dev)
    inFlight := s.inFlight.map (InFlight.spoilIrt dev) }

/-- INVALIDATE_INTERRUPT_TABLE begins unless it is fenced off or an older INVALIDATE_DEVTAB_ENTRY has
not taken effect (R359, R360). -/
def startInvalidateInterruptTable (older : List Command) (dev : DeviceId) (s : State) : Started :=
  if fenced older || devtabPending older then .wait
  else .took (s.forgetIrt dev) (restOf (s.matchInterrupt dev))

/-- The meaning of INVALIDATE_INTERRUPT_TABLE. -/
def execInvalidateInterruptTable (dev : DeviceId) (s : State) : Result :=
  (startInvalidateInterruptTable s.fetched dev s.advanceHead).place (.invalidateInterruptTable dev) s.headAddr
    s.advanceHead

end Sys2Proof.Machine
end

