-- ==== Sys2Proof/Machine/Commands.lean ====
section
/-! DEFINITION. The command processor: fetching and validating (spec/44_commands.md R334), fetched
commands going on (R336), and the end of an IOTLB invalidation request by its answer or its time-out
(R355, R358). -/

namespace Sys2Proof.Machine

/-- Fetch and validate the entry at the head; what is then done with a legal command is the argument
(R334, R338). -/
def State.fetchThen (s : State) (run : Instr → State → Result) : Result :=
  match s.fetchEntry with
  | .error f => .next ((s.sawRead s.headAddr 16 ringAttrs).commandError f)
  | .ok (t, e) =>
    match decodeEntry e with
    | .illegal _ => .next t.illegalCommand
    | .instr i => run i t

/-- A legal command is fetched and not begun (R336): INVALIDATE_IOTLB_PAGES is legal only where
`IotlbSup` = 1 (R152). -/
def holdCommand (i : Instr) (s : State) : Result :=
  match i with
  | .invalidateIotlbPages .. =>
    if s.iotlbSup then .next (s.advanceHead.enqueue ⟨i, s.headAddr, .waiting⟩) else .next s.illegalCommand
  | _ => .next (s.advanceHead.enqueue ⟨i, s.headAddr, .waiting⟩)

/-- A waiting command tries to begin. -/
def Command.start (c : Command) (older : List Command) (s : State) : Started :=
  match c.instr with
  | .completionWait store int _ a d => startCompletionWait older store int a d s
  | .invalidateDevtabEntry dev => startInvalidateDevtabEntry older dev s
  | .invalidateIommuPages domain size pde address => startInvalidateIommuPages older domain size pde address s
  | .invalidateIotlbPages dev maxpend queue size address =>
    startInvalidateIotlbPages older dev maxpend queue size address c.addr s
  | .invalidateInterruptTable dev => startInvalidateInterruptTable older dev s

/-- The command at place `k` has completed. -/
def State.completeAt (s : State) (k : Nat) : State := { s with fetched := s.fetched.eraseIdx k }

/-- The command at place `k` has got further. -/
def State.setPhase (s : State) (k : Nat) (c : Command) (p : Phase) : State :=
  { s with fetched := s.fetched.set k { c with phase := p } }

/-- What the beginning of the command at place `k` leads to. -/
def Started.settle (k : Nat) (c : Command) (s : State) : Started → Result
  | .wait => .next s
  | .refuse r => .refused r
  | .took t none => .next (t.completeAt k)
  | .took t (some p) => .next (t.setPhase k c p)

/-- The fetched command at place `k` goes on, if it can. -/
def State.runCommand (s : State) (k : Nat) : Result :=
  match s.fetched[k]? with
  | none => .next s
  | some c =>
    match c.phase with
    | .waiting => (c.start (s.fetched.take k) s).settle k c s
    | .requested _ => .next s
    | .draining ids => if s.drained ids then .next (s.completeAt k) else .next s

/-- The fetched command at place `k` can go on. -/
def State.ready (s : State) (k : Nat) : Bool :=
  match s.fetched[k]? with
  | none => false
  | some c =>
    match c.phase with
    | .waiting =>
      match c.start (s.fetched.take k) s with
      | .wait => false
      | _ => true
    | .requested _ => false
    | .draining ids => s.drained ids

/-- The oldest fetched command that can go on. -/
def State.firstReady (s : State) : Option Nat := (List.range s.fetched.length).find? s.ready

/-- A command whose request has been answered waits for the transactions it matches. -/
def Command.answered (id : Nat) (ids : List Nat) (c : Command) : Command :=
  if c.phase = .requested id then { c with phase := .draining ids } else c

/-- A request has been answered and is no longer outstanding (R355). -/
def State.endRequest (s : State) (k : Nat) (r : IotlbRequest) : State :=
  { s with
    outstanding := s.outstanding.eraseIdx k
    fetched := s.fetched.map (Command.answered r.id (s.matchIotlb r.dev r.range)) }

/-- The device answers the request at place `k`; an answer that no request waits for is ignored (U34). -/
def State.deviceAnswers (s : State) (k : Nat) : State :=
  match s.outstanding[k]? with
  | none => s
  | some r => s.endRequest k r

/-- The command waits for the answer to this request. -/
def Command.waitsFor (id : Nat) (c : Command) : Bool := decide (c.phase = .requested id)

/-- A request has expired: it is no longer outstanding, and its command has completed at once (R355, R358,
D42, spec/60_exceptions.md R463). -/
def State.expireRequest (s : State) (k : Nat) (r : IotlbRequest) : State :=
  { s with
    outstanding := s.outstanding.eraseIdx k
    fetched := s.fetched.filter fun c => !(c.waitsFor r.id) }

/-- The timer of the request at place `k` expires: possible unless its period is "no time-out"
(R463, U21). -/
def State.timeout (s : State) (k : Nat) : State :=
  match s.outstanding[k]? with
  | none => s
  | some r =>
    if r.period = 0 then s
    else
      (s.expireRequest k r).raise (.iotlbInvTimeout r.dev ((s.free .timeoutType).extractLsb' 0 2) r.addr)

/-- The IOMMU reads a command buffer entry ahead: only one that lies between head and tail, and each at
most once (R337), by an access of 16 bytes. That several commands are read in one access, which spec/20_memory.md
R102 lets an implementation do, is not modelled (DESIGN CHOICE, log entry 34). -/
def State.prefetch (s : State) (ahead : Nat) : State :=
  let n := s.cmdEntries
  let index := (s.headIndex + ahead) % n
  if s.canFetch && decide (ahead < (s.tailIndex + n - s.headIndex) % n) && (s.prefetchedAt index).isNone then
    match s.tableRead (ringAddr s.cmdBase index) 16 true with
    | .error _ => s
    | .ok bytes =>
      { s.sawRead (ringAddr s.cmdBase index) 16 ringAttrs with
        prefetched := s.prefetched ++ [⟨index, wordOf 128 bytes⟩] }
  else s

end Sys2Proof.Machine
end

