-- ==== Sys2Proof/Machine/Dispatch.lean ====
section
/-! DEFINITION. The meaning of each command, one arm per constructor (spec/30_encoding.md R142). -/

namespace Sys2Proof.Machine

/-- One command, just fetched and found legal at the head of the ring. -/
def exec (i : Instr) (s : State) : Host.Outcome State Fault Refusal :=
  match i with
  | .completionWait store int fence a d => Sys2Proof.Machine.execCompletionWait store int fence a d s
  | .invalidateDevtabEntry dev => Sys2Proof.Machine.execInvalidateDevtabEntry dev s
  | .invalidateIommuPages domain size pde address => Sys2Proof.Machine.execInvalidateIommuPages domain size pde address s
  | .invalidateIotlbPages dev maxpend queue size address => Sys2Proof.Machine.execInvalidateIotlbPages dev maxpend queue size address s
  | .invalidateInterruptTable dev => Sys2Proof.Machine.execInvalidateInterruptTable dev s

end Sys2Proof.Machine
end

