-- ==== Sys2Proof/Machine/Mmio.lean ====
section
/-! DEFINITION. Host software's accesses: the control registers (spec/10_state.md R27 to R46), the
capability block (R21 to R26), and system memory. A write acts on the bytes it covers, when it arrives
(R28, D29); the undefined writes of spec/93_implementation_defined.md are refused. -/

namespace Sys2Proof.Machine

/-! ### Byte lanes -/

/-- A register access may have this size and offset (R28): 1, 2, 4 or 8 bytes, aligned. -/
def accessAllowed (offset len : Nat) : Bool := [1, 2, 4, 8].contains len && decide (offset % len = 0)

/-- The bits that `len` bytes at byte `lane` of a register cover. -/
def laneMask (w lane len : Nat) : BitVec w := (BitVec.ofNat w (2 ^ (8 * len) - 1)) <<< (8 * lane)

/-- The bytes written, in their place in the register. -/
def laneData (w lane : Nat) (data : List Byte) : BitVec w := BitVec.ofNat w (leNat data) <<< (8 * lane)

/-- A register after a write of some of its bytes: the writable bits among them take the data, every
other bit stays (R28, R29). -/
def merge {w : Nat} (old rw : BitVec w) (lane : Nat) (data : List Byte) : BitVec w :=
  (old &&& ~~~(laneMask w lane data.length &&& rw)) ||| (laneData w lane data &&& (laneMask w lane data.length &&& rw))

/-- The bytes of a register that a read covers. -/
def laneBytes {w : Nat} (r : BitVec w) (lane len : Nat) : List Byte := leBytes len (r >>> (8 * lane)).toNat

/-! ### The control registers by offset (R20) -/

/-- The registers of the memory-mapped region. -/
inductive MmioReg where
  | devTabBase
  | cmdBase
  | evtBase
  | control
  | exclBase
  | exclLimit
  | cmdHead
  | cmdTail
  | evtHead
  | evtTail
  | status
  deriving DecidableEq, Repr

/-- The register at an 8-byte aligned offset; elsewhere there is none (R20). -/
def mmioRegAt (offset : Nat) : Option MmioReg :=
  if offset = 0x0000 then some .devTabBase
  else if offset = 0x0008 then some .cmdBase
  else if offset = 0x0010 then some .evtBase
  else if offset = 0x0018 then some .control
  else if offset = 0x0020 then some .exclBase
  else if offset = 0x0028 then some .exclLimit
  else if offset = 0x2000 then some .cmdHead
  else if offset = 0x2008 then some .cmdTail
  else if offset = 0x2010 then some .evtHead
  else if offset = 0x2018 then some .evtTail
  else if offset = 0x2020 then some .status
  else none

/-- The bits of a register that a write can change: the rest is reserved or read-only (R29 to R46). -/
def MmioReg.writable : MmioReg → Reg
  | .devTabBase => 0x000FFFFFFFFFF1FF
  | .cmdBase => 0x0F0FFFFFFFFFF000
  | .evtBase => 0x0F0FFFFFFFFFF000
  | .control => 0x1FFF
  | .exclBase => 0x000FFFFFFFFFF003
  | .exclLimit => 0x000FFFFFFFFFF000
  | .cmdHead => 0x7FFF0
  | .cmdTail => 0x7FFF0
  | .evtHead => 0x7FFF0
  | .evtTail => 0x7FFF0
  | .status => 0x7

/-- What a register reads as. -/
def State.mmioReg (s : State) : MmioReg → Reg
  | .devTabBase => s.devTabBase
  | .cmdBase => s.cmdBase
  | .evtBase => s.evtBase
  | .control => s.control
  | .exclBase => s.exclBase
  | .exclLimit => s.exclLimit
  | .cmdHead => s.cmdHead
  | .cmdTail => s.cmdTail
  | .evtHead => s.evtHead
  | .evtTail => s.evtTail
  | .status => s.status

/-! ### Writes with effects -/

/-- The bit of a control word is turned on by a write. -/
def risesIn (old new : Reg) (n : Nat) : Bool := new.getLsbD n && !old.getLsbD n

/-- The interrupts that turning an enable on over a set status bit may send (R458). -/
def State.enableInterrupts (s : State) (new : Reg) : Nat :=
  let f := s.free .enableInterrupt
  (if risesIn s.control new 4 && s.comWaitInt && f.getLsbD 0 then 1 else 0) +
    (if risesIn s.control new 3 && s.eventLogInt && f.getLsbD 1 then 1 else 0) +
    (if risesIn s.control new 3 && s.eventOverflow && f.getLsbD 2 then 1 else 0)

/-- A write that covers the bits `mask` and leaves a register at `new` has written this bit 0. -/
def writesZero (mask new : Reg) (n : Nat) : Bool := mask.getLsbD n && !new.getLsbD n

/-- A write that covers the bits `mask` leaves the control register at `new` (R33 to R39): `CmdBufEn` written 0
clears `Halted` (spec/44_commands.md R339) and `EventLogEn` written 0 `EvtHalted` (spec/60_exceptions.md R428), each
only by a write that covers the bit; while `CmdBufEn` is 0 nothing stays read ahead (log entry 34); `CmdBufRun` and
`EventLogRun` rise (R333, R428), interrupts may be sent (R458). -/
def State.writeControl (s : State) (mask new : Reg) : State :=
  let t := { s with
    control := new
    halted := s.halted && !writesZero mask new 12
    prefetched := if new.getLsbD 12 then s.prefetched else []
    evtHalted := s.evtHalted && !writesZero mask new 2
    intDue := s.intDue + s.enableInterrupts new }
  { t with status := riseEvtRun s.logging t.logging (riseCmdRun t.fetching s.status) }

/-- A write of the command buffer base register (R31): both its pointers go to 0. A write while `CmdBufRun` = 1,
which R340 and spec/70_reset_and_hazards.md R496 tell software not to make and no U entry names, is taken like
any other (DESIGN CHOICE, log entry 15). -/
def State.writeCmdBase (s : State) (new : Reg) : Result :=
  if fieldOf new 56 4 < 8 then .refused .reservedLength
  else .next { s with cmdBase := new, cmdHead := 0, cmdTail := 0, prefetched := [] }

/-- A write of the event log base register (R32): both its pointers go to 0, whichever of its bytes it covers
(D29). Where it covers a bit of EventLen or EventBase, `fields`, it is undefined while `EventLogRun` = 1 (U10). -/
def State.writeEvtBase (s : State) (fields : Bool) (new : Reg) : Result :=
  if fields && s.eventLogRun then .refused .eventBaseWhileRunning
  else if fieldOf new 56 4 < 8 then .refused .reservedLength
  else .next { s with evtBase := new, evtHead := 0, evtTail := 0 }

/-- A write of the command head pointer (R40; U11, U12). -/
def State.writeCmdHead (s : State) (new : Reg) : Result :=
  if s.cmdBufRun then .refused .commandHeadWhileRunning
  else if s.cmdEntries ≤ pointerIndex new then .refused .commandHeadOutside
  else .next { s with cmdHead := new, prefetched := [] }

/-- The number of ring entries from one index up to another. -/
def ringDistance (n b e : Nat) : Nat := (e + n - b) % n

/-- A write of the command tail pointer (R41, R332; U13, U14): while commands may be fetched, the
entries added must leave one slot unused. Where software moves the tail back over entries while CmdBufRun = 0, the
read-ahead copies of those entries stay as long as CmdBufEn stays 1 (IommuEn = 0 has stopped the ring), and may be
executed once the tail is past them again: of such copies no rule speaks (spec/20_memory.md R121; DESIGN CHOICE, log entry 34). -/
def State.writeCmdTail (s : State) (new : Reg) : Result :=
  let n := s.cmdEntries
  if n ≤ pointerIndex new then .refused .commandTailOutside
  else if s.cmdBufRun && decide (n ≤ ringDistance n s.headIndex s.tailIndex + ringDistance n s.tailIndex (pointerIndex new))
  then .refused .commandTailPastHead
  else .next { s with cmdTail := new }

/-- A write of the event head pointer (R42; U15, U16): while events are logged, not beyond the tail. -/
def State.writeEvtHead (s : State) (new : Reg) : Result :=
  let n := s.evtEntries
  if n ≤ pointerIndex new then .refused .eventHeadOutside
  else if s.eventLogRun &&
      decide (ringDistance n s.evtHeadIndex s.evtTailIndex < ringDistance n s.evtHeadIndex (pointerIndex new))
  then .refused .eventHeadPastTail
  else .next { s with evtHead := new }

/-- A write of the event tail pointer (R43; U17, U18). -/
def State.writeEvtTail (s : State) (new : Reg) : Result :=
  if s.eventLogRun then .refused .eventTailWhileRunning
  else if s.evtEntries ≤ pointerIndex new then .refused .eventTailOutside
  else .next { s with evtTail := new }

/-- Some bytes of a register hold a bit that a write can change. -/
def MmioReg.coversWritable (r : MmioReg) (lane len : Nat) : Bool := decide (laneMask 64 lane len &&& r.writable ≠ 0)

/-- A write of some bytes of a control register. -/
def State.writeMmioReg (s : State) (r : MmioReg) (lane : Nat) (data : List Byte) : Result :=
  let new := merge (s.mmioReg r) r.writable lane data
  match r with
  | .devTabBase => .next { s with devTabBase := new }
  | .cmdBase => s.writeCmdBase new
  | .evtBase => s.writeEvtBase (r.coversWritable lane data.length) new
  | .control => .next (s.writeControl (laneMask 64 lane data.length) new)
  | .exclBase => .next { s with exclBase := new }
  | .exclLimit => .next { s with exclLimit := new }
  | .cmdHead => s.writeCmdHead new
  | .cmdTail => s.writeCmdTail new
  | .evtHead => s.writeEvtHead new
  | .evtTail => s.writeEvtTail new
  | .status => .next { s with status := clearByOnes s.status (laneData 64 lane data) }

/-- A write at an offset of the register region; what no register answers is ignored (R27). -/
def State.writeMmio (s : State) (offset : Nat) (data : List Byte) : Result :=
  if !accessAllowed offset data.length then .refused .registerAccessSize
  else
    match mmioRegAt (offset - offset % 8) with
    | some r => s.writeMmioReg r (offset % 8) data
    | none => .next s

/-- A read at an offset of the register region; what no register answers reads as zeros (R27). -/
def State.readMmio (s : State) (offset len : Nat) : Result :=
  if !accessAllowed offset len then .refused .registerAccessSize
  else
    match mmioRegAt (offset - offset % 8) with
    | some r => .next (s.emit (.cpuData (laneBytes (s.mmioReg r) (offset % 8) len)))
    | none => .next (s.emit (.cpuData (List.replicate len 0)))

/-! ### Processor accesses -/

/-- A processor writes: to the control registers while `Enable` = 1 (R22, R26), else to memory. A
cached write is seen by coherent readers and not by memory itself (spec/20_memory.md R108). -/
def State.cpuWrite (s : State) (a : Addr) (data : List Byte) (cached : Bool) : Result :=
  if s.touchesRegisters a.toNat data.length then
    (if a.toNat < s.mmioBase then .refused .registerAccessSize else s.writeMmio (a.toNat - s.mmioBase) data)
  else if 2 ^ 52 < a.toNat + data.length then .fault .addressOutsideSpace
  else if !s.isMemory a.toNat data.length then .refused .foreignWindow
  else if cached then .next { s with mem := s.mem.writeBytes a.toNat data }
  else .next (s.store a.toNat data)

/-- A processor reads: a control register or memory. -/
def State.cpuRead (s : State) (a : Addr) (len : Nat) : Result :=
  if s.touchesRegisters a.toNat len then
    (if a.toNat < s.mmioBase then .refused .registerAccessSize else s.readMmio (a.toNat - s.mmioBase) len)
  else if 2 ^ 52 < a.toNat + len then .fault .addressOutsideSpace
  else if !s.isMemory a.toNat len then .refused .foreignWindow
  else .next (s.emit (.cpuData (s.mem.readBytes a.toNat len)))

/-- Processor caches write a range back: memory itself takes what coherent readers see. -/
def State.writeBack (s : State) (a : Addr) (len : Nat) : Result :=
  if 2 ^ 52 < a.toNat + len then .fault .addressOutsideSpace
  else if !s.isMemory a.toNat len then .refused .foreignWindow
  else .next { s with dram := s.dram.writeBytes a.toNat (s.mem.readBytes a.toNat len) }

/-! ### The capability block (R21 to R26) -/

/-- The writable bits of the Base Address Low Register: the address, unless it is fixed, and `Enable`,
which a write can only set (R22). -/
def baseLowWritable (data : CapReg) : CapReg :=
  (if Config.baseAddrRO then 0 else 0xFFFFC000) ||| (data &&& 1)

/-- The writable bits of the Miscellaneous Information Register: `HtAtsResv`, which may be read-only if ATS is
not supported, that is where `IotlbSup` = 0 (R25). -/
def State.capMiscWritable (s : State) : CapReg := if !s.iotlbSup && Config.htAtsResvRO then 0 else 0x00400000

/-- The bits of a field of the Range Register (R24). -/
def rangeBits : Config.RangeField → CapReg
  | .lastDevice => 0xFF000000
  | .firstDevice => 0x00FF0000
  | .busNumber => 0x0000FF00
  | .rngValid => 0x00000080
  | .unitId => 0x0000001F

/-- The writable bits of the Range Register: those of every field that the implementation has not made read-only
(R24). -/
def rangeWritable : CapReg :=
  [.lastDevice, .firstDevice, .busNumber, .rngValid, .unitId].foldl
    (fun m f => if Config.rangeRO f then m else m ||| rangeBits f) 0

/-- A configuration write of some bytes of the capability block (R21 to R26): while the lock is open the
writable fields take the data, `Enable` with the address it arrives with (D28). -/
def State.writeCap (s : State) (offset : Nat) (data : List Byte) : State :=
  let lane := offset % 4
  if s.locked then s
  else if offset / 4 = 1 then
    { s with capBaseLow := merge s.capBaseLow (baseLowWritable (laneData 32 lane data)) lane data }
  else if offset / 4 = 2 then
    { s with capBaseHigh := merge s.capBaseHigh (if Config.baseAddrRO then 0 else 0xFFFFFFFF) lane data }
  else if offset / 4 = 3 then
    { s with capRange := merge s.capRange rangeWritable lane data }
  else if offset / 4 = 4 then
    { s with capMisc := merge s.capMisc s.capMiscWritable lane data }
  else s

/-- What a register of the capability block reads as. -/
def State.capReg (s : State) (offset : Nat) : CapReg :=
  if offset / 4 = 0 then s.capHeader
  else if offset / 4 = 1 then s.capBaseLow
  else if offset / 4 = 2 then s.capBaseHigh
  else if offset / 4 = 3 then s.capRange
  else s.capMisc

/-- A configuration access of 1, 2 or 4 bytes, aligned. No rule limits the accesses to the capability block: R28 lets
"IOMMU registers" be accessed with up to 64 bits and goes on to speak of the control registers alone. The limit to 4
bytes is PCI's (DESIGN CHOICE, log entry 15). -/
def cfgAllowed (offset len : Nat) : Bool := [1, 2, 4].contains len && decide (offset % len = 0)

/-- A configuration write at an offset of the capability block. -/
def State.cfgWrite (s : State) (offset : Nat) (data : List Byte) : Result :=
  if !cfgAllowed offset data.length then .refused .registerAccessSize
  else if 20 ≤ offset then .refused .configOutsideBlock
  else .next (s.writeCap offset data)

/-- A configuration read at an offset of the capability block. -/
def State.cfgRead (s : State) (offset len : Nat) : Result :=
  if !cfgAllowed offset len then .refused .registerAccessSize
  else if 20 ≤ offset then .refused .configOutsideBlock
  else .next (s.emit (.cpuData (laneBytes (s.capReg offset) (offset % 4) len)))

/-- The PCI class of the function: System Base Peripheral 08h, subclass IOMMU 06h, programming interface 00h
(R20, spec/00_scope.md R1); hard-wired. -/
def pciClassCode : BitVec 24 := 0x080600

/-- A configuration read of the class code. Where it lies in the configuration header is PCI's; its bytes come
lowest first, the programming interface before the subclass and the class (log entry 30). -/
def State.classRead (s : State) : State := s.emit (.cpuData (leBytes 3 pciClassCode.toNat))

/-! ### Reset -/

/-- System reset at any time (spec/70_reset_and_hazards.md R481, R483): registers and hidden state as
after reset; memory, the platform, the implementation's own values and what the environment does next
stay. What has been forwarded upstream and has not reached the host bridge, or is not yet answered, is dropped with
the rest of the work in progress: R483 does not say that it is (DESIGN CHOICE, log entry 32). Where the base address is
read-only (`P.BaseAddrRO`) it is fixed at 0, the reset value of R22 and R23:
at which value such hardware fixes it no rule says (DESIGN CHOICE, log entry 4). -/
def State.systemReset (s : State) : State :=
  { State.reset with
    capHeader := s.capHeader
    capRange := s.rangeStrap
    capMisc := s.capMisc &&& ~~~(0x00400000#32)
    rangeStrap := s.rangeStrap
    mem := s.mem
    dram := s.dram
    holes := s.holes
    agenda := s.agenda
    outputs := s.outputs
    draws := s.draws
    nextId := s.nextId }

end Sys2Proof.Machine
end

