-- ==== Sys2Proof/Machine/Interrupts.lean ====
section
/-! DEFINITION. Interrupt messages of devices: the classes of Table 9 (spec/43_interrupt_remapping.md
R304 to R308), the interrupt remapping table and its entries (R310 to R313), and the remapped message
(R314). -/

namespace Sys2Proof.Machine

/-- The class of an interrupt message (R304). -/
inductive IntClass where
  | remappable
  | smi
  /-- Governed by one pass bit of the entry, given here as it stands. -/
  | passControlled (pass : Bool)
  | aborted
  deriving DecidableEq, Repr

/-- `Class(mt, dm)` (R304, R305): the type selects the class only in physical mode (D7). -/
def intClass (d : Dte) (m : Config.IntMsg) : IntClass :=
  if m.dm then .remappable
  else if m.mt = 0 then .remappable
  else if m.mt = 1 then .remappable
  else if m.mt = 2 then .smi
  else if m.mt = 3 then .passControlled d.nmiPass
  else if m.mt = 4 then .passControlled d.initPass
  else if m.mt = 6 then .passControlled d.eIntPass
  else if m.mt = 11 then .passControlled d.lint1Pass
  else if m.mt = 14 then .passControlled d.lint0Pass
  else .aborted

/-! ### Table entries (R312) -/

/-- `RemapEn`, bit 0. -/
def irteRemapEn (e : BitVec 32) : Bool := e.getLsbD 0
/-- `SupIOPF`, bit 1. -/
def irteSupIopf (e : BitVec 32) : Bool := e.getLsbD 1
/-- `IntType`, bits 4:2. -/
def irteIntType (e : BitVec 32) : BitVec 3 := e.extractLsb' 2 3
/-- A reserved bit is set: 31:24 and 7 (R310, R315 (c)). -/
def irteReserved (e : BitVec 32) : Bool := decide (e &&& 0xFF000080#32 ≠ 0)

/-- The outcome of the three tests on an entry (R310): `none` remaps, else the event's `PR` and `RZ`
(R315). -/
def irteFault (e : BitVec 32) : Option (Bool × Bool) :=
  if !irteRemapEn e then some (false, false)
  else if irteReserved e then some (true, true)
  else if (irteIntType e).ult 2 then none
  else some (true, false)

/-- `NewAddr(tx, irte)` (R314): the entry's bits 23:2 under the range base; bits 1:0 as received (D41). -/
def remappedAddr (addr : Addr) (e : BitVec 32) : Addr :=
  ((0x000000FDF8000000#64 ||| (e &&& 0x00FFFFFC#32).setWidth 64) &&& ~~~3#64) ||| (addr &&& 3#64)

/-- The address of the entry (R310); a root pointer with bit 6 set is used as it stands or without the
bit (U27). -/
def State.irteAddr (s : State) (d : Dte) (offset : Nat) : Addr :=
  (if d.irtRoot.getLsbD 6 && s.freeBit .irtBit6 then d.irtRoot &&& ~~~(64#64) else d.irtRoot) +
    BitVec.ofNat 64 (4 * offset)

/-- The cached entry at a place of the cache, if it is one of the device and offset (spec/10_state.md R54). -/
def State.hitIrte (s : State) (place : Option Nat) (dev : DeviceId) (offset : Nat) : Option (BitVec 32) :=
  (pick s.irtCache place fun e => decide (e.dev = dev) && decide (e.offset = offset)).map (·.entry)

/-- An entry is cached. -/
def State.fillIrte (s : State) (dev : DeviceId) (offset : Nat) (e : BitVec 32) : State :=
  { s with irtCache := ⟨dev, offset, e⟩ :: s.irtCache }

end Sys2Proof.Machine
end

