-- ==== Sys2Proof/Machine/Walker.lean ====
section
/-! DEFINITION. The I/O page tables and the walker: entry formats (spec/42_page_tables.md R271 to R273),
levels and page sizes (R274, R276), one level of the walk (R280), and the caches a walk may use
(R291, spec/10_state.md R53). Positions and order of tests are R280's. -/

namespace Sys2Proof.Machine

/-! ### Entry formats -/

/-- The present bit, bit 0 (R271). -/
def ptePresent (e : BitVec 64) : Bool := e.getLsbD 0
/-- `Next Level`, bits 11:9 (R272, R273). -/
def pteNext (e : BitVec 64) : Nat := (e.extractLsb' 9 3).toNat
/-- `IR`, bit 61. -/
def pteIr (e : BitVec 64) : Bool := e.getLsbD 61
/-- `IW`, bit 62. -/
def pteIw (e : BitVec 64) : Bool := e.getLsbD 62
/-- `FC`, bit 60 of a translation entry (R277). -/
def pteFc (e : BitVec 64) : Bool := e.getLsbD 60
/-- `U`, bit 59 of a translation entry (R278). -/
def pteU (e : BitVec 64) : Bool := e.getLsbD 59
/-- Bits 51:12 as an address. -/
def pteAddr (e : BitVec 64) : Addr := (e.extractLsb' 12 40).setWidth 64 <<< 12
/-- The entry is a page translation entry: `Next Level` 0 or 7 (R270). -/
def pteIsPage (e : BitVec 64) : Bool := decide (pteNext e = 0) || decide (pteNext e = 7)
/-- A reserved bit is set: 58:52 of a translation entry, 60:52 of a directory entry (R285). -/
def pteReserved (e : BitVec 64) : Bool :=
  if pteIsPage e then decide (e.extractLsb' 52 7 ≠ 0) else decide (e.extractLsb' 52 9 ≠ 0)

/-! ### Levels -/

/-- The lowest address bit that indexes a table of a level, the binary log of its default page size
(R274): `VABITS(L)`. -/
def levelLow (level : Nat) : Nat := 9 * level + 3
/-- The lowest address bit above those that index a table of a level (R280). -/
def levelTop (level : Nat) : Nat := min (9 * level + 12) 64
/-- The index of an address into a table of a level (R274). -/
def levelIndex (level : Nat) (dva : Addr) : Nat := dva.toNat % 2 ^ levelTop level / 2 ^ levelLow level
/-- The address bits from `upper` down to the level's own are not all zero (R284). -/
def skippedBits (dva : Addr) (upper level : Nat) : Bool := decide (dva.toNat % 2 ^ upper / 2 ^ levelTop level ≠ 0)
/-- The address of the entry (R282). -/
def entryAddr (table : Addr) (level : Nat) (dva : Addr) : Addr := table + BitVec.ofNat 64 (8 * levelIndex level dva)

/-- A physical base with the low bits of a device virtual address (R281): `{addr[63:n], dva[n-1:0]}`. -/
def joinPage (base : Addr) (bits : Nat) (dva : Addr) : Addr :=
  BitVec.ofNat 64 (base.toNat / 2 ^ bits * 2 ^ bits + dva.toNat % 2 ^ bits)

/-- What one entry gives at a level (R280): a translation entry's page, a fault with the event's `PR` and
`RZ`, or the next table. -/
inductive Entered where
  | page (base : Addr) (bits : Nat)
  | fault (pr rz : Bool)
  | next (table : Addr) (level : Nat)
  deriving DecidableEq, Repr

/-- A translation entry with `Next Level` 111b (R276, R287, D26). -/
def enterSized (e : BitVec 64) (level : Nat) : Entered :=
  match firstZero e 12 40 with
  | none => .fault true false
  | some k =>
    if levelLow (level + 1) ≤ k + 1 ∨ k + 1 ≤ levelLow level then .fault true false
    else .page (alignDown (pteAddr e) (k + 1)) (k + 1)

/-- A translation entry with `Next Level` 000b (R288): aligned to the level's page size; in a level-6
table the drawn bit decides between a fault and a page at physical address 0 (D20). -/
def enterDefault (e : BitVec 64) (level : Nat) (level6 : Bool) : Entered :=
  if level = 6 ∧ level6 = false then .fault true false
  else if (pteAddr e).toNat % 2 ^ levelLow level ≠ 0 then .fault true false
  else .page (pteAddr e) (levelLow level)

/-- The tests on one entry, in order (R280, R283, R285 to R288). -/
def enterPte (e : BitVec 64) (level : Nat) (level6 : Bool) : Entered :=
  if !ptePresent e then .fault false false
  else if pteReserved e then .fault true true
  else if pteNext e = 7 then enterSized e level
  else if pteNext e = 0 then enterDefault e level level6
  else if level ≤ pteNext e then .fault true false
  else .next (pteAddr e) (pteNext e)

/-- The entry's permissions count: the present and reserved-bit tests have been passed (R292). -/
def pteCounts (e : BitVec 64) : Bool := ptePresent e && !pteReserved e

/-! ### One level of the walk -/

/-- The read permission accumulated, the device table entry's included (R280). -/
def Walk.cumIr (w : Walk) : Bool := w.ir && w.dteIr
/-- The write permission accumulated, the device table entry's included. -/
def Walk.cumIw (w : Walk) : Bool := w.iw && w.dteIw

/-- The walk with one entry's permissions counted (R281, R292). -/
def Walk.count (w : Walk) (e : BitVec 64) : Walk :=
  if pteCounts e then { w with ir := w.ir && pteIr e, iw := w.iw && pteIw e } else w

/-- The start of a walk (R280). -/
def Walk.start (dte : Dte) (dva : Addr) : Walk where
  dva := dva
  table := dte.root
  level := dte.mode
  upper := 64
  ir := true
  iw := true
  dteIr := dte.ir
  dteIw := dte.iw
  fresh := true

/-- The walk continues in the table a directory entry names. -/
def Walk.descend (w : Walk) (table : Addr) (level : Nat) : Walk :=
  { w with table := table, upper := levelLow w.level, level := level, fresh := false }

/-- A device virtual address as the walk sees it: `none` where it is treated as unmapped, its upper
bits dropped where they are ignored (U30). -/
def State.seenVirtual (s : State) (a : Addr) : Option Addr :=
  if a.toNat < 2 ^ s.vaSize then some a
  else if s.freeBit .wideVirtual then some (BitVec.ofNat 64 (a.toNat % 2 ^ s.vaSize))
  else none

/-! ### The caches -/

/-- The translation cache entry at a place, if it is of the domain and holds the address (tagged by domain,
spec/10_state.md R53). -/
def State.hitTlb (s : State) (place : Option Nat) (domain : DomainId) (dva : Addr) : Option TlbEntry :=
  pick s.tlb place fun e => decide (e.domain = domain) && rangesMeet e.base e.bits dva 0

/-- The directory cache entry at a place, if it is of the domain and spans the address. -/
def State.hitPdc (s : State) (place : Option Nat) (domain : DomainId) (dva : Addr) : Option PdcEntry :=
  pick s.pdc place fun e => decide (e.domain = domain) && rangesMeet e.base e.bits dva 0

/-- The walk after a directory cache hit: as if the entries had been read when they were cached (R291). -/
def Walk.resume (w : Walk) (p : PdcEntry) (fillerPerms : Bool) : Walk :=
  { w with
    table := p.table
    level := p.level
    upper := p.bits
    ir := p.ir
    iw := p.iw
    dteIr := if fillerPerms then p.dteIr else w.dteIr
    dteIw := if fillerPerms then p.dteIw else w.dteIw
    fresh := false }

/-- The image of memory that a read of the device table sees as `Coherent` now stands (spec/20_memory.md R107,
R108). That U26 and the duties of software are judged by this image, and not by the other, is the model's choice
(DESIGN CHOICE, log entry 21). -/
def State.devTabMemory (s : State) : Memory := if s.coherent then s.mem else s.dram

/-- The entry of a device as it stands in the device table in memory now. Where `DevTabBase` has bits at or above
`PAsize`, so that a lookup loses them or fails (U31), it is looked for here at the uncut address; and an entry counts
whether or not the platform answers a read of it. Of neither does R233 speak (DESIGN CHOICE, log entry 21). -/
def State.dteInMemory (s : State) (dev : DeviceId) : Dte :=
  ⟨wordOf 128 (s.devTabMemory.readBytes (s.dteAddr dev).toNat 16),
    wordOf 128 (s.devTabMemory.readBytes ((s.dteAddr dev).toNat + 16) 16)⟩

/-- The device table entry that begins at a listed byte of memory, if that is where an entry begins: at the uncut
`DevTabBase`, and in ranges that no read answers too (DESIGN CHOICE, log entry 21). -/
def State.entryAt (s : State) (c : Host.Cell) : Option Dte :=
  let base := (s.dteAddr 0).toNat
  let size := (fieldOf s.devTabBase 0 9 + 1) * 4096
  if base ≤ c.1 ∧ c.1 < base + size ∧ (c.1 - base) % 32 = 0 then
    some (s.dteInMemory (BitVec.ofNat 16 ((c.1 - base) / 32)))
  else none

/-- The entries of the device table in memory that translate under a domain: `V` = 1, `TV` = 1, `Mode` not
000b. The first byte of such an entry is not 0, so the memory lists it. -/
def State.domainEntries (s : State) (m : DomainId) : List Dte :=
  (s.devTabMemory.filterMap s.entryAt).filter fun d => d.v && d.tv && decide (d.domain = m) && decide (d.mode ≠ 0)

/-- Two devices of the domain have different non-zero modes or different root pointers (R233, U26): the
tables as they stand in memory, whatever is cached of them. -/
def State.tablesDisagree (s : State) (m : DomainId) : Bool :=
  match s.domainEntries m with
  | [] => false
  | d :: rest => rest.any fun e => decide (e.mode ≠ d.mode) || decide (e.root ≠ d.root)

/-- Translations are cached, beside older ones of the same pages. -/
def State.fillTlb (s : State) (l : List TlbEntry) : State := { s with tlb := l ++ s.tlb }

/-- A cached directory entry. -/
def State.fillPdc (s : State) (e : PdcEntry) : State := { s with pdc := e :: s.pdc }

/-- The size of a cached translation of a large page: the page's, or that of a 4K piece of it (R124). -/
def cacheSpan (split : Bool) (bits : Nat) : Nat := if split then 12 else bits

/-- A translated address as the IOMMU produces it: at most `PAsize` bits (R92, log entry 29); the page
of a level-6 entry is D20's own case. -/
def State.clip (s : State) (bits : Nat) (spa : Addr) : Addr :=
  if 52 < bits then spa else BitVec.ofNat 64 (spa.toNat % 2 ^ s.paSize)

end Sys2Proof.Machine
end

