-- ==== Sys2Proof/Machine/Transactions.lean ====
section
/-! DEFINITION. The transaction engine: what the IOMMU does with a transaction from a device. The order
of the checks is that of spec/40_transactions.md R175, R199, R200 and spec/43_interrupt_remapping.md
R301; a transaction is judged by a pure function of the registers and its device table entry, then
walked, remapped, forwarded or refused. -/

namespace Sys2Proof.Machine

/-! ### Events of transactions (spec/60_exceptions.md R436, R443) -/

/-- The address is in the Interrupt/EOI range: the `I` field (R436; log entry 26). -/
def Transaction.inInterruptRange (tx : Transaction) : Bool := decide (rangeOf tx.addr = .interruptEoi)

/-- The transaction is a translation request: the `TR` field. -/
def Transaction.isTransReq (tx : Transaction) : Bool := decide (tx.kind = .transReq)

/-- The `RW` field where it is meaningful (`TR` = 0, `I` = 0), any value elsewhere (D14). -/
def State.rwField (s : State) (tx : Transaction) : Bool :=
  if tx.isTransReq || tx.inInterruptRange then s.freeBit .event else tx.kind.rw (s.freeBit .event)

/-- A field of an event that has no meaning in the case at hand: any value (D14). -/
def State.openBit (s : State) (place : Nat) : Bool := (s.free .event).getLsbD place

/-- ILLEGAL_DEV_TABLE_ENTRY (R436). -/
def State.illegalEntryEvent (s : State) (tx : Transaction) (rz : Bool) : Event :=
  .illegalDevTableEntry tx.dev tx.isTransReq rz (s.rwField tx) tx.inInterruptRange tx.addr

/-- INVALID_DEVICE_REQUEST (R450, R451). -/
def invalidRequestEvent (tx : Transaction) (type : BitVec 3) : Event :=
  .invalidDeviceRequest tx.dev type tx.isTransReq tx.addr

/-- DEV_TAB_HARDWARE_ERROR (R438). -/
def State.devTabErrorEvent (s : State) (tx : Transaction) (f : ReadFailure) (a : Addr) : Event :=
  .devTabHardwareError tx.dev f.code tx.isTransReq (s.rwField tx) tx.inInterruptRange a

/-- The `DomainID` field (R443, R232): the entry's when `V` = 1, any value otherwise (U36). -/
def State.eventDomain (s : State) (d : Dte) : DomainId :=
  if d.v then d.domain else (s.free .domain).extractLsb' 0 16

/-- PAGE_TAB_HARDWARE_ERROR (R440). -/
def State.pageTabErrorEvent (s : State) (tx : Transaction) (d : Dte) (f : ReadFailure) (a : Addr) : Event :=
  .pageTabHardwareError tx.dev f.code tx.isTransReq (s.rwField tx) tx.inInterruptRange (s.eventDomain d) a

/-- IO_PAGE_FAULT of a memory transaction with its `PR`, `RZ` and `PE` (R443). -/
def State.pageFaultEvent (s : State) (tx : Transaction) (d : Dte) (pr rz pe : Bool) : Event :=
  .ioPageFault tx.dev tx.isTransReq rz pe (if pr then s.rwField tx else s.freeBit .event) pr false d.domain tx.addr

/-- IO_PAGE_FAULT of an interrupt message (R443, R308, R315). -/
def State.interruptFaultEvent (s : State) (tx : Transaction) (d : Dte) (pr rz : Bool) : Event :=
  .ioPageFault tx.dev false (if pr then rz else s.openBit 1) (s.openBit 2) (s.freeBit .event) pr true (s.eventDomain d)
    tx.addr

/-! ### The end of a transaction (R176) -/

/-- The transaction is no longer being processed. -/
def State.retire (s : State) (t : InFlight) : State :=
  { s with inFlight := s.inFlight.filter fun u => decide (u.id ≠ t.id) }

/-- `Forward`: the transaction goes upstream; a posted write until it reaches the host bridge, a
non-posted one until it is answered, the rest at once. -/
def State.sendUp (s : State) (f : Forwarded) : State :=
  match f.orig.kind with
  | .writePosted => { s.emit (.forwarded f.sent) with upWrites := s.upWrites ++ [f] }
  | .read | .writeNonPosted | .atomic | .zeroByteRead =>
    { s.emit (.forwarded f.sent) with upReads := s.upReads ++ [f] }
  | .transReq | .response | .fence | .flush => s.emit (.forwarded f.sent)

/-- `Forward(tx)`: unaltered. -/
def State.passOn (s : State) (t : InFlight) : State := (s.retire t).sendUp ⟨t.id, t.tx, t.tx, none, false⟩

/-- `TargetAbort` or `MasterAbort`: nothing goes upstream. -/
def State.refuseTx (s : State) (t : InFlight) (a : Abort) : State := (s.retire t).emit (.aborted t.tx a)

/-- `TranslationResponse`: the first page and what no rule states of the others (R208, R209). A request for
no page at all, of which the specification says nothing, is answered like one for one page (DESIGN CHOICE,
log entry 27). -/
def State.answerPages (s : State) (t : InFlight) (first : Config.PageAnswer) : State :=
  (s.retire t).emit
    (.translation t.tx (first :: (List.range (t.tx.npages - 1)).map fun k => Config.openPage s.draws (k + 1)))

/-- `TranslationResponse` where no table entry is relevant: a request for several pages gets an answer that
is wholly the implementation's (`P.MultiPageNoPde`, R209), one for a page the given one. -/
def State.answerDirect (s : State) (t : InFlight) (page : Config.PageAnswer) : State :=
  if 1 < t.tx.npages then (s.retire t).emit (.translation t.tx (Config.multiPageNoPde s.draws t.tx.npages))
  else s.answerPages t page

/-- The parts of the first page's answer that no rule states. -/
def State.openAnswer (s : State) : Config.PageAnswer := Config.openPage s.draws 0

/-- `raise` of IO_PAGE_FAULT for a memory access: `SA` suppresses it, `SE` leaves it to the first-fault
state (R444, R445). -/
def State.raisePageFault (s : State) (d : Dte) (dev : DeviceId) (e : Event) : State :=
  if d.sa then s else if d.se then s.raiseFirst dev e else s.raise e

/-! ### The verdict on a transaction (R175) -/

/-- What the checks on a transaction with a given device table entry say. -/
inductive Verdict where
  /-- `Forward(tx)`, unaltered. -/
  | pass
  /-- Refused, with the event and whether it is suppressed. -/
  | deny (a : Abort) (e : Event) (suppressed : Bool)
  /-- Refused with an IO_PAGE_FAULT of a memory access. -/
  | fault (e : Event)
  /-- Answered as a page of the exclusion range (R197). -/
  | excluded
  /-- To be translated (R202). -/
  | translate
  /-- To be looked up in the interrupt remapping table (R310). -/
  | remap (offset : Nat)
  deriving DecidableEq, Repr

/-- INVALID_DEVICE_REQUEST with a target abort, unless `IG` suppresses the event (R452). -/
def denyRequest (tx : Transaction) (d : Dte) (type : BitVec 3) : Verdict :=
  .deny .targetAbort (invalidRequestEvent tx type) (d.iv && d.ig)

/-- INVALID_DEVICE_REQUEST with a master abort (R200). -/
def denyTranslation (tx : Transaction) (d : Dte) : Verdict :=
  .deny .masterAbort (invalidRequestEvent tx 0) (d.iv && d.ig)

/-- ILLEGAL_DEV_TABLE_ENTRY with a target abort (R247). -/
def State.denyEntry (s : State) (tx : Transaction) (rz : Bool) : Verdict :=
  .deny .targetAbort (s.illegalEntryEvent tx rz) false

/-- IO_PAGE_FAULT of an interrupt, with a target abort (R308, R315 (a)): suppressed by `IG` (R446). -/
def State.denyInterrupt (s : State) (tx : Transaction) (d : Dte) : Verdict :=
  .deny .targetAbort (s.interruptFaultEvent tx d false false) d.ig

/-- The `I` mark of the device; without IOTLB support it counts or does not (U24). -/
def State.trustsDevice (s : State) (d : Dte) : Bool := d.iotlb && (s.iotlbSup || s.freeBit .iotlbUnsupported)

/-- `Excluded(dte, a)` (R195). -/
def State.excluded (s : State) (d : Dte) (a : Addr) : Bool := s.inExclusionRange a && (s.exclAllow || d.ex)

/-- `ProcessInterrupt` (spec/43_interrupt_remapping.md R301). -/
def State.judgeInterrupt (s : State) (tx : Transaction) (d : Dte) : Verdict :=
  if !d.iv then .pass
  else
    match d.checkHigh with
    | some rz => s.denyEntry tx rz
    | none =>
      let m := Config.intMsgDecode tx.addr tx.data
      match intClass d m with
      | .smi => .pass
      | .passControlled pass => if pass then .pass else s.denyInterrupt tx d
      | .aborted => s.denyInterrupt tx d
      | .remappable =>
        if d.intCtl = 0 then denyRequest tx d 5
        else if d.intCtl = 1 then .pass
        else if 2 ^ d.intTabLen ≤ m.offset.toNat then s.denyInterrupt tx d
        else .remap m.offset.toNat

/-- The two interrupt ranges (R181, R182). -/
def State.judgeInterruptRange (s : State) (tx : Transaction) (d : Dte) (rng : SpecialRange) : Verdict :=
  if tx.isTransReq then denyRequest tx d 1
  else if rng = .reservedInterrupt then denyRequest tx d (if tx.kind.posted then 6 else 0)
  else if tx.kind.posted then s.judgeInterrupt tx d
  else denyRequest tx d 0

/-- A translation request to a range where it is refused (R193). -/
def State.rangeRefusesTranslation (s : State) (d : Dte) : SpecialRange → Bool
  | .systemManagement => decide (d.sysMgt ≠ 3)
  | .ioSpace => decide (d.ioCtl ≠ 2)
  | .addressTranslation => s.htAtsResv
  | _ => false

/-- A range where `TV` = 0 is an invalid request rather than a page fault (R187). -/
def SpecialRange.controlled : SpecialRange → Bool
  | .systemManagement => true
  | .ioSpace => true
  | _ => false

/-- `ProcessTransReq` (R200). -/
def State.judgeTransReq (s : State) (tx : Transaction) (d : Dte) (rng : SpecialRange) : Verdict :=
  if !d.v || !(s.trustsDevice d) then denyTranslation tx d
  else
    match d.checkLow with
    | some rz => s.denyEntry tx rz
    | none =>
      if s.rangeRefusesTranslation d rng then denyRequest tx d 1
      else if s.excluded d tx.addr then .excluded
      else if !d.tv then (if rng.controlled then denyRequest tx d 1 else denyTranslation tx d)
      else .translate

/-- `ProcessPreTranslated` (R199). -/
def State.judgePreTranslated (s : State) (tx : Transaction) (d : Dte) : Verdict :=
  if !d.v || !(s.trustsDevice d) then denyRequest tx d 1
  else
    match d.checkLow with
    | some rz => s.denyEntry tx rz
    | none => .pass

/-- A refusal whose `Type` is 011b for a posted write and 100b for the rest (R185, R190). -/
def denyByKind (tx : Transaction) (d : Dte) : Verdict := denyRequest tx d (if tx.kind.posted then 3 else 4)

/-- `SysMgtControl` (R185), for `SysMgt` other than 11b. -/
def judgeSysMgt (tx : Transaction) (d : Dte) : Verdict :=
  if tx.kind.posted && (decide (d.sysMgt = 1) || (decide (d.sysMgt = 2) && tx.intx)) then .pass else denyByKind tx d

/-- `IoControl` (R191), for `IoCtl` other than 10b. -/
def judgeIo (tx : Transaction) (d : Dte) : Verdict := if d.ioCtl = 1 then .pass else denyRequest tx d 2

/-- An ordinary memory transaction (R175, R194 to R202). -/
def State.judgeMemory (s : State) (tx : Transaction) (d : Dte) (rng : SpecialRange) : Verdict :=
  if s.excluded d tx.addr then .pass
  else if !d.tv then
    (if rng.controlled then denyRequest tx d 7 else .fault (s.pageFaultEvent tx d true false (s.openBit 2)))
  else .translate

/-- An untranslated transaction of a device with `V` = 1 (R175). -/
def State.judgeUntranslated (s : State) (tx : Transaction) (d : Dte) (rng : SpecialRange) : Verdict :=
  match d.checkLow with
  | some rz => s.denyEntry tx rz
  | none =>
    if rng = .systemManagement ∧ d.sysMgt ≠ 3 then judgeSysMgt tx d
    else if rng = .ioSpace ∧ d.ioCtl ≠ 2 then judgeIo tx d
    else if rng = .addressTranslation ∧ s.htAtsResv then denyByKind tx d
    else s.judgeMemory tx d rng

/-- `Process(tx)` up to translation (R175). -/
def State.judge (s : State) (tx : Transaction) (d : Dte) : Verdict :=
  let rng := rangeOf tx.addr
  if rng = .reservedInterrupt ∨ rng = .interruptEoi then s.judgeInterruptRange tx d rng
  else if tx.isTransReq then s.judgeTransReq tx d rng
  else if tx.preTranslated then s.judgePreTranslated tx d
  else if !d.v then (if rng = .addressTranslation ∧ s.htAtsResv then denyByKind tx d else .pass)
  else s.judgeUntranslated tx d rng

/-! ### Translation (R202 to R209) -/

/-- Read data of a permitted zero-byte read is obscured where the page is not readable, and may be
elsewhere (R205). -/
def State.obscures (s : State) (tx : Transaction) (ir : Bool) : Bool :=
  decide (tx.kind = .zeroByteRead) && (!ir || s.freeBit .obscure)

/-- A transaction translated by `use` meets its permission check and is forwarded (R204, R206). It keeps the
DeviceID of its originator, like every transaction the IOMMU sends upstream: the requester identity on the upstream
side the specification does not discuss (R206; DESIGN CHOICE, log entry 42). -/
def State.finishMemory (s : State) (t : InFlight) (d : Dte) (use : PageUse) (spa : Addr) (ir iw fc : Bool) : State :=
  if t.tx.kind.permitted ir iw then
    (s.retire t).sendUp
      ⟨t.id, t.tx, { t.tx with addr := spa, coherent := fc || t.tx.coherent }, some use, s.obscures t.tx ir⟩
  else (s.raisePageFault d t.tx.dev (s.pageFaultEvent t.tx d true false true)).refuseTx t .targetAbort

/-- `Mode` = 000b: the address is unchanged, the entry's `IR` and `IW` decide (R202 (b), R208). -/
def State.finishDirect (s : State) (t : InFlight) (d : Dte) : State :=
  if t.tx.isTransReq then
    s.answerDirect t { s.openAnswer with addr := t.tx.addr, r := d.ir, w := d.iw, fc := false }
  else s.finishMemory t d ⟨d.domain, alignDown t.tx.addr 12, 12⟩ t.tx.addr d.ir d.iw false

/-- A walk that found a page (R206, R208); a translation response carries the 4K-aligned address
(spec/95_test_vectors.md W1). -/
def State.finishPage (s : State) (t : InFlight) (d : Dte) (use : PageUse) (spa : Addr) (bits : Nat) (ir iw fc u : Bool) :
    State :=
  if t.tx.isTransReq then s.answerPages t ⟨alignDown spa 12, ir, iw, fc, u, bits⟩
  else s.finishMemory t d use spa ir iw fc

/-- The permission indicator of a walk that ended in a fault (R443): any value where the page was not
present. -/
def State.peField (s : State) (tx : Transaction) (pr ir iw : Bool) : Bool :=
  if pr then !(tx.kind.permitted ir iw) else s.openBit 2

/-- A walk that ended in a fault: a translation request learns that nothing is present (R207), any
other transaction is aborted with IO_PAGE_FAULT. -/
def State.finishFault (s : State) (t : InFlight) (d : Dte) (pr rz ir iw : Bool) : State :=
  if t.tx.isTransReq then s.answerPages t { s.openAnswer with r := false, w := false }
  else
    (s.raisePageFault d t.tx.dev
        (s.pageFaultEvent t.tx d pr (if pr then rz else s.openBit 1) (s.peField t.tx pr ir iw))).refuseTx t .targetAbort

/-- What a walk or a cached translation found, with the device table entry's permissions counted in; `use` is
the translation that is used. -/
def State.finishWalk (s : State) (t : InFlight) (d : Dte) (use : PageUse) (dva : Addr) (dteIr dteIw : Bool) :
    WalkResult → State
  | .page base bits ir iw fc u =>
    s.finishPage t d use (s.clip bits (joinPage base bits dva)) bits (ir && dteIr) (iw && dteIw) fc u
  | .fault pr rz ir iw => s.finishFault t d pr rz (ir && dteIr) (iw && dteIw)

/-- The transaction goes on in another phase. -/
def State.setTx (s : State) (t : InFlight) (p : TxPhase) : State :=
  { s with inFlight := s.inFlight.map fun u => if u.id = t.id then { u with phase := p } else u }

/-- The cache entries in which the result `r` of a walk is kept, for the `2^bits` bytes around the address walked: one
for each address of the choice that lies there, of all those bytes or of the 4K piece of the address (R124). -/
def walkEntries (d : Dte) (dev : DeviceId) (w : Walk) (c : TxChoice) (bits : Nat) (r : WalkResult) : List TlbEntry :=
  let span := cacheSpan c.split4k bits
  (c.keepTlb.filter fun a => rangesMeet (alignDown w.dva bits) bits a 0).map fun a =>
    ⟨d.domain, dev, alignDown a span, span, r, w.dteIr, w.dteIw⟩

/-- The walk found its result in the table entry just read; it may be kept in the translation cache, a
not-present one only where `NpCache` = 1 (R111, U35), and nothing after an invalidation of what the walk
relies on (R112, R367). -/
def State.concludeWalk (s : State) (t : InFlight) (d : Dte) (w : Walk) (c : TxChoice) (bits : Nat) (present : Bool)
    (r : WalkResult) : State :=
  (if !t.stale && (present || s.npCache) then s.fillTlb (walkEntries d t.tx.dev w c bits r) else s).finishWalk t d
    ⟨d.domain, alignDown w.dva bits, bits⟩ w.dva w.dteIr w.dteIw r

/-- The walk goes down to the next table; the directory entry may be kept. Its span is the full `2^(9L+3)` bytes of
the level that holds it, also where its Next Level skips levels (spec/44_commands.md R350; DESIGN CHOICE, log
entry 18). -/
def State.descendWalk (s : State) (t : InFlight) (d : Dte) (w : Walk) (c : TxChoice) (table : Addr) (level : Nat) :
    State :=
  let bits := levelLow w.level
  (if c.keepPdc && !t.stale then
      s.fillPdc ⟨d.domain, t.tx.dev, alignDown w.dva bits, bits, table, level, w.ir, w.iw, w.dteIr, w.dteIw⟩
    else s).setTx t (.walking d (w.descend table level))

/-- One table entry of the walk (R280): the skipped bits, the read, the tests. The event of a failed read
carries the address of the entry as the tables give it, also where the access has lost the bits above
`PAsize` (U31): which of the two it is no rule says (R440; DESIGN CHOICE, log entry 20). -/
def State.walkLevel (s : State) (t : InFlight) (d : Dte) (w : Walk) (c : TxChoice) : State :=
  if skippedBits w.dva w.upper w.level then
    s.finishWalk t d ⟨d.domain, alignDown w.dva 12, 12⟩ w.dva w.dteIr w.dteIw (.fault false false w.ir w.iw)
  else
    let a := entryAddr w.table w.level w.dva
    let t1 := s.sawRead a 8 (s.pageTabAttrs d.sd)
    match s.tableRead a 8 (!d.sd) with
    | .error f => (t1.raise (s.pageTabErrorEvent t.tx d f a)).refuseTx t .targetAbort
    | .ok bytes =>
      let e := wordOf 64 bytes
      let w' := w.count e
      match enterPte e w.level (s.freeBit .level6) with
      | .page base bits => t1.concludeWalk t d w' c bits true (.page base bits w'.ir w'.iw (pteFc e) (pteU e))
      | .fault pr rz => t1.concludeWalk t d w' c (levelLow w.level) (ptePresent e) (.fault pr rz w'.ir w'.iw)
      | .next table level => t1.descendWalk t d w' c table level

/-- One step of a walk under a domain whose tables agree: at its start the caches may answer, with what the
tables held when they were read (R291, R110), otherwise one entry is read. -/
def State.walkOn (s : State) (t : InFlight) (d : Dte) (w : Walk) (c : TxChoice) : State :=
  match (if w.fresh then s.hitTlb c.useTlb d.domain w.dva else none) with
  | some e =>
    s.finishWalk t d ⟨d.domain, e.base, e.bits⟩ w.dva (if c.fillerPerms then e.dteIr else w.dteIr)
      (if c.fillerPerms then e.dteIw else w.dteIw) e.result
  | none =>
    match (if w.fresh then s.hitPdc c.usePdc d.domain w.dva else none) with
    | some p => s.setTx t (.walking d (w.resume p c.fillerPerms))
    | none => s.walkLevel t d { w with fresh := false } c

/-- One step of a walk. A walk does not begin under a domain whose devices have different tables (R233,
U26). -/
def State.walkStep (s : State) (t : InFlight) (d : Dte) (w : Walk) (c : TxChoice) : Result :=
  if w.fresh && s.tablesDisagree d.domain then .refused .domainTablesDiffer else .next (s.walkOn t d w c)

/-- `Translate` (R202): without tables, or by a walk. -/
def State.beginTranslate (s : State) (t : InFlight) (d : Dte) : State :=
  if d.mode = 0 then s.finishDirect t d
  else
    match s.seenVirtual t.tx.addr with
    | none => s.finishFault t d false false d.ir d.iw
    | some dva => s.setTx t (.walking d (Walk.start d dva))

/-! ### Interrupt remapping (spec/43_interrupt_remapping.md R310) -/

/-- The tests on an interrupt remapping table entry, and the remapped message (R310, R314, R315). -/
def State.finishRemap (s : State) (t : InFlight) (d : Dte) (e : BitVec 32) : State :=
  match irteFault e with
  | some (pr, rz) =>
    (s.raiseUnless (d.ig || irteSupIopf e) (s.interruptFaultEvent t.tx d pr rz)).refuseTx t .targetAbort
  | none => (s.retire t).sendUp ⟨t.id, t.tx, { t.tx with addr := remappedAddr t.tx.addr e }, none, false⟩

/-- The read of an interrupt remapping table entry (R310, R311, R316). -/
def State.remapStep (s : State) (t : InFlight) (d : Dte) (offset : Nat) (c : TxChoice) : State :=
  match s.hitIrte c.useIrte t.tx.dev offset with
  | some e => s.finishRemap t d e
  | none =>
    let a := s.irteAddr d offset
    let t1 := s.sawRead a 4 s.irtAttrs
    match s.tableRead a 4 true with
    | .error f => (t1.raise (s.pageTabErrorEvent t.tx d f a)).refuseTx t .targetAbort
    | .ok bytes =>
      (if c.keepIrte && !t.stale then t1.fillIrte t.tx.dev offset (wordOf 32 bytes) else t1).finishRemap t d (wordOf 32 bytes)

/-! ### The device table lookup (spec/41_device_table.md R249) -/

/-- The verdict is carried out. -/
def State.carryOut (s : State) (t : InFlight) (d : Dte) : Verdict → State
  | .pass => s.passOn t
  | .deny a e suppressed => (s.raiseUnless suppressed e).refuseTx t a
  | .fault e => (s.raisePageFault d t.tx.dev e).refuseTx t .targetAbort
  | .excluded => s.answerDirect t { s.openAnswer with addr := t.tx.addr, r := true, w := true }
  | .translate => s.beginTranslate t d
  | .remap offset => s.setTx t (.readIrte d offset)

/-- Both halves of the entry are known: the transaction is judged. -/
def State.judged (s : State) (t : InFlight) (d : Dte) : State := s.carryOut t d (s.judge t.tx d)

/-- A half read fails (R249, R438). -/
def State.dteFailed (s : State) (t : InFlight) (f : ReadFailure) (a : Addr) : State :=
  (s.raise (s.devTabErrorEvent t.tx f a)).refuseTx t .targetAbort

/-- The half at a place of the device table cache, if it is that half of the device's entry. -/
def State.hitDte (s : State) (place : Option Nat) (dev : DeviceId) (high : Bool) : Option (BitVec 128) :=
  (pick s.dteCache place fun e => decide (e.dev = dev) && decide (e.high = high)).map (·.half)

/-- The entry that a cached half is of is marked valid, `V` = 1 or `IV` = 1, as far as the IOMMU knew it when the half was
cached. -/
def DteCacheEntry.valid (e : DteCacheEntry) : Bool := e.half.getLsbD 0 || e.otherValid

/-- A half of the device's entry that is cached and marked valid, the high or the low one: `IV` or `V` is known to
be 1. -/
def State.knownValid (s : State) (dev : DeviceId) (high : Bool) : Bool :=
  s.dteCache.any fun e => decide (e.dev = dev) && decide (e.high = high) && e.half.getLsbD 0

/-- Halves of entries are cached, beside older ones of the same device. -/
def State.fillDte (s : State) (l : List DteCacheEntry) : State := { s with dteCache := l ++ s.dteCache }

/-- Halves just read are cached if the choice says so; those of an entry with `V` = 0 and `IV` = 0 only where
`NpCache` = 1 (spec/70_reset_and_hazards.md R497 (e), spec/90_conflicts.md C23), and nothing after an
invalidation of the entry (R112, spec/44_commands.md R362). -/
def State.keepDte (s : State) (t : InFlight) (c : TxChoice) (l : List DteCacheEntry) : State :=
  if c.keepDte && !t.staleDte then s.fillDte (l.filter fun e => e.valid || s.npCache) else s

/-- One half of an entry has been read, and the other not yet. With `NpCache` = 0 it is kept only where its own valid
bit is 1 or a cached copy of the other half has it 1: a half that is neither read nor cached counts as not valid, which
no rule states (spec/10_state.md R52; DESIGN CHOICE, log entry 36). -/
def State.keepHalf (s : State) (t : InFlight) (c : TxChoice) (high : Bool) (half : BitVec 128) : State :=
  s.keepDte t c [⟨t.tx.dev, high, half, s.knownValid t.tx.dev (!high)⟩]

/-- Both halves of an entry are known, and both may be cached (R249). -/
def State.keepWhole (s : State) (t : InFlight) (c : TxChoice) (d : Dte) : State :=
  s.keepDte t c [⟨t.tx.dev, false, d.lo, d.iv⟩, ⟨t.tx.dev, true, d.hi, d.v⟩]

/-- Read one half of an entry: by an access of 16 bytes, or out of the access already issued. -/
def State.readHalf (s : State) (t : InFlight) (h : HalfRead) (k : State → BitVec 128 → State) : State :=
  let s1 := if h.issued.isNone then s.sawRead h.addr 16 s.devTabAttrs else s
  match s.tableRead h.addr 16 (h.issued.getD s.coherent) with
  | .error f => s1.dteFailed t f h.addr
  | .ok b => k s1 (wordOf 128 b)

/-- The read of the low half, at `DteAddr`. -/
def State.lowHalf (s : State) (dev : DeviceId) (issued : Option Bool) : HalfRead := ⟨s.dteAddr dev, issued⟩

/-- The read of the high half, at `DteAddr + 16`. -/
def State.highHalf (s : State) (dev : DeviceId) (issued : Option Bool) : HalfRead := ⟨s.dteAddr dev + 16, issued⟩

/-- Read both halves at one moment in one access of 32 bytes; a failure is that of the half it hits, the low
one first. -/
def State.readWide (s : State) (t : InFlight) (k : State → Dte → State) : State :=
  let a := s.dteAddr t.tx.dev
  let s1 := s.sawRead a 32 s.devTabAttrs
  match s.tableRead a 16 s.coherent with
  | .error f => s1.dteFailed t f a
  | .ok lo =>
    match s.tableRead (a + 16) 16 s.coherent with
    | .error f => s1.dteFailed t f (a + 16)
    | .ok hi => k s1 ⟨wordOf 128 lo, wordOf 128 hi⟩

/-- The high half completes an entry whose low half is known; the whole entry may be cached (R249). -/
def State.finishHigh (s : State) (t : InFlight) (c : TxChoice) (rest : HalfRead) (lo : BitVec 128) : State :=
  s.readHalf t rest fun s1 hi => (s1.keepWhole t c ⟨lo, hi⟩).judged t ⟨lo, hi⟩

/-- The low half completes an entry whose high half is known; the whole entry may be cached (R249). -/
def State.finishLow (s : State) (t : InFlight) (c : TxChoice) (rest : HalfRead) (hi : BitVec 128) : State :=
  s.readHalf t rest fun s1 lo => (s1.keepWhole t c ⟨lo, hi⟩).judged t ⟨lo, hi⟩

/-- The low half is read first; where the other half comes from says `rest`. -/
def State.beginLow (s : State) (t : InFlight) (c : TxChoice) (now rest : HalfRead) : State :=
  s.readHalf t now fun s1 lo => (s1.keepHalf t c false lo).setTx t (.haveLow lo rest)

/-- The high half is read first; where the other half comes from says `rest`. -/
def State.beginHigh (s : State) (t : InFlight) (c : TxChoice) (now rest : HalfRead) : State :=
  s.readHalf t now fun s1 hi => (s1.keepHalf t c true hi).setTx t (.haveHigh hi rest)

/-- The two halves are read apart, in the order the choice says; their addresses are computed once (R249). -/
def State.beginHalf (s : State) (t : InFlight) (c : TxChoice) (lo hi : HalfRead) : State :=
  if c.highFirst then s.beginHigh t c hi lo else s.beginLow t c lo hi

/-- One access of 32 bytes whose halves are seen at two moments, one now and the other later: a 256-bit read
is not taken as atomic across its halves (spec/20_memory.md R103, D33). -/
def State.readTorn (s : State) (t : InFlight) (c : TxChoice) : State :=
  (s.sawRead (s.dteAddr t.tx.dev) 32 s.devTabAttrs).beginHalf t c (s.lowHalf t.tx.dev (some s.coherent))
    (s.highHalf t.tx.dev (some s.coherent))

/-- The entry is read from memory: in one access, whose halves are seen at one moment or at two, or by two
accesses, one half now and the other later (R224). -/
def State.readDte (s : State) (t : InFlight) (c : TxChoice) : State :=
  if c.wide && c.torn then s.readTorn t c
  else if c.wide then s.readWide t fun s1 d => (s1.keepWhole t c d).judged t d
  else s.beginHalf t c (s.lowHalf t.tx.dev none) (s.highHalf t.tx.dev none)

/-- `LookupDte` (R249): beyond the table the substitute entry, else the cached halves that the choice uses, both, one
or none, and what is missing of them from memory. -/
def State.lookupDte (s : State) (t : InFlight) (c : TxChoice) : State :=
  if !s.inTable t.tx.dev then s.judged t Dte.substitute
  else
    match s.hitDte c.useLo t.tx.dev false, s.hitDte c.useHi t.tx.dev true with
    | some lo, some hi => s.judged t ⟨lo, hi⟩
    | some lo, none => s.finishHigh t c (s.highHalf t.tx.dev none) lo
    | none, some hi => s.finishLow t c (s.lowHalf t.tx.dev none) hi
    | none, none => s.readDte t c

/-! ### The engine -/

/-- One step of an accepted transaction (R175). -/
def State.advanceTx (s : State) (t : InFlight) (c : TxChoice) : Result :=
  match t.phase with
  | .needDte => .next (s.lookupDte t c)
  | .haveLow lo rest => .next (s.finishHigh t c rest lo)
  | .haveHigh hi rest => .next (s.finishLow t c rest hi)
  | .walking d w => s.walkStep t d w c
  | .readIrte d offset => .next (s.remapStep t d offset c)

/-- The accepted transaction at a place goes on. -/
def State.advance (s : State) (k : Nat) (c : TxChoice) : Result :=
  match s.inFlight[k]? with
  | none => .next s
  | some t => s.advanceTx t c

/-- The transaction lies within one 4K page, with its byte count and with the bytes it carries (D32,
spec/20_memory.md R101). -/
def Transaction.inPage (tx : Transaction) : Bool := decide (tx.addr.toNat % 4096 + max tx.len tx.data.length ≤ 4096)

/-- The transaction does not arrive: the platform carries no port I/O of devices (`P.PortIoImplemented`,
R191). -/
def Transaction.neverArrives (tx : Transaction) : Bool :=
  decide (rangeOf tx.addr = .ioSpace) && !Config.portIoImplemented

/-- The transaction is a response, a fence or a flush (R173 (c)). -/
def TxKind.isLinkCommand : TxKind → Bool
  | .response => true
  | .fence => true
  | .flush => true
  | _ => false

/-- The enable bits give the transaction to the IOMMU (R171, R172). -/
def State.processes (s : State) (tx : Transaction) : Bool := s.iommuEn && (!tx.tunnel || s.htTunEn)

/-- A transaction that the IOMMU does not process passes upstream unaltered (R171, R172). -/
def State.bypass (s : State) (tx : Transaction) : State :=
  { s with nextId := s.nextId + 1 }.sendUp ⟨s.nextId, tx, tx, none, false⟩

/-- A transaction is accepted for processing. -/
def State.accept (s : State) (tx : Transaction) : State :=
  { s with nextId := s.nextId + 1, inFlight := s.inFlight ++ [⟨s.nextId, tx, .needDte, false, false⟩] }

/-- A transaction arrives from downstream (R171 to R174). -/
def State.arrive (s : State) (tx : Transaction) : Result :=
  if tx.kind.isLinkCommand then .next (s.emit (.forwarded tx))
  else if tx.neverArrives then .next s
  else if tx.tunnel && !s.htTunnel then .refused .noTunnel
  else if !tx.inPage then .refused .crossesPage
  else if tx.isTransReq && (!s.processes tx || !s.iotlbSup) then .next (s.emit (.aborted tx .masterAbort))
  else if !s.processes tx then .next (s.bypass tx)
  else .next (s.accept tx)

end Sys2Proof.Machine
end

