-- ==== Sys2Proof/Machine/Upstream.lean ====
section
/-! DEFINITION. What the host bridge does with forwarded transactions: their effect on memory, and the
answers that return to the originator (spec/40_transactions.md R176, R205, R206; the effect on memory is
log entry 25). -/

namespace Sys2Proof.Machine

/-- The bytes a forwarded transaction stores, never more than its byte count (D32, spec/40_transactions.md
R170): those of a write, and for an atomic operation those the host says it stored. -/
def Forwarded.stores (f : Forwarded) (a : HostAnswer) : List Byte :=
  match f.sent.kind with
  | .writePosted => f.sent.data.take f.sent.len
  | .writeNonPosted => f.sent.data.take f.sent.len
  | .atomic => a.stored.take f.sent.len
  | _ => []

/-- The host carries out a forwarded write: to memory where the address is an ordinary one and memory
is there, to nothing the model holds elsewhere. The IOMMU's own registers are refused (N30). -/
def State.hostStore (s : State) (a : Addr) (data : List Byte) : Except Refusal State :=
  if data.isEmpty then .ok s
  else if rangeOf a ≠ .ordinary then .ok s
  else if s.touchesRegisters a.toNat data.length then .error .dmaToRegisters
  else if s.isMemory a.toNat data.length then .ok (s.store a.toNat data)
  else .ok s

/-- A forwarded posted write has reached the host bridge. -/
def State.dropUpWrite (s : State) (k : Nat) : State := { s with upWrites := s.upWrites.eraseIdx k }

/-- A forwarded non-posted transaction has been answered. -/
def State.dropUpRead (s : State) (k : Nat) : State := { s with upReads := s.upReads.eraseIdx k }

/-- A forwarded posted write reaches the host bridge (R365). -/
def State.hostTakesWrite (s : State) (k : Nat) : Result :=
  match s.upWrites[k]? with
  | none => .next s
  | some f =>
    match (s.dropUpWrite k).hostStore f.sent.addr (f.stores ⟨HostStatus.ok, [], []⟩) with
    | .error r => .refused r
    | .ok t => .next t

/-- What the originator gets: the answer unaltered, its data replaced where it must be obscured (R205). -/
def State.seen (s : State) (f : Forwarded) (a : HostAnswer) : HostAnswer :=
  if f.obscure then { a with data := Config.zeroByteReadData s.draws f.orig.addr a.data.length } else a

/-- The host bridge answers a forwarded non-posted transaction (R176, R363); a refused one stores
nothing. -/
def State.hostAnswers (s : State) (k : Nat) (a : HostAnswer) : Result :=
  match s.upReads[k]? with
  | none => .next s
  | some f =>
    match (s.dropUpRead k).hostStore f.sent.addr
        (if a.status = HostStatus.ok then f.stores a else []) with
    | .error r => .refused r
    | .ok t => .next (t.emit (.completed f.orig (s.seen f a)))

end Sys2Proof.Machine
end

