-- ==== Sys2Proof/Machine/Cycle.lean ====
section
/-! DEFINITION. One step of the machine: the first action of the agenda, or where there is none what the
IOMMU does next by itself, in a fixed order (log entry 7). The freedom of spec/44_commands.md R336 and
of spec/20_memory.md R124 is the agenda's. -/

namespace Sys2Proof.Machine

/-- An event no longer waits. -/
def State.dropEvent (s : State) (k : Nat) : State := { s with pendingEvents := s.pendingEvents.eraseIdx k }

/-- A detected event is reported (spec/60_exceptions.md R421). -/
def State.reportAt (s : State) (k : Nat) : State :=
  match s.pendingEvents[k]? with
  | none => s
  | some p => (s.dropEvent k).report p

/-- The device table cache without the half `e` at a place. The first-fault state of its device goes with it where
`forget` says so, and in any case where no half of the device is left. -/
def State.loseDte (s : State) (k : Nat) (e : DteCacheEntry) (forget : Bool) : State :=
  { s with
    dteCache := s.dteCache.eraseIdx k
    faultLogged := s.faultLogged.filter fun d =>
      decide (d ≠ e.dev) || (!forget && (s.dteCache.eraseIdx k).any fun x => decide (x.dev = d)) }

/-- A cached half of a device table entry is dropped (spec/10_state.md R52). The first-fault state lives with the
cached entry (R55): it goes with the last half of it, and with another half of it or not (D31; DESIGN CHOICE, log
entry 39). -/
def State.dropDte (s : State) (k : Nat) (forget : Bool) : State :=
  match s.dteCache[k]? with
  | none => s
  | some e => s.loseDte k e forget

/-- The command fetch of the command processor (spec/44_commands.md R334): fetch, validate, execute. -/
def State.fetchAndExec (s : State) : Result := s.fetchThen exec

/-- One action. An action whose condition does not hold, or whose place is empty, changes nothing. -/
def State.act (s : State) : Action → Result
  | .cpuWrite a data cached => s.cpuWrite a data cached
  | .cpuRead a len => s.cpuRead a len
  | .writeBack a len => s.writeBack a len
  | .cfgWrite offset data => s.cfgWrite offset data
  | .cfgRead offset len => s.cfgRead offset len
  | .classRead => .next s.classRead
  | .arrive tx => s.arrive tx
  | .fromUpstream data => .next (s.emit (.passedDown data))
  | .hostTakesWrite k => s.hostTakesWrite k
  | .hostAnswers k a => s.hostAnswers k a
  | .deviceAnswers k => .next (s.deviceAnswers k)
  | .reset => .next s.systemReset
  | .platform holes => .next { s with holes := holes }
  | .prefetch ahead => .next (s.prefetch ahead)
  | .fetch => if s.canFetch then s.fetchThen holdCommand else .next s
  | .run k => s.runCommand k
  | .advance k c => s.advance k c
  | .report k => .next (s.reportAt k)
  | .sendInterrupt => .next s.sendInterrupt
  | .timeout k => .next (s.timeout k)
  | .dropDte k forget => .next (s.dropDte k forget)
  | .dropTlb k => .next { s with tlb := s.tlb.eraseIdx k }
  | .dropPdc k => .next { s with pdc := s.pdc.eraseIdx k }
  | .dropIrte k => .next { s with irtCache := s.irtCache.eraseIdx k }
  | .settleCmdRun => .next s.settleCmdRun
  | .settleEvtRun => .next s.settleEvtRun

/-- The choices of a transaction's step when nobody makes them: no cache, one wide read. -/
def defaultChoice : TxChoice where
  useLo := none
  useHi := none
  keepDte := false
  wide := true
  torn := false
  highFirst := false
  useTlb := none
  keepTlb := []
  usePdc := none
  keepPdc := false
  useIrte := none
  keepIrte := false
  split4k := false
  fillerPerms := false

/-- What the IOMMU does when the environment does nothing: fetch and execute; report an event; let a
fetched command go on; advance a transaction; let a posted write reach the host; send an interrupt; let
the run bits fall. -/
def State.autonomous (s : State) : Result :=
  if s.canFetch then s.fetchAndExec
  else if !s.pendingEvents.isEmpty then .next (s.reportAt 0)
  else
    match s.firstReady with
    | some k => s.runCommand k
    | none =>
      if !s.inFlight.isEmpty then s.advance 0 defaultChoice
      else if !s.upWrites.isEmpty then s.hostTakesWrite 0
      else if s.intDue ≠ 0 then .next s.sendInterrupt
      else .next s.settleCmdRun.settleEvtRun

/-- The agents have these actions left to do. -/
def State.setAgenda (s : State) (rest : List Action) : State := { s with agenda := rest }

/-- One step: the values drawn in it are its own. -/
def State.cycle (s : State) : Result :=
  match s.agenda with
  | [] => s.tick.autonomous
  | a :: rest => (s.tick.setAgenda rest).act a

/-! ### Putting a command where it is fetched next -/

/-- The IOMMU enabled and fetching, with nothing else to do first. -/
def State.armFetch (s : State) : State :=
  { s with
    control := s.control ||| 0x1001
    status := withBit s.status 4 true
    halted := false
    prefetched := []
    agenda := []
    cmdTail := s.nextHead }

/-- The 16 bytes of a command stored at the head of the ring. -/
def State.placeCommand (s : State) (bytes : List Byte) : State := s.store s.headAddr.toNat bytes

end Sys2Proof.Machine
end

