-- ==== Sys2Proof/Machine/Step.lean ====
section
/-! DEFINITION. The step, and the state in which a given command is the next one fetched. -/

namespace Sys2Proof.Machine

/-- One step of the machine. -/
def step (s : State) : Host.Outcome State Fault Refusal := s.cycle

/-- The state with a command of `nbits` bits stored where the next step fetches it: the command
processor enabled and running, and the tail one entry past the head (log entry 6). -/
def State.withFetchWord (s : State) (nbits w : Nat) : State := s.armFetch.placeCommand (tableBytes nbits w)

end Sys2Proof.Machine
end

