-- ==== Sys2Proof/Safety.lean ====
section
/-! DEFINITION. What a good run keeps, and the words the statements about the machine are written in: the
invariants (memory in canonical form, reserved register bits zero, pointers inside their rings, the run bits
above the conditions they show, nothing cached that was not present or not valid), the conditions under which
the command at the head can be read, what it means for memory to be left alone, and when a run has ended. -/

namespace Sys2Proof.Machine

/-! ### Memory -/

/-- Both memories are in canonical form. -/
abbrev State.memoryCanonical (s : State) : Prop := s.mem.wf = true ∧ s.dram.wf = true

/-- Every byte of memory reads as before, for coherent and other readers. -/
def State.sameMemory (s t : State) : Prop := ∀ b : Nat, t.mem.read b = s.mem.read b ∧ t.dram.read b = s.dram.read b

/-- The IOMMU can write the `n` bytes at `a`: an address within `PAsize` bits, in system memory. -/
abbrev State.ownMemory (s : State) (a n : Nat) : Prop := a < 2 ^ s.paSize ∧ s.isMemory a n = true

/-- Every byte outside the `n` bytes at `a` reads as before. -/
def State.sameMemoryOutside (s t : State) (a n : Nat) : Prop :=
  ∀ b : Nat, b < a ∨ a + n ≤ b → t.mem.read b = s.mem.read b ∧ t.dram.read b = s.dram.read b

/-- The bytes at `a` are the given ones, for coherent and other readers. -/
abbrev State.holdsBytes (t : State) (a : Nat) (bytes : List Byte) : Prop :=
  t.mem.readBytes a bytes.length = bytes ∧ t.dram.readBytes a bytes.length = bytes

/-! ### Registers -/

/-- The reserved bits of a control register (spec/10_state.md R29 to R46). -/
def MmioReg.reserved : MmioReg → Reg
  | .devTabBase => 0xFFF0000000000E00
  | .cmdBase => 0xF0F0000000000FFF
  | .evtBase => 0xF0F0000000000FFF
  | .control => 0xFFFFFFFFFFFFE000
  | .exclBase => 0xFFF0000000000FFC
  | .exclLimit => 0xFFF0000000000FFF
  | .cmdHead => 0xFFFFFFFFFFF8000F
  | .cmdTail => 0xFFFFFFFFFFF8000F
  | .evtHead => 0xFFFFFFFFFFF8000F
  | .evtTail => 0xFFFFFFFFFFF8000F
  | .status => 0xFFFFFFFFFFFFFFE0

/-- Every reserved bit of every control register is 0 (R29). -/
def State.reservedClear (s : State) : Prop := ∀ r : MmioReg, s.mmioReg r &&& r.reserved = 0

/-- The lengths of both rings are not reserved ones, and the four pointers lie inside them (R31, R32,
R40 to R43). -/
abbrev State.ringsFormed (s : State) : Prop :=
  8 ≤ fieldOf s.cmdBase 56 4 ∧ 8 ≤ fieldOf s.evtBase 56 4 ∧ s.headIndex < s.cmdEntries ∧ s.tailIndex < s.cmdEntries ∧
    s.evtHeadIndex < s.evtEntries ∧ s.evtTailIndex < s.evtEntries

/-- The status bits show what they stand for: while commands may be fetched CmdBufRun is 1 (R333), while
events are logged EventLogRun is 1 (spec/60_exceptions.md R428). -/
abbrev State.runBitsShown (s : State) : Prop :=
  (s.fetching = true → s.cmdBufRun = true) ∧ (s.logging = true → s.eventLogRun = true)

/-- What a cached walk found was present. -/
def WalkResult.present : WalkResult → Bool
  | .page .. => true
  | .fault pr _ _ _ => pr

/-- With `NpCache` = 0 no not-present entry is in the translation cache (spec/20_memory.md R111), and no device
table entry with `V` = 0 and `IV` = 0 in the device table cache (spec/70_reset_and_hazards.md R497 (e)). The rules speak
of whole entries. Of a half the model asks that its own `V` or `IV` is 1, or that the other half was known valid when
it was cached (DESIGN CHOICE, log entry 36). -/
abbrev State.onlyPresentCached (s : State) : Prop :=
  s.npCache = false → (∀ e ∈ s.tlb, e.result.present = true) ∧ ∀ e ∈ s.dteCache, e.valid = true

/-- Every device whose first fault has been logged under `SE` has an entry in the device table cache: the bit
lives with the cached entry (spec/10_state.md R55). That any cached half counts as the entry is the model's choice
(DESIGN CHOICE, log entry 39). -/
abbrev State.faultsWithCache (s : State) : Prop := ∀ d ∈ s.faultLogged, s.dteCached d = true

/-- `new` is the register `old` after a write of some bytes, the first of them its byte `lane`: each bit they cover
takes the data's, a reserved one 0, and every other bit stays (spec/10_state.md R28, R29). -/
abbrev takesBytes (old reserved : Reg) (lane : Nat) (data : List Byte) (new : Reg) : Prop :=
  ∀ n : Nat, n < 64 → new.getLsbD n =
    if 8 * lane ≤ n ∧ n < 8 * (lane + data.length) then
      (data.getD ((n - 8 * lane) / 8) 0).getLsbD ((n - 8 * lane) % 8) && !reserved.getLsbD n
    else old.getLsbD n

/-- An access of these bytes from byte `lane` of a register on is a legal one (R28). -/
abbrev laneAllowed (lane : Nat) (data : List Byte) : Prop :=
  data.length ∈ [1, 2, 4, 8] ∧ lane % data.length = 0 ∧ lane < 8

/-- `new` is the capability register `old`, at byte `place` of the block, after a configuration write of some bytes from
`offset` on: each writable bit that they cover takes the data's, and every other bit stays (spec/10_state.md R21 to
R26). -/
def capTakes (place : Nat) (old writable : CapReg) (offset : Nat) (data : List Byte) (new : CapReg) : Prop :=
  ∀ n : Nat, n < 32 → new.getLsbD n =
    if 8 * offset ≤ 8 * place + n ∧ 8 * place + n < 8 * (offset + data.length) ∧ writable.getLsbD n = true then
      (data.getD ((8 * place + n) / 8 - offset) 0).getLsbD (n % 8)
    else old.getLsbD n

/-- The 20 bytes of the capability block, lowest offset first (R20 to R25). -/
def State.capBytes (s : State) : List Byte :=
  leBytes 4 s.capHeader.toNat ++ leBytes 4 s.capBaseLow.toNat ++ leBytes 4 s.capBaseHigh.toNat ++
    leBytes 4 s.capRange.toNat ++ leBytes 4 s.capMisc.toNat

/-- The range shares no address with the enabled register region of 16K bytes (R27). -/
abbrev State.clearOfRegisters (s : State) (a n : Nat) : Prop :=
  s.locked = true → a + n ≤ s.mmioBase ∨ s.mmioBase + 16384 ≤ a

/-- An address of the enabled register region, by its offset. -/
def State.registerAddr (s : State) (offset : Nat) : Addr := BitVec.ofNat 64 (s.mmioBase + offset)

/-- The four caches hold nothing that they did not hold before. -/
def State.cachesWithin (s t : State) : Prop :=
  (∀ e ∈ t.dteCache, e ∈ s.dteCache) ∧ (∀ e ∈ t.tlb, e ∈ s.tlb) ∧ (∀ e ∈ t.pdc, e ∈ s.pdc) ∧
    ∀ e ∈ t.irtCache, e ∈ s.irtCache

/-! ### Commands -/

/-- The entry at the head of the command buffer can be read: its address is within `PAsize` bits and the
platform answers. -/
abbrev State.entryReadable (s : State) : Prop :=
  s.headAddr.toNat < 2 ^ s.paSize ∧ s.readAnswer s.headAddr.toNat 16 = none

/-- The 16 bytes of the entry at the head. -/
def State.entryBytes (s : State) : List Byte := s.mem.readBytes s.headAddr.toNat 16

/-- The state with one more command fetched and nothing of it done. -/
def State.held (s : State) (i : Instr) : State :=
  { s with cmdHead := s.nextHead, fetched := s.fetched ++ [⟨i, s.headAddr, .waiting⟩] }

/-- COMPLETION_WAIT has finished: with `s` = 1 the 8 bytes of the data stand at the address, little-endian, and every
other byte is as before; with `i` = 1 ComWaitInt is set, and the interrupt is due where it must be; the head pointer and
the fetched commands are the given ones, and nothing else has changed (spec/44_commands.md R342 to R345,
spec/60_exceptions.md R458). -/
def State.finishesWait (s t : State) (store int : Bool) (a : Addr) (d : BitVec 64) (head : Reg) (rest : List Command) :
    Prop :=
  (store = true → ∀ k : Nat, k < 8 →
    t.mem.read (a.toNat + k) = d.extractLsb' (8 * k) 8 ∧ t.dram.read (a.toNat + k) = d.extractLsb' (8 * k) 8) ∧
  (store = true → s.sameMemoryOutside t a.toNat 8) ∧ (store = false → s.sameMemory t) ∧
  (∀ n : Nat, t.status.getLsbD n = (s.status.getLsbD n || (int && decide (n = 2)))) ∧
  (int = true → s.comWaitIntEn = true → noSourceSet s.status = true → t.intDue = s.intDue + 1) ∧
  (int = false ∨ s.comWaitIntEn = false → t.intDue = s.intDue) ∧ s.intDue ≤ t.intDue ∧ t.intDue ≤ s.intDue + 1 ∧
  t.outputs = s.outputs ++ (if store then [.ownWrite a (leBytes 8 d.toNat) ⟨true, false, some false, none⟩] else []) ∧
  t = { s with
    cmdHead := head, fetched := rest, mem := t.mem, dram := t.dram, status := t.status, intDue := t.intDue,
    outputs := t.outputs }

/-- INVALIDATE_DEVTAB_ENTRY, from the command buffer entry at `addr`, has taken effect, with `before` and `after` the
commands fetched before and behind it: both halves of the device's entry and its first-fault state are gone and nothing
else of the caches, the lookups that have read half of its entry are marked, and the command has completed or waits for
the transactions it matches (spec/44_commands.md R347, R362, R367). -/
def State.devtabInvalidated (s t : State) (dev : DeviceId) (before after : List Command) (addr : Addr) (head : Reg) :
    Prop :=
  (∀ e, e ∈ t.dteCache ↔ (e ∈ s.dteCache ∧ e.dev ≠ dev)) ∧ t.dteCached dev = false ∧
  (∀ d, d ∈ t.faultLogged ↔ (d ∈ s.faultLogged ∧ d ≠ dev)) ∧
  t.inFlight = s.inFlight.map (fun u => { u with staleDte := u.staleDte || u.halfRead dev }) ∧
  (t.fetched = before ++ after ∨
    t.fetched = before ++ ⟨.invalidateDevtabEntry dev, addr, .draining (s.matchDevice dev)⟩ :: after) ∧
  (t.fetched = before ++ after ↔
    ((∀ f ∈ s.upReads ++ s.upWrites, f.orig.dev ≠ dev) ∧ ∀ u ∈ s.inFlight, u.tx.dev = dev → u.phase = .needDte)) ∧
  t = { s with
    cmdHead := head, dteCache := t.dteCache, faultLogged := t.faultLogged, inFlight := t.inFlight, fetched := t.fetched }

/-- INVALIDATE_IOMMU_PAGES with the range `r`, from the command buffer entry at `addr`, has taken effect, with `before`
and `after` the commands fetched before and behind it: every translation of the domain that meets the range is gone,
and with `pde` every directory entry of the domain that the range covers, the transactions under the domain are marked,
and the command has completed or waits for the transactions it matches (spec/44_commands.md R350, R362, R367). -/
def State.pagesInvalidated (s t : State) (m : DomainId) (size pde : Bool) (address : Addr) (r : PageRange)
    (before after : List Command) (addr : Addr) (head : Reg) : Prop :=
  (∀ e ∈ t.tlb, e ∈ s.tlb ∧ ¬(e.domain = m ∧ r.meets e.base e.bits = true)) ∧
  (∀ e ∈ t.pdc, e ∈ s.pdc ∧ ¬(pde = true ∧ e.domain = m ∧ r.covers e.base e.bits = true)) ∧
  t.inFlight = s.inFlight.map (fun u => { u with stale := u.stale || u.underDomain m }) ∧
  (t.fetched = before ++ after ∨
    t.fetched = before ++ ⟨.invalidateIommuPages m size pde address, addr, .draining (s.matchDomain m r)⟩ :: after) ∧
  (t.fetched = before ++ after ↔
    ((∀ f ∈ s.upReads ++ s.upWrites, ∀ p, f.used = some p → p.domain = m → r.meets p.base p.bits = false) ∧
      ∀ u ∈ s.inFlight, s.translatesIn m r u = false)) ∧
  t = { s with cmdHead := head, tlb := t.tlb, pdc := t.pdc, inFlight := t.inFlight, fetched := t.fetched }

/-- INVALIDATE_IOMMU_PAGES with the range that R153 leaves undefined has taken effect and completed: it has added
nothing to the caches it removes from, and the transactions under the domain are marked (U22). -/
def State.openPagesInvalidated (s t : State) (m : DomainId) (rest : List Command) (head : Reg) : Prop :=
  s.cachesWithin t ∧ t = { s with
    cmdHead := head, fetched := rest, tlb := t.tlb, pdc := t.pdc,
    inFlight := s.inFlight.map fun u => { u with stale := u.stale || u.underDomain m } }

/-- The state with the request of an INVALIDATE_IOTLB_PAGES, from the command buffer entry at `addr`, sent for the range
`r`, its timer running and the command waiting for the answer between the commands fetched before and behind it
(spec/44_commands.md R355, R357). -/
def State.requestSent (s : State) (dev : DeviceId) (maxpend : BitVec 8) (queue : BitVec 16) (size : Bool) (address : Addr)
    (r : PageRange) (before after : List Command) (addr : Addr) (head : Reg) : State :=
  { s with
    cmdHead := head
    outstanding := s.outstanding ++ [⟨s.nextId, dev, queue, addr, r, s.invTimeOut⟩]
    nextId := s.nextId + 1
    outputs := s.outputs ++ [.iotlbRequest dev queue r]
    fetched := before ++ ⟨.invalidateIotlbPages dev maxpend queue size address, addr, .requested s.nextId⟩ :: after }

/-- INVALIDATE_INTERRUPT_TABLE, from the command buffer entry at `addr`, has taken effect, with `before` and `after` the
commands fetched before and behind it: every interrupt remapping entry of the device is gone and nothing else of the
caches, the interrupts under way are marked, and the command has completed or waits for the transactions it matches
(spec/44_commands.md R359, R362, R367). -/
def State.irtInvalidated (s t : State) (dev : DeviceId) (before after : List Command) (addr : Addr) (head : Reg) : Prop :=
  (∀ e, e ∈ t.irtCache ↔ (e ∈ s.irtCache ∧ e.dev ≠ dev)) ∧ (∀ place n, t.hitIrte place dev n = none) ∧
  t.inFlight = s.inFlight.map (fun u => { u with stale := u.stale || u.remapsFor dev }) ∧
  (t.fetched = before ++ after ∨
    t.fetched = before ++ ⟨.invalidateInterruptTable dev, addr, .draining (s.matchInterrupt dev)⟩ :: after) ∧
  (t.fetched = before ++ after ↔
    ((∀ f ∈ s.upReads ++ s.upWrites, ¬(f.orig.dev = dev ∧ f.orig.isInterrupt = true)) ∧
      ∀ u ∈ s.inFlight, u.tx.dev = dev → u.tx.isInterrupt = true → u.phase = .needDte)) ∧
  t = { s with cmdHead := head, irtCache := t.irtCache, inFlight := t.inFlight, fetched := t.fetched }

/-- The specification gives the command an effect in this state: all but an INVALIDATE_IOTLB_PAGES that is
not supported (spec/44_commands.md R356) or whose address is undefined (spec/30_encoding.md R153). -/
def State.offers (s : State) : Instr → Prop
  | .invalidateIotlbPages _ _ _ _ address => s.iotlbSup = true ∧ iotlbAddressUndefined address = false
  | _ => True

/-- The command is a COMPLETION_WAIT with `s` = 1 and this store address. -/
def storesAt (a : Addr) : Instr → Prop
  | .completionWait store _ _ b _ => store = true ∧ b = a
  | _ => False

/-- The command is fetched and not completed, or stands at the head of the ring as the next fetch of the
IOMMU finds it. -/
def State.mayRun (s : State) (i : Instr) : Prop :=
  (∃ c ∈ s.fetched, c.instr = i) ∨ ∃ t e, s.fetchEntry = .ok (t, e) ∧ decodeEntry e = .instr i

/-- The IOMMU takes the action by itself: a read ahead, a fetch, a command or a transaction that goes on, a
report, an interrupt, an expiry, the loss of a cached entry, the fall of a run bit. -/
def Action.own : Action → Bool
  | .prefetch _ => true
  | .fetch => true
  | .run _ => true
  | .advance _ _ => true
  | .report _ => true
  | .sendInterrupt => true
  | .timeout _ => true
  | .dropDte _ _ => true
  | .dropTlb _ => true
  | .dropPdc _ => true
  | .dropIrte _ => true
  | .settleCmdRun => true
  | .settleEvtRun => true
  | _ => false

/-! ### The end of a run (spec/70_reset_and_hazards.md R504) -/

/-- The command processor is quiescent: nothing to fetch, no command fetched and incomplete, no invalidation
outstanding. -/
abbrev State.commandsQuiescent (s : State) : Prop :=
  (s.cmdHead = s.cmdTail ∨ s.fetching = false) ∧ s.fetched = [] ∧ s.outstanding = []

/-- The event logger is quiescent: no event waits for its report. -/
abbrev State.loggerQuiescent (s : State) : Prop := s.pendingEvents = []

/-- The transaction engine is quiescent: no transaction is in flight, that is accepted and not finished by the IOMMU
(spec/10_state.md R58). That one already forwarded upstream, and not yet answered or not yet at the host bridge,
is no longer the engine's is the model's choice (DESIGN CHOICE, log entry 41). -/
abbrev State.engineQuiescent (s : State) : Prop := s.inFlight = []

/-- Command processing is halted on an error before the ring is empty, with nothing enabled to step: stuck
until software restarts it, and no end. -/
abbrev State.stuck (s : State) : Prop :=
  s.halted = true ∧ s.cmdHead ≠ s.cmdTail ∧ s.fetched = [] ∧ s.outstanding = []

/-- A run has ended: everything is quiescent and nothing is stuck. -/
abbrev State.ended (s : State) : Prop :=
  s.commandsQuiescent ∧ s.loggerQuiescent ∧ s.engineQuiescent ∧ ¬s.stuck

/-! ### Transactions -/

/-- How far a transaction's processing has got, in stages. -/
def TxPhase.stage : TxPhase → Nat
  | .needDte => 0
  | .haveLow _ _ => 1
  | .haveHigh _ _ => 1
  | .walking _ w => if w.fresh then 2 else 3
  | .readIrte _ _ => 3

/-- A phase is further than another: a later stage, or the same walk at a lower level of the tables. -/
def TxPhase.further (p q : TxPhase) : Prop :=
  p.stage < q.stage ∨
    ∃ d v w, p = .walking d v ∧ q = .walking d w ∧ v.fresh = false ∧ w.fresh = false ∧ w.level < v.level

/-- The transaction is no longer being processed, the others are as before. -/
def State.leaves (s u : State) (t : InFlight) : Prop := u.inFlight = s.inFlight.filter fun x => decide (x.id ≠ t.id)

/-- The transaction `orig` is under way upstream as `sent` from now on, with the translation it used: a posted write
among those still to reach the host bridge, a read, a non-posted write or an atomic operation among those still to be
answered, any other kind among neither (spec/40_transactions.md R176, spec/44_commands.md R363, R365). The answer is
obscured for no other than a translated zero-byte read (spec/40_transactions.md R205). -/
def State.underWay (s u : State) (id : Nat) (orig sent : Transaction) (used : Option PageUse) : Prop :=
  ∃ obscure : Bool, (obscure = true → orig.kind = .zeroByteRead ∧ used ≠ none) ∧
    u.upReads = s.upReads ++
      (if orig.kind = .read ∨ orig.kind = .writeNonPosted ∨ orig.kind = .atomic ∨ orig.kind = .zeroByteRead then
        [⟨id, orig, sent, used, obscure⟩]
      else []) ∧
    u.upWrites = s.upWrites ++ (if orig.kind = .writePosted then [⟨id, orig, sent, used, obscure⟩] else [])

/-- The transaction has gone upstream as `sent`, with the translation it used if it was translated, and no event is
raised. -/
def State.forwards (s u : State) (t : InFlight) (sent : Transaction) (used : Option PageUse) : Prop :=
  s.leaves u t ∧ u.outputs = s.outputs ++ [.forwarded sent] ∧ u.pendingEvents = s.pendingEvents ∧
    s.underWay u t.id t.tx sent used

/-- The transaction has been refused with this abort and these new events, and nothing has gone upstream. -/
def State.aborts (s u : State) (t : InFlight) (a : Abort) (events : List PendingEvent) : Prop :=
  s.leaves u t ∧ u.outputs = s.outputs ++ [.aborted t.tx a] ∧ u.pendingEvents = s.pendingEvents ++ events ∧
    u.upReads = s.upReads ∧ u.upWrites = s.upWrites

/-- The transaction, a translation request, has been answered with these pages, and no event is raised. -/
def State.answers (s u : State) (t : InFlight) (pages : List Config.PageAnswer) : Prop :=
  s.leaves u t ∧ u.outputs = s.outputs ++ [.translation t.tx pages] ∧ u.pendingEvents = s.pendingEvents ∧
    u.upReads = s.upReads ∧ u.upWrites = s.upWrites

/-- The events of an invalid request: INVALID_DEVICE_REQUEST of a type, none where `IV` = 1 and `IG` = 1
(spec/60_exceptions.md R450 to R452). -/
def State.requestEvents (s : State) (t : InFlight) (d : Dte) (type : BitVec 3) : List PendingEvent :=
  if d.iv && d.ig then [] else [⟨.invalidDeviceRequest t.tx.dev type t.tx.isTransReq t.tx.addr, none, s.detected⟩]

/-- The event of a page fault of a memory access: IO_PAGE_FAULT with these fields, none where `SA` = 1, and with
`SE` = 1 left to the first-fault state (spec/60_exceptions.md R443 to R445). -/
def State.faultEvents (s : State) (t : InFlight) (d : Dte) (rz pe rw pr : Bool) : List PendingEvent :=
  if d.sa then []
  else [⟨.ioPageFault t.tx.dev false rz pe rw pr false d.domain t.tx.addr, if d.se then some t.tx.dev else none,
    s.detected⟩]

/-- What `RW` says of a kind of transaction where it is meaningful: 0 for a read, 1 for a write
(spec/60_exceptions.md R443). -/
abbrev TxKind.rwIs (k : TxKind) (rw : Bool) : Prop :=
  (k = .read ∨ k = .zeroByteRead → rw = false) ∧ (k = .writePosted ∨ k = .writeNonPosted → rw = true)

/-- The cache has this entry at the place that is named. -/
abbrev standsAt {α : Type} (cache : List α) (place : Option Nat) (e : α) : Prop := (place.bind fun p => cache[p]?) = some e

/-- The place that is named holds this half of the device's entry, the high or the low one: the half hits. -/
def State.usesHalf (s : State) (place : Option Nat) (dev : DeviceId) (high : Bool) (half : BitVec 128) : Prop :=
  ∃ e : DteCacheEntry, standsAt s.dteCache place e ∧ e.dev = dev ∧ e.high = high ∧ e.half = half

/-- No place is named, or the one that is holds no such half of the device's entry. -/
def State.usesNoHalf (s : State) (place : Option Nat) (dev : DeviceId) (high : Bool) : Prop :=
  ∀ e : DteCacheEntry, standsAt s.dteCache place e → e.dev = dev → e.high = high → False

/-- The place that is named holds this translation, of the domain and the address: it hits. -/
abbrev State.usesTlb (s : State) (place : Option Nat) (m : DomainId) (dva : Addr) (e : TlbEntry) : Prop :=
  standsAt s.tlb place e ∧ e.domain = m ∧ rangesMeet e.base e.bits dva 0 = true

/-- The place that is named holds this directory entry, of the domain and the address: it hits. -/
abbrev State.usesPdc (s : State) (place : Option Nat) (m : DomainId) (dva : Addr) (e : PdcEntry) : Prop :=
  standsAt s.pdc place e ∧ e.domain = m ∧ rangesMeet e.base e.bits dva 0 = true

/-- The place that is named holds this interrupt remapping entry, of the device and the offset: it hits. -/
abbrev State.usesIrte (s : State) (place : Option Nat) (dev : DeviceId) (offset : Nat) (e : IrtCacheEntry) : Prop :=
  standsAt s.irtCache place e ∧ e.dev = dev ∧ e.offset = offset

/-- The device table cache after the whole entry `d` has been read for a transaction: its halves are put in where
the choice says so, unless the entry has been invalidated meanwhile (spec/44_commands.md R362), or is one with
`V` = 0 and `IV` = 0 and `NpCache` = 0 (spec/41_device_table.md R249, spec/70_reset_and_hazards.md R497 (e)). -/
def State.dteCacheWith (s : State) (t : InFlight) (c : TxChoice) (d : Dte) : List DteCacheEntry :=
  if c.keepDte = true ∧ t.staleDte = false ∧ (d.v = true ∨ d.iv = true ∨ s.npCache = true) then
    ⟨t.tx.dev, false, d.lo, d.iv⟩ :: ⟨t.tx.dev, true, d.hi, d.v⟩ :: s.dteCache
  else s.dteCache

/-- The device table cache after one half of the entry, `half`, has been read for a transaction and the other is still
to be read: the half is put in where the choice says so, unless the entry has been invalidated meanwhile, or neither it
nor a cached copy of the other half is marked valid and `NpCache` = 0. -/
def State.dteCacheHalf (s : State) (t : InFlight) (c : TxChoice) (half : BitVec 128) : List DteCacheEntry :=
  let known := decide (∃ e ∈ s.dteCache, e.dev = t.tx.dev ∧ e.high ≠ c.highFirst ∧ e.half.getLsbD 0 = true)
  if c.keepDte = true ∧ t.staleDte = false ∧ (half.getLsbD 0 = true ∨ known = true ∨ s.npCache = true) then
    ⟨t.tx.dev, c.highFirst, half, known⟩ :: s.dteCache
  else s.dteCache

/-- The cache entries in which the result of a walk that holds for the `2^bits` bytes around its address is kept: one for
each address of the choice that lies in them, of all those bytes or of the 4K piece of the address
(spec/20_memory.md R124). -/
def keptPieces (t : InFlight) (d : Dte) (w : Walk) (c : TxChoice) (bits : Nat) (r : WalkResult) : List TlbEntry :=
  (c.keepTlb.filter fun a => decide (a.toNat / 2 ^ bits = w.dva.toNat / 2 ^ bits)).map fun a =>
    ⟨d.domain, t.tx.dev, alignDown a (if c.split4k then 12 else bits), if c.split4k then 12 else bits, r, w.dteIr, w.dteIw⟩

/-- A read of the device table for the transaction has failed at this address, after these accesses: a target abort
with DEV_TAB_HARDWARE_ERROR (spec/41_device_table.md R249, spec/60_exceptions.md R438). -/
def State.lookupFails (s u : State) (t : InFlight) (reads : List Output) (f : ReadFailure) (a : Addr) : Prop :=
  ∃ rw, (rangeOf t.tx.addr ≠ .interruptEoi → t.tx.kind.rwIs rw) ∧ s.leaves u t ∧
    u.outputs = s.outputs ++ reads ++ [.aborted t.tx .targetAbort] ∧
    u.pendingEvents = s.pendingEvents ++
      [⟨.devTabHardwareError t.tx.dev f.code (decide (t.tx.kind = .transReq)) rw
        (decide (rangeOf t.tx.addr = .interruptEoi)) a, none, s.detected⟩]

/-- The answer `r` completes the device table entry of the transaction by the read `rest` of its second half, `whole`
joining the half to the one that is known: the transaction is judged under the whole entry, which may be cached, or
the read fails (spec/41_device_table.md R249). A half of an access issued before makes no access of its own. -/
def State.completesEntry (s : State) (t : InFlight) (c : TxChoice) (rest : HalfRead) (whole : BitVec 128 → Dte)
    (r : Result) : Prop :=
  ∀ (half : BitVec 128) (reads : List Output), rest.addr.toNat < 2 ^ s.paSize →
    half = wordOf 128 ((if rest.issued.getD s.coherent then s.mem else s.dram).readBytes rest.addr.toNat 16) →
    reads = (if rest.issued = none then
      [.ownRead rest.addr 16 ⟨s.coherent, s.isoc, some s.passPW, some s.resPassPW⟩] else []) →
    (s.readAnswer rest.addr.toNat 16 = none → r = .next (State.judged
      { s with outputs := s.outputs ++ reads, dteCache := s.dteCacheWith t c (whole half) } t (whole half))) ∧
    ∀ f, s.readAnswer rest.addr.toNat 16 = some f → ∃ u, r = .next u ∧ s.lookupFails u t reads f rest.addr

/-- The state with the transaction's walk about to begin in the table at `root` (spec/42_page_tables.md R280). -/
def State.startsWalk (s : State) (t : InFlight) (d : Dte) (root dva : Addr) : State :=
  { s with inFlight := s.inFlight.map fun x => if x.id = t.id then
      { x with phase := .walking d ⟨dva, root, d.mode, 64, true, true, d.ir, d.iw, true⟩ }
    else x }

/-- The transaction, a translation request, has been answered that nothing is present, after these accesses, and no
event is raised (spec/40_transactions.md R207). -/
def State.answersAbsent (s u : State) (t : InFlight) (reads : List Output) : Prop :=
  s.leaves u t ∧ u.pendingEvents = s.pendingEvents ∧
    ∃ p rest, u.outputs = s.outputs ++ reads ++ [.translation t.tx (p :: rest)] ∧ p.r = false ∧ p.w = false ∧
      rest.length = t.tx.npages - 1

/-- The interrupt has been blocked before any table entry was read: a target abort with IO_PAGE_FAULT of `PR` = 0
and `I` = 1, none where `IG` = 1 (spec/43_interrupt_remapping.md R308, R315). -/
def State.blocksInterrupt (s u : State) (t : InFlight) (d : Dte) : Prop :=
  ∃ rz pe rw m, (d.v = true → m = d.domain) ∧ s.aborts u t .targetAbort
    (if d.ig then [] else [⟨.ioPageFault t.tx.dev false rz pe rw false true m t.tx.addr, none, s.detected⟩])

/-- A transaction that the translation part governs: not a translation request, not pre-translated, not in the
two interrupt ranges (spec/40_transactions.md R175). -/
abbrev Transaction.untranslated (tx : Transaction) : Prop :=
  tx.kind ≠ .transReq ∧ tx.preTranslated = false ∧ rangeOf tx.addr ≠ .reservedInterrupt ∧ rangeOf tx.addr ≠ .interruptEoi

/-- The address is in none of the ranges that a field of the device table entry controls, nor in the address
translation range while HtAtsResv = 1 refuses it (R184, R190). -/
abbrev State.uncontrolled (s : State) (tx : Transaction) : Prop :=
  rangeOf tx.addr ≠ .systemManagement ∧ rangeOf tx.addr ≠ .ioSpace ∧
    (rangeOf tx.addr = .addressTranslation → s.htAtsResv = false)

end Sys2Proof.Machine
end

