-- ==== Sys2Proof/Certificates/Slice0/Obligations.lean ====
section
/-! DEFINITION. The statements for the provers. Each docstring names the rule of the specification that the
statement formalises; where a clause rests on a choice of the model it names the log entry. -/

section

open Sys2Proof Sys2Proof.Machine

/-! ### Encoding -/

/-- Decoding the 16 bytes of a well-formed command gives the command back (spec/30_encoding.md R140 to R150,
R155; the bit positions are those of log entry 1). -/
def Obligations.DecodeOfEncode : Prop :=
  ∀ i : Instr, i.wellFormed = true →
    decode (encode i) = .instr i ∧ decodeEntry (encodeEntry i) = .instr i ∧ (encode i).length = 16

/-- Every command that decodes is well formed, and is the encoding of what it decodes to: no two words mean the
same command (R155; log entry 1). -/
def Obligations.EncodeOfDecode : Prop :=
  ∀ (bytes : List Byte) (i : Instr), bytes.length = 16 → decode bytes = .instr i →
    i.wellFormed = true ∧ encode i = bytes

/-- A word is refused for its opcode, bits 63:60, exactly where the opcode is none of 0001b to 0101b, and for a reserved
bit exactly where the opcode is one of them and a bit of its mask, written out here as R151 lists the five, is set
(R151, R152; log entry 1). -/
def Obligations.RefusedWords : Prop :=
  ∀ w : Entry,
    (decodeEntry w = .illegal .unsupportedOpcode ↔
      (w.extractLsb' 60 4 = 0#4 ∨ 5 < (w.extractLsb' 60 4).toNat)) ∧
    (decodeEntry w = .illegal .reservedBits ↔
      (w.extractLsb' 60 4 = 1#4 ∧ w &&& 0x00000000_00000000_0FF00000_00000000#128 ≠ 0 ∨
       w.extractLsb' 60 4 = 2#4 ∧ w &&& 0xFFFFFFFF_FFFFFFFF_0FFFFFFF_FFFF0000#128 ≠ 0 ∨
       w.extractLsb' 60 4 = 3#4 ∧ w &&& 0x00000000_00000FFC_0FFF0000_FFFFFFFF#128 ≠ 0 ∨
       w.extractLsb' 60 4 = 4#4 ∧ w &&& 0x00000000_00000FFE_0FFF0000_00FF0000#128 ≠ 0 ∨
       w.extractLsb' 60 4 = 5#4 ∧ w &&& 0xFFFFFFFF_FFFFFFFF_0FFFFFFF_FFFF0000#128 ≠ 0)) ∧
    decodeEntry w ≠ .illegal .truncated

/-- One word of each command, written from the field tables (R143 to R150), decodes to it. -/
def Obligations.SampleWordsDecode : Prop :=
  decodeEntry 0x0123456789ABCDEF1000000123456789#128 =
      .instr (.completionWait true false false 0x0000000123456788 0x0123456789ABCDEF) ∧
    decodeEntry 0x00000000000000002000000000000108#128 = .instr (.invalidateDevtabEntry 0x0108) ∧
    decodeEntry 0x00000000401FF0033000000700000000#128 =
      .instr (.invalidateIommuPages 0x0007 true true 0x00000000401FF000) ∧
    decodeEntry 0x7FFFFFFFFFFFF0014000031020000310#128 =
      .instr (.invalidateIotlbPages 0x0310 0x20 0x0310 true 0x7FFFFFFFFFFFF000) ∧
    decodeEntry 0x000000000000000050000000000000A0#128 = .instr (.invalidateInterruptTable 0x00A0)

/-- The range that `S` and `Address` encode (R148): one 4K page for `S` = 0; for `S` = 1 the aligned power of
two fixed by the first zero bit from bit 12 up; no range where there is no zero bit (R153). A page meets such a
range exactly where they share an address, and a span is covered exactly where it lies inside; an address is held
exactly where it lies inside (spec/44_commands.md R350: "intersects", "lies wholly inside"). -/
def Obligations.RangeOfInvalidation : Prop :=
  (∀ a : Addr, invRange false a = some ⟨BitVec.ofNat 64 (a.toNat / 2 ^ 12 * 2 ^ 12), 12⟩) ∧
  (∀ (a : Addr) (k : Nat), 12 ≤ k → k < 64 → (∀ j, 12 ≤ j → j < k → a.getLsbD j = true) → a.getLsbD k = false →
    ∃ r, invRange true a = some r ∧ r.bits = k + 1 ∧ r.base.toNat = a.toNat / 2 ^ (k + 1) * 2 ^ (k + 1)) ∧
  (∀ a : Addr, (∀ j, 12 ≤ j → j < 64 → a.getLsbD j = true) → invRange true a = none) ∧
  (∀ (r : PageRange) (base : Addr) (bits : Nat), r.bits ≤ 64 → bits ≤ 64 → r.base.toNat % 2 ^ r.bits = 0 →
    base.toNat % 2 ^ bits = 0 →
    (r.meets base bits = true ↔
      ∃ x : Nat, r.base.toNat ≤ x ∧ x < r.base.toNat + 2 ^ r.bits ∧ base.toNat ≤ x ∧ x < base.toNat + 2 ^ bits) ∧
    (r.covers base bits = true ↔
      (r.base.toNat ≤ base.toNat ∧ base.toNat + 2 ^ bits ≤ r.base.toNat + 2 ^ r.bits))) ∧
  (∀ (r : PageRange) (x : Addr), r.bits ≤ 64 → r.base.toNat % 2 ^ r.bits = 0 →
    (r.holds x = true ↔ (r.base.toNat ≤ x.toNat ∧ x.toNat < r.base.toNat + 2 ^ r.bits)))

/-! ### The command processor -/

/-- Where the agenda is empty, the command processor can fetch, and the 16 bytes at the head (or the copy read
ahead) decode to a command, the step is exec of that command, at the state with a fresh draw and the trace of
the read (or with the copy used up) (R334, R337). R334 says only that the IOMMU may fetch: that an empty agenda
fetches first and begins the command in the same step is the model's schedule (log entries 7 and 9), and so is
the copy read ahead (log entry 34). The action of fetching alone takes the same command into the fetched ones and
begins nothing of it (R334 to R336; a command that is not legal is the matter of CommandErrorsHalt), and does nothing
while no command can be fetched. The action of reading ahead copies the 16 bytes of one entry between head and tail,
once; of an entry outside that range, of one copied already, or of one whose read fails it copies nothing (R337,
spec/20_memory.md R105; what a copy is and that a failed read ahead leaves nothing is log entry 34). Where the agenda is
not empty the step is its first action, at the state with a fresh draw and the rest of the agenda left (the agenda is log
entry 7). -/
def Obligations.StepRunsDecodedCommand : Prop :=
  (∀ (s : State) (i : Instr), s.agenda = [] → s.canFetch = true →
    ((s.prefetchedAt s.headIndex = none → s.entryReadable → decode s.entryBytes = .instr i →
        step s = exec i (s.tick.sawRead s.headAddr 16 ringAttrs)) ∧
     (∀ w : Entry, s.prefetchedAt s.headIndex = some w → decodeEntry w = .instr i →
        step s = exec i (s.tick.dropPrefetched s.headIndex)))) ∧
  (∀ s : State, s.headAddr.toNat = (s.cmdBase.extractLsb' 12 40).toNat * 4096 + 16 * s.headIndex) ∧
  (∀ (s : State) (i : Instr), s.canFetch = true →
    (∀ dev maxpend queue size address, i = .invalidateIotlbPages dev maxpend queue size address → s.iotlbSup = true) →
    ((s.prefetchedAt s.headIndex = none → s.entryReadable → decode s.entryBytes = .instr i →
        s.act .fetch = .next ((s.sawRead s.headAddr 16 ringAttrs).held i)) ∧
     (∀ w : Entry, s.prefetchedAt s.headIndex = some w → decodeEntry w = .instr i →
        s.act .fetch = .next ((s.dropPrefetched s.headIndex).held i)))) ∧
  (∀ s : State, s.canFetch = false → s.act .fetch = .next s) ∧
  (∀ (s : State) (ahead index : Nat) (a : Addr), index = (s.headIndex + ahead) % s.cmdEntries →
    a.toNat = (s.cmdBase.extractLsb' 12 40).toNat * 4096 + 16 * index → a.toNat < 2 ^ s.paSize →
    s.act (.prefetch ahead) = .next
      (if s.canFetch = true ∧ ahead < (s.tailIndex + s.cmdEntries - s.headIndex) % s.cmdEntries ∧
          s.prefetchedAt index = none ∧ s.readAnswer a.toNat 16 = none then
        { s with
          outputs := s.outputs ++ [.ownRead a 16 ringAttrs]
          prefetched := s.prefetched ++ [⟨index, wordOf 128 (s.mem.readBytes a.toNat 16)⟩] }
      else s)) ∧
  (∀ (s : State) (a : Action) (rest : List Action), s.agenda = a :: rest →
    step s = State.act { s with agenda := rest, draws := s.draws + 1 } a)

/-- An entry that does not decode, or that is an INVALIDATE_IOTLB_PAGES where IotlbSup = 0, raises
ILLEGAL_COMMAND_ERROR with its address, and a read of the command buffer that fails raises COMMAND_HARDWARE_ERROR with
the type of the failure and the address, in the step that would begin the command and in a fetch alone; either halts
command processing, nothing else happens, and the head pointer is at the entry or after it
(spec/44_commands.md R338, spec/60_exceptions.md R439, R447, R448; the two places of the head pointer are D16,
log entry 11; the mark that says what the log was doing is log entry 13). -/
def Obligations.CommandErrorsHalt : Prop :=
  ∀ (s : State) (r : Result) (drawn : Nat), s.canFetch = true →
    s.agenda = [] ∧ r = step s ∧ drawn = 1 ∨ r = s.act .fetch ∧ drawn = 0 →
    (∀ (d : Decoded) (u : State),
      (∃ e, d = .illegal e) ∨ s.iotlbSup = false ∧
        (∃ dev maxpend queue size address, d = .instr (.invalidateIotlbPages dev maxpend queue size address)) →
      s.prefetchedAt s.headIndex = none ∧ s.entryReadable ∧ d = decode s.entryBytes ∧
          u = { s with outputs := s.outputs ++ [.ownRead s.headAddr 16 ringAttrs] } ∨
        (∃ w, s.prefetchedAt s.headIndex = some w ∧ d = decodeEntry w ∧
          u = { s with prefetched := s.prefetched.filter fun p => decide (p.index ≠ s.headIndex) }) →
      ∃ t, r = .next t ∧ t.halted = true ∧ t.fetching = false ∧
        t.pendingEvents = s.pendingEvents ++ [⟨.illegalCommandError s.headAddr, none, s.detected⟩] ∧
        (t.cmdHead = s.cmdHead ∨ t.cmdHead = s.nextHead) ∧
        t = { u with
          halted := t.halted, cmdHead := t.cmdHead, pendingEvents := t.pendingEvents, draws := s.draws + drawn }) ∧
    (∀ f : ReadFailure, s.prefetchedAt s.headIndex = none →
      s.headAddr.toNat < 2 ^ s.paSize → s.readAnswer s.headAddr.toNat 16 = some f →
      ∃ t, r = .next t ∧ t.halted = true ∧ t.fetching = false ∧
        t.pendingEvents = s.pendingEvents ++ [⟨.commandHardwareError f.code s.headAddr, none, s.detected⟩] ∧
        (t.cmdHead = s.cmdHead ∨ t.cmdHead = s.nextHead) ∧
        t = { s with
          halted := t.halted, cmdHead := t.cmdHead, pendingEvents := t.pendingEvents,
          outputs := s.outputs ++ [.ownRead s.headAddr 16 ringAttrs], draws := s.draws + drawn })

/-- The head pointer moves by one entry, modulo the ring, once for every command fetched and found legal,
whatever the command is, where the same step begins it and where it is only fetched; going on with a fetched command
does not move it (R335). -/
def Obligations.HeadAdvancesOncePerCommand : Prop :=
  (∀ (i : Instr) (s t : State), s.offers i → exec i s = .next t →
    t.headIndex = (s.headIndex + 1) % s.cmdEntries ∧ t.cmdHead &&& MmioReg.cmdHead.reserved = 0) ∧
  (∀ (s : State) (i : Instr), s.canFetch = true →
    (∀ dev maxpend queue size address, i = .invalidateIotlbPages dev maxpend queue size address → s.iotlbSup = true) →
    (s.prefetchedAt s.headIndex = none ∧ s.entryReadable ∧ decode s.entryBytes = .instr i) ∨
      (∃ w, s.prefetchedAt s.headIndex = some w ∧ decodeEntry w = .instr i) →
    ∃ t, s.act .fetch = .next t ∧ t.headIndex = (s.headIndex + 1) % s.cmdEntries ∧
      t.cmdHead &&& MmioReg.cmdHead.reserved = 0) ∧
  (∀ (s t : State) (k : Nat), s.act (.run k) = .next t → t.cmdHead = s.cmdHead)

/-- COMPLETION_WAIT with nothing older in progress finishes at once (R342): with `s` = 1 the 8 bytes of the
data stand at the address, little-endian (R344), with `i` = 1 ComWaitInt is set (R345) and the interrupt is due
where no source bit was set and ComWaitIntEn = 1 (spec/60_exceptions.md R458); nothing else changes. A store to
an address wider than PAsize changes at most the 8 bytes at what is left of it within PAsize bits (U31, log
entry 20). -/
def Obligations.CompletionWaitCompletes : Prop :=
  ∀ (s : State) (store int fence : Bool) (a : Addr) (d : BitVec 64), s.fetched = [] → s.commandEventPending = false →
    ((s.memoryCanonical → (store = true → s.ownMemory a.toNat 8) →
      ∃ t, exec (.completionWait store int fence a d) s = .next t ∧ s.finishesWait t store int a d s.nextHead []) ∧
     (2 ^ s.paSize ≤ a.toNat → ∀ t, exec (.completionWait true int fence a d) s = .next t →
        s.sameMemoryOutside t (a.toNat % 2 ^ s.paSize) 8 ∧ t.comWaitInt = (s.comWaitInt || int) ∧
          t.cmdHead = s.nextHead ∧ t.fetched = []))

/-- COMPLETION_WAIT behind a command that has not completed (or an event of a command not yet logged) is fetched
and has no effect, and it stays so while an older command is there; once nothing older is left it finishes when it goes
on, with the same effects as one that finishes at its fetch: the 8 bytes stored, ComWaitInt and the interrupt, the
commands behind it left as they are and the head pointer where it is (R342, R344, R345, R363, spec/60_exceptions.md R458;
waiting for every older command, and for the events of every command, is log entry 9). A store to an address wider than
PAsize changes at most the 8 bytes at what is left of it within PAsize bits (U31, log entry 20). -/
def Obligations.CompletionWaitWaitsForOlder : Prop :=
  (∀ (s : State) (store int fence : Bool) (a : Addr) (d : BitVec 64),
    s.fetched ≠ [] ∨ s.commandEventPending = true →
    exec (.completionWait store int fence a d) s = .next (s.held (.completionWait store int fence a d))) ∧
  (∀ (s : State) (k : Nat) (c : Command) (store int fence : Bool) (a : Addr) (d : BitVec 64),
    s.fetched[k]? = some c → c.instr = .completionWait store int fence a d → c.phase = .waiting →
    0 < k ∨ s.commandEventPending = true → s.act (.run k) = .next s) ∧
  (∀ (s : State) (c : Command) (rest : List Command) (store int fence : Bool) (a : Addr) (d : BitVec 64),
    s.fetched = c :: rest → c.instr = .completionWait store int fence a d → c.phase = .waiting →
    s.commandEventPending = false →
    (s.memoryCanonical → (store = true → s.ownMemory a.toNat 8) →
      ∃ t, s.act (.run 0) = .next t ∧ s.finishesWait t store int a d s.cmdHead rest) ∧
    (store = true → 2 ^ s.paSize ≤ a.toNat → ∀ t, s.act (.run 0) = .next t →
      s.sameMemoryOutside t (a.toNat % 2 ^ s.paSize) 8 ∧ t.comWaitInt = (s.comWaitInt || int) ∧
        t.cmdHead = s.cmdHead ∧ t.fetched = rest))

/-- INVALIDATE_DEVTAB_ENTRY removes both halves of the cached entry of the device and its first-fault state, and
nothing of any other device nor of any other cache (R347); a lookup of the device that has read half of its entry
caches nothing of it from then on (R362; the mark `staleDte` is log entry 36). It stays among the fetched commands
exactly while transactions of the device that relied on the entry are in progress, and waits for every one of them:
those of the device for which something has been read, and those of it that are under way upstream (R362, R367; log
entry 10). All this holds where it begins in the step that fetches it and where, fetched before and held back or not
begun, it begins when it goes on: then the head pointer stays, and it keeps its place between the commands fetched before
and behind it, which stay as they are (R336). -/
def Obligations.InvalidateDevtabEntryCompletes : Prop :=
  ∀ (s : State) (dev : DeviceId),
    (fenced s.fetched = false → ∃ t, exec (.invalidateDevtabEntry dev) s = .next t ∧
      s.devtabInvalidated t dev s.fetched [] s.headAddr s.nextHead) ∧
    (∀ (before after : List Command) (addr : Addr),
      s.fetched = before ++ ⟨.invalidateDevtabEntry dev, addr, .waiting⟩ :: after → fenced before = false →
      ∃ t, s.act (.run before.length) = .next t ∧ s.devtabInvalidated t dev before after addr s.cmdHead) ∧
    (∀ u : InFlight, u.halfRead dev = true ↔ (u.tx.dev = dev ∧
      ((∃ lo rest, u.phase = .haveLow lo rest) ∨ ∃ hi rest, u.phase = .haveHigh hi rest))) ∧
    (∀ id : Nat, id ∈ s.matchDevice dev ↔
      ((∃ u ∈ s.inFlight, u.id = id ∧ u.tx.dev = dev ∧ u.phase ≠ .needDte) ∨
        ∃ f ∈ s.upReads ++ s.upWrites, f.id = id ∧ f.orig.dev = dev))

/-- INVALIDATE_IOMMU_PAGES removes every cached translation of the domain whose page meets the range, and with `PDE` =
1 every cached directory entry of the domain whose span the range covers (R350); no transaction that has read an entry
of the domain, or that an INVALIDATE_DEVTAB_ENTRY has overtaken before its low half was read, caches what it finds
from then on (R362, R367; the mark `stale` is log entry 36); it adds nothing to any cache and changes no memory. It
stays among the fetched commands exactly while forwarded transactions that used a translation it removes, or
transactions being translated in the range, are in progress, and waits for every one of them: a transaction is being
translated in the range while it walks the domain's tables for an address of it, or has read the low half of an entry
of the domain and is going to (R362, R363, R367; log entry 10). What else it removes is open
(R352, log entry 18). With the range that R153 leaves undefined (`S` = 1 and Address[63:12] all ones) it runs too: it
removes from the caches what it likes, completes at once, and keeps every other part of the state but the mark on the
transactions (U22, log entry 18). All this holds where it begins in the step that fetches it and where, fetched before
and held back or not begun, it begins when it goes on: then the head pointer stays, and it keeps its place between the
commands fetched before and behind it, which stay as they are (R336). -/
def Obligations.InvalidateIommuPagesCompletes : Prop :=
  (∀ (s : State) (m : DomainId) (size pde : Bool) (address : Addr) (r : PageRange), invRange size address = some r →
    (fenced s.fetched = false → devtabPending s.fetched = false →
      ∃ t, exec (.invalidateIommuPages m size pde address) s = .next t ∧
        s.pagesInvalidated t m size pde address r s.fetched [] s.headAddr s.nextHead) ∧
    (∀ (before after : List Command) (addr : Addr),
      s.fetched = before ++ ⟨.invalidateIommuPages m size pde address, addr, .waiting⟩ :: after →
      fenced before = false → devtabPending before = false →
      ∃ t, s.act (.run before.length) = .next t ∧
        s.pagesInvalidated t m size pde address r before after addr s.cmdHead) ∧
    (∀ u : InFlight, u.underDomain m = true ↔
      ((∃ d w, u.phase = .walking d w ∧ d.domain = m) ∨ (∃ lo rest, u.phase = .haveLow lo rest ∧ (Dte.mk lo 0).domain = m) ∨
        (u.staleDte = true ∧ ∃ hi rest, u.phase = .haveHigh hi rest))) ∧
    (∀ id : Nat, id ∈ s.matchDomain m r ↔ ((∃ u ∈ s.inFlight, u.id = id ∧ s.translatesIn m r u = true) ∨
      ∃ f ∈ s.upReads ++ s.upWrites, f.id = id ∧
        ∃ p, f.used = some p ∧ p.domain = m ∧ r.meets p.base p.bits = true)) ∧
    (∀ u : InFlight, s.translatesIn m r u = true ↔
      ((∃ d w, u.phase = .walking d w ∧ d.domain = m ∧ r.holds w.dva = true) ∨
        ∃ lo rest, u.phase = .haveLow lo rest ∧ (Dte.mk lo 0).domain = m ∧
          (r.holds u.tx.addr = true ∨ r.holds (BitVec.ofNat 64 (u.tx.addr.toNat % 2 ^ s.vaSize)) = true)))) ∧
  (∀ (s : State) (m : DomainId) (pde : Bool) (address : Addr), invRange true address = none →
    (fenced s.fetched = false → devtabPending s.fetched = false →
      ∃ t, exec (.invalidateIommuPages m true pde address) s = .next t ∧
        s.openPagesInvalidated t m s.fetched s.nextHead) ∧
    (∀ (before after : List Command) (addr : Addr),
      s.fetched = before ++ ⟨.invalidateIommuPages m true pde address, addr, .waiting⟩ :: after →
      fenced before = false → devtabPending before = false →
      ∃ t, s.act (.run before.length) = .next t ∧ s.openPagesInvalidated t m (before ++ after) s.cmdHead))

/-- INVALIDATE_IOTLB_PAGES sends its request to the device, for the range it names, with the timer's period as
InvTimeOut stands, and touches none of the IOMMU's own caches (R355, R357, R463). That the period is that of
the moment the request is sent is D46 (log entry 31). All this holds where it begins in the step that fetches it and
where, fetched before and held back or not begun, it begins when it goes on: then the head pointer stays, the request
carries the address of the entry the command came from, and the commands before and behind it stay as they are (R336). -/
def Obligations.InvalidateIotlbPagesSendsRequest : Prop :=
  ∀ (s : State) (dev : DeviceId) (maxpend : BitVec 8) (queue : BitVec 16) (size : Bool) (address : Addr) (r : PageRange),
    iotlbAddressUndefined address = false → invRange size address = some r → s.pendingFor queue < maxpend.toNat →
    (s.iotlbSup = true → fenced s.fetched = false → devtabPending s.fetched = false → pagesPending s.fetched = false →
      exec (.invalidateIotlbPages dev maxpend queue size address) s =
        .next (s.requestSent dev maxpend queue size address r s.fetched [] s.headAddr s.nextHead)) ∧
    (∀ (before after : List Command) (addr : Addr),
      s.fetched = before ++ ⟨.invalidateIotlbPages dev maxpend queue size address, addr, .waiting⟩ :: after →
      fenced before = false → devtabPending before = false → pagesPending before = false →
      s.act (.run before.length) =
        .next (s.requestSent dev maxpend queue size address r before after addr s.cmdHead))

/-- INVALIDATE_INTERRUPT_TABLE removes every cached interrupt remapping entry of the device and no other, and leaves
the cached device table entry alone (R359); an interrupt of the device whose entry has been read, or that an
INVALIDATE_DEVTAB_ENTRY has overtaken before its high half was read, caches nothing from then on (R362; the mark
`stale` is log entry 36). It stays among the fetched commands exactly while interrupts of the device that relied on
them are in progress, and waits for every one of them (R362, R367; log entry 10). All this holds where it begins in the
step that fetches it and where, fetched before and held back or not begun, it begins when it goes on: then the head
pointer stays, and it keeps its place between the commands fetched before and behind it, which stay as they are (R336). -/
def Obligations.InvalidateInterruptTableCompletes : Prop :=
  ∀ (s : State) (dev : DeviceId),
    (fenced s.fetched = false → devtabPending s.fetched = false →
      ∃ t, exec (.invalidateInterruptTable dev) s = .next t ∧
        s.irtInvalidated t dev s.fetched [] s.headAddr s.nextHead) ∧
    (∀ (before after : List Command) (addr : Addr),
      s.fetched = before ++ ⟨.invalidateInterruptTable dev, addr, .waiting⟩ :: after →
      fenced before = false → devtabPending before = false →
      ∃ t, s.act (.run before.length) = .next t ∧ s.irtInvalidated t dev before after addr s.cmdHead) ∧
    (∀ u : InFlight, u.remapsFor dev = true ↔ (u.tx.dev = dev ∧
      ((∃ d n, u.phase = .readIrte d n) ∨ (∃ hi rest, u.phase = .haveHigh hi rest) ∨
        (u.staleDte = true ∧ ∃ lo rest, u.phase = .haveLow lo rest)))) ∧
    (∀ id : Nat, id ∈ s.matchInterrupt dev ↔
      ((∃ u ∈ s.inFlight, u.id = id ∧ u.tx.dev = dev ∧ u.tx.isInterrupt = true ∧ u.phase ≠ .needDte) ∨
        ∃ f ∈ s.upReads ++ s.upWrites, f.id = id ∧ f.orig.dev = dev ∧ f.orig.isInterrupt = true)) ∧
    (∀ tx : Transaction, tx.isInterrupt = true ↔ (rangeOf tx.addr = .interruptEoi ∧ tx.kind = .writePosted))

/-- While a COMPLETION_WAIT with `f` = 1 has not finished, no younger command begins: one fetched behind it has
no effect but to be fetched, and one already fetched stays as it is (R343; that fetching goes on is the
specification's own inference). -/
def Obligations.FenceHoldsYounger : Prop :=
  (∀ (s : State) (i : Instr), s.offers i → fenced s.fetched = true → exec i s = .next (s.held i)) ∧
  (∀ (s : State) (k : Nat) (c : Command), s.fetched[k]? = some c → c.phase = .waiting → s.offers c.instr →
    fenced (s.fetched.take k) = true → s.act (.run k) = .next s)

/-- INVALIDATE_IOMMU_PAGES and INVALIDATE_INTERRUPT_TABLE do not take effect while an older
INVALIDATE_DEVTAB_ENTRY has not (R360). -/
def Obligations.DevtabInvalidationComesFirst : Prop :=
  (∀ (s : State) (m : DomainId) (size pde : Bool) (address : Addr), devtabPending s.fetched = true →
    exec (.invalidateIommuPages m size pde address) s = .next (s.held (.invalidateIommuPages m size pde address))) ∧
  (∀ (s : State) (dev : DeviceId), devtabPending s.fetched = true →
    exec (.invalidateInterruptTable dev) s = .next (s.held (.invalidateInterruptTable dev))) ∧
  (∀ (s : State) (k : Nat) (c : Command), s.fetched[k]? = some c → c.phase = .waiting →
    (∃ m size pde address, c.instr = .invalidateIommuPages m size pde address) ∨
      (∃ dev, c.instr = .invalidateInterruptTable dev) →
    devtabPending (s.fetched.take k) = true → s.act (.run k) = .next s)

/-- INVALIDATE_IOTLB_PAGES does not send its request while an older INVALIDATE_DEVTAB_ENTRY or
INVALIDATE_IOMMU_PAGES has not taken effect (R361), nor while Maxpend requests are outstanding for its queue
(R357). -/
def Obligations.IotlbRequestWaits : Prop :=
  (∀ (s : State) (dev : DeviceId) (maxpend : BitVec 8) (queue : BitVec 16) (size : Bool) (address : Addr),
    s.offers (.invalidateIotlbPages dev maxpend queue size address) →
    devtabPending s.fetched = true ∨ pagesPending s.fetched = true ∨ maxpend.toNat ≤ s.pendingFor queue →
    exec (.invalidateIotlbPages dev maxpend queue size address) s =
      .next (s.held (.invalidateIotlbPages dev maxpend queue size address))) ∧
  (∀ (s : State) (k : Nat) (c : Command) (dev : DeviceId) (maxpend : BitVec 8) (queue : BitVec 16) (size : Bool)
    (address : Addr), s.fetched[k]? = some c → c.phase = .waiting →
    c.instr = .invalidateIotlbPages dev maxpend queue size address → s.offers c.instr →
    devtabPending (s.fetched.take k) = true ∨ pagesPending (s.fetched.take k) = true ∨
      maxpend.toNat ≤ s.pendingFor queue →
    s.act (.run k) = .next s)

/-- Where IotlbSup = 0, INVALIDATE_IOTLB_PAGES is an illegal command: ILLEGAL_COMMAND_ERROR is raised with the
address of the command and command processing halts; no request is sent, and the head pointer is at the command
or after it (R356, R152 (b), R338; the two places of the head pointer are D16, log entry 11; the mark that says
what the log was doing is log entry 13). -/
def Obligations.UnsupportedIotlbIsIllegal : Prop :=
  ∀ (s : State) (dev : DeviceId) (maxpend : BitVec 8) (queue : BitVec 16) (size : Bool) (address : Addr),
    s.iotlbSup = false →
    ∃ t, exec (.invalidateIotlbPages dev maxpend queue size address) s = .next t ∧ t.halted = true ∧
      t.fetching = false ∧ t.pendingEvents = s.pendingEvents ++ [⟨.illegalCommandError s.headAddr, none, s.detected⟩] ∧
      (t.cmdHead = s.cmdHead ∨ t.cmdHead = s.nextHead) ∧
      t = { s with halted := true, cmdHead := t.cmdHead, pendingEvents := t.pendingEvents }

/-- The two operands to which the specification gives no effect stop the machine by name:
INVALIDATE_IOTLB_PAGES with Address[63:32] = FFFF_FFFFh (R153, R355, U23), and a COMPLETION_WAIT store outside
system memory, at an address within PAsize bits (R344, U33; a wider address is U31's, log entry 20), each where the
command begins in the step that fetches it and where it begins later. -/
def Obligations.UndefinedOperandsStop : Prop :=
  (∀ (s : State) (dev : DeviceId) (maxpend : BitVec 8) (queue : BitVec 16) (size : Bool) (address : Addr),
    s.iotlbSup = true → address.extractLsb' 32 32 = 0xFFFFFFFF#32 →
    exec (.invalidateIotlbPages dev maxpend queue size address) s = .refused .undefinedIotlbAddress) ∧
  (∀ (s : State) (int fence : Bool) (a : Addr) (d : BitVec 64), s.fetched = [] → s.commandEventPending = false →
    a.toNat < 2 ^ s.paSize → s.isMemory a.toNat 8 = false → exec (.completionWait true int fence a d) s = .refused .storeOutsideMemory) ∧
  (∀ (s : State) (k : Nat) (addr : Addr) (dev : DeviceId) (maxpend : BitVec 8) (queue : BitVec 16) (size : Bool)
    (address : Addr), address.extractLsb' 32 32 = 0xFFFFFFFF#32 →
    s.fetched[k]? = some ⟨.invalidateIotlbPages dev maxpend queue size address, addr, .waiting⟩ →
    s.act (.run k) = .refused .undefinedIotlbAddress) ∧
  (∀ (s : State) (rest : List Command) (addr : Addr) (int fence : Bool) (a : Addr) (d : BitVec 64),
    s.fetched = ⟨.completionWait true int fence a d, addr, .waiting⟩ :: rest → s.commandEventPending = false →
    a.toNat < 2 ^ s.paSize → s.isMemory a.toNat 8 = false → s.act (.run 0) = .refused .storeOutsideMemory)

/-- An invalidation that has taken effect leaves the fetched commands exactly when every transaction it waits
for has finished, and nothing else changes then (R362, R363, R365). -/
def Obligations.DrainingEndsWhenTrafficHasGone : Prop :=
  ∀ (s : State) (k : Nat) (c : Command) (ids : List Nat), s.fetched[k]? = some c → c.phase = .draining ids →
    ((∀ id ∈ ids, (∀ u ∈ s.inFlight, u.id ≠ id) ∧ (∀ f ∈ s.upReads, f.id ≠ id) ∧ (∀ f ∈ s.upWrites, f.id ≠ id)) →
      s.act (.run k) = .next { s with fetched := s.fetched.eraseIdx k }) ∧
    ((∃ id ∈ ids, (∃ u ∈ s.inFlight, u.id = id) ∨ (∃ f ∈ s.upReads, f.id = id) ∨ (∃ f ∈ s.upWrites, f.id = id)) →
      s.act (.run k) = .next s)

/-- When the device answers, the request is no longer outstanding and its command goes on to wait for the
device's traffic to the range alone, that is for every transaction of the device that is pre-translated, or whose
address is in the range and for which something has been read or which is under way upstream; when the timer expires, the request is no longer outstanding, its command
has completed, and IOTLB_INV_TIMEOUT is raised with the device and the address of the command; with the period
"no time-out" there is no expiry (R355, R358, R449, R463). That an expired command counts as completed is D42
(log entry 14); that every other period, the reserved ones too, may expire at any time is log entries 17 and 31;
that the period is the one of the moment the timer started is D46 (log entry 31); the traffic waited for is log
entry 10. -/
def Obligations.IotlbRequestEnds : Prop :=
  ∀ (s : State) (k : Nat) (r : IotlbRequest), s.outstanding[k]? = some r →
    s.act (.deviceAnswers k) = .next { s with
      outstanding := s.outstanding.eraseIdx k
      fetched := s.fetched.map fun c =>
        if c.phase = .requested r.id then { c with phase := .draining (s.matchIotlb r.dev r.range) } else c } ∧
    (∀ id : Nat, id ∈ s.matchIotlb r.dev r.range ↔
      ((∃ u ∈ s.inFlight, u.id = id ∧ u.tx.dev = r.dev ∧
          (u.tx.preTranslated = true ∨ r.range.holds u.tx.addr = true ∧ u.phase ≠ .needDte)) ∨
        ∃ f ∈ s.upReads ++ s.upWrites, f.id = id ∧ f.orig.dev = r.dev ∧
          (f.orig.preTranslated = true ∨ r.range.holds f.orig.addr = true))) ∧
    (r.period ≠ 0 → ∃ type, s.act (.timeout k) = .next { s with
      outstanding := s.outstanding.eraseIdx k
      fetched := s.fetched.filter fun c => decide (c.phase ≠ .requested r.id)
      pendingEvents := s.pendingEvents ++ [⟨.iotlbInvTimeout r.dev type r.addr, none, s.detected⟩] }) ∧
    (r.period = 0 → s.act (.timeout k) = .next s)

/-! ### Events and interrupts -/

/-- An event that is to be logged is written, 16 bytes little-endian, at the tail entry of the event log,
coherent and in the normal channel; then the tail pointer moves by one modulo the log and EventLogInt is set
(spec/60_exceptions.md R421, R429, R430). It is to be logged where events were logged when it was detected and
are logged when it is reported: EventLogRun = 1, not halted, IommuEn = 1 (R421, R428, R431, R434, R454; the mark of
the first is log entry 13). With `SE` = 1 the first-fault state of the device is set where its entry is cached
(R445, spec/10_state.md R55). The interrupt of EventLogInt is then due where EventIntEn = 1 and no source bit was set,
not due where EventIntEn = 0, and due at most once in every case (R421, R430, R458; D12, log entry 12). -/
def Obligations.ReportWritesTheEntry : Prop :=
  ∀ (s : State) (k : Nat) (p : PendingEvent), s.pendingEvents[k]? = some p → p.detected = .logging →
    s.firstFaultSeen p.seDevice = false → s.eventLogRun = true → s.evtHalted = false → s.iommuEn = true →
    s.eventOverflow = false → s.logFull = false → s.memoryCanonical → s.ownMemory s.evtTailAddr.toNat 16 →
    ∃ t, s.act (.report k) = .next t ∧ t.holdsBytes s.evtTailAddr.toNat p.event.bytes ∧
      s.sameMemoryOutside t s.evtTailAddr.toNat 16 ∧ t.evtTailIndex = (s.evtTailIndex + 1) % s.evtEntries ∧
      (∀ n : Nat, t.status.getLsbD n = (s.status.getLsbD n || decide (n = 1))) ∧
      (s.eventIntEn = true → noSourceSet s.status = true → t.intDue = s.intDue + 1) ∧
      (s.eventIntEn = false → t.intDue = s.intDue) ∧ s.intDue ≤ t.intDue ∧ t.intDue ≤ s.intDue + 1 ∧
      t.pendingEvents = s.pendingEvents.eraseIdx k ∧
      t.outputs = s.outputs ++ [.ownWrite s.evtTailAddr p.event.bytes ⟨true, false, none, none⟩] ∧
      t.faultLogged = (p.seDevice.filter s.dteCached).toList ++ s.faultLogged ∧
      t = { s with
        mem := t.mem, dram := t.dram, evtTail := t.evtTail, status := t.status, intDue := t.intDue,
        pendingEvents := t.pendingEvents, outputs := t.outputs, faultLogged := t.faultLogged }

/-- An event that finds the log full is lost: EventOverflow is set, logging halts, and memory and the tail
pointer stay; while EventOverflow is 1 no entry is written; clearing the bit does not restart logging (R431).
While EventLogRun = 0, after an overflow until the restart, and while IommuEn = 0 an event is discarded, and
whether EventOverflow is then set, with the interrupt of a bit that hardware sets (spec/10_state.md R44), is the
implementation's (R431, R434, D10; the interrupt is log entry 13). An event detected while events were not logged
is lost, also where they are logged again when it is reported, and one detected while IommuEn = 0 is none at all
(R433, R434, R454; the mark it carries is log entry 13). -/
def Obligations.LostEvents : Prop :=
  (∀ (s : State) (k : Nat) (p : PendingEvent), s.pendingEvents[k]? = some p → p.detected = .logging →
    s.firstFaultSeen p.seDevice = false → s.eventLogRun = true → s.evtHalted = false → s.iommuEn = true →
    s.eventOverflow = false → s.logFull = true →
    ∃ t, s.act (.report k) = .next t ∧ t.eventOverflow = true ∧ t.evtHalted = true ∧ t.logging = false ∧
      t.logRuns = false ∧ (s.eventIntEn = true → noSourceSet s.status = true → t.intDue = s.intDue + 1) ∧
      t = { s with
        status := t.status, intDue := t.intDue, evtHalted := true,
        pendingEvents := s.pendingEvents.eraseIdx k }) ∧
  (∀ (s : State) (k : Nat), s.eventLogRun = true → s.eventOverflow = true → k < s.pendingEvents.length →
    s.act (.report k) = .next { s with pendingEvents := s.pendingEvents.eraseIdx k }) ∧
  (∀ (s : State) (lane : Nat) (data : List Byte),
    ∃ t, s.writeMmioReg .status lane data = .next t ∧ t.evtHalted = s.evtHalted ∧ t.logging = s.logging) ∧
  (∀ (s : State) (k : Nat) (p : PendingEvent), s.pendingEvents[k]? = some p → p.detected ≠ .disabled →
    s.firstFaultSeen p.seDevice = false →
    s.eventLogRun = false ∨ s.eventOverflow = false ∧ (s.evtHalted = true ∨ s.iommuEn = false) →
    ∃ t, s.act (.report k) = .next t ∧
      (∀ n : Nat, t.status.getLsbD n = (s.status.getLsbD n || (Config.overflowWhenDisabled && decide (n = 0)))) ∧
      (Config.overflowWhenDisabled = false ∨ s.eventIntEn = false → t.intDue = s.intDue) ∧
      (Config.overflowWhenDisabled = true → s.eventIntEn = true → noSourceSet s.status = true →
        t.intDue = s.intDue + 1) ∧ t.intDue ≤ s.intDue + 1 ∧
      t = { s with status := t.status, intDue := t.intDue, pendingEvents := s.pendingEvents.eraseIdx k }) ∧
  (∀ (s : State) (k : Nat) (p : PendingEvent), s.pendingEvents[k]? = some p →
    p.detected = .disabled ∨ p.detected = .stopped ∧ s.logRuns = true →
    s.act (.report k) = .next { s with pendingEvents := s.pendingEvents.eraseIdx k }) ∧
  (∀ (s : State) (e : Event), (s.raise e).pendingEvents = s.pendingEvents ++ [⟨e, none, s.detected⟩] ∧
    (s.detected = .logging ↔ (s.eventLogRun = true ∧ s.evtHalted = false ∧ s.iommuEn = true)) ∧
    (s.detected = .disabled ↔ s.iommuEn = false))

/-- Each of the eight events has its code in bits 63:60 of its entry and its fields where the field tables put
them, every other bit zero (R422, R423, R435 to R451). -/
def Obligations.EventEntryLayout : Prop :=
  (∀ e : Event, e.entry.extractLsb' 60 4 = e.code) ∧
  (∀ (d : DeviceId) (tr rz rw i : Bool) (a : Addr), Event.entry (.illegalDevTableEntry d tr rz rw i a) =
    a.extractLsb' 2 62 ++ 0#2 ++ 1#4 ++ 0#3 ++ BitVec.ofBool tr ++ BitVec.ofBool rz ++ 0#1 ++ BitVec.ofBool rw ++ 0#1 ++
      BitVec.ofBool i ++ 0#35 ++ d) ∧
  (∀ (d : DeviceId) (tr rz pe rw pr i : Bool) (m : DomainId) (a : Addr), Event.entry (.ioPageFault d tr rz pe rw pr i m a) =
    a ++ 2#4 ++ 0#3 ++ BitVec.ofBool tr ++ BitVec.ofBool rz ++ BitVec.ofBool pe ++ BitVec.ofBool rw ++
      BitVec.ofBool pr ++ BitVec.ofBool i ++ 0#3 ++ m ++ 0#16 ++ d) ∧
  (∀ (d : DeviceId) (t : BitVec 2) (tr rw i : Bool) (a : Addr), Event.entry (.devTabHardwareError d t tr rw i a) =
    a.extractLsb' 4 60 ++ 0#4 ++ 3#4 ++ 0#1 ++ t ++ BitVec.ofBool tr ++ 0#2 ++ BitVec.ofBool rw ++ 0#1 ++
      BitVec.ofBool i ++ 0#35 ++ d) ∧
  (∀ (d : DeviceId) (t : BitVec 2) (tr rw i : Bool) (m : DomainId) (a : Addr),
    Event.entry (.pageTabHardwareError d t tr rw i m a) =
      a.extractLsb' 4 60 ++ 0#4 ++ 4#4 ++ 0#1 ++ t ++ BitVec.ofBool tr ++ 0#2 ++ BitVec.ofBool rw ++ 0#1 ++
        BitVec.ofBool i ++ 0#3 ++ m ++ 0#16 ++ d) ∧
  (∀ a : Addr, Event.entry (.illegalCommandError a) = a.extractLsb' 4 60 ++ 0#4 ++ 5#4 ++ 0#60) ∧
  (∀ (t : BitVec 2) (a : Addr), Event.entry (.commandHardwareError t a) =
    a.extractLsb' 4 60 ++ 0#4 ++ 6#4 ++ 0#1 ++ t ++ 0#57) ∧
  (∀ (d : DeviceId) (t : BitVec 2) (a : Addr), Event.entry (.iotlbInvTimeout d t a) =
    a.extractLsb' 4 60 ++ 0#4 ++ 7#4 ++ 0#1 ++ t ++ 0#41 ++ d) ∧
  (∀ (d : DeviceId) (t : BitVec 3) (tr : Bool) (a : Addr), Event.entry (.invalidDeviceRequest d t tr a) =
    a ++ 8#4 ++ t ++ BitVec.ofBool tr ++ 0#40 ++ d)

/-- With SE = 1 only the first page fault of a device is logged, as long as its entry is in the device table
cache: once one has been written, a later one is dropped; a fault that was not written leaves the first-fault
state; without a cached entry every fault is reported like one without SE; INVALIDATE_DEVTAB_ENTRY, the loss of
the cached entry and reset clear the state (R445, spec/10_state.md R55). That the state is looked at when the event
is reported, under the mark of its detection, is log entry 13; that any cached half counts as the entry, that each half may
be lost at any time (D31), and that the state goes with the last of them in any case and with another one or not, is log
entry 39. -/
def Obligations.FirstFaultOnly : Prop :=
  (∀ (s : State) (k : Nat) (e : Event) (d : DeviceId) (w : Detected), s.pendingEvents[k]? = some ⟨e, some d, w⟩ →
    (s.dteCached d = true → d ∈ s.faultLogged →
      s.act (.report k) = .next { s with pendingEvents := s.pendingEvents.eraseIdx k }) ∧
    (s.dteCached d = false → s.act (.report k) =
      { s with pendingEvents := s.pendingEvents.set k ⟨e, none, w⟩ }.act (.report k))) ∧
  (∀ (s t : State) (k : Nat) (e : Event) (d : DeviceId) (w : Detected), s.pendingEvents[k]? = some ⟨e, some d, w⟩ →
    s.dteCached d = true → d ∉ s.faultLogged → s.act (.report k) = .next t →
    (t.evtTail ≠ s.evtTail → t.faultLogged = d :: s.faultLogged) ∧
      (w ≠ .logging ∨ s.logRuns = false ∨ s.eventOverflow = true ∨ s.logFull = true → t.faultLogged = s.faultLogged)) ∧
  (∀ (s : State) (d : DeviceId), s.dteCached d = true ↔ ∃ e ∈ s.dteCache, e.dev = d) ∧
  (∀ (s : State) (d : Dte) (dev : DeviceId) (e : Event), (s.raisePageFault d dev e).pendingEvents = s.pendingEvents ++
    (if d.sa then [] else if d.se then [⟨e, some dev, s.detected⟩] else [⟨e, none, s.detected⟩])) ∧
  (∀ (s : State) (dev : DeviceId), dev ∉ (s.forgetDte dev).faultLogged ∧ dev ∉ s.systemReset.faultLogged) ∧
  (∀ (s : State) (k : Nat) (forget : Bool), (s.dteCache[k]? = none → s.act (.dropDte k forget) = .next s) ∧
    ∀ x : DteCacheEntry, s.dteCache[k]? = some x → ∃ t, s.act (.dropDte k forget) = .next t ∧
      t.dteCache = s.dteCache.eraseIdx k ∧
      (∀ d, d ∈ t.faultLogged ↔
        (d ∈ s.faultLogged ∧ (d = x.dev → forget = false ∧ ∃ e ∈ t.dteCache, e.dev = d))) ∧
      t = { s with dteCache := t.dteCache, faultLogged := t.faultLogged })

/-- When hardware sets an interrupt source bit, one message becomes due if the source is enabled and none of the
three bits was set, none if it is not enabled, at most one otherwise; the bit itself is set in every case
(R458, R459; the open case is D12, log entry 12). A message that is due is sent once, with the number in MsiNum
and PassPW clear (R455, R456). The INTx level, where that delivers the interrupt, is asserted exactly while an
enabled source bit is set (R459; presumed from the PCI convention, log entry 12). -/
def Obligations.InterruptCheckAndSend : Prop :=
  (∀ (s : State) (b : StatusBit),
    (∀ n : Nat, (s.raiseFlag b).status.getLsbD n = (s.status.getLsbD n || decide (n = b.place))) ∧
    (s.intEnabled b = true → s.comWaitInt = false → s.eventLogInt = false → s.eventOverflow = false →
      (s.raiseFlag b).intDue = s.intDue + 1) ∧
    (s.intEnabled b = false → (s.raiseFlag b).intDue = s.intDue) ∧
    s.intDue ≤ (s.raiseFlag b).intDue ∧ (s.raiseFlag b).intDue ≤ s.intDue + 1) ∧
  (∀ s : State, s.intDue ≠ 0 → s.act .sendInterrupt = .next { s with
    intDue := s.intDue - 1, outputs := s.outputs ++ [.interrupt Config.msiX (s.capMisc.extractLsb' 0 5) false] }) ∧
  (∀ s : State, s.intDue = 0 → s.act .sendInterrupt = .next s) ∧
  (∀ s : State, s.intxAsserted = true ↔ ∃ b : StatusBit, s.status.getLsbD b.place = true ∧ s.intEnabled b = true)

/-! ### Registers -/

/-- A write of the status register clears each of bits 2, 1 and 0 for which the data has a 1 and leaves every
other bit and the rest of the state; of a write of 1, 2, 4 or 8 aligned bytes that is its byte 0, if the write covers
it (spec/10_state.md R44, R28). -/
def Obligations.StatusIsWriteOneToClear : Prop :=
  ∀ (s : State) (lane : Nat) (data : List Byte) (cached : Bool), s.locked = true → laneAllowed lane data →
    ∃ t, s.act (.cpuWrite (s.registerAddr (0x2020 + lane)) data cached) = .next t ∧
      (∀ n : Nat, t.status.getLsbD n =
        (s.status.getLsbD n && !(decide (lane = 0 ∧ n < 3) && (data.getD 0 0).getLsbD n))) ∧
      t = { s with status := t.status }

/-- A write of the control register, of 1, 2, 4 or 8 aligned bytes, takes bits 12:0 of what it covers when it arrives
(R28; D29, log entry 35); CmdBufRun rises where fetching is then enabled and not halted; CmdBufEn written 0 ends the
halt of command processing and EventLogEn written 0 that of event logging, each only where the write covers the bit;
a write that leaves CmdBufEn 0 drops the commands read ahead and any other keeps them (spec/20_memory.md R121 (d); log
entry 34); where logging becomes enabled EventLogRun rises and
EventOverflow is cleared (R33, spec/44_commands.md R333, R339, spec/60_exceptions.md R428). An interrupt may become
due, or not, for each source bit that is 1 and whose enable the write turns on, and for nothing else in the write
(spec/60_exceptions.md R458; D12, log entry 12). The run bits fall in steps of their own, CmdBufRun where fetching is
off and every fetched command has completed, EventLogRun where logging is off (R333, R428; D9, D24, log entry 33). -/
def Obligations.ControlWriteTakesEffect : Prop :=
  (∀ (s : State) (lane : Nat) (data : List Byte) (new : Reg) (cached : Bool), s.locked = true → s.reservedClear →
    laneAllowed lane data → takesBytes s.control 0xFFFFFFFFFFFFE000 lane data new →
    ∃ t, s.act (.cpuWrite (s.registerAddr (0x18 + lane)) data cached) = .next t ∧
      t.control = new ∧ t.halted = (s.halted && (new.getLsbD 12 || decide (¬(lane ≤ 1 ∧ 2 ≤ lane + data.length)))) ∧
      t.evtHalted = (s.evtHalted && (new.getLsbD 2 || decide (lane ≠ 0))) ∧
      t.prefetched = (if new.getLsbD 12 then s.prefetched else []) ∧
      t.cmdBufRun = (s.cmdBufRun || t.fetching) ∧ t.eventLogRun = (s.eventLogRun || (t.logging && !s.logging)) ∧
      t.eventOverflow = (s.eventOverflow && !(t.logging && !s.logging)) ∧ t.comWaitInt = s.comWaitInt ∧
      t.eventLogInt = s.eventLogInt ∧ s.intDue ≤ t.intDue ∧
      t.intDue ≤ s.intDue + (if s.comWaitIntEn = false ∧ new.getLsbD 4 = true ∧ s.comWaitInt = true then 1 else 0) +
        (if s.eventIntEn = false ∧ new.getLsbD 3 = true ∧ s.eventLogInt = true then 1 else 0) +
        (if s.eventIntEn = false ∧ new.getLsbD 3 = true ∧ s.eventOverflow = true then 1 else 0) ∧
      t = { s with
        control := t.control, halted := t.halted, evtHalted := t.evtHalted, status := t.status,
        prefetched := t.prefetched, intDue := t.intDue }) ∧
  (∀ s : State, s.act .settleCmdRun = .next { s with
    status := if s.fetching = false ∧ s.fetched = [] then s.status &&& ~~~(0x10#64) else s.status }) ∧
  (∀ s : State, s.act .settleEvtRun = .next { s with
    status := if s.logging = false then s.status &&& ~~~(0x8#64) else s.status })

/-- A write of the command buffer base register, or of the event log base register while logging is not
running or where it covers byte 0 alone, takes the writable bits of the bytes it covers, 1, 2, 4 or 8 aligned ones, and
resets both pointers of that ring to 0 (R28, R31, R32; byte by byte on arrival is D29, log entry 35); a reserved length,
and a write that covers a bit of EventLen or EventBase while logging runs, stop the machine by name (U10, U20). The
stops are the model's choice (log entry 15), and so are that covering those fields while EventLogRun = 1 counts, even
where nothing changes, and that the command buffer base may be written while CmdBufRun = 1 (R340). -/
def Obligations.BaseWritesResetPointers : Prop :=
  ∀ (s : State) (lane : Nat) (data : List Byte) (new : Reg) (cached : Bool), s.locked = true → s.reservedClear →
    laneAllowed lane data →
    (takesBytes s.cmdBase 0xF0F0000000000FFF lane data new →
      s.act (.cpuWrite (s.registerAddr (0x8 + lane)) data cached) =
        if fieldOf new 56 4 < 8 then .refused .reservedLength
        else .next { s with cmdBase := new, cmdHead := 0, cmdTail := 0, prefetched := [] }) ∧
    (takesBytes s.evtBase 0xF0F0000000000FFF lane data new → s.eventLogRun = false ∨ lane = 0 ∧ data.length = 1 →
      s.act (.cpuWrite (s.registerAddr (0x10 + lane)) data cached) =
        if fieldOf new 56 4 < 8 then .refused .reservedLength
        else .next { s with evtBase := new, evtHead := 0, evtTail := 0 }) ∧
    (s.eventLogRun = true → ¬(lane = 0 ∧ data.length = 1) →
      s.act (.cpuWrite (s.registerAddr (0x10 + lane)) data cached) = .refused .eventBaseWhileRunning)

/-- A write of the device table base or of an exclusion register takes the writable bits of the data, the
reserved bits stay 0, nothing else changes, and a read of the register then returns them (R28 to R30, R45,
R46). An access of 1, 2, 4 or 8 aligned bytes writes, or reads, the bytes it covers and no other (R28); any
other access stops by name (R28, D4, log entry 15), and where no register answers a write is ignored and a read
gives zeros (R27). -/
def Obligations.TableRegistersReadBack : Prop :=
  ∀ (s : State) (cached : Bool), s.locked = true → s.reservedClear →
    (∀ v : BitVec 64,
      s.act (.cpuWrite (s.registerAddr 0) (leBytes 8 v.toNat) cached) =
        .next { s with devTabBase := v &&& ~~~MmioReg.devTabBase.reserved } ∧
      s.act (.cpuWrite (s.registerAddr 0x20) (leBytes 8 v.toNat) cached) =
        .next { s with exclBase := v &&& ~~~MmioReg.exclBase.reserved } ∧
      s.act (.cpuWrite (s.registerAddr 0x28) (leBytes 8 v.toNat) cached) =
        .next { s with exclLimit := v &&& ~~~MmioReg.exclLimit.reserved }) ∧
    (∀ (r : MmioReg) (base lane : Nat) (data : List Byte), mmioRegAt base = some r →
      r = .devTabBase ∨ r = .exclBase ∨ r = .exclLimit → laneAllowed lane data →
      ∃ t, s.act (.cpuWrite (s.registerAddr (base + lane)) data cached) = .next t ∧
        takesBytes (s.mmioReg r) r.reserved lane data (t.mmioReg r) ∧
        (∀ q : MmioReg, q ≠ r → t.mmioReg q = s.mmioReg q) ∧
        t = { s with devTabBase := t.devTabBase, exclBase := t.exclBase, exclLimit := t.exclLimit }) ∧
    (∀ (r : MmioReg) (base lane len : Nat), mmioRegAt base = some r → len ∈ [1, 2, 4, 8] → lane % len = 0 → lane < 8 →
      s.act (.cpuRead (s.registerAddr (base + lane)) len) = .next { s with
        outputs := s.outputs ++ [.cpuData (((leBytes 8 (s.mmioReg r).toNat).drop lane).take len)] }) ∧
    (∀ (offset : Nat) (data : List Byte), offset < 0x4000 → data ≠ [] → ¬(data.length ∈ [1, 2, 4, 8] ∧ offset % data.length = 0) →
      s.act (.cpuWrite (s.registerAddr offset) data cached) = .refused .registerAccessSize ∧
        s.act (.cpuRead (s.registerAddr offset) data.length) = .refused .registerAccessSize) ∧
    (∀ (offset : Nat) (data : List Byte), offset < 0x4000 → data.length ∈ [1, 2, 4, 8] → offset % data.length = 0 →
      mmioRegAt (offset - offset % 8) = none →
      s.act (.cpuWrite (s.registerAddr offset) data cached) = .next s ∧
        s.act (.cpuRead (s.registerAddr offset) data.length) =
          .next { s with outputs := s.outputs ++ [.cpuData (List.replicate data.length 0)] })

/-- The writes of the ring pointers that the specification calls undefined stop the machine by name; every other
one, of 1, 2, 4 or 8 aligned bytes, takes bits 18:4 of what it covers and changes nothing else but the commands read
ahead (R28, R40 to R43; U11 to U18, log entries 15 and 16; byte by byte on arrival is D29, log entry 35). While the
ring is in use a tail pointer may not be advanced to or past the head (U13), nor an event head pointer past the
tail (U15). -/
def Obligations.PointerWrites : Prop :=
  ∀ (s : State) (lane : Nat) (data : List Byte) (new : Reg) (cached : Bool), s.locked = true → s.reservedClear →
    laneAllowed lane data →
    (takesBytes s.cmdHead 0xFFFFFFFFFFF8000F lane data new →
      s.act (.cpuWrite (s.registerAddr (0x2000 + lane)) data cached) =
        if s.cmdBufRun then .refused .commandHeadWhileRunning
        else if s.cmdEntries ≤ pointerIndex new then .refused .commandHeadOutside
        else .next { s with cmdHead := new, prefetched := [] }) ∧
    (takesBytes s.cmdTail 0xFFFFFFFFFFF8000F lane data new →
      s.act (.cpuWrite (s.registerAddr (0x2008 + lane)) data cached) =
        if s.cmdEntries ≤ pointerIndex new then .refused .commandTailOutside
        else if s.cmdBufRun = true ∧ s.cmdEntries ≤ (s.tailIndex + s.cmdEntries - s.headIndex) % s.cmdEntries +
            (pointerIndex new + s.cmdEntries - s.tailIndex) % s.cmdEntries then .refused .commandTailPastHead
        else .next { s with cmdTail := new }) ∧
    (takesBytes s.evtHead 0xFFFFFFFFFFF8000F lane data new →
      s.act (.cpuWrite (s.registerAddr (0x2010 + lane)) data cached) =
        if s.evtEntries ≤ pointerIndex new then .refused .eventHeadOutside
        else if s.eventLogRun = true ∧ (s.evtTailIndex + s.evtEntries - s.evtHeadIndex) % s.evtEntries <
            (pointerIndex new + s.evtEntries - s.evtHeadIndex) % s.evtEntries then .refused .eventHeadPastTail
        else .next { s with evtHead := new }) ∧
    (takesBytes s.evtTail 0xFFFFFFFFFFF8000F lane data new →
      s.act (.cpuWrite (s.registerAddr (0x2018 + lane)) data cached) =
        if s.eventLogRun then .refused .eventTailWhileRunning
        else if s.evtEntries ≤ pointerIndex new then .refused .eventTailOutside
        else .next { s with evtTail := new })

/-- While Enable is 0 a configuration write of the capability block takes the writable fields, Enable with the
address it arrives with, and keeps every other bit, and the control registers are not reached: processor
accesses go to memory (R22 to R27). Once Enable is 1 every such write is ignored, and every step but a system
reset keeps Enable and the base address as they are (R22, R26). Reads give the registers, whether Enable is 1 or
0, and the class code 08h, 06h, 00h (R20 to R25; the order of its bytes is log entry 30, one write taking
address and Enable together is D28, log entry 35). HtAtsResv may be read-only only where ATS is not supported
(R25), and each field of the Range Register as a whole (P.RangeRO, R24). An access of 1, 2 or 4 aligned bytes writes, or
reads, the bytes it covers and no other; any other access, and one outside the block, stops by name (log entries 15 and
24). A processor's write to system memory, which is every address below 2^52 outside the enabled register region and
the platform's holes, changes the bytes it covers as every coherent reader sees them, and a write that is not cached
those of memory itself too; a cached one leaves them until a write-back copies what coherent readers see of its range
into memory itself; nothing else changes, and a read gives what coherent readers see (spec/20_memory.md R107, R108; the
two images of memory are log entry 22, holes log entry 23). Where there is no memory, and where an access begins below
the register region and reaches into it, it stops by name (log entries 15, 23 and 24). -/
def Obligations.CapabilityLockHolds : Prop :=
  (∀ (s : State) (v : BitVec 32), s.locked = false →
    s.act (.cfgWrite 0 (leBytes 4 v.toNat)) = .next s ∧
    s.act (.cfgWrite 4 (leBytes 4 v.toNat)) = .next { s with
      capBaseLow := if Config.baseAddrRO then s.capBaseLow ||| (v &&& 1)
        else (s.capBaseLow &&& 0x3FFE) ||| (v &&& 0xFFFFC001) } ∧
    s.act (.cfgWrite 8 (leBytes 4 v.toNat)) = .next { s with
      capBaseHigh := if Config.baseAddrRO then s.capBaseHigh else v } ∧
    (∀ fixed : BitVec 32, fixed = (if Config.rangeRO .lastDevice then 0xFF000000 else 0) |||
        (if Config.rangeRO .firstDevice then 0xFF0000 else 0) ||| (if Config.rangeRO .busNumber then 0xFF00 else 0) |||
        (if Config.rangeRO .rngValid then 0x80 else 0) ||| (if Config.rangeRO .unitId then 0x1F else 0) →
      s.act (.cfgWrite 0xC (leBytes 4 v.toNat)) = .next { s with
        capRange := (s.capRange &&& (0x60 ||| fixed)) ||| (v &&& 0xFFFFFF9F &&& ~~~fixed) }) ∧
    s.act (.cfgWrite 0x10 (leBytes 4 v.toNat)) = .next { s with
      capMisc := if s.iotlbSup = false ∧ Config.htAtsResvRO = true then s.capMisc
        else (s.capMisc &&& 0xFFBFFFFF) ||| (v &&& 0x00400000) }) ∧
  (∀ (s t : State) (offset : Nat) (data : List Byte), s.locked = true → s.act (.cfgWrite offset data) = .next t → t = s) ∧
  (∀ s t : State, s.locked = true → step s = .next t → s.agenda.head? ≠ some .reset →
    t.locked = true ∧ t.mmioBase = s.mmioBase) ∧
  (∀ (s t : State) (a : Addr) (data : List Byte) (cached : Bool), s.locked = false →
    s.act (.cpuWrite a data cached) = .next t → t = { s with mem := t.mem, dram := t.dram }) ∧
  (∀ (s t : State) (a : Addr) (len : Nat), s.locked = false → s.act (.cpuRead a len) = .next t →
    t = { s with outputs := s.outputs ++ [.cpuData (s.mem.readBytes a.toNat len)] }) ∧
  (∀ s : State,
    s.act (.cfgRead 0 4) = .next { s with outputs := s.outputs ++ [.cpuData (leBytes 4 s.capHeader.toNat)] } ∧
    s.act (.cfgRead 4 4) = .next { s with outputs := s.outputs ++ [.cpuData (leBytes 4 s.capBaseLow.toNat)] } ∧
    s.act (.cfgRead 8 4) = .next { s with outputs := s.outputs ++ [.cpuData (leBytes 4 s.capBaseHigh.toNat)] } ∧
    s.act (.cfgRead 0xC 4) = .next { s with outputs := s.outputs ++ [.cpuData (leBytes 4 s.capRange.toNat)] } ∧
    s.act (.cfgRead 0x10 4) = .next { s with outputs := s.outputs ++ [.cpuData (leBytes 4 s.capMisc.toNat)] } ∧
    s.act .classRead = .next { s with outputs := s.outputs ++ [.cpuData [0x00, 0x06, 0x08]] }) ∧
  (∀ (s : State) (offset : Nat) (data : List Byte),
    (data.length ∈ [1, 2, 4] ∧ offset % data.length = 0 → offset < 20 →
      (s.locked = true → s.act (.cfgWrite offset data) = .next s) ∧
      (s.locked = false → ∀ fixed : BitVec 32, fixed = (if Config.rangeRO .lastDevice then 0xFF000000 else 0) |||
          (if Config.rangeRO .firstDevice then 0xFF0000 else 0) ||| (if Config.rangeRO .busNumber then 0xFF00 else 0) |||
          (if Config.rangeRO .rngValid then 0x80 else 0) ||| (if Config.rangeRO .unitId then 0x1F else 0) →
        ∃ t, s.act (.cfgWrite offset data) = .next t ∧
          capTakes 4 s.capBaseLow (if Config.baseAddrRO then 1 else 0xFFFFC001) offset data t.capBaseLow ∧
          capTakes 8 s.capBaseHigh (if Config.baseAddrRO then 0 else 0xFFFFFFFF) offset data t.capBaseHigh ∧
          capTakes 12 s.capRange (0xFFFFFF9F &&& ~~~fixed) offset data t.capRange ∧
          capTakes 16 s.capMisc (if s.iotlbSup = false ∧ Config.htAtsResvRO = true then 0 else 0x00400000) offset data
            t.capMisc ∧
          t = { s with
            capBaseLow := t.capBaseLow, capBaseHigh := t.capBaseHigh, capRange := t.capRange, capMisc := t.capMisc }) ∧
      s.act (.cfgRead offset data.length) =
        .next { s with outputs := s.outputs ++ [.cpuData ((s.capBytes.drop offset).take data.length)] }) ∧
    (data.length ∈ [1, 2, 4] ∧ offset % data.length = 0 → 20 ≤ offset →
      s.act (.cfgWrite offset data) = .refused .configOutsideBlock ∧
        s.act (.cfgRead offset data.length) = .refused .configOutsideBlock) ∧
    (¬(data.length ∈ [1, 2, 4] ∧ offset % data.length = 0) →
      s.act (.cfgWrite offset data) = .refused .registerAccessSize ∧
        s.act (.cfgRead offset data.length) = .refused .registerAccessSize)) ∧
  (∀ (s : State) (a n : Nat), s.isMemory a n = true ↔ (a + n ≤ 2 ^ 52 ∧ s.clearOfRegisters a n ∧
    ∀ h ∈ s.holes, h.answer = .dataError ∨ h.base + h.size ≤ a ∨ a + n ≤ h.base)) ∧
  (∀ (s : State) (a : Addr) (data : List Byte) (cached : Bool), s.isMemory a.toNat data.length = true →
    (s.memoryCanonical → ∃ t, s.act (.cpuWrite a data cached) = .next t ∧
      t.mem.readBytes a.toNat data.length = data ∧ s.sameMemoryOutside t a.toNat data.length ∧
      (cached = false → t.dram.readBytes a.toNat data.length = data) ∧ (cached = true → t.dram = s.dram) ∧
      t = { s with mem := t.mem, dram := t.dram }) ∧
    s.act (.cpuRead a data.length) =
      .next { s with outputs := s.outputs ++ [.cpuData (s.mem.readBytes a.toNat data.length)] } ∧
    (s.memoryCanonical → ∃ t, s.act (.writeBack a data.length) = .next t ∧
      (∀ b : Nat, t.dram.read b =
        if a.toNat ≤ b ∧ b < a.toNat + data.length then s.mem.read b else s.dram.read b) ∧
      t = { s with dram := t.dram })) ∧
  (∀ (s : State) (a : Addr) (data : List Byte) (cached : Bool), data ≠ [] →
    (2 ^ 52 < a.toNat + data.length → s.act (.writeBack a data.length) = .fault .addressOutsideSpace ∧
      (s.clearOfRegisters a.toNat data.length → s.act (.cpuWrite a data cached) = .fault .addressOutsideSpace ∧
        s.act (.cpuRead a data.length) = .fault .addressOutsideSpace)) ∧
    (a.toNat + data.length ≤ 2 ^ 52 → s.isMemory a.toNat data.length = false →
      s.act (.writeBack a data.length) = .refused .foreignWindow ∧
      (s.clearOfRegisters a.toNat data.length → s.act (.cpuWrite a data cached) = .refused .foreignWindow ∧
        s.act (.cpuRead a data.length) = .refused .foreignWindow)) ∧
    (s.locked = true → a.toNat < s.mmioBase → s.mmioBase < a.toNat + data.length →
      s.act (.cpuWrite a data cached) = .refused .registerAccessSize ∧
        s.act (.cpuRead a data.length) = .refused .registerAccessSize))

/-- Reset gives every register the value of the table of reset values, from any state, and empties the hidden
state; the implementation's own values (the capability header, VAsize, PAsize and MsiNum), system memory and the
platform stay, and the Range Register takes its strapped value (R60, spec/70_reset_and_hazards.md R481). The
values the table leaves open are those of log entries 4 and 5; that the environment goes on with its agenda, and
what the IOMMU has sent stays sent, is log entry 32, and so is that a forwarded transaction which has not reached the
host bridge, or is not yet answered, is dropped with the work in progress (spec/70_reset_and_hazards.md R483). -/
def Obligations.ResetValues : Prop :=
  ∀ s : State, s.act .reset = .next { s with
    capBaseLow := 0, capBaseHigh := 0, capRange := s.rangeStrap, capMisc := s.capMisc &&& 0xFFBFFFFF,
    devTabBase := 0, cmdBase := 0x0800000000000000, evtBase := 0x0800000000000000, control := 0x400, exclBase := 0,
    exclLimit := 0, cmdHead := 0, cmdTail := 0, evtHead := 0, evtTail := 0, status := 0, halted := false,
    evtHalted := false, dteCache := [], tlb := [], pdc := [], irtCache := [], faultLogged := [], prefetched := [],
    fetched := [], outstanding := [], inFlight := [], upReads := [], upWrites := [], pendingEvents := [], intDue := 0 }

/-! ### Transactions -/

/-- While the IOMMU is disabled a transaction goes upstream as it came, with no table read and no event, and so
does one through the tunnel while HtTunEn = 0; a translation request is master aborted there, and also without
IOTLB support (spec/40_transactions.md R171, R172; the master abort through the tunnel is D38, log entry 14). Every
other transaction is accepted for processing, with nothing of it done yet and nothing else changed (R171, R174). A
port I/O transaction arrives only on a platform that carries such (P.PortIoImplemented, R191). -/
def Obligations.ArrivalFollowsTheEnableBits : Prop :=
  ∀ (s : State) (tx : Transaction), tx.inPage = true → tx.kind.isLinkCommand = false →
    (tx.tunnel = true → s.htTunnel = true) →
    (s.iommuEn = false ∨ tx.tunnel = true ∧ s.htTunEn = false → tx.kind ≠ .transReq →
      ∃ t, s.act (.arrive tx) = .next t ∧
        (if tx.neverArrives then t = s
          else t.outputs = s.outputs ++ [.forwarded tx] ∧ s.underWay t s.nextId tx tx none ∧ t.nextId = s.nextId + 1 ∧
            t = { s with outputs := t.outputs, upReads := t.upReads, upWrites := t.upWrites, nextId := t.nextId })) ∧
    (s.iommuEn = false ∨ tx.tunnel = true ∧ s.htTunEn = false ∨ s.iotlbSup = false → tx.kind = .transReq →
      s.act (.arrive tx) =
        .next (if tx.neverArrives then s else { s with outputs := s.outputs ++ [.aborted tx .masterAbort] })) ∧
    (s.iommuEn = true → (tx.tunnel = true → s.htTunEn = true) → (tx.kind = .transReq → s.iotlbSup = true) →
      s.act (.arrive tx) = .next (if tx.neverArrives then s
        else { s with nextId := s.nextId + 1, inFlight := s.inFlight ++ [⟨s.nextId, tx, .needDte, false, false⟩] })) ∧
    (rangeOf tx.addr ≠ .ioSpace → tx.neverArrives = false)

/-- Transactions from upstream go downstream unaltered; response, fence and flush commands from downstream go
upstream unaltered, whatever the enable bits are (spec/20_memory.md R114). -/
def Obligations.LinkTrafficPassesUnaltered : Prop :=
  (∀ (s : State) (data : List Byte),
    s.act (.fromUpstream data) = .next { s with outputs := s.outputs ++ [.passedDown data] }) ∧
  (∀ (s : State) (tx : Transaction), tx.kind.isLinkCommand = true →
    s.act (.arrive tx) = .next { s with outputs := s.outputs ++ [.forwarded tx] })

/-- With `V` = 0 an untranslated transaction is forwarded unaltered and raises no event, whatever bits 127:1 of
the entry hold (R179). HtAtsResv = 1 refuses the address translation range even then: a target abort with
INVALID_DEVICE_REQUEST, Type 011b for a posted write and 100b for the rest, logged unless IV = 1 and IG = 1 (R190;
D23 and D11, log entry 14). -/
def Obligations.InvalidEntryIsTransparent : Prop :=
  ∀ (s : State) (t : InFlight) (d : Dte), t.tx.untranslated → d.v = false →
    if rangeOf t.tx.addr = .addressTranslation ∧ s.htAtsResv = true then
      s.aborts (s.judged t d) t .targetAbort (s.requestEvents t d (if t.tx.kind = .writePosted then 3 else 4))
    else s.forwards (s.judged t d) t t.tx none

/-- With `IV` = 0 an interrupt message is forwarded with address, data and attributes unchanged, and no field of
bits 255:129 matters (spec/43_interrupt_remapping.md R302). -/
def Obligations.UnmappedInterruptPasses : Prop :=
  ∀ (s : State) (t : InFlight) (d : Dte), t.tx.kind = .writePosted → rangeOf t.tx.addr = .interruptEoi →
    d.iv = false → s.forwards (s.judged t d) t t.tx none

/-- With `IV` = 1 and a legal entry an interrupt message is treated by its class: fixed and arbitrated ones, and
every one of logical mode, are aborted with INVALID_DEVICE_REQUEST (IntCtl = 00b), passed (01b), or looked up in
the table of the entry, unless the offset lies beyond it (10b); SMI passes; NMI, INIT, ExtInt, LINT1 and LINT0
pass where their bit is 1; all the rest is target aborted with IO_PAGE_FAULT. An abort is logged unless IG = 1.
The table entry is read at 4 * offset from the root pointer, coherent, and may then be cached for the device and the
offset, but not after an invalidation; any cached one of the device and the offset may be used, without a read; a read that fails aborts the message
with PAGE_TAB_HARDWARE_ERROR (spec/43_interrupt_remapping.md R304 to R311, R316, spec/10_state.md R54; what is cached
is log entry 36). Which bits of the message are the
type, the mode and the offset is P.IntMsgDecode; that logical mode is never pass-controlled is D7, the event of a
failed read D40 (log entry 14), and bit 6 of the root pointer is U27 (log entry 20). -/
def Obligations.InterruptsFollowTheirClass : Prop :=
  ∀ (s : State) (t : InFlight) (d : Dte) (m : Config.IntMsg), t.tx.kind = .writePosted → rangeOf t.tx.addr = .interruptEoi →
    m = Config.intMsgDecode t.tx.addr t.tx.data →
    (d.iv = true → d.checkHigh = none →
      if m.dm = true ∨ m.mt = 0 ∨ m.mt = 1 then
        (if d.intCtl = 0 then s.aborts (s.judged t d) t .targetAbort
          (if d.ig then [] else [⟨.invalidDeviceRequest t.tx.dev 5 false t.tx.addr, none, s.detected⟩])
        else if d.intCtl = 1 then s.forwards (s.judged t d) t t.tx none
        else if 2 ^ d.intTabLen ≤ m.offset.toNat then s.blocksInterrupt (s.judged t d) t d
        else s.judged t d = s.setTx t (.readIrte d m.offset.toNat))
      else if m.mt = 2 ∨ (m.mt = 3 ∧ d.nmiPass = true) ∨ (m.mt = 4 ∧ d.initPass = true) ∨ (m.mt = 6 ∧ d.eIntPass = true) ∨
          (m.mt = 11 ∧ d.lint1Pass = true) ∨ (m.mt = 14 ∧ d.lint0Pass = true) then
        s.forwards (s.judged t d) t t.tx none
      else s.blocksInterrupt (s.judged t d) t d) ∧
    (∀ (k n : Nat) (c : TxChoice) (a : Addr), s.inFlight[k]? = some t → t.phase = .readIrte d n →
      (∀ e, ¬s.usesIrte c.useIrte t.tx.dev n e) → d.irtRoot.getLsbD 6 = false →
      a = d.irtRoot + BitVec.ofNat 64 (4 * n) → a.toNat < 2 ^ s.paSize →
      (s.readAnswer a.toNat 4 = none →
        ∃ u : State, s.act (.advance k c) = .next (u.finishRemap t d (wordOf 32 (s.mem.readBytes a.toNat 4))) ∧
          u = { s with
            outputs := s.outputs ++ [.ownRead a 4 ⟨true, s.isoc, none, none⟩]
            irtCache := if c.keepIrte = true ∧ t.stale = false then
              ⟨t.tx.dev, n, wordOf 32 (s.mem.readBytes a.toNat 4)⟩ :: s.irtCache else s.irtCache }) ∧
      (∀ f, s.readAnswer a.toNat 4 = some f →
        ∃ (u : State) (rw : Bool) (dom : DomainId), s.act (.advance k c) = .next u ∧ (d.v = true → dom = d.domain) ∧
          u.outputs = s.outputs ++ [.ownRead a 4 ⟨true, s.isoc, none, none⟩, .aborted t.tx .targetAbort] ∧
          u.pendingEvents = s.pendingEvents ++
            [⟨.pageTabHardwareError t.tx.dev f.code false rw true dom a, none, s.detected⟩])) ∧
    (∀ (k n : Nat) (c : TxChoice) (e : IrtCacheEntry), s.inFlight[k]? = some t → t.phase = .readIrte d n →
      s.usesIrte c.useIrte t.tx.dev n e → s.act (.advance k c) = .next (s.finishRemap t d e.entry))

/-- A DeviceID is beyond the device table exactly where its entry would begin at or after (Size + 1) * 4K bytes; it
reads no memory, and whatever it is the transaction is judged under the entry V = 1, IV = 1 and the rest zero
(spec/41_device_table.md R223, spec/40_transactions.md R178): an untranslated access outside the controlled ranges is
target aborted with IO_PAGE_FAULT of domain 0, but forwarded where it is in the exclusion range and Allow = 1; port
I/O and a pre-translated request are target aborted with INVALID_DEVICE_REQUEST, of Type 010b and 001b, and a
translation request is master aborted. An interrupt and the other ranges are treated under that entry as under any
other one. Three things here are choices, not the source's words: PR = 1 and RZ = 0 of the fault are those of the table
of spec/60_exceptions.md R443 (D39, log entry 14), the event types are those of the substitute entry where Table 11 has
IO_PAGE_FAULT for every kind (R178, spec/90_conflicts.md C19, log entry 14), and that Allow = 1 still forwards follows
from R178 and R195 together (U29, log entry 14). -/
def Obligations.BeyondTheTable : Prop :=
  (∀ (s : State) (dev : DeviceId),
    s.inTable dev = false ↔ ((s.devTabBase.extractLsb' 0 9).toNat + 1) * 4096 ≤ 32 * dev.toNat) ∧
  (∀ (s : State) (k : Nat) (t : InFlight) (c : TxChoice), s.inFlight[k]? = some t → t.phase = .needDte →
    s.inTable t.tx.dev = false →
    s.act (.advance k c) = .next (s.judged t ⟨1, 1⟩) ∧
      (t.tx.untranslated → s.uncontrolled t.tx → ¬(s.inExclusionRange t.tx.addr = true ∧ s.exclAllow = true) →
        ∃ pe rw, t.tx.kind.rwIs rw ∧ s.aborts (s.judged t ⟨1, 1⟩) t .targetAbort
          [⟨.ioPageFault t.tx.dev false false pe rw true false 0 t.tx.addr, none, s.detected⟩]) ∧
      (t.tx.untranslated → s.uncontrolled t.tx → s.inExclusionRange t.tx.addr = true → s.exclAllow = true →
        s.forwards (s.judged t ⟨1, 1⟩) t t.tx none) ∧
      (t.tx.untranslated → rangeOf t.tx.addr = .ioSpace →
        s.aborts (s.judged t ⟨1, 1⟩) t .targetAbort
          [⟨.invalidDeviceRequest t.tx.dev 2 false t.tx.addr, none, s.detected⟩]) ∧
      (t.tx.preTranslated = true → t.tx.kind ≠ .transReq → rangeOf t.tx.addr ≠ .reservedInterrupt →
        rangeOf t.tx.addr ≠ .interruptEoi → s.aborts (s.judged t ⟨1, 1⟩) t .targetAbort
          [⟨.invalidDeviceRequest t.tx.dev 1 false t.tx.addr, none, s.detected⟩]) ∧
      (t.tx.kind = .transReq → rangeOf t.tx.addr ≠ .reservedInterrupt → rangeOf t.tx.addr ≠ .interruptEoi →
        s.aborts (s.judged t ⟨1, 1⟩) t .masterAbort
          [⟨.invalidDeviceRequest t.tx.dev 0 true t.tx.addr, none, s.detected⟩]))

/-- The device table lookup reads the entry at DevTabBase + 32 * DeviceID, little-endian, and a read that fails, of
either half, aborts the transaction with DEV_TAB_HARDWARE_ERROR and its address. The entry may be read in one access
or half by half, in either order, at addresses computed once, and the halves of one access need not be seen at one
moment; when both are there the transaction is judged, and the whole entry may be cached. A half may be cached by
itself, for its device alone, but not after an invalidation of the entry (R249, spec/10_state.md R52). Any cached copy of a
half may be used, without a read of it: where both halves hit the transaction is judged at once, where one does the other
is read (spec/41_device_table.md R223, R224, R249, spec/20_memory.md R103, R124; the split is log entry 37, what may be
cached log entry 36). -/
def Obligations.LookupReadsTheDeviceTable : Prop :=
  (∀ (s : State) (dev : DeviceId), (s.dteAddr dev).toNat = (s.devTabBase.extractLsb' 12 40).toNat * 4096 + 32 * dev.toNat) ∧
  (∀ (s : State) (dev : DeviceId),
    s.inTable dev = true ↔ 32 * dev.toNat < ((s.devTabBase.extractLsb' 0 9).toNat + 1) * 4096) ∧
  (∀ (s : State) (k : Nat) (t : InFlight) (c : TxChoice) (a : Addr) (m : Memory), s.inFlight[k]? = some t →
    a = s.dteAddr t.tx.dev → m = (if s.coherent then s.mem else s.dram) →
    (t.phase = .needDte → s.inTable t.tx.dev = true → s.usesNoHalf c.useLo t.tx.dev false →
      s.usesNoHalf c.useHi t.tx.dev true → a.toNat + 32 ≤ 2 ^ s.paSize →
      (c.wide = true → c.torn = false →
        (s.readAnswer a.toNat 16 = none → s.readAnswer (a.toNat + 16) 16 = none →
          ∃ u : State, s.act (.advance k c) = .next (u.judged t
              ⟨wordOf 128 (m.readBytes a.toNat 16), wordOf 128 (m.readBytes (a.toNat + 16) 16)⟩) ∧
            u = { s with
              outputs := s.outputs ++ [.ownRead a 32 ⟨s.coherent, s.isoc, some s.passPW, some s.resPassPW⟩]
              dteCache := s.dteCacheWith t c
                ⟨wordOf 128 (m.readBytes a.toNat 16), wordOf 128 (m.readBytes (a.toNat + 16) 16)⟩ }) ∧
        (∀ f, s.readAnswer a.toNat 16 = some f → ∃ u, s.act (.advance k c) = .next u ∧
          s.lookupFails u t [.ownRead a 32 ⟨s.coherent, s.isoc, some s.passPW, some s.resPassPW⟩] f a) ∧
        (∀ f, s.readAnswer a.toNat 16 = none → s.readAnswer (a.toNat + 16) 16 = some f →
          ∃ u, s.act (.advance k c) = .next u ∧
            s.lookupFails u t [.ownRead a 32 ⟨s.coherent, s.isoc, some s.passPW, some s.resPassPW⟩] f (a + 16))) ∧
      (c.wide = false ∨ c.torn = true → ∀ (first second : Addr) (half : BitVec 128) (rest : HalfRead) (read : Output),
        first = (if c.highFirst then a + 16 else a) → second = (if c.highFirst then a else a + 16) →
        half = wordOf 128 (m.readBytes first.toNat 16) → rest = ⟨second, if c.wide then some s.coherent else none⟩ →
        read = (if c.wide then .ownRead a 32 ⟨s.coherent, s.isoc, some s.passPW, some s.resPassPW⟩
          else .ownRead first 16 ⟨s.coherent, s.isoc, some s.passPW, some s.resPassPW⟩) →
        (s.readAnswer first.toNat 16 = none →
          ∃ u : State, s.act (.advance k c) = .next u ∧
            u.inFlight = (s.inFlight.map fun x => if x.id = t.id then
                { x with phase := if c.highFirst then .haveHigh half rest else .haveLow half rest }
              else x) ∧
            u = { s with
              outputs := s.outputs ++ [read], dteCache := s.dteCacheHalf t c half, inFlight := u.inFlight }) ∧
        (∀ f, s.readAnswer first.toNat 16 = some f →
          ∃ u, s.act (.advance k c) = .next u ∧ s.lookupFails u t [read] f first))) ∧
    (∀ (lo : BitVec 128) (rest : HalfRead), t.phase = .haveLow lo rest →
      s.completesEntry t c rest (fun hi => ⟨lo, hi⟩) (s.act (.advance k c))) ∧
    (∀ (hi : BitVec 128) (rest : HalfRead), t.phase = .haveHigh hi rest →
      s.completesEntry t c rest (fun lo => ⟨lo, hi⟩) (s.act (.advance k c))) ∧
    (t.phase = .needDte → s.inTable t.tx.dev = true →
      (∀ lo hi, s.usesHalf c.useLo t.tx.dev false lo → s.usesHalf c.useHi t.tx.dev true hi →
        s.act (.advance k c) = .next (s.judged t ⟨lo, hi⟩)) ∧
      (∀ lo, s.usesHalf c.useLo t.tx.dev false lo → s.usesNoHalf c.useHi t.tx.dev true →
        s.completesEntry t c ⟨a + 16, none⟩ (fun hi => ⟨lo, hi⟩) (s.act (.advance k c))) ∧
      (∀ hi, s.usesNoHalf c.useLo t.tx.dev false → s.usesHalf c.useHi t.tx.dev true hi →
        s.completesEntry t c ⟨a, none⟩ (fun lo => ⟨lo, hi⟩) (s.act (.advance k c)))))

/-- The low half of an entry is legal exactly where its reserved bits are 0, IoCtl is not 11b, and Mode is not
111b while TV = 1; RZ is 0 where only the last fails. The high half is legal exactly where its reserved bits are 0,
IntCtl is not 11b, and IntTabLen is not reserved while IntCtl = 10b; its RZ is 1. An untranslated transaction, a
translation request or a pre-translated request under an illegal low half with V = 1, and an interrupt message under
an illegal high half with IV = 1, are target aborted with ILLEGAL_DEV_TABLE_ENTRY (R247, spec/40_transactions.md
R199, R200, spec/43_interrupt_remapping.md R301, spec/60_exceptions.md R436). That IntTabLen is reserved only with
IntCtl = 10b is D13, and RZ = 1 for the reserved encodings D43 (log entry 14); RW is open where it has no meaning
(D14, log entry 26). -/
def Obligations.IllegalDeviceTableEntry : Prop :=
  (∀ d : Dte, d.checkLow = none ↔
    (d.lo.extractLsb' 2 7 = 0 ∧ d.lo.extractLsb' 52 9 = 0 ∧ d.lo.getLsbD 63 = false ∧ d.lo.extractLsb' 80 16 = 0 ∧
      d.lo.extractLsb' 106 22 = 0 ∧ d.ioCtl ≠ 3 ∧ ¬(d.tv = true ∧ d.mode = 7))) ∧
  (∀ d : Dte, d.checkLow = some false ↔
    (d.lo.extractLsb' 2 7 = 0 ∧ d.lo.extractLsb' 52 9 = 0 ∧ d.lo.getLsbD 63 = false ∧ d.lo.extractLsb' 80 16 = 0 ∧
      d.lo.extractLsb' 106 22 = 0 ∧ d.ioCtl ≠ 3 ∧ d.tv = true ∧ d.mode = 7)) ∧
  (∀ d : Dte, d.checkHigh = none ↔
    (d.hi.extractLsb' 52 4 = 0 ∧ d.hi.getLsbD 59 = false ∧ d.hi.extractLsb' 64 64 = 0 ∧ d.intCtl ≠ 3 ∧
      ¬(d.intCtl = 2 ∧ 12 ≤ d.intTabLen))) ∧
  (∀ (s : State) (t : InFlight) (d : Dte) (rz : Bool), d.v = true → d.checkLow = some rz →
    rangeOf t.tx.addr ≠ .reservedInterrupt → rangeOf t.tx.addr ≠ .interruptEoi →
    t.tx.untranslated ∨ (d.iotlb = true ∧ s.iotlbSup = true ∧ (t.tx.kind = .transReq ∨ t.tx.preTranslated = true)) →
    ∃ rw, (t.tx.kind.rwIs rw) ∧ s.aborts (s.judged t d) t .targetAbort
      [⟨.illegalDevTableEntry t.tx.dev (decide (t.tx.kind = .transReq)) rz rw false t.tx.addr, none, s.detected⟩]) ∧
  (∀ (s : State) (t : InFlight) (d : Dte) (rz : Bool), t.tx.kind = .writePosted → rangeOf t.tx.addr = .interruptEoi →
    d.iv = true → d.checkHigh = some rz →
    ∃ rw, rz = true ∧ s.aborts (s.judged t d) t .targetAbort
      [⟨.illegalDevTableEntry t.tx.dev false true rw true t.tx.addr, none, s.detected⟩])

/-- An access to the exclusion range by a device that Allow or EX lets through is forwarded untranslated and
unchecked, whatever TV, Mode, IR and IW say; the range is [ExclBase, ExclLimit with its low 12 bits FFFh]
(R194 to R196). The address translation range is among the ranges meant where HtAtsResv = 0 (R190). -/
def Obligations.ExclusionRangeIsNotTranslated : Prop :=
  (∀ (s : State) (a : Addr), s.inExclusionRange a = true ↔
    (s.exclBase.getLsbD 0 = true ∧ (s.exclBase.extractLsb' 12 40).toNat * 4096 ≤ a.toNat ∧
      a.toNat ≤ (s.exclLimit.extractLsb' 12 40).toNat * 4096 + 0xFFF)) ∧
  (∀ (s : State) (t : InFlight) (d : Dte), t.tx.untranslated → s.uncontrolled t.tx → d.v = true → d.checkLow = none →
    s.inExclusionRange t.tx.addr = true → s.exclAllow = true ∨ d.ex = true → s.forwards (s.judged t d) t t.tx none)

/-- A pre-translated request is forwarded unaltered for a device marked as translating, and target aborted with
INVALID_DEVICE_REQUEST (Type 001b) for any other, logged unless IG = 1 (R199, spec/60_exceptions.md R452; the
mark counts where IotlbSup = 1). That it is forwarded without any check is D37, and that IG decides for this Type
too is D11 (log entry 14). -/
def Obligations.PreTranslatedRequests : Prop :=
  ∀ (s : State) (t : InFlight) (d : Dte), t.tx.preTranslated = true → t.tx.kind ≠ .transReq →
    rangeOf t.tx.addr ≠ .reservedInterrupt → rangeOf t.tx.addr ≠ .interruptEoi → s.iotlbSup = true →
    (d.v = true → d.iotlb = true → d.checkLow = none → s.forwards (s.judged t d) t t.tx none) ∧
    (d.v = false ∨ d.iotlb = false → s.aborts (s.judged t d) t .targetAbort
      (if d.iv && d.ig then [] else [⟨.invalidDeviceRequest t.tx.dev 1 false t.tx.addr, none, s.detected⟩]))

/-- The two interrupt ranges (spec/40_transactions.md R181, R182): whatever the entry holds, a translation request to
them is target aborted with INVALID_DEVICE_REQUEST of Type 001b, any non-posted transaction with Type 000b, and a
posted write to the reserved one with Type 110b (000b for both ranges is D6, log entry 14). The ranges that a field of
the entry controls, for an untranslated transaction under a legal entry with V = 1. System management: SysMgt lets a
posted write through untranslated (01b all, 10b INTx messages), every other one is target aborted with
INVALID_DEVICE_REQUEST, Type 011b for a posted write and 100b for the rest. Port I/O: IoCtl = 00b aborts with Type
010b, 01b lets through. Address translation: HtAtsResv = 1 aborts like system management. Where the field says
translated (11b, 10b, HtAtsResv = 0) the transaction is an ordinary one, in the last also where it is excluded or TV =
0, but TV = 0 aborts the first two with Type 111b (spec/40_transactions.md R185 to R192; the controls before the
exclusion range is D22, log entry 14). An abort is logged unless IV = 1 and IG = 1 (D11, log entry 14). -/
def Obligations.ControlledRanges : Prop :=
  (∀ (s : State) (t : InFlight) (d : Dte), rangeOf t.tx.addr = .reservedInterrupt ∨ rangeOf t.tx.addr = .interruptEoi →
    (t.tx.kind = .transReq → s.aborts (s.judged t d) t .targetAbort (s.requestEvents t d 1)) ∧
    (t.tx.kind ≠ .transReq → t.tx.kind ≠ .writePosted →
      s.aborts (s.judged t d) t .targetAbort (s.requestEvents t d 0)) ∧
    (t.tx.kind = .writePosted → rangeOf t.tx.addr = .reservedInterrupt →
      s.aborts (s.judged t d) t .targetAbort (s.requestEvents t d 6))) ∧
  (∀ (s : State) (t : InFlight) (d : Dte) (type : BitVec 3), t.tx.untranslated → d.v = true → d.checkLow = none →
    type = (if t.tx.kind = .writePosted then 3 else 4) →
    (rangeOf t.tx.addr = .systemManagement →
      (d.sysMgt ≠ 3 →
        if t.tx.kind = .writePosted ∧ (d.sysMgt = 1 ∨ d.sysMgt = 2 ∧ t.tx.intx = true) then
          s.forwards (s.judged t d) t t.tx none
        else s.aborts (s.judged t d) t .targetAbort (s.requestEvents t d type)) ∧
      (d.sysMgt = 3 → d.tv = true → s.excluded d t.tx.addr = false → s.judged t d = s.beginTranslate t d)) ∧
    (rangeOf t.tx.addr = .ioSpace →
      (d.ioCtl = 0 → s.aborts (s.judged t d) t .targetAbort (s.requestEvents t d 2)) ∧
      (d.ioCtl = 1 → s.forwards (s.judged t d) t t.tx none) ∧
      (d.ioCtl = 2 → d.tv = true → s.excluded d t.tx.addr = false → s.judged t d = s.beginTranslate t d)) ∧
    (rangeOf t.tx.addr = .systemManagement ∧ d.sysMgt = 3 ∨ rangeOf t.tx.addr = .ioSpace ∧ d.ioCtl = 2 →
      (s.excluded d t.tx.addr = true → s.forwards (s.judged t d) t t.tx none) ∧
      (s.excluded d t.tx.addr = false → d.tv = false →
        s.aborts (s.judged t d) t .targetAbort (s.requestEvents t d 7))) ∧
    (rangeOf t.tx.addr = .addressTranslation →
      (s.htAtsResv = true → s.aborts (s.judged t d) t .targetAbort (s.requestEvents t d type)) ∧
      (s.htAtsResv = false →
        (s.excluded d t.tx.addr = true → s.forwards (s.judged t d) t t.tx none) ∧
        (s.excluded d t.tx.addr = false → d.tv = false → ∃ pe rw, t.tx.kind.rwIs rw ∧
          s.aborts (s.judged t d) t .targetAbort (s.faultEvents t d false pe rw true)) ∧
        (s.excluded d t.tx.addr = false → d.tv = true → s.judged t d = s.beginTranslate t d))))

/-- A translation request outside the two interrupt ranges, where IotlbSup = 1: with V = 0, I = 0 or TV = 0 it is
master aborted with INVALID_DEVICE_REQUEST (Type 000b, TR = 1); in a range whose field refuses it, it is target
aborted with Type 001b. In the exclusion range one page is answered as readable and writable at its own address,
with Mode = 000b as the entry's IR and IW say; a walk's page is answered with the address, the cumulative
permissions, FC, U and the size, and a page fault with R = 0 and W = 0 and no event (spec/40_transactions.md R193,
R197, R200, R207, R208). A request for several pages without an entry is answered as the implementation likes
(R209). The master abort for TV = 0 is C5 of spec/90_conflicts.md, the refusal under HtAtsResv D36, the events
unless IG = 1 D11 (log entry 14); the 4K-aligned address and the open parts of an answer are log entry 27. -/
def Obligations.TranslationRequestAnswers : Prop :=
  ∀ (s : State) (t : InFlight) (d : Dte), t.tx.kind = .transReq → rangeOf t.tx.addr ≠ .reservedInterrupt →
    rangeOf t.tx.addr ≠ .interruptEoi → s.iotlbSup = true →
    (d.v = false ∨ d.iotlb = false → s.aborts (s.judged t d) t .masterAbort (s.requestEvents t d 0)) ∧
    (d.v = true → d.iotlb = true → d.checkLow = none →
      (s.rangeRefusesTranslation d (rangeOf t.tx.addr) = true →
        s.aborts (s.judged t d) t .targetAbort (s.requestEvents t d 1)) ∧
      (s.rangeRefusesTranslation d (rangeOf t.tx.addr) = false →
        (s.excluded d t.tx.addr = true →
          ∃ pages, s.answers (s.judged t d) t pages ∧
            (t.tx.npages ≤ 1 → ∃ p, pages = [p] ∧ p.addr = t.tx.addr ∧ p.r = true ∧ p.w = true)) ∧
        (s.excluded d t.tx.addr = false → d.tv = false →
          if rangeOf t.tx.addr = .systemManagement ∨ rangeOf t.tx.addr = .ioSpace then
            s.aborts (s.judged t d) t .targetAbort (s.requestEvents t d 1)
          else s.aborts (s.judged t d) t .masterAbort (s.requestEvents t d 0)) ∧
        (s.excluded d t.tx.addr = false → d.tv = true → s.judged t d = s.beginTranslate t d))) ∧
    (s.rangeRefusesTranslation d (rangeOf t.tx.addr) = true ↔
      (rangeOf t.tx.addr = .systemManagement ∧ d.sysMgt ≠ 3 ∨ rangeOf t.tx.addr = .ioSpace ∧ d.ioCtl ≠ 2 ∨
        rangeOf t.tx.addr = .addressTranslation ∧ s.htAtsResv = true)) ∧
    (d.mode = 0 → ∃ pages, s.answers (s.beginTranslate t d) t pages ∧
      (t.tx.npages ≤ 1 → ∃ p, pages = [p] ∧ p.addr = t.tx.addr ∧ p.r = d.ir ∧ p.w = d.iw)) ∧
    (∀ (use : PageUse) (spa : Addr) (bits : Nat) (ir iw fc u : Bool),
      ∃ rest, s.answers (s.finishPage t d use spa bits ir iw fc u) t (⟨alignDown spa 12, ir, iw, fc, u, bits⟩ :: rest) ∧
        rest.length = t.tx.npages - 1) ∧
    (∀ pr rz ir iw : Bool, ∃ p rest, s.answers (s.finishFault t d pr rz ir iw) t (p :: rest) ∧ p.r = false ∧ p.w = false ∧
      rest.length = t.tx.npages - 1)

/-- A transaction translated by a page is forwarded exactly where its kind is permitted: a read needs ir, a write iw,
an atomic operation both, a zero-byte read one of them (R204, R205); it goes upstream at the translated address,
coherent if FC = 1, otherwise as it came (R206). A refused one is target aborted with IO_PAGE_FAULT (PR = 1, PE = 1)
unless SA = 1 (spec/60_exceptions.md R443, R444). With TV = 0 an ordinary transaction is target aborted with
IO_PAGE_FAULT (PR = 1, RZ = 0), with TV = 1 it is translated; with Mode = 000b a transaction that is translated, in
whatever range, is forwarded unaltered exactly where IR and IW permit its kind (R202 (a), (b)). The data of a
zero-byte read of a page that may be written but not read does not depend on what memory answered (R205). PR and RZ of
a fault are those of the table of R443 (D39, log entry 14). -/
def Obligations.PermissionCheck : Prop :=
  (∀ (s : State) (t : InFlight) (d : Dte) (use : PageUse) (spa : Addr) (ir iw fc : Bool),
    (t.tx.kind.permitted ir iw = true →
      s.forwards (s.finishMemory t d use spa ir iw fc) t { t.tx with addr := spa, coherent := fc || t.tx.coherent }
        (some use)) ∧
    (t.tx.kind.permitted ir iw = false → rangeOf t.tx.addr ≠ .interruptEoi →
      ∃ rw, t.tx.kind.rwIs rw ∧
        s.aborts (s.finishMemory t d use spa ir iw fc) t .targetAbort (s.faultEvents t d false true rw true)) ∧
    TxKind.permitted ir iw .read = ir ∧ TxKind.permitted ir iw .writePosted = iw ∧
    TxKind.permitted ir iw .writeNonPosted = iw ∧ TxKind.permitted ir iw .atomic = (ir && iw) ∧
    TxKind.permitted ir iw .zeroByteRead = (ir || iw)) ∧
  (∀ (s : State) (t : InFlight) (d : Dte), t.tx.untranslated → s.uncontrolled t.tx → d.v = true → d.checkLow = none →
    s.excluded d t.tx.addr = false →
    (d.tv = false → ∃ pe rw, t.tx.kind.rwIs rw ∧
      s.aborts (s.judged t d) t .targetAbort (s.faultEvents t d false pe rw true)) ∧
    (d.tv = true → s.judged t d = s.beginTranslate t d)) ∧
  (∀ (s : State) (t : InFlight) (d : Dte), t.tx.kind ≠ .transReq → rangeOf t.tx.addr ≠ .interruptEoi → d.mode = 0 →
    if t.tx.kind.permitted d.ir d.iw then
      s.forwards (s.beginTranslate t d) t t.tx (some ⟨d.domain, alignDown t.tx.addr 12, 12⟩)
    else ∃ rw, t.tx.kind.rwIs rw ∧ s.aborts (s.beginTranslate t d) t .targetAbort (s.faultEvents t d false true rw true)) ∧
  (∀ (s : State) (t : InFlight) (d : Dte) (use : PageUse) (spa : Addr) (bits : Nat) (ir iw fc u : Bool),
    t.tx.kind ≠ .transReq → s.finishPage t d use spa bits ir iw fc u = s.finishMemory t d use spa ir iw fc) ∧
  (∀ (s : State) (t : InFlight) (d : Dte) (use : PageUse) (spa : Addr) (fc : Bool), t.tx.kind = .zeroByteRead →
    ∃ f, (s.finishMemory t d use spa false true fc).upReads = s.upReads ++ [f] ∧ f.orig = t.tx ∧ f.sent.addr = spa ∧
      f.used = some use ∧ f.obscure = true) ∧
  (∀ (s : State) (k : Nat) (f : Forwarded) (a b : HostAnswer), s.upReads[k]? = some f → f.obscure = true →
    f.sent.kind = .zeroByteRead → a.status = b.status → a.data.length = b.data.length → a.stored = b.stored →
    s.act (.hostAnswers k a) = s.act (.hostAnswers k b))

/-- An interrupt that finds a valid entry goes upstream with bits 23:2 of the entry under FD_F800_0000h and bits
1:0 of its address as they came (spec/43_interrupt_remapping.md R314; bits 1:0 are D41, log entry 14). An entry with
RemapEn = 0, else one with a reserved bit set, else one with a reserved IntType aborts it with IO_PAGE_FAULT, of
PR = 0; of PR = 1 and RZ = 1; of PR = 1 and RZ = 0; with the DomainID of the entry where V = 1; logged unless IG = 1
or SupIOPF = 1 (R310, R315, spec/60_exceptions.md R443, R446; the order of the tests is D5 and RZ = 0 for IntType D39,
log entry 14; the fields without a meaning are open, D14, log entry 26, and the DomainID with V = 0 U36, log
entry 20). -/
def Obligations.InterruptRemapping : Prop :=
  ∀ (s : State) (t : InFlight) (d : Dte) (e : BitVec 32),
    (∀ n : Nat, (remappedAddr t.tx.addr e).getLsbD n =
      (if n < 2 then t.tx.addr.getLsbD n else if n < 24 then e.getLsbD n
        else (0xFDF8000000#64).getLsbD n)) ∧
    (e.getLsbD 0 = true → e.extractLsb' 24 8 = 0 → e.getLsbD 7 = false → (e.extractLsb' 2 3).toNat < 2 →
      s.forwards (s.finishRemap t d e) t { t.tx with addr := remappedAddr t.tx.addr e } none) ∧
    (e.getLsbD 0 = false ∨ e.extractLsb' 24 8 ≠ 0 ∨ e.getLsbD 7 = true ∨ 2 ≤ (e.extractLsb' 2 3).toNat →
      ∃ rz pe rw m, (d.v = true → m = d.domain) ∧
        (e.getLsbD 0 = true → (rz = true ↔ (e.extractLsb' 24 8 ≠ 0 ∨ e.getLsbD 7 = true))) ∧
        s.aborts (s.finishRemap t d e) t .targetAbort
          (if d.ig || e.getLsbD 1 then []
            else [⟨.ioPageFault t.tx.dev false rz pe rw (e.getLsbD 0) true m t.tx.addr, none, s.detected⟩]))

/-- One entry of a page table leads down exactly where it is present, has no reserved bit set and names a
strictly lower level. It gives a page exactly where it is present and unreserved and either has Next Level 000b and
an address aligned to the level's default size, which is then the page's size, or has Next Level 111b and a size,
set by the first zero bit from bit 12 up, above the level's default and below the next level's. It is a fault of
PR = 0 exactly where it is not present, of PR = 1 and RZ = 1 exactly where it is present and a reserved bit is set,
and of PR = 1 and RZ = 0 in every other case: an illegal Next Level, size or alignment. So a walk reads at most six
entries (spec/42_page_tables.md R274, R276, R280, R283, R285 to R288; the level-6 page is D20, log entry 20; PR and
RZ are D39 and the all-ones size D26, log entry 14). -/
def Obligations.WalkEntryIsLegal : Prop :=
  (∀ (e : BitVec 64) (level : Nat) (l6 : Bool), 1 ≤ level → level ≤ 6 →
    (∀ table next, enterPte e level l6 = .next table next ↔
      (e.getLsbD 0 = true ∧ e.extractLsb' 52 9 = 0 ∧ next = (e.extractLsb' 9 3).toNat ∧ 1 ≤ next ∧ next < level ∧
        table.toNat = (e.extractLsb' 12 40).toNat * 4096)) ∧
    (∀ base bits, enterPte e level l6 = .page base bits ↔
      (e.getLsbD 0 = true ∧ e.extractLsb' 52 7 = 0 ∧
        ((e.extractLsb' 9 3 = 0 ∧ (level < 6 ∨ l6 = true) ∧ bits = 9 * level + 3 ∧
            (e.extractLsb' 12 40).toNat * 4096 % 2 ^ bits = 0 ∧ base.toNat = (e.extractLsb' 12 40).toNat * 4096) ∨
          (e.extractLsb' 9 3 = 7 ∧ 12 < bits ∧ bits ≤ 52 ∧ (∀ j, 12 ≤ j → j < bits - 1 → e.getLsbD j = true) ∧
            e.getLsbD (bits - 1) = false ∧ 9 * level + 3 < bits ∧ bits < 9 * (level + 1) + 3 ∧
            base.toNat = (e.extractLsb' 12 40).toNat * 4096 / 2 ^ bits * 2 ^ bits)))) ∧
    (∀ rz, enterPte e level l6 = .fault false rz ↔ (rz = false ∧ e.getLsbD 0 = false)) ∧
    (enterPte e level l6 = .fault true true ↔ (e.getLsbD 0 = true ∧ pteReserved e = true)) ∧
    (pteReserved e = true ↔
      if e.extractLsb' 9 3 = 0 ∨ e.extractLsb' 9 3 = 7 then e.extractLsb' 52 7 ≠ 0 else e.extractLsb' 52 9 ≠ 0) ∧
    (enterPte e level l6 = .fault true false ↔
      (e.getLsbD 0 = true ∧ pteReserved e = false ∧
        ((1 ≤ (e.extractLsb' 9 3).toNat ∧ (e.extractLsb' 9 3).toNat ≤ 6 ∧ level ≤ (e.extractLsb' 9 3).toNat) ∨
          (e.extractLsb' 9 3 = 0 ∧ (level = 6 ∧ l6 = false ∨
            (e.extractLsb' 12 40).toNat * 4096 % 2 ^ (9 * level + 3) ≠ 0)) ∨
          (e.extractLsb' 9 3 = 7 ∧ ∀ bits, 9 * level + 3 < bits → bits < 9 * (level + 1) + 3 → bits ≤ 52 →
            (∀ j, 12 ≤ j → j < bits - 1 → e.getLsbD j = true) → e.getLsbD (bits - 1) = true))))) ∧
  (∀ (level : Nat → Nat) (n : Nat), level 0 ≤ 6 →
    (∀ i, i < n → ∃ e l6 table, enterPte e (level i) l6 = .next table (level (i + 1))) → n ≤ 5)

/-- A walk begins, under Mode 001b to 110b, in the table of the entry's root pointer, at the level Mode names, with no
address bit consumed, the entry's IR and IW counted and the address as it came; of an address wider than VAsize the
upper bits are dropped, or it is a page fault (spec/42_page_tables.md R280, spec/41_device_table.md R229, R230; U30, log
entry 20). A table of level L is indexed by address bits 9L+11 to 9L+3, and the bits skipped are those above them up to
the ones consumed (R274, R280, R284). One step of a walk whose entry can be read and is present with no reserved bit
set: a page ends the walk, with the page's base and the low bits of the address, the permissions ANDed, FC, U and the
size, and a permitted transaction goes upstream there, coherent if FC = 1; a directory entry leads to its table with
the permissions ANDed; either may be cached, but not after an invalidation (R280 to R282, spec/40_transactions.md
R206, spec/20_memory.md R107, R112, R124; a page is cached whole or as 4K pieces of it, one for every address that is
asked for; what an entry holds is log entry 36). Any cached directory entry of the domain whose span holds the address may
take the walk to its table at once, as if the entries before it had been read (R291; its permissions U25, log entry 21). At the start of a
walk this is what happens where the tables of the domain agree (R233). -/
def Obligations.WalkStepFollowsTheTable : Prop :=
  (∀ (s : State) (t : InFlight) (d : Dte), 1 ≤ d.mode → d.mode ≤ 6 →
    ∃ root : Addr, root.toNat = (d.lo.extractLsb' 12 40).toNat * 4096 ∧
      (t.tx.addr.toNat < 2 ^ s.vaSize → s.beginTranslate t d = s.startsWalk t d root t.tx.addr) ∧
      (2 ^ s.vaSize ≤ t.tx.addr.toNat →
        s.beginTranslate t d = s.startsWalk t d root (BitVec.ofNat 64 (t.tx.addr.toNat % 2 ^ s.vaSize)) ∨
          s.beginTranslate t d = s.finishFault t d false false d.ir d.iw)) ∧
  (∀ (level : Nat) (dva : Addr), 1 ≤ level → level ≤ 6 → levelIndex level dva = dva.toNat / 2 ^ (9 * level + 3) % 512) ∧
  (∀ (level upper : Nat) (dva : Addr), upper ≤ 64 → (skippedBits dva upper level = true ↔
    ∃ n, 9 * level + 12 ≤ n ∧ n < upper ∧ dva.getLsbD n = true)) ∧
  (∀ (s : State) (k : Nat) (t : InFlight) (d : Dte) (w : Walk) (c : TxChoice) (a : Addr) (e : BitVec 64),
    s.inFlight[k]? = some t → t.phase = .walking d w →
    (w.fresh = true → s.tablesDisagree d.domain = false ∧ (∀ e, ¬s.usesTlb c.useTlb d.domain w.dva e) ∧
      ∀ e, ¬s.usesPdc c.usePdc d.domain w.dva e) → skippedBits w.dva w.upper w.level = false →
    a = w.table + BitVec.ofNat 64 (8 * levelIndex w.level w.dva) → a.toNat < 2 ^ s.paSize →
    s.readAnswer a.toNat 8 = none →
    e = wordOf 64 ((if d.sd then s.dram else s.mem).readBytes a.toNat 8) → e.getLsbD 0 = true →
    pteReserved e = false →
    (∀ base bits, (∀ l6, enterPte e w.level l6 = .page base bits) → bits ≤ 52 → base.toNat + 2 ^ bits ≤ 2 ^ s.paSize →
      ∃ (u : State) (spa : Addr), spa.toNat = base.toNat + w.dva.toNat % 2 ^ bits ∧
        s.act (.advance k c) = .next (u.finishPage t d ⟨d.domain, alignDown w.dva bits, bits⟩ spa bits
          (w.ir && e.getLsbD 61 && w.dteIr) (w.iw && e.getLsbD 62 && w.dteIw) (e.getLsbD 60) (e.getLsbD 59)) ∧
        u = { s with
          outputs := s.outputs ++ [.ownRead a 8 ⟨!d.sd, s.isoc, some s.passPW, some s.resPassPW⟩]
          tlb := if t.stale = false then
              keptPieces t d w c bits
                (.page base bits (w.ir && e.getLsbD 61) (w.iw && e.getLsbD 62) (e.getLsbD 60) (e.getLsbD 59)) ++ s.tlb
            else s.tlb } ∧
        (t.tx.kind ≠ .transReq →
          t.tx.kind.permitted (w.cumIr && e.getLsbD 61) (w.cumIw && e.getLsbD 62) = true →
          ∃ v : State, s.act (.advance k c) = .next v ∧ v.pendingEvents = s.pendingEvents ∧
            v.outputs = s.outputs ++ [.ownRead a 8 ⟨!d.sd, s.isoc, some s.passPW, some s.resPassPW⟩,
              .forwarded { t.tx with addr := spa, coherent := e.getLsbD 60 || t.tx.coherent }] ∧
            s.underWay v t.id t.tx { t.tx with addr := spa, coherent := e.getLsbD 60 || t.tx.coherent }
              (some ⟨d.domain, alignDown w.dva bits, bits⟩))) ∧
    (∀ table next l6, enterPte e w.level l6 = .next table next →
      s.act (.advance k c) = .next { s with
        outputs := s.outputs ++ [.ownRead a 8 ⟨!d.sd, s.isoc, some s.passPW, some s.resPassPW⟩]
        pdc := if c.keepPdc = true ∧ t.stale = false then
            ⟨d.domain, t.tx.dev, alignDown w.dva (9 * w.level + 3), 9 * w.level + 3, table, next, w.ir && e.getLsbD 61,
              w.iw && e.getLsbD 62, w.dteIr, w.dteIw⟩ :: s.pdc
          else s.pdc
        inFlight := s.inFlight.map fun x => if x.id = t.id then
            { x with phase := .walking d { w with
                table := table, level := next, upper := 9 * w.level + 3, ir := w.ir && e.getLsbD 61,
                iw := w.iw && e.getLsbD 62, fresh := false } }
          else x })) ∧
  (∀ (s : State) (k : Nat) (t : InFlight) (d : Dte) (w : Walk) (c : TxChoice) (p : PdcEntry),
    s.inFlight[k]? = some t → t.phase = .walking d w → w.fresh = true → s.tablesDisagree d.domain = false →
    (∀ e, ¬s.usesTlb c.useTlb d.domain w.dva e) → s.usesPdc c.usePdc d.domain w.dva p →
    s.act (.advance k c) = .next { s with
      inFlight := s.inFlight.map fun x => if x.id = t.id then
          { x with phase := .walking d { w with
              table := p.table, level := p.level, upper := p.bits, ir := p.ir, iw := p.iw,
              dteIr := if c.fillerPerms then p.dteIr else w.dteIr, dteIw := if c.fillerPerms then p.dteIw else w.dteIw,
              fresh := false } }
        else x })

/-- How a walk ends otherwise. Skipped address bits that are not zero, and an entry that is not present, are a page
fault of PR = 0; an entry that is no legal one is a page fault of PR = 1 with the RZ of the entry and PE as the
permissions counted so far refuse the kind (an entry with a reserved bit does not count). A page fault is a target
abort with IO_PAGE_FAULT under SA and SE (spec/42_page_tables.md R283 to R288, R292, spec/60_exceptions.md R443 to R445;
D39, log entry 14), and for a translation request an answer with R = 0 and W = 0 and no event
(spec/40_transactions.md R207). What an entry that is not present gives is cached only with NpCache = 1 (spec/10_state.md
R53; U35, log entry 36). A read that fails is a target abort with PAGE_TAB_HARDWARE_ERROR, for a translation request
too (spec/42_page_tables.md R289, spec/60_exceptions.md R440). At the start of a walk any cached translation of the
domain and the address may answer for the whole walk, without a read: a page under the permissions it carries, those of the device table
entry that filled it or of the one in use (R291, R205; U25, log entry 21), and a cached fault as a fault (R291; U35,
log entry 36). -/
def Obligations.WalkEndsOtherwise : Prop :=
  ∀ (s : State) (k : Nat) (t : InFlight) (d : Dte) (w : Walk) (c : TxChoice) (a : Addr),
    s.inFlight[k]? = some t → t.phase = .walking d w → (w.fresh = true → s.tablesDisagree d.domain = false) →
    rangeOf t.tx.addr ≠ .interruptEoi → a = w.table + BitVec.ofNat 64 (8 * levelIndex w.level w.dva) →
    ((w.fresh = true → (∀ e, ¬s.usesTlb c.useTlb d.domain w.dva e) ∧ ∀ e, ¬s.usesPdc c.usePdc d.domain w.dva e) →
      (skippedBits w.dva w.upper w.level = true →
        ∃ u, s.act (.advance k c) = .next u ∧ u.tlb = s.tlb ∧
          (t.tx.kind ≠ .transReq → ∃ rz pe rw, s.aborts u t .targetAbort (s.faultEvents t d rz pe rw false)) ∧
          (t.tx.kind = .transReq → s.answersAbsent u t [])) ∧
      (skippedBits w.dva w.upper w.level = false → a.toNat < 2 ^ s.paSize →
        (∀ f, s.readAnswer a.toNat 8 = some f →
          ∃ (u : State) (rw : Bool) (m : DomainId), s.act (.advance k c) = .next u ∧ s.leaves u t ∧
            (t.tx.kind.rwIs rw) ∧ (d.v = true → m = d.domain) ∧
            u.outputs = s.outputs ++ [.ownRead a 8 ⟨!d.sd, s.isoc, some s.passPW, some s.resPassPW⟩,
              .aborted t.tx .targetAbort] ∧
            u.pendingEvents = s.pendingEvents ++ [⟨.pageTabHardwareError t.tx.dev f.code
              (decide (t.tx.kind = .transReq)) rw false m a, none, s.detected⟩]) ∧
        (∀ (e : BitVec 64) (pr rz : Bool), s.readAnswer a.toNat 8 = none →
          e = wordOf 64 ((if d.sd then s.dram else s.mem).readBytes a.toNat 8) →
          (∀ l6, enterPte e w.level l6 = .fault pr rz) →
          ∃ u : State, s.act (.advance k c) = .next u ∧
            (∃ ir iw, ir = (w.ir && (!pr || rz || e.getLsbD 61)) ∧ iw = (w.iw && (!pr || rz || e.getLsbD 62)) ∧
              u.tlb = (if t.stale = false ∧ (pr = true ∨ s.npCache = true) then
                keptPieces t d w c (9 * w.level + 3) (.fault pr rz ir iw) else []) ++ s.tlb) ∧
            (t.tx.kind ≠ .transReq → ∃ rz' pe rw, s.leaves u t ∧
              (pr = true → rz' = rz ∧ t.tx.kind.rwIs rw ∧
                pe = !(t.tx.kind.permitted (w.cumIr && (rz || e.getLsbD 61)) (w.cumIw && (rz || e.getLsbD 62)))) ∧
              u.outputs = s.outputs ++ [.ownRead a 8 ⟨!d.sd, s.isoc, some s.passPW, some s.resPassPW⟩,
                .aborted t.tx .targetAbort] ∧
              u.pendingEvents = s.pendingEvents ++ s.faultEvents t d rz' pe rw pr) ∧
            (t.tx.kind = .transReq →
              s.answersAbsent u t [.ownRead a 8 ⟨!d.sd, s.isoc, some s.passPW, some s.resPassPW⟩])))) ∧
    (∀ (x : TlbEntry) (dir diw : Bool), w.fresh = true → s.usesTlb c.useTlb d.domain w.dva x →
      dir = (if c.fillerPerms then x.dteIr else w.dteIr) → diw = (if c.fillerPerms then x.dteIw else w.dteIw) →
      (∀ base bits ir iw fc mark, x.result = .page base bits ir iw fc mark → bits ≤ 52 →
        base.toNat % 2 ^ bits = 0 → base.toNat + 2 ^ bits ≤ 2 ^ s.paSize →
        ∃ (u : State) (spa : Addr), s.act (.advance k c) = .next u ∧
          spa.toNat = base.toNat + w.dva.toNat % 2 ^ bits ∧
          (t.tx.kind = .transReq → ∃ rest, rest.length = t.tx.npages - 1 ∧
            s.answers u t (⟨alignDown spa 12, ir && dir, iw && diw, fc, mark, bits⟩ :: rest)) ∧
          (t.tx.kind ≠ .transReq → t.tx.kind.permitted (ir && dir) (iw && diw) = true →
            s.forwards u t { t.tx with addr := spa, coherent := fc || t.tx.coherent } (some ⟨d.domain, x.base, x.bits⟩)) ∧
          (t.tx.kind ≠ .transReq → t.tx.kind.permitted (ir && dir) (iw && diw) = false →
            ∃ rw, t.tx.kind.rwIs rw ∧ s.aborts u t .targetAbort (s.faultEvents t d false true rw true))) ∧
      (∀ pr rz ir iw, x.result = .fault pr rz ir iw →
        ∃ u, s.act (.advance k c) = .next u ∧ (t.tx.kind = .transReq → s.answersAbsent u t []) ∧
          (t.tx.kind ≠ .transReq → ∃ rz' pe rw,
            (pr = true → rz' = rz ∧ t.tx.kind.rwIs rw ∧ pe = !(t.tx.kind.permitted (ir && dir) (iw && diw))) ∧
            s.aborts u t .targetAbort (s.faultEvents t d rz' pe rw pr))))

/-- An accepted transaction can always go on, and when it does it is finished or gets strictly further: the
IOMMU never holds one back (spec/40_transactions.md R174). The one stop is a walk that would begin under a domain
whose devices have different tables in memory, which the specification calls undefined (spec/41_device_table.md
R233, U26, log entry 21). Going on writes no memory and no register and touches no command: it changes the
caches, its transaction, the events waiting and what has been sent (spec/20_memory.md R104,
spec/60_exceptions.md R453). -/
def Obligations.TransactionsGoOnAndWriteNothing : Prop :=
  ∀ (s : State) (k : Nat) (c : TxChoice) (t : InFlight), s.inFlight[k]? = some t →
    ((∃ d w, t.phase = .walking d w ∧ w.fresh = true ∧ s.tablesDisagree d.domain = true) →
      s.act (.advance k c) = .refused .domainTablesDiffer) ∧
    (¬(∃ d w, t.phase = .walking d w ∧ w.fresh = true ∧ s.tablesDisagree d.domain = true) →
      ∃ u, s.act (.advance k c) = .next u ∧
        (∀ x ∈ u.inFlight, x.id = t.id → t.phase.further x.phase) ∧
        u.inFlight.filter (fun x => decide (x.id ≠ t.id)) = s.inFlight.filter (fun x => decide (x.id ≠ t.id)) ∧
        u = { s with
          dteCache := u.dteCache, tlb := u.tlb, pdc := u.pdc, irtCache := u.irtCache, inFlight := u.inFlight,
          upReads := u.upReads, upWrites := u.upWrites, pendingEvents := u.pendingEvents, outputs := u.outputs })

/-- A posted write of a device that reaches the host bridge stores its bytes, as many as its byte count says, at
the address it was forwarded to, and nothing else. When the host bridge answers a read, a non-posted write or an
atomic operation, the answer goes to the originator unaltered unless it must be obscured, and the transaction is no
longer under way (spec/40_transactions.md R176, spec/44_commands.md R363); a non-posted write that succeeds stores its
bytes likewise and an atomic operation what the host bridge says it stored, a read and a refused transaction nothing
(log entry 25: the specification leaves the effect on memory to the platform; D32). -/
def Obligations.ForwardedWriteLands : Prop :=
  (∀ (s : State) (k : Nat) (f : Forwarded) (data : List Byte), s.upWrites[k]? = some f → f.sent.kind = .writePosted →
    data = f.sent.data.take f.sent.len → s.memoryCanonical → rangeOf f.sent.addr = .ordinary →
    s.isMemory f.sent.addr.toNat data.length = true →
    ∃ t, s.act (.hostTakesWrite k) = .next t ∧ t.holdsBytes f.sent.addr.toNat data ∧
      s.sameMemoryOutside t f.sent.addr.toNat data.length ∧
      t = { s with mem := t.mem, dram := t.dram, upWrites := s.upWrites.eraseIdx k }) ∧
  (∀ (s : State) (k : Nat) (f : Forwarded) (a : HostAnswer), s.upReads[k]? = some f → f.obscure = false →
    (f.sent.kind = .read ∨ f.sent.kind = .zeroByteRead ∨ a.status ≠ .ok →
      s.act (.hostAnswers k a) = .next { s with
        upReads := s.upReads.eraseIdx k, outputs := s.outputs ++ [.completed f.orig a] }) ∧
    (∀ data : List Byte, a.status = .ok → s.memoryCanonical → rangeOf f.sent.addr = .ordinary →
      f.sent.kind = .writeNonPosted ∧ data = f.sent.data.take f.sent.len ∨
        f.sent.kind = .atomic ∧ data = a.stored.take f.sent.len →
      s.isMemory f.sent.addr.toNat data.length = true →
      ∃ t, s.act (.hostAnswers k a) = .next t ∧ t.holdsBytes f.sent.addr.toNat data ∧
        s.sameMemoryOutside t f.sent.addr.toNat data.length ∧
        t = { s with
          mem := t.mem, dram := t.dram, upReads := s.upReads.eraseIdx k,
          outputs := s.outputs ++ [.completed f.orig a] }))

/-- The caches grow only by the table reads of a transaction: every action but the advance of a transaction adds
nothing to any of them (spec/20_memory.md R105, R124). R124 would allow speculative fills: that there are none is
the choice D34 of the model (log entries 34 and 36). -/
def Obligations.CachesGrowOnlyByTransactions : Prop :=
  ∀ (s t : State) (a : Action), (∀ k c, a ≠ .advance k c) → s.act a = .next t → s.cachesWithin t

/-! ### The whole machine -/

/-- The IOMMU by itself, in whatever order it does things, writes system memory only as the log entry at the
event log's tail and as the store of a COMPLETION_WAIT that is fetched or next to be fetched; no invalidation, no
translation and no error changes a byte (spec/20_memory.md R104). What it does where nothing is on the agenda is
the model's schedule (log entry 7); an address wider than PAsize is U31's (log entry 20). -/
def Obligations.IommuWritesOnlyLogAndSemaphore : Prop :=
  ∀ (s t : State) (b : Nat),
    (s.agenda = [] ∧ s.upWrites = []) ∨ (∃ a rest, s.agenda = a :: rest ∧ a.own = true) → step s = .next t →
    t.mem.read b ≠ s.mem.read b ∨ t.dram.read b ≠ s.dram.read b →
    (∃ x, s.tick.tableTarget s.evtTailAddr.toNat = .ok x ∧ x ≤ b ∧ b < x + 16) ∨
      ∃ i a x, s.tick.mayRun i ∧ storesAt a i ∧ s.tick.tableTarget a.toNat = .ok x ∧ x ≤ b ∧ b < x + 8

/-- A run that has ended stays so: with nothing on the agenda the next step changes the run bits at most, which fall
where fetching or logging is off. A halted
ring that still holds commands is stuck and no end: whatever is done but a write of a processor or a reset, it
stays as it is (spec/70_reset_and_hazards.md R504, which the specification derives; the schedule is log
entry 7; that forwarded transactions are no longer the engine's is log entry 41). -/
def Obligations.QuiescentStaysQuiescent : Prop :=
  (∀ s : State, s.agenda = [] → s.ended → s.upWrites = [] → s.intDue = 0 →
    ∃ t, step s = .next t ∧ t.ended ∧
      (∀ n : Nat, t.status.getLsbD n = (s.status.getLsbD n && !(decide (n = 4) && !s.fetching) &&
        !(decide (n = 3) && !s.logging))) ∧
      t = { s with status := t.status, draws := s.draws + 1 }) ∧
  (∀ s t : State, s.stuck → (∀ a data cached, s.agenda.head? ≠ some (.cpuWrite a data cached)) →
    s.agenda.head? ≠ some .reset → step s = .next t →
    t.stuck ∧ t.cmdHead = s.cmdHead ∧ t.cmdTail = s.cmdTail ∧ ¬t.ended) ∧
  (∀ s : State, s.canFetch = true → ¬s.commandsQuiescent)

/-- Every step keeps both memories in canonical form (the form is the model's own, log entry 3). -/
def Obligations.StepKeepsMemoryCanonical : Prop :=
  ∀ s t : State, s.memoryCanonical → step s = .next t → t.memoryCanonical

/-- Every step keeps the reserved bits of the control registers at 0 (R29), the ring lengths unreserved and the
four pointers inside their rings. The pointers' own movement keeps them inside (R335, R430), and a base write resets
them (R31, R32). Against software's writes of a reserved length or of a pointer outside its ring, which the
specification leaves undefined (U12, U14, U16, U18, U20), this holds by the model's choice alone: it refuses them
by name (DESIGN CHOICE, log entry 15). -/
def Obligations.StepKeepsRegistersFormed : Prop :=
  ∀ s t : State, s.reservedClear → s.ringsFormed → step s = .next t → t.reservedClear ∧ t.ringsFormed

/-- Every step keeps CmdBufRun at 1 while commands may be fetched, and EventLogRun at 1 while events are logged
(spec/44_commands.md R333, spec/60_exceptions.md R428). -/
def Obligations.StepKeepsRunBitsShown : Prop :=
  ∀ s t : State, s.runBitsShown → step s = .next t → t.runBitsShown

/-- With NpCache = 0 no step puts a not-present entry into the translation cache (spec/20_memory.md R111,
spec/10_state.md R53), nor a device table entry with V = 0 and IV = 0 into the device table cache
(spec/70_reset_and_hazards.md R497 (e)). The rules speak of whole entries; that the device table cache holds halves, and
that with NpCache = 0 each has its own V or IV = 1 or the other half known valid when it was cached, so that a half
neither read nor cached counts as not valid, is the model's choice (DESIGN CHOICE, log entry 36). And every step keeps
the first-fault state with cached entries (spec/10_state.md R55); that any cached half counts as the entry is the model's
choice too (DESIGN CHOICE, log entry 39). -/
def Obligations.StepKeepsOnlyPresentCached : Prop :=
  (∀ s t : State, s.onlyPresentCached → step s = .next t → t.onlyPresentCached) ∧
  (∀ s t : State, s.faultsWithCache → step s = .next t → t.faultsWithCache)

/-- The state right after reset meets all the invariants. Those of the caches are worded for cached halves, which is the
model's choice (DESIGN CHOICE, log entries 36 and 39), and hold because the caches are empty (D19, log entry 5). -/
def Obligations.ResetMeetsInvariants : Prop :=
  State.reset.memoryCanonical ∧ State.reset.reservedClear ∧ State.reset.ringsFormed ∧ State.reset.runBitsShown ∧
    State.reset.onlyPresentCached ∧ State.reset.faultsWithCache

end
end

