-- ==== Sys2Proof/Machine/Acpi.lean ====
section
/-! DEFINITION. The ACPI tables that describe an IOMMU to system software (spec/45_acpi_tables.md R384 to
R408): IVRS, IVHD and IVMD read from their bytes, when they are well formed, and what they say about DeviceIDs
(R407 (a), (b)), about the device table and the page tables (R407 (c)) and about the registers (R407 (d)). The
hardware has no ACPI state (R407): no step uses this file. -/

namespace Sys2Proof.Machine

/-- A little-endian field of `n` bytes at byte offset `o` (R98). -/
def acpiField (t : List Byte) (o n : Nat) : Nat := leNat ((t.drop o).take n)

/-- Bits `lo+n-1:lo` of a number. -/
def bitsOf (v lo n : Nat) : Nat := v / 2 ^ lo % 2 ^ n

/-! ### IVRS -/

/-- The fixed part of an IVRS (R385). -/
structure Ivrs where
  signature : List Byte
  length : Nat
  revision : Nat
  check : Nat
  oemId : List Byte
  oemTableId : List Byte
  oemRevision : Nat
  creatorId : Nat
  creatorRevision : Nat
  ivInfo : Nat
  reserved : Nat
  deriving DecidableEq, Repr

/-- Read an IVRS (R385). -/
def readIvrs (t : List Byte) : Ivrs where
  signature := t.take 4
  length := acpiField t 4 4
  revision := acpiField t 8 1
  check := acpiField t 9 1
  oemId := (t.drop 10).take 6
  oemTableId := (t.drop 16).take 8
  oemRevision := acpiField t 24 4
  creatorId := acpiField t 28 4
  creatorRevision := acpiField t 32 4
  ivInfo := acpiField t 36 4
  reserved := acpiField t 40 8

/-- The fixed part is well formed: the signature, revision 1h, the reserved fields zero (R385, R386), and the
checksum: the bytes over the length sum to 0 modulo 256 (GK3). -/
def ivrsValid (t : List Byte) : Bool :=
  decide ((readIvrs t).signature = [0x49, 0x56, 0x52, 0x53]) && decide ((readIvrs t).revision = 1) &&
    decide ((readIvrs t).reserved = 0) && decide (bitsOf (readIvrs t).ivInfo 23 9 = 0) &&
    decide (bitsOf (readIvrs t).ivInfo 0 8 = 0) &&
    decide (((t.take (readIvrs t).length).map BitVec.toNat).sum % 256 = 0)

/-- `HtAtsResv` of IVinfo (R386). -/
def Ivrs.htAtsResv (i : Ivrs) : Bool := decide (bitsOf i.ivInfo 22 1 = 1)
/-- `VAsize` of IVinfo (R386). -/
def Ivrs.vaSize (i : Ivrs) : Nat := bitsOf i.ivInfo 15 7
/-- `PAsize` of IVinfo (R386). -/
def Ivrs.paSize (i : Ivrs) : Nat := bitsOf i.ivInfo 8 7

/-- IVinfo says of the IOMMU what its own register says (R386): where the two differ software uses IVinfo. -/
def Ivrs.agrees (i : Ivrs) (s : State) : Bool :=
  decide (i.htAtsResv = s.htAtsResv) && decide (i.vaSize = s.vaSize) && decide (i.paSize = s.paSize)

/-! ### IVHD -/

/-- The fixed part of an IVHD (R388 to R390). -/
structure Ivhd where
  type : Nat
  flags : Nat
  length : Nat
  dev : DeviceId
  capOffset : Nat
  base : Addr
  segment : Nat
  info : Nat
  reserved : Nat
  deriving DecidableEq, Repr

/-- Read an IVHD (R388). -/
def readIvhd (t : List Byte) : Ivhd where
  type := acpiField t 0 1
  flags := acpiField t 1 1
  length := acpiField t 2 2
  dev := BitVec.ofNat 16 (acpiField t 4 2)
  capOffset := acpiField t 6 2
  base := BitVec.ofNat 64 (acpiField t 8 8)
  segment := acpiField t 16 2
  info := acpiField t 18 2
  reserved := acpiField t 20 4

/-- `IotlbSup`, flag bit 4 (R389). -/
def Ivhd.iotlbSup (i : Ivhd) : Bool := decide (bitsOf i.flags 4 1 = 1)
/-- `Isoc`, flag bit 3 (R389). -/
def Ivhd.isoc (i : Ivhd) : Bool := decide (bitsOf i.flags 3 1 = 1)
/-- `ResPassPW`, flag bit 2 (R389). -/
def Ivhd.resPassPW (i : Ivhd) : Bool := decide (bitsOf i.flags 2 1 = 1)
/-- `PassPW`, flag bit 1 (R389). -/
def Ivhd.passPW (i : Ivhd) : Bool := decide (bitsOf i.flags 1 1 = 1)
/-- `HtTunEn`, flag bit 0 (R389). -/
def Ivhd.htTunEn (i : Ivhd) : Bool := decide (bitsOf i.flags 0 1 = 1)
/-- `UnitID`, bits 12:8 of the IOMMU info (R390). -/
def Ivhd.unitId (i : Ivhd) : Nat := bitsOf i.info 8 5
/-- `MSInum`, bits 4:0 of the IOMMU info (R390). -/
def Ivhd.msiNum (i : Ivhd) : Nat := bitsOf i.info 0 5

/-- The block is this IOMMU's (R388): the address of its register region and the place of its capability, which
system software cannot change. The block's DeviceID is that of the IOMMU in PCI, which no register of it holds. Several
blocks may so be this IOMMU's, of which the specification does not speak (DESIGN CHOICE, log entry 40: `acpiDescribes`,
`acpiHonoured`). -/
def Ivhd.identifies (i : Ivhd) (s : State) : Bool :=
  decide (i.base.toNat = s.mmioBase) && decide (i.capOffset = s.capPtr)

/-- The registers hold what the block says that firmware has put into them before system software runs (R388 to
R390, R407 (d)): the control bits, which software may change later, UnitID and MSInum. `IotlbSup` may be withdrawn
by the platform, not granted (R389). -/
def Ivhd.firmwareSet (i : Ivhd) (s : State) : Bool :=
  decide (i.isoc = s.isoc) && decide (i.resPassPW = s.resPassPW) && decide (i.passPW = s.passPW) &&
    decide (i.htTunEn = s.htTunEn) && (!i.iotlbSup || s.iotlbSup) && decide (i.unitId = s.unitId) &&
    decide (i.msiNum = s.msiNum.toNat)

/-- The block describes this IOMMU as firmware leaves it (R407 (d)). -/
def Ivhd.describes (i : Ivhd) (s : State) : Bool := i.identifies s && i.firmwareSet s

/-- `EntryLength(type)` (R393). -/
def ivhdEntryLength (type : Nat) : Nat := 4 * 2 ^ (type / 64)

/-- The IVHD device entries (R395, R397); `data` is the data setting byte. -/
inductive IvhdEntry where
  | pad
  | all (data : Nat)
  | select (dev : DeviceId) (data : Nat)
  | rangeStart (dev : DeviceId) (data : Nat)
  | rangeEnd (dev : DeviceId)
  | aliasSelect (dev : DeviceId) (data : Nat) (source : DeviceId)
  | aliasStart (dev : DeviceId) (data : Nat) (source : DeviceId)
  | extSelect (dev : DeviceId) (data ext : Nat)
  | extStart (dev : DeviceId) (data ext : Nat)
  | special (data handle : Nat) (source : DeviceId) (variety : Nat)
  | reserved (type : Nat)
  deriving DecidableEq, Repr

/-- One device entry, by its type byte (R395, R397, R402). -/
def readIvhdEntry (t : List Byte) : IvhdEntry :=
  let type := acpiField t 0 1
  let dev := BitVec.ofNat 16 (acpiField t 1 2)
  let data := acpiField t 3 1
  let source := BitVec.ofNat 16 (acpiField t 5 2)
  if type = 0 then .pad
  else if type = 1 then .all data
  else if type = 2 then .select dev data
  else if type = 3 then .rangeStart dev data
  else if type = 4 then .rangeEnd dev
  else if type = 64 then .pad
  else if type = 66 then .aliasSelect dev data source
  else if type = 67 then .aliasStart dev data source
  else if type = 70 then .extSelect dev data (acpiField t 4 4)
  else if type = 71 then .extStart dev data (acpiField t 4 4)
  else if type = 72 then .special data (acpiField t 4 1) source (acpiField t 7 1)
  else .reserved type

/-- The device entries packed in some bytes (R393: an unknown type is skipped by its length). An entry that the
end of the block cuts short, of which the specification does not speak, is read with zeros for the bytes it lacks
(DESIGN CHOICE, log entry 40). -/
def readIvhdEntries : Nat → List Byte → List IvhdEntry
  | 0, _ => []
  | _, [] => []
  | fuel + 1, t => readIvhdEntry t :: readIvhdEntries fuel (t.drop (ivhdEntryLength (acpiField t 0 1)))

/-- The device entries of an IVHD block (R388). -/
def ivhdEntries (t : List Byte) : List IvhdEntry :=
  readIvhdEntries t.length ((t.take (acpiField t 2 2)).drop 24)

/-- Each entry packed in some bytes, the first of them at offset `off` of its block, lies at a multiple of its
own length (R392, R402); pads fill the gaps, as the entries are packed. -/
def entriesAligned : Nat → Nat → List Byte → Bool
  | 0, _, _ => true
  | _, _, [] => true
  | fuel + 1, off, t =>
    let n := ivhdEntryLength (acpiField t 0 1)
    decide (off % n = 0) && entriesAligned fuel (off + n) (t.drop n)

/-- The fields of the first entry in some bytes that must be zero are (R395 to R397, R400), and its type may be
used (R402). Of the types 5 to 63 no value of a field is stated. The variety of an entry of type 72 may be any: R401
calls 00h and 03h to FFh only "Reserved" and does not say that a block with one is wrong (DESIGN CHOICE, log
entry 40). -/
def entryReservedZero (t : List Byte) : Bool :=
  let type := acpiField t 0 1
  let dataSetting := decide (bitsOf (acpiField t 3 1) 3 1 = 0)
  if type = 0 then decide (acpiField t 1 3 = 0)
  else if type ≤ 3 then dataSetting
  else if type = 4 then decide (acpiField t 3 1 = 0)
  else if type < 64 then true
  else if type = 66 ∨ type = 67 then dataSetting && decide (acpiField t 4 1 = 0) && decide (acpiField t 7 1 = 0)
  else if type = 70 ∨ type = 71 then dataSetting && decide (bitsOf (acpiField t 4 4) 0 31 = 0)
  else if type = 72 then dataSetting && decide (acpiField t 1 2 = 0)
  else decide (type < 128) && decide (acpiField t 1 7 = 0)

/-- Every entry packed in some bytes has its reserved fields zero and a type that may be used. -/
def reservedZero : Nat → List Byte → Bool
  | 0, _ => true
  | _, [] => true
  | fuel + 1, t => entryReservedZero t && reservedZero fuel (t.drop (ivhdEntryLength (acpiField t 0 1)))

/-- The start of a range comes before its end in the table and the two are adjacent; no end stands alone (R392).
A range whose end is a smaller number than its start is empty (R394). -/
def rangesClosed : List IvhdEntry → Bool
  | .rangeStart _ _ :: .rangeEnd _ :: rest => rangesClosed rest
  | .aliasStart _ _ _ :: .rangeEnd _ :: rest => rangesClosed rest
  | .extStart _ _ _ :: .rangeEnd _ :: rest => rangesClosed rest
  | .rangeStart _ _ :: _ => false
  | .aliasStart _ _ _ :: _ => false
  | .extStart _ _ _ :: _ => false
  | .rangeEnd _ :: _ => false
  | _ :: rest => rangesClosed rest
  | [] => true

/-- Which DeviceIDs an entry speaks of: all those the IOMMU controls (type 1), or a span of 16-bit numbers,
both ends included (R394, R395). -/
inductive IvhdScope where
  | all
  | span (first last : Nat)
  deriving DecidableEq, Repr

/-- What an entry says beside its data setting (R395, R397). -/
inductive CoverKind where
  | plain
  /-- The devices present this DeviceID (R399). -/
  | aliased (source : DeviceId)
  /-- An extended data setting (R400). -/
  | extended (ext : Nat)
  /-- A special device under this DeviceID (R401). -/
  | special
  deriving DecidableEq, Repr

/-- What an entry, or a start of range with its end, says of some DeviceIDs. -/
structure IvhdCover where
  scope : IvhdScope
  data : Nat
  kind : CoverKind
  deriving DecidableEq, Repr

/-- What the entries of a block say: a start of range with the end that follows it (R392). -/
def ivhdCovers : List IvhdEntry → List IvhdCover
  | .rangeStart a d :: .rangeEnd b :: rest => ⟨.span a.toNat b.toNat, d, .plain⟩ :: ivhdCovers rest
  | .aliasStart a d s :: .rangeEnd b :: rest => ⟨.span a.toNat b.toNat, d, .aliased s⟩ :: ivhdCovers rest
  | .extStart a d x :: .rangeEnd b :: rest => ⟨.span a.toNat b.toNat, d, .extended x⟩ :: ivhdCovers rest
  | .all d :: rest => ⟨.all, d, .plain⟩ :: ivhdCovers rest
  | .select a d :: rest => ⟨.span a.toNat a.toNat, d, .plain⟩ :: ivhdCovers rest
  | .aliasSelect a d s :: rest => ⟨.span a.toNat a.toNat, d, .aliased s⟩ :: ivhdCovers rest
  | .extSelect a d x :: rest => ⟨.span a.toNat a.toNat, d, .extended x⟩ :: ivhdCovers rest
  | .special d _ s _ :: rest => ⟨.span s.toNat s.toNat, d, .special⟩ :: ivhdCovers rest
  | _ :: rest => ivhdCovers rest
  | [] => []

/-- The entry speaks of the DeviceID; `controls` says which DeviceIDs the IOMMU controls, a fact of the
topology that no entry of type 1 states (R391, R395). -/
def IvhdCover.covers (controls : DeviceId → Bool) (dev : DeviceId) (c : IvhdCover) : Bool :=
  match c.scope with
  | .all => controls dev
  | .span a b => decide (a ≤ dev.toNat) && decide (dev.toNat ≤ b)

/-- How special an entry is: one DeviceID before a range, a range before all (log entry 40). -/
def IvhdScope.rank : IvhdScope → Nat
  | .all => 2
  | .span a b => if a = b then 0 else 1

/-- The most special of some entries. Of two that are equally special the first in the list counts: which it is
no rule says (DESIGN CHOICE, log entry 40). -/
def bestCover : List IvhdCover → Option IvhdCover
  | [] => none
  | c :: rest =>
    match bestCover rest with
    | none => some c
    | some d => if d.scope.rank < c.scope.rank then some d else some c

/-- The entry whose data setting counts for a DeviceID (R394 to R397). -/
def coverOf (controls : DeviceId → Bool) (covers : List IvhdCover) (dev : DeviceId) : Option IvhdCover :=
  bestCover (covers.filter (IvhdCover.covers controls dev))

/-- The DeviceID an entry says the devices present. -/
def IvhdCover.source (c : IvhdCover) : Option DeviceId :=
  match c.kind with
  | .aliased s => some s
  | _ => none

/-- The DeviceID the IOMMU sees for a device (R399): the one its alias entry gives, whatever other entries
speak of the device, else its own. -/
def deviceIdSeen (controls : DeviceId → Bool) (covers : List IvhdCover) (dev : DeviceId) : DeviceId :=
  ((coverOf controls (covers.filter fun c => c.source.isSome) dev).bind (·.source)).getD dev

/-- The entry is that of a special device, which presents the DeviceID the entry names and no other (R397, R401). -/
def IvhdCover.isSpecial (c : IvhdCover) : Bool := decide (c.kind = .special)

/-- The entry whose data setting counts for a device with a DeviceID of its own. Where an alias entry gives it another
DeviceID to present, an entry of type 72 that names the same number speaks of the special device alone: it gives the
"DeviceID used as source by peripheral" (R397, R401), which that device does not use (R399; DEDUCED, log entry 40). -/
def settingOf (controls : DeviceId → Bool) (covers : List IvhdCover) (dev : DeviceId) : Option IvhdCover :=
  coverOf controls (if deviceIdSeen controls covers dev = dev then covers else covers.filter fun c => !c.isSpecial) dev

/-- The entry whose data setting counts for the special devices that present a DeviceID (R397, R401). -/
def specialSetting (controls : DeviceId → Bool) (covers : List IvhdCover) (dev : DeviceId) : Option IvhdCover :=
  coverOf controls (covers.filter IvhdCover.isSpecial) dev

/-- The DeviceIDs under which the IOMMU sees what a block calls by one DeviceID: that of the device of this number, and
the number itself where a special device presents it (R399, R401). -/
def deviceIdsSeen (controls : DeviceId → Bool) (covers : List IvhdCover) (dev : DeviceId) : List DeviceId :=
  deviceIdSeen controls covers dev :: if (specialSetting controls covers dev).isSome then [dev] else []

/-- `AtsDisabled`, bit 31 of the extended data setting (R400). -/
def atsDisabled (ext : Nat) : Bool := decide (bitsOf ext 31 1 = 1)

/-- The entry withdraws address translation requests (R400). -/
def IvhdCover.blocksAts (c : IvhdCover) : Bool :=
  match c.kind with
  | .extended x => atsDisabled x
  | _ => false

/-- The device must be prevented from issuing translation requests: some entry that speaks of it says so, also
beside an alias entry (R399, R400). -/
def atsBlocked (controls : DeviceId → Bool) (covers : List IvhdCover) (dev : DeviceId) : Bool :=
  covers.any fun c => c.covers controls dev && c.blocksAts

/-- Some DeviceID is spoken of: a range whose end is below its start has none (R394). An entry for all devices
speaks of those the IOMMU controls, whichever they are. -/
def IvhdScope.inhabited : IvhdScope → Bool
  | .all => true
  | .span a b => decide (a ≤ b)

/-- Two scopes have no device in common (R394): a range whose end is below its start has none at all. -/
def IvhdScope.apart : IvhdScope → IvhdScope → Bool
  | .span p q, .span x y => decide (q < p) || decide (y < x) || decide (q < x) || decide (y < p)
  | .span p q, .all => decide (q < p)
  | .all, .span x y => decide (y < x)
  | .all, .all => false

/-- A block with an alias entry has no entry of type 1, 2 or 3 for the same devices (R399). -/
def aliasesApart (covers : List IvhdCover) : Bool :=
  covers.all fun a => covers.all fun b =>
    match a.kind, b.kind with
    | .aliased _, .plain => a.scope.apart b.scope
    | _, _ => true

/-- The varieties of special devices (R401). -/
inductive Variety where
  | ioapic
  | hpet
  | reserved (value : Nat)
  deriving DecidableEq, Repr

/-- The variety byte (R401). -/
def readVariety (v : Nat) : Variety := if v = 1 then .ioapic else if v = 2 then .hpet else .reserved v

/-- The DeviceID under which the IOMMU sees a special device: an I/O APIC by its APIC ID, an HPET by its
number (R401). Of two entries with the same variety and handle the first in the block counts, of which the
specification says nothing (DESIGN CHOICE, log entry 40). -/
def specialDeviceId (entries : List IvhdEntry) (variety : Variety) (handle : Nat) : Option DeviceId :=
  entries.findSome? fun e =>
    match e with
    | .special _ h source v => if readVariety v = variety ∧ h = handle then some source else none
    | _ => none

/-- A requester of the platform: a device with a DeviceID of its own, or a special device. -/
inductive Requester where
  | device (dev : DeviceId)
  | ioapic (apicId : Nat)
  | hpet (number : Nat)
  deriving DecidableEq, Repr

/-- `P.DeviceIdMap` as a block gives it (R394, R399, R401, R407 (a)): `none` where the block does not speak of a
special device. -/
def deviceIdMap (controls : DeviceId → Bool) (entries : List IvhdEntry) : Requester → Option DeviceId
  | .device dev => some (deviceIdSeen controls (ivhdCovers entries) dev)
  | .ioapic n => specialDeviceId entries .ioapic n
  | .hpet n => specialDeviceId entries .hpet n

/-- The DeviceIDs a block says its IOMMU serves (R391, R407 (b)). -/
def servedBy (controls : DeviceId → Bool) (covers : List IvhdCover) (dev : DeviceId) : Bool :=
  covers.any fun c => c.covers controls dev

/-- Every peripheral whose transactions the IOMMU processes is defined in its block (R391). -/
def definesPeripherals (controls : DeviceId → Bool) (t : List Byte) : Prop :=
  ∀ dev : DeviceId, controls dev = true → servedBy controls (ivhdCovers (ivhdEntries t)) dev = true

/-- Some entry of the block describes a device or slot that the IOMMU governs (R391). -/
def describesGoverned (controls : DeviceId → Bool) (t : List Byte) : Prop :=
  ∃ dev : DeviceId, controls dev = true ∧ servedBy controls (ivhdCovers (ivhdEntries t)) dev = true

/-- The block is well formed (R388 to R402): type 10h, segment 0, reserved fields zero in the block and in its
entries, no entry of a type that may not be used, entries aligned, ranges closed, aliases apart, and at least one
entry that speaks of a DeviceID, so not of empty ranges alone (R391, R394; that one is governed by this IOMMU is
`describesGoverned`). An entry cut short by the block's end is no fault of itself (log entry 40). -/
def ivhdValid (t : List Byte) : Bool :=
  let i := readIvhd t
  decide (i.type = 0x10) && decide (i.segment = 0) && decide (i.reserved = 0) && decide (bitsOf i.flags 5 3 = 0) &&
    decide (bitsOf i.info 13 3 = 0) && decide (bitsOf i.info 5 3 = 0) &&
    entriesAligned t.length 24 ((t.take i.length).drop 24) && reservedZero t.length ((t.take i.length).drop 24) &&
    rangesClosed (ivhdEntries t) &&
    aliasesApart (ivhdCovers (ivhdEntries t)) && (ivhdCovers (ivhdEntries t)).any fun c => c.scope.inhabited

/-- The device table entry fields a data setting byte prescribes (R396). -/
structure DataSetting where
  lint1Pass : Bool
  lint0Pass : Bool
  sysMgt : BitVec 2
  nmiPass : Bool
  eIntPass : Bool
  initPass : Bool
  deriving DecidableEq, Repr

/-- The data setting byte (R396). -/
def readDataSetting (d : Nat) : DataSetting where
  lint1Pass := decide (bitsOf d 7 1 = 1)
  lint0Pass := decide (bitsOf d 6 1 = 1)
  sysMgt := BitVec.ofNat 2 (bitsOf d 4 2)
  nmiPass := decide (bitsOf d 2 1 = 1)
  eIntPass := decide (bitsOf d 1 1 = 1)
  initPass := decide (bitsOf d 0 1 = 1)

/-- A device table entry honours a data setting (R396), and has `I` = 0 where translation requests are to be
blocked (R389, R400). -/
def Dte.honours (d : Dte) (setting : DataSetting) (blockAts : Bool) : Bool :=
  decide (d.lint1Pass = setting.lint1Pass) && decide (d.lint0Pass = setting.lint0Pass) &&
    decide (d.sysMgt = setting.sysMgt) && decide (d.nmiPass = setting.nmiPass) &&
    decide (d.eIntPass = setting.eIntPass) && decide (d.initPass = setting.initPass) && !(blockAts && d.iotlb)

/-- The device table honours a block (R396, R400, R407 (c)): for every device the block speaks of, the table has
the entry the IOMMU reads for it, which is that of the DeviceID the device presents, with the fields of the
device's data setting; for a special device that is the entry of the DeviceID its own entry of type 72 names, also
where a device of that number presents another one by an alias entry (R397, R401), and a blocked translation request is
that device's, not the special one's (R400; DESIGN CHOICE, log entry 40); and where the block withdraws
`IotlbSup` every entry has `I` = 0 (R389). Of several devices that present one DeviceID each asks for its own setting in
the one entry, so that different settings cannot be honoured together: which of them goes into the entry the
specification does not say (R396; DESIGN CHOICE, log entry 40). -/
def deviceTableHonours (s : State) (controls : DeviceId → Bool) (t : List Byte) : Prop :=
  (∀ (dev : DeviceId) (c : IvhdCover), settingOf controls (ivhdCovers (ivhdEntries t)) dev = some c →
    s.inTable (deviceIdSeen controls (ivhdCovers (ivhdEntries t)) dev) = true ∧
    (s.dteInMemory (deviceIdSeen controls (ivhdCovers (ivhdEntries t)) dev)).honours (readDataSetting c.data)
      (atsBlocked controls (ivhdCovers (ivhdEntries t)) dev) = true) ∧
  (∀ (dev : DeviceId) (c : IvhdCover), deviceIdSeen controls (ivhdCovers (ivhdEntries t)) dev ≠ dev →
    specialSetting controls (ivhdCovers (ivhdEntries t)) dev = some c →
    s.inTable dev = true ∧ (s.dteInMemory dev).honours (readDataSetting c.data) false = true) ∧
  ((readIvhd t).iotlbSup = false → ∀ dev : DeviceId, s.inTable dev = true → (s.dteInMemory dev).iotlb = false)

/-- The decoded word is an INVALIDATE_IOTLB_PAGES. -/
def isIotlbCommand : Decoded → Bool
  | .instr (.invalidateIotlbPages ..) => true
  | _ => false

/-- No command that software has placed between head and tail is an INVALIDATE_IOTLB_PAGES, as the block asks
where it withdraws `IotlbSup` (R389). -/
def commandsHonour (s : State) (t : List Byte) : Prop :=
  (readIvhd t).iotlbSup = false → ∀ k < (s.tailIndex + s.cmdEntries - s.headIndex) % s.cmdEntries,
    isIotlbCommand (decode (s.mem.readBytes (ringAddr s.cmdBase ((s.headIndex + k) % s.cmdEntries)).toNat 16)) = false

/-! ### IVMD -/

/-- A memory definition block (R404). -/
structure Ivmd where
  type : Nat
  flags : Nat
  length : Nat
  dev : Nat
  aux : Nat
  reserved : Nat
  start : Addr
  size : Nat
  deriving DecidableEq, Repr

/-- Read an IVMD (R404). -/
def readIvmd (t : List Byte) : Ivmd where
  type := acpiField t 0 1
  flags := acpiField t 1 1
  length := acpiField t 2 2
  dev := acpiField t 4 2
  aux := acpiField t 6 2
  reserved := acpiField t 8 8
  start := BitVec.ofNat 64 (acpiField t 16 8)
  size := acpiField t 24 8

/-- The block is well formed (R404 to R406): one of the three types, 32 bytes, reserved fields zero, and no
unity mapping of a block that is not to be mapped. The DeviceID of type 20h and the auxiliary data of types 20h and
21h, which R404 calls reserved without stating a value, may hold anything (DESIGN CHOICE, log entry 40). -/
def Ivmd.valid (m : Ivmd) : Bool :=
  [0x20, 0x21, 0x22].contains m.type && decide (m.length = 32) && decide (m.reserved = 0) &&
    decide (bitsOf m.flags 4 4 = 0) &&
    (decide (bitsOf m.flags 3 1 = 1) || decide (bitsOf m.flags 1 2 ≠ 0) || decide (bitsOf m.flags 0 1 = 0))

/-- An address lies in the memory block (R404). -/
def Ivmd.contains (m : Ivmd) (a : Addr) : Bool :=
  decide (m.start.toNat ≤ a.toNat) && decide (a.toNat < m.start.toNat + m.size)

/-- The block applies to a device (R404, R405). -/
def Ivmd.appliesTo (m : Ivmd) (dev : DeviceId) : Bool :=
  decide (m.type = 0x20) || (decide (m.type = 0x21) && decide (dev.toNat = m.dev)) ||
    (decide (m.type = 0x22) && decide (m.dev ≤ dev.toNat) && decide (dev.toNat ≤ m.aux))

/-- What software must do with a block (R406). -/
inductive MemoryDuty where
  /-- Program the exclusion range: for every device, or for the named ones by `EX`. -/
  | exclude (allow : Bool)
  /-- Map each address of the block to itself, with these permissions. -/
  | unity (ir iw : Bool)
  /-- May be mapped anywhere with at most these permissions. -/
  | mayMap (ir iw : Bool)
  /-- Must never be mapped. -/
  | never
  deriving DecidableEq, Repr

/-- The duty a block's flags give (R405, R406). -/
def Ivmd.duty (m : Ivmd) : MemoryDuty :=
  let ir := decide (bitsOf m.flags 1 1 = 1)
  let iw := decide (bitsOf m.flags 2 1 = 1)
  if bitsOf m.flags 3 1 = 1 then .exclude (decide (m.type = 0x20))
  else if !ir && !iw then .never
  else if bitsOf m.flags 0 1 = 1 then .unity ir iw
  else .mayMap ir iw

/-- The exclusion base register for an excluded block (R406, spec/10_state.md R45). A start that is not on a page
boundary is rounded down to its page, and bits above 51 of it are dropped, which no rule states (R404 lets only the
length be rounded up; DESIGN CHOICE, log entry 40). -/
def Ivmd.exclBase (m : Ivmd) : Reg :=
  (m.start &&& 0x000FFFFFFFFFF000#64) ||| (if m.type = 0x20 then 3#64 else 1#64)

/-- The exclusion limit register for an excluded block (R406, spec/10_state.md R46): the page of the block's last byte.
For a block of length 0 that is taken as the page of the byte before its start, and page 0 where it starts at 0, which
no rule states (DESIGN CHOICE, log entry 40). -/
def Ivmd.exclLimit (m : Ivmd) : Reg := BitVec.ofNat 64 (m.start.toNat + m.size - 1) &&& 0x000FFFFFFFFFF000#64

/-- Where a device virtual address leads and with which permissions. -/
structure Reach where
  spa : Addr
  ir : Bool
  iw : Bool
  deriving DecidableEq, Repr

/-- What the page tables in memory give for an address (spec/42_page_tables.md R280), from a table of some level
on, with the permissions passed so far. Pages and table pointers wider than `PAsize`, which are open (U31), are taken
as the tables give them, neither cut nor failing (DESIGN CHOICE, log entry 40). -/
def tableReach (mem : Memory) (dva : Addr) : Nat → Addr → Nat → Nat → Bool → Bool → Option Reach
  | 0, _, _, _, _, _ => none
  | fuel + 1, table, level, upper, ir, iw =>
    if skippedBits dva upper level then none
    else
      let e := wordOf 64 (mem.readBytes (entryAddr table level dva).toNat 8)
      match enterPte e level false with
      | .page base bits => some ⟨joinPage base bits dva, ir && pteIr e, iw && pteIw e⟩
      | .fault _ _ => none
      | .next table next => tableReach mem dva fuel table next (levelLow level) (ir && pteIr e) (iw && pteIw e)

/-- What a device with this entry reaches at an address, the exclusion range not counted
(spec/40_transactions.md R202): nothing under an illegal entry (spec/41_device_table.md R247). A device that passes
without page tables, under `V` = 0 or `Mode` = 000b, counts as mapped to each address itself, with the permissions it
then has, though R406 words the duties of a memory block as mappings in page tables; the exclusion range and the special
address ranges do not count. An address wider than `VAsize`, which is open (U30), is taken with all its bits (DESIGN
CHOICE, log entry 40). -/
def Dte.reach (mem : Memory) (d : Dte) (dva : Addr) : Option Reach :=
  if !d.v then some ⟨dva, true, true⟩
  else if d.checkLow.isSome then none
  else if !d.tv then none
  else if d.mode = 0 then some ⟨dva, d.ir, d.iw⟩
  else tableReach mem dva 6 d.root d.mode 64 d.ir d.iw

/-- The entry and the page tables of a named device meet the duty (R406). That a pass-through without page tables
counts as a mapping, for a duty to map as for one not to map, is the model's choice (DESIGN CHOICE, log entry 40). -/
def MemoryDuty.met (m : Ivmd) (mem : Memory) (d : Dte) : MemoryDuty → Prop
  | .exclude all => all = true ∨ d.ex = true
  | .unity ir iw => ∀ a : Addr, m.contains a = true → d.reach mem a = some ⟨a, ir, iw⟩
  | .mayMap ir iw => ∀ (a : Addr) (r : Reach), d.reach mem a = some r → m.contains r.spa = true →
      (r.ir = true → ir = true) ∧ (r.iw = true → iw = true)
  | .never => ∀ (a : Addr) (r : Reach), d.reach mem a = some r → m.contains r.spa = false

/-- The entry the IOMMU uses for a DeviceID: beyond the table the substitute (spec/40_transactions.md R178). -/
def State.entryUsed (s : State) (dev : DeviceId) : Dte := if s.inTable dev then s.dteInMemory dev else Dte.substitute

/-- Software has done what a block asks (R406, R407 (c)): the exclusion registers where the block is excluded,
and for every device it names, of those that the IOMMU serves, the entry and the tables the IOMMU uses for it, that is
for each DeviceID under which it is seen. Of
several excluded blocks each asks for the one pair of exclusion registers, so that two different ones cannot both
be met: what software does then the source does not say (spec/91_not_in_source.md N48; DESIGN CHOICE, log entry
40). -/
def Ivmd.met (m : Ivmd) (s : State) (served : DeviceId → Bool) (seen : DeviceId → List DeviceId) : Prop :=
  (∀ all, m.duty = .exclude all → s.exclBase = m.exclBase ∧ s.exclLimit = m.exclLimit) ∧
    ∀ dev : DeviceId, served dev = true → m.appliesTo dev = true →
      ∀ id ∈ seen dev, m.duty.met m s.mem (s.entryUsed id)

/-! ### The blocks of an IVRS (R387) -/

/-- A definition block with its bytes. -/
inductive IvrsBlock where
  | ivhd (bytes : List Byte)
  | ivmd (bytes : List Byte)
  | unknown (bytes : List Byte)
  deriving DecidableEq, Repr

/-- The blocks packed in some bytes, each stepped over by its own length (R387). A length below 4, which would
not cover the length field itself, is stepped over as 4 bytes, and a block that the end of the IVRS cuts short is read
with zeros for the bytes it lacks; of neither does a rule speak (DESIGN CHOICE, log entry 40). -/
def readBlocks : Nat → List Byte → List IvrsBlock
  | 0, _ => []
  | _, [] => []
  | fuel + 1, t =>
    let n := max 4 (acpiField t 2 2)
    let block := t.take n
    let type := acpiField t 0 1
    (if type = 0x10 then IvrsBlock.ivhd block
      else if type = 0x20 ∨ type = 0x21 ∨ type = 0x22 then IvrsBlock.ivmd block
      else IvrsBlock.unknown block) :: readBlocks fuel (t.drop n)

/-- The blocks of an IVRS, from offset 48 to its length (R385, R387). -/
def ivrsBlocks (t : List Byte) : List IvrsBlock := readBlocks t.length ((t.take (acpiField t 4 4)).drop 48)

/-- A set of definition blocks: an IVHD with the IVMD blocks that pertain to it (R387). -/
structure IvrsSet where
  ivhd : List Byte
  ivmds : List (List Byte)
  deriving DecidableEq, Repr

/-- The IVMD blocks before the next IVHD. -/
def leadingIvmds : List IvrsBlock → List (List Byte)
  | .ivmd m :: rest => m :: leadingIvmds rest
  | .unknown _ :: rest => leadingIvmds rest
  | .ivhd _ :: _ => []
  | [] => []

/-- The sets: each begins with an IVHD, and the IVMD blocks that follow pertain to it (R387). A block of another
type byte is stepped over without an end of the set, and so is an IVMD before the first IVHD; of neither does the
specification speak (DESIGN CHOICE, log entry 40). -/
def ivrsSets : List IvrsBlock → List IvrsSet
  | .ivhd h :: rest => ⟨h, leadingIvmds rest⟩ :: ivrsSets rest
  | .ivmd _ :: rest => ivrsSets rest
  | .unknown _ :: rest => ivrsSets rest
  | [] => []

/-- The IVRS is well formed: its fixed part, at least one set, hence one IVHD, and every block (R385 to R405). -/
def ivrsWellFormed (t : List Byte) : Bool :=
  ivrsValid t && !(ivrsSets (ivrsBlocks t)).isEmpty &&
    (ivrsSets (ivrsBlocks t)).all fun set => ivhdValid set.ivhd && set.ivmds.all fun m => (readIvmd m).valid

/-- The tables describe this IOMMU as firmware hands it over: a well-formed IVRS with an IVHD for it (R388) that
gives the values firmware has put into its registers (R407 (d)), defines every peripheral it controls and describes at
least one (R391). That several IVHD blocks may give this IOMMU's base address and capability offset is let stand, and one
of them is asked to describe it: of such blocks the specification does not speak (R388; DESIGN CHOICE, log entry 40). -/
def acpiDescribes (s : State) (controls : DeviceId → Bool) (t : List Byte) : Prop :=
  ivrsWellFormed t = true ∧
    ∃ set ∈ ivrsSets (ivrsBlocks t), (readIvhd set.ivhd).describes s = true ∧ definesPeripherals controls set.ivhd ∧
      describesGoverned controls set.ivhd

/-- System software honours the tables for this IOMMU (R380, R407 (c)): there is an IVHD for it (R388), which
defines every peripheral it controls and describes at least one (R391), and for every set whose IVHD is its own, the device table and the
commands honour the IVHD and every IVMD of the set is met. What firmware recommends for the control bits (R389)
software need not keep. Where several IVHD blocks give this IOMMU's base address and capability offset, of which the
specification does not speak, each of them is its own and to be honoured, and that there are several is no fault (R388;
DESIGN CHOICE, log entry 40). -/
def acpiHonoured (s : State) (controls : DeviceId → Bool) (t : List Byte) : Prop :=
  (∃ set ∈ ivrsSets (ivrsBlocks t), (readIvhd set.ivhd).identifies s = true ∧ definesPeripherals controls set.ivhd ∧
    describesGoverned controls set.ivhd) ∧
  ∀ set ∈ ivrsSets (ivrsBlocks t), (readIvhd set.ivhd).identifies s = true →
    deviceTableHonours s controls set.ivhd ∧ commandsHonour s set.ivhd ∧
      ∀ m ∈ set.ivmds, (readIvmd m).met s (servedBy controls (ivhdCovers (ivhdEntries set.ivhd)))
        (deviceIdsSeen controls (ivhdCovers (ivhdEntries set.ivhd)))

/-! ### The worked layout (R408) -/

/-- The 48 bytes of the worked IVHD (R408). -/
def workedIvhd : List Byte :=
  [0x10, 0x11, 0x30, 0x00, 0x02, 0x00, 0x40, 0x00, 0x00, 0x00, 0xB8, 0xFE, 0x00, 0x00, 0x00, 0x00,
   0x00, 0x00, 0x00, 0x03, 0x00, 0x00, 0x00, 0x00, 0x03, 0x08, 0x00, 0x00, 0x04, 0xFF, 0x00, 0x00,
   0x43, 0x00, 0x01, 0x00, 0x00, 0x10, 0x00, 0x00, 0x04, 0xFF, 0x01, 0x00, 0x00, 0x00, 0x00, 0x00]

end Sys2Proof.Machine
end

