-- ==== Sys2Proof/Laws/Acpi.lean ====
section
/-! SUPPORT. The worked layout of spec/45_acpi_tables.md R408: what its 48 bytes say. -/

namespace Sys2Proof.Machine

/-- The fixed part of the worked block: an IVHD of 48 bytes for the IOMMU at DeviceID 0002h, capability at 40h,
registers at FEB8_0000h, UnitID 3, MSInum 0, with `IotlbSup` and `HtTunEn` alone set; it is well formed. -/
theorem workedIvhd_fixed : readIvhd workedIvhd = ⟨0x10, 0x11, 48, 0x0002, 0x40, 0xFEB80000, 0, 0x0300, 0⟩ ∧
    (readIvhd workedIvhd).unitId = 3 ∧ (readIvhd workedIvhd).msiNum = 0 ∧ (readIvhd workedIvhd).iotlbSup = true ∧
    (readIvhd workedIvhd).htTunEn = true ∧ (readIvhd workedIvhd).isoc = false ∧ (readIvhd workedIvhd).passPW = false ∧
    (readIvhd workedIvhd).resPassPW = false ∧ ivhdValid workedIvhd = true := by decide

/-- Its device entries: the range 0008h to 00FFh, the alias range 0100h to 01FFh, a pad. -/
theorem workedIvhd_entries : ivhdEntries workedIvhd =
    [.rangeStart 0x0008 0, .rangeEnd 0x00FF, .aliasStart 0x0100 0 0x0010, .rangeEnd 0x01FF, .pad] := by decide

/-- What the entries say. -/
theorem workedIvhd_covers : ivhdCovers (ivhdEntries workedIvhd) =
    [⟨.span 8 255, 0, .plain⟩, ⟨.span 256 511, 0, .aliased 0x0010⟩] := by
  rw [workedIvhd_entries]; decide

/-- The devices 0100h to 01FFh are seen as 0010h, and every other device as itself. -/
theorem workedIvhd_seen (controls : DeviceId → Bool) (dev : DeviceId) :
    deviceIdSeen controls (ivhdCovers (ivhdEntries workedIvhd)) dev =
      if 0x100 ≤ dev.toNat ∧ dev.toNat ≤ 0x1FF then 0x0010 else dev := by
  rw [workedIvhd_covers]
  by_cases h1 : 256 ≤ dev.toNat <;> by_cases h2 : dev.toNat ≤ 511 <;>
    simp [deviceIdSeen, coverOf, IvhdCover.source, IvhdCover.covers, bestCover, h1, h2]

/-- The devices 0008h to 01FFh are served, and no others (R391). -/
theorem workedIvhd_serves (controls : DeviceId → Bool) (dev : DeviceId) :
    servedBy controls (ivhdCovers (ivhdEntries workedIvhd)) dev = true ↔ 8 ≤ dev.toNat ∧ dev.toNat ≤ 0x1FF := by
  rw [workedIvhd_covers]
  simp [servedBy, IvhdCover.covers]
  omega

/-- The block defines every peripheral of an IOMMU that controls no other devices than those (R391). -/
theorem workedIvhd_defines (controls : DeviceId → Bool) :
    definesPeripherals controls workedIvhd ↔ ∀ dev : DeviceId, controls dev = true → 8 ≤ dev.toNat ∧ dev.toNat ≤ 0x1FF :=
  forall_congr' fun dev => imp_congr_right fun _ => workedIvhd_serves controls dev

/-- The block describes a governed device exactly where the IOMMU controls one of those (R391). -/
theorem workedIvhd_governs (controls : DeviceId → Bool) :
    describesGoverned controls workedIvhd ↔ ∃ dev : DeviceId, controls dev = true ∧ 8 ≤ dev.toNat ∧ dev.toNat ≤ 0x1FF :=
  exists_congr fun dev => and_congr_right fun _ => workedIvhd_serves controls dev

/-- A range of DeviceIDs is inhabited exactly where some DeviceID lies in it (R394). -/
theorem IvhdScope.inhabited_span (a b : DeviceId) : (IvhdScope.span a.toNat b.toNat).inhabited = true ↔
    ∃ dev : DeviceId, a.toNat ≤ dev.toNat ∧ dev.toNat ≤ b.toNat := by
  simp only [IvhdScope.inhabited, decide_eq_true_eq]
  exact ⟨fun h => ⟨a, Nat.le_refl _, h⟩, fun ⟨_, h⟩ => h.1.trans h.2⟩

/-- Two spans are apart exactly where no number lies in both; an empty one is apart from every other (R394, R399). -/
theorem IvhdScope.apart_span (p q x y : Nat) :
    (IvhdScope.span p q).apart (.span x y) = true ↔ ¬∃ n, (p ≤ n ∧ n ≤ q) ∧ x ≤ n ∧ n ≤ y := by
  simp only [IvhdScope.apart, Bool.or_eq_true, decide_eq_true_eq]
  constructor
  · rintro h ⟨n, _⟩; omega
  · intro h
    by_contra hc
    exact h ⟨max p x, by omega⟩

/-- What a block calls by one DeviceID is seen under that of its device, and under the number itself where a special
device presents it (R399, R401). -/
theorem mem_deviceIdsSeen (controls : DeviceId → Bool) (covers : List IvhdCover) (dev id : DeviceId) :
    id ∈ deviceIdsSeen controls covers dev ↔
      id = deviceIdSeen controls covers dev ∨ (specialSetting controls covers dev).isSome = true ∧ id = dev := by
  unfold deviceIdsSeen
  split <;> simp_all

/-- A device that presents its own DeviceID takes its setting from the most special of all entries (R397). -/
theorem settingOf_unaliased {controls : DeviceId → Bool} {covers : List IvhdCover} {dev : DeviceId}
    (h : deviceIdSeen controls covers dev = dev) : settingOf controls covers dev = coverOf controls covers dev := by
  rw [settingOf, if_pos h]

end Sys2Proof.Machine
end

