-- ==== Sys2Proof/Laws/Codec.lean ====
section
/-! SUPPORT. Laws of bytes and words: little-endian numbers, places of fields in a word. -/

namespace Sys2Proof

/-- As many bytes as asked for. -/
@[simp] theorem leBytes_length (n v : Nat) : (leBytes n v).length = n := by
  induction n generalizing v with
  | zero => rfl
  | succ n ih => simp [leBytes, ih]

/-- The number that the bytes of a number spell. -/
theorem leNat_leBytes (n v : Nat) : leNat (leBytes n v) = v % 256 ^ n := by
  induction n generalizing v with
  | zero => simp [leBytes, leNat, Nat.mod_one]
  | succ n ih =>
    have e : (256 : Nat) ^ (n + 1) = 256 * 256 ^ n := by rw [Nat.pow_succ, Nat.mul_comm]
    simp only [leBytes, leNat, ih, BitVec.toNat_ofNat]
    rw [e, Nat.mod_mul]

/-- A number spelt by `n` bytes is below `256^n`. -/
theorem leNat_lt (bs : List Byte) : leNat bs < 256 ^ bs.length := by
  induction bs with
  | nil => simp [leNat]
  | cons b bs ih =>
    have := b.isLt
    simp only [leNat, List.length_cons, Nat.pow_succ]
    omega

/-- Bytes are those of the number they spell. -/
theorem leBytes_leNat (bs : List Byte) : leBytes bs.length (leNat bs) = bs := by
  induction bs with
  | nil => rfl
  | cons b bs ih =>
    have hb := b.isLt
    have h1 : (b.toNat + 256 * leNat bs) / 256 = leNat bs := by omega
    have h2 : BitVec.ofNat 8 (b.toNat + 256 * leNat bs) = b := by
      apply BitVec.eq_of_toNat_eq
      simp only [BitVec.toNat_ofNat]
      omega
    simp only [leNat, List.length_cons, leBytes, h1, h2, ih]

/-- Byte `k` of a number. -/
theorem getElem_leBytes (n v k : Nat) (h : k < (leBytes n v).length) :
    (leBytes n v)[k] = BitVec.ofNat 8 (v / 256 ^ k) := by
  induction n generalizing v k with
  | zero => simp [leBytes] at h
  | succ n ih =>
    cases k with
    | zero => simp [leBytes]
    | succ k =>
      simp only [leBytes, List.getElem_cons_succ]
      rw [ih (v / 256) k, Nat.div_div_eq_div_mul, Nat.pow_succ, Nat.mul_comm 256]

/-- Byte `k` of a 64-bit word. -/
theorem byte_of_word (d : BitVec 64) (k : Nat) : BitVec.ofNat 8 (d.toNat / 256 ^ k) = d.extractLsb' (8 * k) 8 := by
  apply BitVec.eq_of_toNat_eq
  rw [BitVec.toNat_ofNat, BitVec.extractLsb'_toNat, Nat.shiftRight_eq_div_pow, Nat.pow_mul]

/-- The bits of a placed field. -/
theorem getLsbD_placed {n : Nat} (v : BitVec n) (lo i : Nat) (hi : i < 128) :
    (placed v lo).getLsbD i = (decide (lo ≤ i) && v.getLsbD (i - lo)) := by
  by_cases h : lo ≤ i
  · simp [placed, h, hi, Nat.not_lt.mpr h]
  · simp [placed, h, Nat.lt_of_not_le h]

/-- The bit of a placed flag. -/
theorem getLsbD_placedBit (b : Bool) (lo i : Nat) (hi : i < 128) :
    (placedBit b lo).getLsbD i = (decide (i = lo) && b) := by
  rw [placedBit, getLsbD_placed _ _ _ hi, BitVec.getLsbD_ofBool]
  by_cases h : i = lo
  · simp [h]
  · by_cases h2 : lo ≤ i
    · have : i - lo ≠ 0 := by omega
      simp [h, this]
    · simp [h, h2]

end Sys2Proof

namespace Sys2Proof.Machine

/-- The word that the bytes of a word spell. -/
theorem wordOf_leBytes (n : Nat) (v : BitVec (8 * n)) : wordOf (8 * n) (leBytes n v.toNat) = v := by
  apply BitVec.eq_of_toNat_eq
  have h := v.isLt
  have e : (256 : Nat) ^ n = 2 ^ (8 * n) := by rw [show (256 : Nat) = 2 ^ 8 by rfl, ← Nat.pow_mul]
  rw [wordOf, BitVec.toNat_ofNat, leNat_leBytes, e, Nat.mod_mod, Nat.mod_eq_of_lt h]

end Sys2Proof.Machine
end

