-- ==== Sys2Proof/Laws/Memory.lean ====
section
/-! SUPPORT. Laws of memory: a read after a write, a write elsewhere, runs of bytes, and the canonical form
kept by every operation. -/

namespace Sys2Proof.Machine

/-! ### One byte -/

/-- A byte just written reads as written. -/
theorem Memory.read_write_same (m : Memory) (a : Nat) (v : Byte) (h : m.wf = true) : (m.write a v).read a = v := by
  suffices hs : ∀ lo, Memory.wfAbove lo m = true → (m.write a v).read a = v from hs 0 h
  clear h
  induction m with
  | nil => intro lo _; by_cases hv : v = Memory.unlisted <;> simp [Memory.write, Memory.read, hv]
  | cons c m ih =>
    obtain ⟨k, w⟩ := c
    intro lo hw
    simp only [Memory.wfAbove, Bool.and_eq_true] at hw
    have above : ∀ (b : Nat) (n : Memory), a < b → Memory.wfAbove b n = true → n.read a = Memory.unlisted := by
      intro b n
      induction n generalizing b with
      | nil => intros; rfl
      | cons c n ihn =>
        obtain ⟨j, u⟩ := c
        intro hb hn
        simp only [Memory.wfAbove, Bool.and_eq_true, decide_eq_true_eq] at hn
        have : j ≠ a := by omega
        simp only [Memory.read, this, if_false]
        exact ihn (j + 1) (by omega) hn.2
    by_cases h1 : a < k
    · by_cases hv : v = Memory.unlisted
      · have : k ≠ a := by omega
        simp [Memory.write, Memory.read, h1, hv, this]
        exact above (k + 1) m (by omega) hw.2
      · simp [Memory.write, Memory.read, h1, hv]
    · by_cases h2 : a = k
      · subst h2
        by_cases hv : v = Memory.unlisted
        · simp [Memory.write, hv]
          exact above (a + 1) m (by omega) hw.2
        · simp [Memory.write, Memory.read, hv]
      · have : k ≠ a := fun e => h2 e.symm
        simp [Memory.write, Memory.read, h1, h2, this]
        exact ih (k + 1) hw.2

/-- A write leaves every other address alone. -/
theorem Memory.read_write_other (m : Memory) (a b : Nat) (v : Byte) (h : b ≠ a) : (m.write a v).read b = m.read b := by
  have h' : a ≠ b := fun e => h e.symm
  induction m with
  | nil => by_cases hv : v = Memory.unlisted <;> simp [Memory.write, Memory.read, hv, h']
  | cons c m ih =>
    obtain ⟨k, w⟩ := c
    simp only [Memory.write]
    split
    · split <;> simp [Memory.read, h']
    · split
      · split
        · simp_all [Memory.read]
        · simp_all [Memory.read]
      · simp [Memory.read, ih]

/-- A write keeps the canonical form above a bound. -/
theorem Memory.wfAbove_write (m : Memory) (a : Nat) (v : Byte) (lo : Nat) (hlo : lo ≤ a)
    (h : Memory.wfAbove lo m = true) : Memory.wfAbove lo (m.write a v) = true := by
  induction m generalizing lo with
  | nil => by_cases hv : v = Memory.unlisted <;> simp [Memory.write, Memory.wfAbove, hv, hlo]
  | cons c m ih =>
    obtain ⟨k, w⟩ := c
    simp only [Memory.wfAbove, Bool.and_eq_true, decide_eq_true_eq, bne_iff_ne, ne_eq] at h
    obtain ⟨⟨h1, h2⟩, h3⟩ := h
    have weaken : ∀ (p q : Nat) (n : Memory), q ≤ p → Memory.wfAbove p n = true → Memory.wfAbove q n = true := by
      intro p q n hq hn
      cases n with
      | nil => rfl
      | cons c n =>
        obtain ⟨j, u⟩ := c
        simp only [Memory.wfAbove, Bool.and_eq_true, decide_eq_true_eq] at hn ⊢
        exact ⟨⟨by omega, hn.1.2⟩, hn.2⟩
    simp only [Memory.write]
    split
    · rename_i hak
      split
      · simp [Memory.wfAbove, h1, h2, h3]
      · rename_i hv
        have hk : a + 1 ≤ k := by omega
        simp [Memory.wfAbove, hlo, hv, hk, h2, h3]
    · split
      · rename_i hak
        subst hak
        split
        · exact weaken _ _ _ (by omega) h3
        · rename_i hv
          simp [Memory.wfAbove, hlo, hv, h3]
      · have hk : k + 1 ≤ a := by omega
        simp [Memory.wfAbove, h1, h2, ih (k + 1) hk h3]

/-- A write keeps the canonical form. -/
theorem Memory.wf_write (m : Memory) (a : Nat) (v : Byte) (h : m.wf = true) : (m.write a v).wf = true :=
  Memory.wfAbove_write m a v 0 (Nat.zero_le a) h

/-- A store of bytes keeps the canonical form. -/
theorem Memory.wf_writeBytes (m : Memory) (a : Nat) (bs : List Byte) (h : m.wf = true) : (m.writeBytes a bs).wf = true := by
  induction bs generalizing m a with
  | nil => exact h
  | cons b bs ih => exact ih _ _ (Memory.wf_write m a b h)

/-! ### Runs of bytes -/

/-- A store leaves every address outside it alone. -/
theorem Memory.read_writeBytes_other (m : Memory) (a b : Nat) (bs : List Byte) (h : b < a ∨ a + bs.length ≤ b) :
    (m.writeBytes a bs).read b = m.read b := by
  induction bs generalizing m a with
  | nil => rfl
  | cons x bs ih =>
    simp only [List.length_cons] at h
    have hb : b ≠ a := by omega
    rw [Memory.writeBytes, ih (m.write a x) (a + 1) (by omega), Memory.read_write_other m a b x hb]

/-- Every byte stored reads as stored. -/
theorem Memory.read_writeBytes_same (m : Memory) (a k : Nat) (bs : List Byte) (h : m.wf = true) (hk : k < bs.length) :
    (m.writeBytes a bs).read (a + k) = bs[k] := by
  induction bs generalizing m a k with
  | nil => simp at hk
  | cons x bs ih =>
    cases k with
    | zero =>
      have : ((m.write a x).writeBytes (a + 1) bs).read a = x := by
        rw [Memory.read_writeBytes_other _ _ _ _ (Or.inl (by omega)), Memory.read_write_same m a x h]
      simpa [Memory.writeBytes] using this
    | succ k =>
      have := ih (m.write a x) (a + 1) k (Memory.wf_write m a x h) (by simpa using hk)
      rw [Memory.writeBytes, show a + (k + 1) = a + 1 + k by omega, this, List.getElem_cons_succ]

/-- As many bytes are read as asked for. -/
@[simp] theorem Memory.length_readBytes (m : Memory) (a n : Nat) : (m.readBytes a n).length = n := by
  induction n generalizing a with
  | zero => rfl
  | succ n ih => simp [Memory.readBytes, ih]

/-- The bytes read are those at the addresses in turn. -/
theorem Memory.getElem_readBytes (m : Memory) (a n k : Nat) (h : k < (m.readBytes a n).length) :
    (m.readBytes a n)[k] = m.read (a + k) := by
  induction n generalizing a k with
  | zero => simp [Memory.readBytes] at h
  | succ n ih =>
    cases k with
    | zero => rfl
    | succ k =>
      simp only [Memory.readBytes, List.getElem_cons_succ]
      rw [ih (a + 1) k, Nat.add_assoc, Nat.add_comm 1 k]

/-- A store reads back whole. -/
theorem Memory.readBytes_writeBytes (m : Memory) (a : Nat) (bs : List Byte) (h : m.wf = true) :
    (m.writeBytes a bs).readBytes a bs.length = bs := by
  apply List.ext_getElem
  · simp
  · intro k h1 h2
    rw [Memory.getElem_readBytes, Memory.read_writeBytes_same m a k bs h h2]

/-- Bytes that no store touches read as before. -/
theorem Memory.readBytes_congr (m n : Memory) (a k : Nat) (h : ∀ b, a ≤ b → b < a + k → n.read b = m.read b) :
    n.readBytes a k = m.readBytes a k := by
  induction k generalizing a with
  | zero => rfl
  | succ k ih =>
    rw [Memory.readBytes, Memory.readBytes, h a (Nat.le_refl a) (by omega),
      ih (a + 1) (fun b h1 h2 => h b (by omega) (by omega))]

end Sys2Proof.Machine
end

