-- ==== Sys2Proof/Laws/Registers.lean ====
section
/-! SUPPORT. Laws of register words: one bit replaced, ring pointers, writes of some bytes of a register. -/

namespace Sys2Proof.Machine

/-- The bits of a register with one bit replaced. -/
theorem getLsbD_withBit (r : Reg) (n : Nat) (b : Bool) (k : Nat) (hn : n < 64) :
    (withBit r n b).getLsbD k = if k = n then b else r.getLsbD k := by
  unfold withBit
  by_cases hk : k < 64
  · cases b
    · by_cases h : k = n
      · subst h; simp [hk]
      · by_cases h2 : k < n
        · simp [h, h2, hk]
        · have : k - n ≠ 0 := by omega
          simp [h, hk]; omega
    · by_cases h : k = n
      · subst h; simp [hk]
      · by_cases h2 : k < n
        · simp [h, h2]
        · have : k - n ≠ 0 := by omega
          simp [h, this]
  · have h : k ≠ n := by omega
    rw [if_neg h, BitVec.getLsbD_of_ge _ _ (by omega), BitVec.getLsbD_of_ge _ _ (by omega)]

/-- The same, in the form that simp gives to a bit at a known place. -/
theorem getElem_withBit (r : Reg) (n : Nat) (b : Bool) (k : Nat) (hk : k < 64) (hn : n < 64) :
    (withBit r n b)[k] = if k = n then b else r[k] := by
  rw [← BitVec.getLsbD_eq_getElem, getLsbD_withBit r n b k hn, BitVec.getLsbD_eq_getElem]

/-- A ring pointer reads back as the index it was made from. -/
theorem pointerIndex_pointerOf (n : Nat) : pointerIndex (pointerOf n) = n % 2 ^ 15 := by
  have h : n % 2 ^ 15 < 2 ^ 15 := Nat.mod_lt _ (by decide)
  simp only [pointerIndex, fieldOf, pointerOf, BitVec.extractLsb'_toNat, BitVec.toNat_shiftLeft, BitVec.toNat_setWidth,
    BitVec.toNat_ofNat, Nat.shiftLeft_eq, Nat.shiftRight_eq_div_pow]
  omega

/-- A ring has at most 32768 entries. -/
theorem ringEntries_le (r : Reg) : ringEntries r ≤ 2 ^ 15 := by
  unfold ringEntries
  have : fieldOf r 56 4 < 2 ^ 4 := (r.extractLsb' 56 4).isLt
  exact Nat.pow_le_pow_right (by decide) (by omega)

/-- A ring has an entry. -/
theorem ringEntries_pos (r : Reg) : 0 < ringEntries r := Nat.pow_pos (by decide)

/-- An index reduced modulo a ring reads back from its pointer. -/
theorem pointerIndex_mod (r : Reg) (n : Nat) : pointerIndex (pointerOf (n % ringEntries r)) = n % ringEntries r := by
  rw [pointerIndex_pointerOf]
  apply Nat.mod_eq_of_lt
  exact Nat.lt_of_lt_of_le (Nat.mod_lt _ (ringEntries_pos r)) (ringEntries_le r)

/-- A ring pointer has its reserved bits 0. -/
theorem pointerOf_reserved (n : Nat) : pointerOf n &&& 0xFFFFFFFFFFF8000F#64 = 0 := by
  apply BitVec.eq_of_toNat_eq
  have h : n % 2 ^ 15 < 2 ^ 15 := Nat.mod_lt _ (by decide)
  apply Nat.eq_of_testBit_eq
  intro i
  rw [← BitVec.getLsbD, ← BitVec.getLsbD]
  simp only [pointerOf, BitVec.getLsbD_and, BitVec.getLsbD_shiftLeft, BitVec.getLsbD_setWidth]
  by_cases hi : i < 64
  · by_cases h4 : i < 4
    · simp [h4]
    · by_cases h19 : i < 19
      · have : (0xFFFFFFFFFFF8000F#64).getLsbD i = false := by
          interval_cases i <;> first | omega | decide
        simp [this]
      · have : (BitVec.ofNat 15 n).getLsbD (i - 4) = false := BitVec.getLsbD_of_ge _ _ (by omega)
        simp [this]
  · simp [hi]

/-- A bit of the mask of some bytes. -/
theorem getLsbD_laneMask (w lane len n : Nat) (h : 8 * (lane + len) ≤ w) :
    (laneMask w lane len).getLsbD n = (decide (8 * lane ≤ n) && decide (n < 8 * (lane + len))) := by
  unfold laneMask
  rw [BitVec.getLsbD_shiftLeft, BitVec.getLsbD_ofNat, Nat.testBit_two_pow_sub_one]
  by_cases h1 : 8 * lane ≤ n <;> by_cases h2 : n < 8 * (lane + len) <;>
    simp [h1, h2] <;> omega

/-- A bit of the bytes of a little-endian number. -/
theorem testBit_leNat (data : List Byte) (n : Nat) :
    (leNat data).testBit n = (data.getD (n / 8) 0).getLsbD (n % 8) := by
  induction data generalizing n with
  | nil => simp [leNat]
  | cons b rest ih =>
    have hb : b.toNat < 2 ^ 8 := b.isLt
    show (b.toNat + 256 * leNat rest).testBit n = _
    by_cases h : n < 8
    · rw [Nat.div_eq_of_lt h, Nat.mod_eq_of_lt h, show (256 : Nat) = 2 ^ 8 by rfl, Nat.add_comm, Nat.testBit_two_pow_mul_add _ hb]
      simp [h, BitVec.getLsbD]
    · obtain ⟨m, rfl⟩ : ∃ m, n = m + 8 := ⟨n - 8, by omega⟩
      rw [show (256 : Nat) = 2 ^ 8 by rfl, Nat.add_comm, Nat.testBit_two_pow_mul_add _ hb]
      have e1 : (m + 8) / 8 = m / 8 + 1 := by omega
      have e2 : (m + 8) % 8 = m % 8 := by omega
      simp [ih, e1, e2]

/-- A bit of a register after a write of some of its bytes: a writable bit among them takes the data's. -/
theorem getLsbD_merge {w : Nat} (old rw : BitVec w) (lane : Nat) (data : List Byte) (n : Nat)
    (h : 8 * (lane + data.length) ≤ w) :
    (merge old rw lane data).getLsbD n =
      if (8 * lane ≤ n ∧ n < 8 * (lane + data.length)) ∧ rw.getLsbD n = true then
        (data.getD ((n - 8 * lane) / 8) 0).getLsbD ((n - 8 * lane) % 8)
      else old.getLsbD n := by
  have hd : ∀ k, k < w → (laneData w lane data).getLsbD k =
      (decide (8 * lane ≤ k) && (leNat data).testBit (k - 8 * lane)) := by
    intro k hk
    unfold laneData
    rw [BitVec.getLsbD_shiftLeft, BitVec.getLsbD_ofNat]
    have h2 : k - 8 * lane < w := by omega
    by_cases h1 : 8 * lane ≤ k
    · simp [h1, hk, h2, Nat.not_lt.mpr h1]
    · simp [h1, Nat.not_le.mp h1]
  by_cases hn : n < w
  · simp only [merge, BitVec.getLsbD_or, BitVec.getLsbD_and, BitVec.getLsbD_not, hn, decide_true, Bool.true_and,
      getLsbD_laneMask _ _ _ _ h, hd n hn, testBit_leNat]
    by_cases h1 : 8 * lane ≤ n <;> by_cases h2 : n < 8 * (lane + data.length) <;> cases hr : rw.getLsbD n <;>
      simp [h1, h2]
  · rw [BitVec.getLsbD_of_ge _ _ (by omega), if_neg (by omega), BitVec.getLsbD_of_ge _ _ (by omega)]

/-- The mask of all eight bytes of a register. -/
theorem laneMask_whole : laneMask 64 0 8 = BitVec.allOnes 64 := by decide

/-- The eight bytes of a word in their place. -/
theorem laneData_whole (v : BitVec 64) : laneData 64 0 (leBytes 8 v.toNat) = v := by
  have h : BitVec.ofNat 64 (leNat (leBytes 8 v.toNat)) = v := wordOf_leBytes 8 v
  simp [laneData, h]

/-- Of the event log base register only byte 0 holds no bit of EventLen or EventBase (spec/10_state.md R32). -/
theorem coversWritable_evtBase {lane len : Nat} (h : len ∈ [1, 2, 4, 8]) (ha : lane % len = 0) (hl : lane < 8) :
    MmioReg.evtBase.coversWritable lane len = true ↔ ¬(lane = 0 ∧ len = 1) := by
  have hlen : len = 1 ∨ len = 2 ∨ len = 4 ∨ len = 8 := by simpa using h
  rcases hlen with rfl | rfl | rfl | rfl <;> interval_cases lane <;> revert ha <;> decide

/-- Which bits of the Range Register a write can change, field by field (spec/10_state.md R24). -/
theorem rangeWritable_eq : rangeWritable = 0xFFFFFF9F &&& ~~~(
    (if Config.rangeRO .lastDevice then 0xFF000000 else 0) ||| (if Config.rangeRO .firstDevice then 0xFF0000 else 0) |||
      (if Config.rangeRO .busNumber then 0xFF00 else 0) ||| (if Config.rangeRO .rngValid then 0x80 else 0) |||
      (if Config.rangeRO .unitId then 0x1F else 0)) := by
  unfold rangeWritable
  simp only [List.foldl]
  cases Config.rangeRO .lastDevice <;> cases Config.rangeRO .firstDevice <;> cases Config.rangeRO .busNumber <;>
    cases Config.rangeRO .rngValid <;> cases Config.rangeRO .unitId <;> rfl

/-- A write of all eight bytes gives the writable bits the data's values. -/
theorem merge_whole (old rw v : BitVec 64) :
    merge old rw 0 (leBytes 8 v.toNat) = (old &&& ~~~rw) ||| (v &&& rw) := by
  rw [merge, leBytes_length, laneMask_whole, laneData_whole, BitVec.allOnes_and]

/-- A write never changes a bit that is not writable. -/
theorem merge_unwritable {w : Nat} (old rw m : BitVec w) (lane : Nat) (data : List Byte) (h : rw &&& m = 0) :
    merge old rw lane data &&& m = old &&& m := by
  apply BitVec.eq_of_getLsbD_eq
  intro i hi
  have hb : (rw &&& m).getLsbD i = (0 : BitVec w).getLsbD i := by rw [h]
  rw [BitVec.getLsbD_and] at hb
  simp only [merge, BitVec.getLsbD_and, BitVec.getLsbD_or, BitVec.getLsbD_not, hi, decide_true, Bool.true_and]
  revert hb
  cases rw.getLsbD i <;> cases m.getLsbD i <;> simp

/-- All eight bytes of a register. -/
theorem laneBytes_whole (r : BitVec 64) : laneBytes r 0 8 = leBytes 8 r.toNat := by simp [laneBytes]

end Sys2Proof.Machine
end

