-- ==== Sys2Proof/Laws/State.lean ====
section
/-! SUPPORT. The small lemmas of every named update of State: one per field, so that no later proof unfolds
a record update. Fields an update leaves alone are unchanged, the others are as stated. -/

namespace Sys2Proof.Machine

/-! ### Updates without a condition -/


@[simp] theorem State.tick_capHeader (s : State) : s.tick.capHeader = s.capHeader := rfl
@[simp] theorem State.tick_capBaseLow (s : State) : s.tick.capBaseLow = s.capBaseLow := rfl
@[simp] theorem State.tick_capBaseHigh (s : State) : s.tick.capBaseHigh = s.capBaseHigh := rfl
@[simp] theorem State.tick_capRange (s : State) : s.tick.capRange = s.capRange := rfl
@[simp] theorem State.tick_capMisc (s : State) : s.tick.capMisc = s.capMisc := rfl
@[simp] theorem State.tick_rangeStrap (s : State) : s.tick.rangeStrap = s.rangeStrap := rfl
@[simp] theorem State.tick_devTabBase (s : State) : s.tick.devTabBase = s.devTabBase := rfl
@[simp] theorem State.tick_cmdBase (s : State) : s.tick.cmdBase = s.cmdBase := rfl
@[simp] theorem State.tick_evtBase (s : State) : s.tick.evtBase = s.evtBase := rfl
@[simp] theorem State.tick_control (s : State) : s.tick.control = s.control := rfl
@[simp] theorem State.tick_exclBase (s : State) : s.tick.exclBase = s.exclBase := rfl
@[simp] theorem State.tick_exclLimit (s : State) : s.tick.exclLimit = s.exclLimit := rfl
@[simp] theorem State.tick_cmdHead (s : State) : s.tick.cmdHead = s.cmdHead := rfl
@[simp] theorem State.tick_cmdTail (s : State) : s.tick.cmdTail = s.cmdTail := rfl
@[simp] theorem State.tick_evtHead (s : State) : s.tick.evtHead = s.evtHead := rfl
@[simp] theorem State.tick_evtTail (s : State) : s.tick.evtTail = s.evtTail := rfl
@[simp] theorem State.tick_status (s : State) : s.tick.status = s.status := rfl
@[simp] theorem State.tick_halted (s : State) : s.tick.halted = s.halted := rfl
@[simp] theorem State.tick_evtHalted (s : State) : s.tick.evtHalted = s.evtHalted := rfl
@[simp] theorem State.tick_dteCache (s : State) : s.tick.dteCache = s.dteCache := rfl
@[simp] theorem State.tick_tlb (s : State) : s.tick.tlb = s.tlb := rfl
@[simp] theorem State.tick_pdc (s : State) : s.tick.pdc = s.pdc := rfl
@[simp] theorem State.tick_irtCache (s : State) : s.tick.irtCache = s.irtCache := rfl
@[simp] theorem State.tick_faultLogged (s : State) : s.tick.faultLogged = s.faultLogged := rfl
@[simp] theorem State.tick_prefetched (s : State) : s.tick.prefetched = s.prefetched := rfl
@[simp] theorem State.tick_fetched (s : State) : s.tick.fetched = s.fetched := rfl
@[simp] theorem State.tick_outstanding (s : State) : s.tick.outstanding = s.outstanding := rfl
@[simp] theorem State.tick_inFlight (s : State) : s.tick.inFlight = s.inFlight := rfl
@[simp] theorem State.tick_upReads (s : State) : s.tick.upReads = s.upReads := rfl
@[simp] theorem State.tick_upWrites (s : State) : s.tick.upWrites = s.upWrites := rfl
@[simp] theorem State.tick_pendingEvents (s : State) : s.tick.pendingEvents = s.pendingEvents := rfl
@[simp] theorem State.tick_intDue (s : State) : s.tick.intDue = s.intDue := rfl
@[simp] theorem State.tick_mem (s : State) : s.tick.mem = s.mem := rfl
@[simp] theorem State.tick_dram (s : State) : s.tick.dram = s.dram := rfl
@[simp] theorem State.tick_holes (s : State) : s.tick.holes = s.holes := rfl
@[simp] theorem State.tick_agenda (s : State) : s.tick.agenda = s.agenda := rfl
@[simp] theorem State.tick_outputs (s : State) : s.tick.outputs = s.outputs := rfl
@[simp] theorem State.tick_draws (s : State) : s.tick.draws = s.draws + 1 := rfl
@[simp] theorem State.tick_nextId (s : State) : s.tick.nextId = s.nextId := rfl

@[simp] theorem State.emit_capHeader (s : State) (o : Output) : (s.emit o).capHeader = s.capHeader := rfl
@[simp] theorem State.emit_capBaseLow (s : State) (o : Output) : (s.emit o).capBaseLow = s.capBaseLow := rfl
@[simp] theorem State.emit_capBaseHigh (s : State) (o : Output) : (s.emit o).capBaseHigh = s.capBaseHigh := rfl
@[simp] theorem State.emit_capRange (s : State) (o : Output) : (s.emit o).capRange = s.capRange := rfl
@[simp] theorem State.emit_capMisc (s : State) (o : Output) : (s.emit o).capMisc = s.capMisc := rfl
@[simp] theorem State.emit_rangeStrap (s : State) (o : Output) : (s.emit o).rangeStrap = s.rangeStrap := rfl
@[simp] theorem State.emit_devTabBase (s : State) (o : Output) : (s.emit o).devTabBase = s.devTabBase := rfl
@[simp] theorem State.emit_cmdBase (s : State) (o : Output) : (s.emit o).cmdBase = s.cmdBase := rfl
@[simp] theorem State.emit_evtBase (s : State) (o : Output) : (s.emit o).evtBase = s.evtBase := rfl
@[simp] theorem State.emit_control (s : State) (o : Output) : (s.emit o).control = s.control := rfl
@[simp] theorem State.emit_exclBase (s : State) (o : Output) : (s.emit o).exclBase = s.exclBase := rfl
@[simp] theorem State.emit_exclLimit (s : State) (o : Output) : (s.emit o).exclLimit = s.exclLimit := rfl
@[simp] theorem State.emit_cmdHead (s : State) (o : Output) : (s.emit o).cmdHead = s.cmdHead := rfl
@[simp] theorem State.emit_cmdTail (s : State) (o : Output) : (s.emit o).cmdTail = s.cmdTail := rfl
@[simp] theorem State.emit_evtHead (s : State) (o : Output) : (s.emit o).evtHead = s.evtHead := rfl
@[simp] theorem State.emit_evtTail (s : State) (o : Output) : (s.emit o).evtTail = s.evtTail := rfl
@[simp] theorem State.emit_status (s : State) (o : Output) : (s.emit o).status = s.status := rfl
@[simp] theorem State.emit_halted (s : State) (o : Output) : (s.emit o).halted = s.halted := rfl
@[simp] theorem State.emit_evtHalted (s : State) (o : Output) : (s.emit o).evtHalted = s.evtHalted := rfl
@[simp] theorem State.emit_dteCache (s : State) (o : Output) : (s.emit o).dteCache = s.dteCache := rfl
@[simp] theorem State.emit_tlb (s : State) (o : Output) : (s.emit o).tlb = s.tlb := rfl
@[simp] theorem State.emit_pdc (s : State) (o : Output) : (s.emit o).pdc = s.pdc := rfl
@[simp] theorem State.emit_irtCache (s : State) (o : Output) : (s.emit o).irtCache = s.irtCache := rfl
@[simp] theorem State.emit_faultLogged (s : State) (o : Output) : (s.emit o).faultLogged = s.faultLogged := rfl
@[simp] theorem State.emit_prefetched (s : State) (o : Output) : (s.emit o).prefetched = s.prefetched := rfl
@[simp] theorem State.emit_fetched (s : State) (o : Output) : (s.emit o).fetched = s.fetched := rfl
@[simp] theorem State.emit_outstanding (s : State) (o : Output) : (s.emit o).outstanding = s.outstanding := rfl
@[simp] theorem State.emit_inFlight (s : State) (o : Output) : (s.emit o).inFlight = s.inFlight := rfl
@[simp] theorem State.emit_upReads (s : State) (o : Output) : (s.emit o).upReads = s.upReads := rfl
@[simp] theorem State.emit_upWrites (s : State) (o : Output) : (s.emit o).upWrites = s.upWrites := rfl
@[simp] theorem State.emit_pendingEvents (s : State) (o : Output) : (s.emit o).pendingEvents = s.pendingEvents := rfl
@[simp] theorem State.emit_intDue (s : State) (o : Output) : (s.emit o).intDue = s.intDue := rfl
@[simp] theorem State.emit_mem (s : State) (o : Output) : (s.emit o).mem = s.mem := rfl
@[simp] theorem State.emit_dram (s : State) (o : Output) : (s.emit o).dram = s.dram := rfl
@[simp] theorem State.emit_holes (s : State) (o : Output) : (s.emit o).holes = s.holes := rfl
@[simp] theorem State.emit_agenda (s : State) (o : Output) : (s.emit o).agenda = s.agenda := rfl
@[simp] theorem State.emit_outputs (s : State) (o : Output) : (s.emit o).outputs = s.outputs ++ [o] := rfl
@[simp] theorem State.emit_draws (s : State) (o : Output) : (s.emit o).draws = s.draws := rfl
@[simp] theorem State.emit_nextId (s : State) (o : Output) : (s.emit o).nextId = s.nextId := rfl

@[simp] theorem State.sawRead_capHeader (s : State) (a : Addr) (n : Nat) (t : Attrs) : (s.sawRead a n t).capHeader = s.capHeader := rfl
@[simp] theorem State.sawRead_capBaseLow (s : State) (a : Addr) (n : Nat) (t : Attrs) : (s.sawRead a n t).capBaseLow = s.capBaseLow := rfl
@[simp] theorem State.sawRead_capBaseHigh (s : State) (a : Addr) (n : Nat) (t : Attrs) : (s.sawRead a n t).capBaseHigh = s.capBaseHigh := rfl
@[simp] theorem State.sawRead_capRange (s : State) (a : Addr) (n : Nat) (t : Attrs) : (s.sawRead a n t).capRange = s.capRange := rfl
@[simp] theorem State.sawRead_capMisc (s : State) (a : Addr) (n : Nat) (t : Attrs) : (s.sawRead a n t).capMisc = s.capMisc := rfl
@[simp] theorem State.sawRead_rangeStrap (s : State) (a : Addr) (n : Nat) (t : Attrs) : (s.sawRead a n t).rangeStrap = s.rangeStrap := rfl
@[simp] theorem State.sawRead_devTabBase (s : State) (a : Addr) (n : Nat) (t : Attrs) : (s.sawRead a n t).devTabBase = s.devTabBase := rfl
@[simp] theorem State.sawRead_cmdBase (s : State) (a : Addr) (n : Nat) (t : Attrs) : (s.sawRead a n t).cmdBase = s.cmdBase := rfl
@[simp] theorem State.sawRead_evtBase (s : State) (a : Addr) (n : Nat) (t : Attrs) : (s.sawRead a n t).evtBase = s.evtBase := rfl
@[simp] theorem State.sawRead_control (s : State) (a : Addr) (n : Nat) (t : Attrs) : (s.sawRead a n t).control = s.control := rfl
@[simp] theorem State.sawRead_exclBase (s : State) (a : Addr) (n : Nat) (t : Attrs) : (s.sawRead a n t).exclBase = s.exclBase := rfl
@[simp] theorem State.sawRead_exclLimit (s : State) (a : Addr) (n : Nat) (t : Attrs) : (s.sawRead a n t).exclLimit = s.exclLimit := rfl
@[simp] theorem State.sawRead_cmdHead (s : State) (a : Addr) (n : Nat) (t : Attrs) : (s.sawRead a n t).cmdHead = s.cmdHead := rfl
@[simp] theorem State.sawRead_cmdTail (s : State) (a : Addr) (n : Nat) (t : Attrs) : (s.sawRead a n t).cmdTail = s.cmdTail := rfl
@[simp] theorem State.sawRead_evtHead (s : State) (a : Addr) (n : Nat) (t : Attrs) : (s.sawRead a n t).evtHead = s.evtHead := rfl
@[simp] theorem State.sawRead_evtTail (s : State) (a : Addr) (n : Nat) (t : Attrs) : (s.sawRead a n t).evtTail = s.evtTail := rfl
@[simp] theorem State.sawRead_status (s : State) (a : Addr) (n : Nat) (t : Attrs) : (s.sawRead a n t).status = s.status := rfl
@[simp] theorem State.sawRead_halted (s : State) (a : Addr) (n : Nat) (t : Attrs) : (s.sawRead a n t).halted = s.halted := rfl
@[simp] theorem State.sawRead_evtHalted (s : State) (a : Addr) (n : Nat) (t : Attrs) : (s.sawRead a n t).evtHalted = s.evtHalted := rfl
@[simp] theorem State.sawRead_dteCache (s : State) (a : Addr) (n : Nat) (t : Attrs) : (s.sawRead a n t).dteCache = s.dteCache := rfl
@[simp] theorem State.sawRead_tlb (s : State) (a : Addr) (n : Nat) (t : Attrs) : (s.sawRead a n t).tlb = s.tlb := rfl
@[simp] theorem State.sawRead_pdc (s : State) (a : Addr) (n : Nat) (t : Attrs) : (s.sawRead a n t).pdc = s.pdc := rfl
@[simp] theorem State.sawRead_irtCache (s : State) (a : Addr) (n : Nat) (t : Attrs) : (s.sawRead a n t).irtCache = s.irtCache := rfl
@[simp] theorem State.sawRead_faultLogged (s : State) (a : Addr) (n : Nat) (t : Attrs) : (s.sawRead a n t).faultLogged = s.faultLogged := rfl
@[simp] theorem State.sawRead_prefetched (s : State) (a : Addr) (n : Nat) (t : Attrs) : (s.sawRead a n t).prefetched = s.prefetched := rfl
@[simp] theorem State.sawRead_fetched (s : State) (a : Addr) (n : Nat) (t : Attrs) : (s.sawRead a n t).fetched = s.fetched := rfl
@[simp] theorem State.sawRead_outstanding (s : State) (a : Addr) (n : Nat) (t : Attrs) : (s.sawRead a n t).outstanding = s.outstanding := rfl
@[simp] theorem State.sawRead_inFlight (s : State) (a : Addr) (n : Nat) (t : Attrs) : (s.sawRead a n t).inFlight = s.inFlight := rfl
@[simp] theorem State.sawRead_upReads (s : State) (a : Addr) (n : Nat) (t : Attrs) : (s.sawRead a n t).upReads = s.upReads := rfl
@[simp] theorem State.sawRead_upWrites (s : State) (a : Addr) (n : Nat) (t : Attrs) : (s.sawRead a n t).upWrites = s.upWrites := rfl
@[simp] theorem State.sawRead_pendingEvents (s : State) (a : Addr) (n : Nat) (t : Attrs) : (s.sawRead a n t).pendingEvents = s.pendingEvents := rfl
@[simp] theorem State.sawRead_intDue (s : State) (a : Addr) (n : Nat) (t : Attrs) : (s.sawRead a n t).intDue = s.intDue := rfl
@[simp] theorem State.sawRead_mem (s : State) (a : Addr) (n : Nat) (t : Attrs) : (s.sawRead a n t).mem = s.mem := rfl
@[simp] theorem State.sawRead_dram (s : State) (a : Addr) (n : Nat) (t : Attrs) : (s.sawRead a n t).dram = s.dram := rfl
@[simp] theorem State.sawRead_holes (s : State) (a : Addr) (n : Nat) (t : Attrs) : (s.sawRead a n t).holes = s.holes := rfl
@[simp] theorem State.sawRead_agenda (s : State) (a : Addr) (n : Nat) (t : Attrs) : (s.sawRead a n t).agenda = s.agenda := rfl
@[simp] theorem State.sawRead_outputs (s : State) (a : Addr) (n : Nat) (t : Attrs) : (s.sawRead a n t).outputs = s.outputs ++ [.ownRead (s.onLink a) n t] := rfl
@[simp] theorem State.sawRead_draws (s : State) (a : Addr) (n : Nat) (t : Attrs) : (s.sawRead a n t).draws = s.draws := rfl
@[simp] theorem State.sawRead_nextId (s : State) (a : Addr) (n : Nat) (t : Attrs) : (s.sawRead a n t).nextId = s.nextId := rfl

@[simp] theorem State.store_capHeader (s : State) (a : Nat) (d : List Byte) : (s.store a d).capHeader = s.capHeader := rfl
@[simp] theorem State.store_capBaseLow (s : State) (a : Nat) (d : List Byte) : (s.store a d).capBaseLow = s.capBaseLow := rfl
@[simp] theorem State.store_capBaseHigh (s : State) (a : Nat) (d : List Byte) : (s.store a d).capBaseHigh = s.capBaseHigh := rfl
@[simp] theorem State.store_capRange (s : State) (a : Nat) (d : List Byte) : (s.store a d).capRange = s.capRange := rfl
@[simp] theorem State.store_capMisc (s : State) (a : Nat) (d : List Byte) : (s.store a d).capMisc = s.capMisc := rfl
@[simp] theorem State.store_rangeStrap (s : State) (a : Nat) (d : List Byte) : (s.store a d).rangeStrap = s.rangeStrap := rfl
@[simp] theorem State.store_devTabBase (s : State) (a : Nat) (d : List Byte) : (s.store a d).devTabBase = s.devTabBase := rfl
@[simp] theorem State.store_cmdBase (s : State) (a : Nat) (d : List Byte) : (s.store a d).cmdBase = s.cmdBase := rfl
@[simp] theorem State.store_evtBase (s : State) (a : Nat) (d : List Byte) : (s.store a d).evtBase = s.evtBase := rfl
@[simp] theorem State.store_control (s : State) (a : Nat) (d : List Byte) : (s.store a d).control = s.control := rfl
@[simp] theorem State.store_exclBase (s : State) (a : Nat) (d : List Byte) : (s.store a d).exclBase = s.exclBase := rfl
@[simp] theorem State.store_exclLimit (s : State) (a : Nat) (d : List Byte) : (s.store a d).exclLimit = s.exclLimit := rfl
@[simp] theorem State.store_cmdHead (s : State) (a : Nat) (d : List Byte) : (s.store a d).cmdHead = s.cmdHead := rfl
@[simp] theorem State.store_cmdTail (s : State) (a : Nat) (d : List Byte) : (s.store a d).cmdTail = s.cmdTail := rfl
@[simp] theorem State.store_evtHead (s : State) (a : Nat) (d : List Byte) : (s.store a d).evtHead = s.evtHead := rfl
@[simp] theorem State.store_evtTail (s : State) (a : Nat) (d : List Byte) : (s.store a d).evtTail = s.evtTail := rfl
@[simp] theorem State.store_status (s : State) (a : Nat) (d : List Byte) : (s.store a d).status = s.status := rfl
@[simp] theorem State.store_halted (s : State) (a : Nat) (d : List Byte) : (s.store a d).halted = s.halted := rfl
@[simp] theorem State.store_evtHalted (s : State) (a : Nat) (d : List Byte) : (s.store a d).evtHalted = s.evtHalted := rfl
@[simp] theorem State.store_dteCache (s : State) (a : Nat) (d : List Byte) : (s.store a d).dteCache = s.dteCache := rfl
@[simp] theorem State.store_tlb (s : State) (a : Nat) (d : List Byte) : (s.store a d).tlb = s.tlb := rfl
@[simp] theorem State.store_pdc (s : State) (a : Nat) (d : List Byte) : (s.store a d).pdc = s.pdc := rfl
@[simp] theorem State.store_irtCache (s : State) (a : Nat) (d : List Byte) : (s.store a d).irtCache = s.irtCache := rfl
@[simp] theorem State.store_faultLogged (s : State) (a : Nat) (d : List Byte) : (s.store a d).faultLogged = s.faultLogged := rfl
@[simp] theorem State.store_prefetched (s : State) (a : Nat) (d : List Byte) : (s.store a d).prefetched = s.prefetched := rfl
@[simp] theorem State.store_fetched (s : State) (a : Nat) (d : List Byte) : (s.store a d).fetched = s.fetched := rfl
@[simp] theorem State.store_outstanding (s : State) (a : Nat) (d : List Byte) : (s.store a d).outstanding = s.outstanding := rfl
@[simp] theorem State.store_inFlight (s : State) (a : Nat) (d : List Byte) : (s.store a d).inFlight = s.inFlight := rfl
@[simp] theorem State.store_upReads (s : State) (a : Nat) (d : List Byte) : (s.store a d).upReads = s.upReads := rfl
@[simp] theorem State.store_upWrites (s : State) (a : Nat) (d : List Byte) : (s.store a d).upWrites = s.upWrites := rfl
@[simp] theorem State.store_pendingEvents (s : State) (a : Nat) (d : List Byte) : (s.store a d).pendingEvents = s.pendingEvents := rfl
@[simp] theorem State.store_intDue (s : State) (a : Nat) (d : List Byte) : (s.store a d).intDue = s.intDue := rfl
@[simp] theorem State.store_mem (s : State) (a : Nat) (d : List Byte) : (s.store a d).mem = s.mem.writeBytes a d := rfl
@[simp] theorem State.store_dram (s : State) (a : Nat) (d : List Byte) : (s.store a d).dram = s.dram.writeBytes a d := rfl
@[simp] theorem State.store_holes (s : State) (a : Nat) (d : List Byte) : (s.store a d).holes = s.holes := rfl
@[simp] theorem State.store_agenda (s : State) (a : Nat) (d : List Byte) : (s.store a d).agenda = s.agenda := rfl
@[simp] theorem State.store_outputs (s : State) (a : Nat) (d : List Byte) : (s.store a d).outputs = s.outputs := rfl
@[simp] theorem State.store_draws (s : State) (a : Nat) (d : List Byte) : (s.store a d).draws = s.draws := rfl
@[simp] theorem State.store_nextId (s : State) (a : Nat) (d : List Byte) : (s.store a d).nextId = s.nextId := rfl

@[simp] theorem State.raise_capHeader (s : State) (e : Event) : (s.raise e).capHeader = s.capHeader := rfl
@[simp] theorem State.raise_capBaseLow (s : State) (e : Event) : (s.raise e).capBaseLow = s.capBaseLow := rfl
@[simp] theorem State.raise_capBaseHigh (s : State) (e : Event) : (s.raise e).capBaseHigh = s.capBaseHigh := rfl
@[simp] theorem State.raise_capRange (s : State) (e : Event) : (s.raise e).capRange = s.capRange := rfl
@[simp] theorem State.raise_capMisc (s : State) (e : Event) : (s.raise e).capMisc = s.capMisc := rfl
@[simp] theorem State.raise_rangeStrap (s : State) (e : Event) : (s.raise e).rangeStrap = s.rangeStrap := rfl
@[simp] theorem State.raise_devTabBase (s : State) (e : Event) : (s.raise e).devTabBase = s.devTabBase := rfl
@[simp] theorem State.raise_cmdBase (s : State) (e : Event) : (s.raise e).cmdBase = s.cmdBase := rfl
@[simp] theorem State.raise_evtBase (s : State) (e : Event) : (s.raise e).evtBase = s.evtBase := rfl
@[simp] theorem State.raise_control (s : State) (e : Event) : (s.raise e).control = s.control := rfl
@[simp] theorem State.raise_exclBase (s : State) (e : Event) : (s.raise e).exclBase = s.exclBase := rfl
@[simp] theorem State.raise_exclLimit (s : State) (e : Event) : (s.raise e).exclLimit = s.exclLimit := rfl
@[simp] theorem State.raise_cmdHead (s : State) (e : Event) : (s.raise e).cmdHead = s.cmdHead := rfl
@[simp] theorem State.raise_cmdTail (s : State) (e : Event) : (s.raise e).cmdTail = s.cmdTail := rfl
@[simp] theorem State.raise_evtHead (s : State) (e : Event) : (s.raise e).evtHead = s.evtHead := rfl
@[simp] theorem State.raise_evtTail (s : State) (e : Event) : (s.raise e).evtTail = s.evtTail := rfl
@[simp] theorem State.raise_status (s : State) (e : Event) : (s.raise e).status = s.status := rfl
@[simp] theorem State.raise_halted (s : State) (e : Event) : (s.raise e).halted = s.halted := rfl
@[simp] theorem State.raise_evtHalted (s : State) (e : Event) : (s.raise e).evtHalted = s.evtHalted := rfl
@[simp] theorem State.raise_dteCache (s : State) (e : Event) : (s.raise e).dteCache = s.dteCache := rfl
@[simp] theorem State.raise_tlb (s : State) (e : Event) : (s.raise e).tlb = s.tlb := rfl
@[simp] theorem State.raise_pdc (s : State) (e : Event) : (s.raise e).pdc = s.pdc := rfl
@[simp] theorem State.raise_irtCache (s : State) (e : Event) : (s.raise e).irtCache = s.irtCache := rfl
@[simp] theorem State.raise_faultLogged (s : State) (e : Event) : (s.raise e).faultLogged = s.faultLogged := rfl
@[simp] theorem State.raise_prefetched (s : State) (e : Event) : (s.raise e).prefetched = s.prefetched := rfl
@[simp] theorem State.raise_fetched (s : State) (e : Event) : (s.raise e).fetched = s.fetched := rfl
@[simp] theorem State.raise_outstanding (s : State) (e : Event) : (s.raise e).outstanding = s.outstanding := rfl
@[simp] theorem State.raise_inFlight (s : State) (e : Event) : (s.raise e).inFlight = s.inFlight := rfl
@[simp] theorem State.raise_upReads (s : State) (e : Event) : (s.raise e).upReads = s.upReads := rfl
@[simp] theorem State.raise_upWrites (s : State) (e : Event) : (s.raise e).upWrites = s.upWrites := rfl
@[simp] theorem State.raise_pendingEvents (s : State) (e : Event) : (s.raise e).pendingEvents = s.pendingEvents ++ [⟨e, none, s.detected⟩] := rfl
@[simp] theorem State.raise_intDue (s : State) (e : Event) : (s.raise e).intDue = s.intDue := rfl
@[simp] theorem State.raise_mem (s : State) (e : Event) : (s.raise e).mem = s.mem := rfl
@[simp] theorem State.raise_dram (s : State) (e : Event) : (s.raise e).dram = s.dram := rfl
@[simp] theorem State.raise_holes (s : State) (e : Event) : (s.raise e).holes = s.holes := rfl
@[simp] theorem State.raise_agenda (s : State) (e : Event) : (s.raise e).agenda = s.agenda := rfl
@[simp] theorem State.raise_outputs (s : State) (e : Event) : (s.raise e).outputs = s.outputs := rfl
@[simp] theorem State.raise_draws (s : State) (e : Event) : (s.raise e).draws = s.draws := rfl
@[simp] theorem State.raise_nextId (s : State) (e : Event) : (s.raise e).nextId = s.nextId := rfl

@[simp] theorem State.raiseFirst_capHeader (s : State) (dev : DeviceId) (e : Event) : (s.raiseFirst dev e).capHeader = s.capHeader := rfl
@[simp] theorem State.raiseFirst_capBaseLow (s : State) (dev : DeviceId) (e : Event) : (s.raiseFirst dev e).capBaseLow = s.capBaseLow := rfl
@[simp] theorem State.raiseFirst_capBaseHigh (s : State) (dev : DeviceId) (e : Event) : (s.raiseFirst dev e).capBaseHigh = s.capBaseHigh := rfl
@[simp] theorem State.raiseFirst_capRange (s : State) (dev : DeviceId) (e : Event) : (s.raiseFirst dev e).capRange = s.capRange := rfl
@[simp] theorem State.raiseFirst_capMisc (s : State) (dev : DeviceId) (e : Event) : (s.raiseFirst dev e).capMisc = s.capMisc := rfl
@[simp] theorem State.raiseFirst_rangeStrap (s : State) (dev : DeviceId) (e : Event) : (s.raiseFirst dev e).rangeStrap = s.rangeStrap := rfl
@[simp] theorem State.raiseFirst_devTabBase (s : State) (dev : DeviceId) (e : Event) : (s.raiseFirst dev e).devTabBase = s.devTabBase := rfl
@[simp] theorem State.raiseFirst_cmdBase (s : State) (dev : DeviceId) (e : Event) : (s.raiseFirst dev e).cmdBase = s.cmdBase := rfl
@[simp] theorem State.raiseFirst_evtBase (s : State) (dev : DeviceId) (e : Event) : (s.raiseFirst dev e).evtBase = s.evtBase := rfl
@[simp] theorem State.raiseFirst_control (s : State) (dev : DeviceId) (e : Event) : (s.raiseFirst dev e).control = s.control := rfl
@[simp] theorem State.raiseFirst_exclBase (s : State) (dev : DeviceId) (e : Event) : (s.raiseFirst dev e).exclBase = s.exclBase := rfl
@[simp] theorem State.raiseFirst_exclLimit (s : State) (dev : DeviceId) (e : Event) : (s.raiseFirst dev e).exclLimit = s.exclLimit := rfl
@[simp] theorem State.raiseFirst_cmdHead (s : State) (dev : DeviceId) (e : Event) : (s.raiseFirst dev e).cmdHead = s.cmdHead := rfl
@[simp] theorem State.raiseFirst_cmdTail (s : State) (dev : DeviceId) (e : Event) : (s.raiseFirst dev e).cmdTail = s.cmdTail := rfl
@[simp] theorem State.raiseFirst_evtHead (s : State) (dev : DeviceId) (e : Event) : (s.raiseFirst dev e).evtHead = s.evtHead := rfl
@[simp] theorem State.raiseFirst_evtTail (s : State) (dev : DeviceId) (e : Event) : (s.raiseFirst dev e).evtTail = s.evtTail := rfl
@[simp] theorem State.raiseFirst_status (s : State) (dev : DeviceId) (e : Event) : (s.raiseFirst dev e).status = s.status := rfl
@[simp] theorem State.raiseFirst_halted (s : State) (dev : DeviceId) (e : Event) : (s.raiseFirst dev e).halted = s.halted := rfl
@[simp] theorem State.raiseFirst_evtHalted (s : State) (dev : DeviceId) (e : Event) : (s.raiseFirst dev e).evtHalted = s.evtHalted := rfl
@[simp] theorem State.raiseFirst_dteCache (s : State) (dev : DeviceId) (e : Event) : (s.raiseFirst dev e).dteCache = s.dteCache := rfl
@[simp] theorem State.raiseFirst_tlb (s : State) (dev : DeviceId) (e : Event) : (s.raiseFirst dev e).tlb = s.tlb := rfl
@[simp] theorem State.raiseFirst_pdc (s : State) (dev : DeviceId) (e : Event) : (s.raiseFirst dev e).pdc = s.pdc := rfl
@[simp] theorem State.raiseFirst_irtCache (s : State) (dev : DeviceId) (e : Event) : (s.raiseFirst dev e).irtCache = s.irtCache := rfl
@[simp] theorem State.raiseFirst_faultLogged (s : State) (dev : DeviceId) (e : Event) : (s.raiseFirst dev e).faultLogged = s.faultLogged := rfl
@[simp] theorem State.raiseFirst_prefetched (s : State) (dev : DeviceId) (e : Event) : (s.raiseFirst dev e).prefetched = s.prefetched := rfl
@[simp] theorem State.raiseFirst_fetched (s : State) (dev : DeviceId) (e : Event) : (s.raiseFirst dev e).fetched = s.fetched := rfl
@[simp] theorem State.raiseFirst_outstanding (s : State) (dev : DeviceId) (e : Event) : (s.raiseFirst dev e).outstanding = s.outstanding := rfl
@[simp] theorem State.raiseFirst_inFlight (s : State) (dev : DeviceId) (e : Event) : (s.raiseFirst dev e).inFlight = s.inFlight := rfl
@[simp] theorem State.raiseFirst_upReads (s : State) (dev : DeviceId) (e : Event) : (s.raiseFirst dev e).upReads = s.upReads := rfl
@[simp] theorem State.raiseFirst_upWrites (s : State) (dev : DeviceId) (e : Event) : (s.raiseFirst dev e).upWrites = s.upWrites := rfl
@[simp] theorem State.raiseFirst_pendingEvents (s : State) (dev : DeviceId) (e : Event) : (s.raiseFirst dev e).pendingEvents = s.pendingEvents ++ [⟨e, some dev, s.detected⟩] := rfl
@[simp] theorem State.raiseFirst_intDue (s : State) (dev : DeviceId) (e : Event) : (s.raiseFirst dev e).intDue = s.intDue := rfl
@[simp] theorem State.raiseFirst_mem (s : State) (dev : DeviceId) (e : Event) : (s.raiseFirst dev e).mem = s.mem := rfl
@[simp] theorem State.raiseFirst_dram (s : State) (dev : DeviceId) (e : Event) : (s.raiseFirst dev e).dram = s.dram := rfl
@[simp] theorem State.raiseFirst_holes (s : State) (dev : DeviceId) (e : Event) : (s.raiseFirst dev e).holes = s.holes := rfl
@[simp] theorem State.raiseFirst_agenda (s : State) (dev : DeviceId) (e : Event) : (s.raiseFirst dev e).agenda = s.agenda := rfl
@[simp] theorem State.raiseFirst_outputs (s : State) (dev : DeviceId) (e : Event) : (s.raiseFirst dev e).outputs = s.outputs := rfl
@[simp] theorem State.raiseFirst_draws (s : State) (dev : DeviceId) (e : Event) : (s.raiseFirst dev e).draws = s.draws := rfl
@[simp] theorem State.raiseFirst_nextId (s : State) (dev : DeviceId) (e : Event) : (s.raiseFirst dev e).nextId = s.nextId := rfl

@[simp] theorem State.raiseFlag_capHeader (s : State) (b : StatusBit) : (s.raiseFlag b).capHeader = s.capHeader := rfl
@[simp] theorem State.raiseFlag_capBaseLow (s : State) (b : StatusBit) : (s.raiseFlag b).capBaseLow = s.capBaseLow := rfl
@[simp] theorem State.raiseFlag_capBaseHigh (s : State) (b : StatusBit) : (s.raiseFlag b).capBaseHigh = s.capBaseHigh := rfl
@[simp] theorem State.raiseFlag_capRange (s : State) (b : StatusBit) : (s.raiseFlag b).capRange = s.capRange := rfl
@[simp] theorem State.raiseFlag_capMisc (s : State) (b : StatusBit) : (s.raiseFlag b).capMisc = s.capMisc := rfl
@[simp] theorem State.raiseFlag_rangeStrap (s : State) (b : StatusBit) : (s.raiseFlag b).rangeStrap = s.rangeStrap := rfl
@[simp] theorem State.raiseFlag_devTabBase (s : State) (b : StatusBit) : (s.raiseFlag b).devTabBase = s.devTabBase := rfl
@[simp] theorem State.raiseFlag_cmdBase (s : State) (b : StatusBit) : (s.raiseFlag b).cmdBase = s.cmdBase := rfl
@[simp] theorem State.raiseFlag_evtBase (s : State) (b : StatusBit) : (s.raiseFlag b).evtBase = s.evtBase := rfl
@[simp] theorem State.raiseFlag_control (s : State) (b : StatusBit) : (s.raiseFlag b).control = s.control := rfl
@[simp] theorem State.raiseFlag_exclBase (s : State) (b : StatusBit) : (s.raiseFlag b).exclBase = s.exclBase := rfl
@[simp] theorem State.raiseFlag_exclLimit (s : State) (b : StatusBit) : (s.raiseFlag b).exclLimit = s.exclLimit := rfl
@[simp] theorem State.raiseFlag_cmdHead (s : State) (b : StatusBit) : (s.raiseFlag b).cmdHead = s.cmdHead := rfl
@[simp] theorem State.raiseFlag_cmdTail (s : State) (b : StatusBit) : (s.raiseFlag b).cmdTail = s.cmdTail := rfl
@[simp] theorem State.raiseFlag_evtHead (s : State) (b : StatusBit) : (s.raiseFlag b).evtHead = s.evtHead := rfl
@[simp] theorem State.raiseFlag_evtTail (s : State) (b : StatusBit) : (s.raiseFlag b).evtTail = s.evtTail := rfl
@[simp] theorem State.raiseFlag_status (s : State) (b : StatusBit) : (s.raiseFlag b).status = withBit s.status b.place true := rfl
@[simp] theorem State.raiseFlag_halted (s : State) (b : StatusBit) : (s.raiseFlag b).halted = s.halted := rfl
@[simp] theorem State.raiseFlag_evtHalted (s : State) (b : StatusBit) : (s.raiseFlag b).evtHalted = s.evtHalted := rfl
@[simp] theorem State.raiseFlag_dteCache (s : State) (b : StatusBit) : (s.raiseFlag b).dteCache = s.dteCache := rfl
@[simp] theorem State.raiseFlag_tlb (s : State) (b : StatusBit) : (s.raiseFlag b).tlb = s.tlb := rfl
@[simp] theorem State.raiseFlag_pdc (s : State) (b : StatusBit) : (s.raiseFlag b).pdc = s.pdc := rfl
@[simp] theorem State.raiseFlag_irtCache (s : State) (b : StatusBit) : (s.raiseFlag b).irtCache = s.irtCache := rfl
@[simp] theorem State.raiseFlag_faultLogged (s : State) (b : StatusBit) : (s.raiseFlag b).faultLogged = s.faultLogged := rfl
@[simp] theorem State.raiseFlag_prefetched (s : State) (b : StatusBit) : (s.raiseFlag b).prefetched = s.prefetched := rfl
@[simp] theorem State.raiseFlag_fetched (s : State) (b : StatusBit) : (s.raiseFlag b).fetched = s.fetched := rfl
@[simp] theorem State.raiseFlag_outstanding (s : State) (b : StatusBit) : (s.raiseFlag b).outstanding = s.outstanding := rfl
@[simp] theorem State.raiseFlag_inFlight (s : State) (b : StatusBit) : (s.raiseFlag b).inFlight = s.inFlight := rfl
@[simp] theorem State.raiseFlag_upReads (s : State) (b : StatusBit) : (s.raiseFlag b).upReads = s.upReads := rfl
@[simp] theorem State.raiseFlag_upWrites (s : State) (b : StatusBit) : (s.raiseFlag b).upWrites = s.upWrites := rfl
@[simp] theorem State.raiseFlag_pendingEvents (s : State) (b : StatusBit) : (s.raiseFlag b).pendingEvents = s.pendingEvents := rfl
@[simp] theorem State.raiseFlag_intDue (s : State) (b : StatusBit) : (s.raiseFlag b).intDue = s.intDue + s.interruptsFor b := rfl
@[simp] theorem State.raiseFlag_mem (s : State) (b : StatusBit) : (s.raiseFlag b).mem = s.mem := rfl
@[simp] theorem State.raiseFlag_dram (s : State) (b : StatusBit) : (s.raiseFlag b).dram = s.dram := rfl
@[simp] theorem State.raiseFlag_holes (s : State) (b : StatusBit) : (s.raiseFlag b).holes = s.holes := rfl
@[simp] theorem State.raiseFlag_agenda (s : State) (b : StatusBit) : (s.raiseFlag b).agenda = s.agenda := rfl
@[simp] theorem State.raiseFlag_outputs (s : State) (b : StatusBit) : (s.raiseFlag b).outputs = s.outputs := rfl
@[simp] theorem State.raiseFlag_draws (s : State) (b : StatusBit) : (s.raiseFlag b).draws = s.draws := rfl
@[simp] theorem State.raiseFlag_nextId (s : State) (b : StatusBit) : (s.raiseFlag b).nextId = s.nextId := rfl

@[simp] theorem State.overflowLog_capHeader (s : State) : s.overflowLog.capHeader = s.capHeader := rfl
@[simp] theorem State.overflowLog_capBaseLow (s : State) : s.overflowLog.capBaseLow = s.capBaseLow := rfl
@[simp] theorem State.overflowLog_capBaseHigh (s : State) : s.overflowLog.capBaseHigh = s.capBaseHigh := rfl
@[simp] theorem State.overflowLog_capRange (s : State) : s.overflowLog.capRange = s.capRange := rfl
@[simp] theorem State.overflowLog_capMisc (s : State) : s.overflowLog.capMisc = s.capMisc := rfl
@[simp] theorem State.overflowLog_rangeStrap (s : State) : s.overflowLog.rangeStrap = s.rangeStrap := rfl
@[simp] theorem State.overflowLog_devTabBase (s : State) : s.overflowLog.devTabBase = s.devTabBase := rfl
@[simp] theorem State.overflowLog_cmdBase (s : State) : s.overflowLog.cmdBase = s.cmdBase := rfl
@[simp] theorem State.overflowLog_evtBase (s : State) : s.overflowLog.evtBase = s.evtBase := rfl
@[simp] theorem State.overflowLog_control (s : State) : s.overflowLog.control = s.control := rfl
@[simp] theorem State.overflowLog_exclBase (s : State) : s.overflowLog.exclBase = s.exclBase := rfl
@[simp] theorem State.overflowLog_exclLimit (s : State) : s.overflowLog.exclLimit = s.exclLimit := rfl
@[simp] theorem State.overflowLog_cmdHead (s : State) : s.overflowLog.cmdHead = s.cmdHead := rfl
@[simp] theorem State.overflowLog_cmdTail (s : State) : s.overflowLog.cmdTail = s.cmdTail := rfl
@[simp] theorem State.overflowLog_evtHead (s : State) : s.overflowLog.evtHead = s.evtHead := rfl
@[simp] theorem State.overflowLog_evtTail (s : State) : s.overflowLog.evtTail = s.evtTail := rfl
@[simp] theorem State.overflowLog_status (s : State) : s.overflowLog.status = withBit s.status 0 true := rfl
@[simp] theorem State.overflowLog_halted (s : State) : s.overflowLog.halted = s.halted := rfl
@[simp] theorem State.overflowLog_evtHalted (s : State) : s.overflowLog.evtHalted = true := rfl
@[simp] theorem State.overflowLog_dteCache (s : State) : s.overflowLog.dteCache = s.dteCache := rfl
@[simp] theorem State.overflowLog_tlb (s : State) : s.overflowLog.tlb = s.tlb := rfl
@[simp] theorem State.overflowLog_pdc (s : State) : s.overflowLog.pdc = s.pdc := rfl
@[simp] theorem State.overflowLog_irtCache (s : State) : s.overflowLog.irtCache = s.irtCache := rfl
@[simp] theorem State.overflowLog_faultLogged (s : State) : s.overflowLog.faultLogged = s.faultLogged := rfl
@[simp] theorem State.overflowLog_prefetched (s : State) : s.overflowLog.prefetched = s.prefetched := rfl
@[simp] theorem State.overflowLog_fetched (s : State) : s.overflowLog.fetched = s.fetched := rfl
@[simp] theorem State.overflowLog_outstanding (s : State) : s.overflowLog.outstanding = s.outstanding := rfl
@[simp] theorem State.overflowLog_inFlight (s : State) : s.overflowLog.inFlight = s.inFlight := rfl
@[simp] theorem State.overflowLog_upReads (s : State) : s.overflowLog.upReads = s.upReads := rfl
@[simp] theorem State.overflowLog_upWrites (s : State) : s.overflowLog.upWrites = s.upWrites := rfl
@[simp] theorem State.overflowLog_pendingEvents (s : State) : s.overflowLog.pendingEvents = s.pendingEvents := rfl
@[simp] theorem State.overflowLog_intDue (s : State) : s.overflowLog.intDue = s.intDue + s.interruptsFor .eventOverflow := rfl
@[simp] theorem State.overflowLog_mem (s : State) : s.overflowLog.mem = s.mem := rfl
@[simp] theorem State.overflowLog_dram (s : State) : s.overflowLog.dram = s.dram := rfl
@[simp] theorem State.overflowLog_holes (s : State) : s.overflowLog.holes = s.holes := rfl
@[simp] theorem State.overflowLog_agenda (s : State) : s.overflowLog.agenda = s.agenda := rfl
@[simp] theorem State.overflowLog_outputs (s : State) : s.overflowLog.outputs = s.outputs := rfl
@[simp] theorem State.overflowLog_draws (s : State) : s.overflowLog.draws = s.draws := rfl
@[simp] theorem State.overflowLog_nextId (s : State) : s.overflowLog.nextId = s.nextId := rfl

@[simp] theorem State.halt_capHeader (s : State) : s.halt.capHeader = s.capHeader := rfl
@[simp] theorem State.halt_capBaseLow (s : State) : s.halt.capBaseLow = s.capBaseLow := rfl
@[simp] theorem State.halt_capBaseHigh (s : State) : s.halt.capBaseHigh = s.capBaseHigh := rfl
@[simp] theorem State.halt_capRange (s : State) : s.halt.capRange = s.capRange := rfl
@[simp] theorem State.halt_capMisc (s : State) : s.halt.capMisc = s.capMisc := rfl
@[simp] theorem State.halt_rangeStrap (s : State) : s.halt.rangeStrap = s.rangeStrap := rfl
@[simp] theorem State.halt_devTabBase (s : State) : s.halt.devTabBase = s.devTabBase := rfl
@[simp] theorem State.halt_cmdBase (s : State) : s.halt.cmdBase = s.cmdBase := rfl
@[simp] theorem State.halt_evtBase (s : State) : s.halt.evtBase = s.evtBase := rfl
@[simp] theorem State.halt_control (s : State) : s.halt.control = s.control := rfl
@[simp] theorem State.halt_exclBase (s : State) : s.halt.exclBase = s.exclBase := rfl
@[simp] theorem State.halt_exclLimit (s : State) : s.halt.exclLimit = s.exclLimit := rfl
@[simp] theorem State.halt_cmdHead (s : State) : s.halt.cmdHead = if s.freeBit .frozenHead then s.nextHead else s.cmdHead := rfl
@[simp] theorem State.halt_cmdTail (s : State) : s.halt.cmdTail = s.cmdTail := rfl
@[simp] theorem State.halt_evtHead (s : State) : s.halt.evtHead = s.evtHead := rfl
@[simp] theorem State.halt_evtTail (s : State) : s.halt.evtTail = s.evtTail := rfl
@[simp] theorem State.halt_status (s : State) : s.halt.status = s.status := rfl
@[simp] theorem State.halt_halted (s : State) : s.halt.halted = true := rfl
@[simp] theorem State.halt_evtHalted (s : State) : s.halt.evtHalted = s.evtHalted := rfl
@[simp] theorem State.halt_dteCache (s : State) : s.halt.dteCache = s.dteCache := rfl
@[simp] theorem State.halt_tlb (s : State) : s.halt.tlb = s.tlb := rfl
@[simp] theorem State.halt_pdc (s : State) : s.halt.pdc = s.pdc := rfl
@[simp] theorem State.halt_irtCache (s : State) : s.halt.irtCache = s.irtCache := rfl
@[simp] theorem State.halt_faultLogged (s : State) : s.halt.faultLogged = s.faultLogged := rfl
@[simp] theorem State.halt_prefetched (s : State) : s.halt.prefetched = s.prefetched := rfl
@[simp] theorem State.halt_fetched (s : State) : s.halt.fetched = s.fetched := rfl
@[simp] theorem State.halt_outstanding (s : State) : s.halt.outstanding = s.outstanding := rfl
@[simp] theorem State.halt_inFlight (s : State) : s.halt.inFlight = s.inFlight := rfl
@[simp] theorem State.halt_upReads (s : State) : s.halt.upReads = s.upReads := rfl
@[simp] theorem State.halt_upWrites (s : State) : s.halt.upWrites = s.upWrites := rfl
@[simp] theorem State.halt_pendingEvents (s : State) : s.halt.pendingEvents = s.pendingEvents := rfl
@[simp] theorem State.halt_intDue (s : State) : s.halt.intDue = s.intDue := rfl
@[simp] theorem State.halt_mem (s : State) : s.halt.mem = s.mem := rfl
@[simp] theorem State.halt_dram (s : State) : s.halt.dram = s.dram := rfl
@[simp] theorem State.halt_holes (s : State) : s.halt.holes = s.holes := rfl
@[simp] theorem State.halt_agenda (s : State) : s.halt.agenda = s.agenda := rfl
@[simp] theorem State.halt_outputs (s : State) : s.halt.outputs = s.outputs := rfl
@[simp] theorem State.halt_draws (s : State) : s.halt.draws = s.draws := rfl
@[simp] theorem State.halt_nextId (s : State) : s.halt.nextId = s.nextId := rfl

@[simp] theorem State.dropPrefetched_capHeader (s : State) (i : Nat) : (s.dropPrefetched i).capHeader = s.capHeader := rfl
@[simp] theorem State.dropPrefetched_capBaseLow (s : State) (i : Nat) : (s.dropPrefetched i).capBaseLow = s.capBaseLow := rfl
@[simp] theorem State.dropPrefetched_capBaseHigh (s : State) (i : Nat) : (s.dropPrefetched i).capBaseHigh = s.capBaseHigh := rfl
@[simp] theorem State.dropPrefetched_capRange (s : State) (i : Nat) : (s.dropPrefetched i).capRange = s.capRange := rfl
@[simp] theorem State.dropPrefetched_capMisc (s : State) (i : Nat) : (s.dropPrefetched i).capMisc = s.capMisc := rfl
@[simp] theorem State.dropPrefetched_rangeStrap (s : State) (i : Nat) : (s.dropPrefetched i).rangeStrap = s.rangeStrap := rfl
@[simp] theorem State.dropPrefetched_devTabBase (s : State) (i : Nat) : (s.dropPrefetched i).devTabBase = s.devTabBase := rfl
@[simp] theorem State.dropPrefetched_cmdBase (s : State) (i : Nat) : (s.dropPrefetched i).cmdBase = s.cmdBase := rfl
@[simp] theorem State.dropPrefetched_evtBase (s : State) (i : Nat) : (s.dropPrefetched i).evtBase = s.evtBase := rfl
@[simp] theorem State.dropPrefetched_control (s : State) (i : Nat) : (s.dropPrefetched i).control = s.control := rfl
@[simp] theorem State.dropPrefetched_exclBase (s : State) (i : Nat) : (s.dropPrefetched i).exclBase = s.exclBase := rfl
@[simp] theorem State.dropPrefetched_exclLimit (s : State) (i : Nat) : (s.dropPrefetched i).exclLimit = s.exclLimit := rfl
@[simp] theorem State.dropPrefetched_cmdHead (s : State) (i : Nat) : (s.dropPrefetched i).cmdHead = s.cmdHead := rfl
@[simp] theorem State.dropPrefetched_cmdTail (s : State) (i : Nat) : (s.dropPrefetched i).cmdTail = s.cmdTail := rfl
@[simp] theorem State.dropPrefetched_evtHead (s : State) (i : Nat) : (s.dropPrefetched i).evtHead = s.evtHead := rfl
@[simp] theorem State.dropPrefetched_evtTail (s : State) (i : Nat) : (s.dropPrefetched i).evtTail = s.evtTail := rfl
@[simp] theorem State.dropPrefetched_status (s : State) (i : Nat) : (s.dropPrefetched i).status = s.status := rfl
@[simp] theorem State.dropPrefetched_halted (s : State) (i : Nat) : (s.dropPrefetched i).halted = s.halted := rfl
@[simp] theorem State.dropPrefetched_evtHalted (s : State) (i : Nat) : (s.dropPrefetched i).evtHalted = s.evtHalted := rfl
@[simp] theorem State.dropPrefetched_dteCache (s : State) (i : Nat) : (s.dropPrefetched i).dteCache = s.dteCache := rfl
@[simp] theorem State.dropPrefetched_tlb (s : State) (i : Nat) : (s.dropPrefetched i).tlb = s.tlb := rfl
@[simp] theorem State.dropPrefetched_pdc (s : State) (i : Nat) : (s.dropPrefetched i).pdc = s.pdc := rfl
@[simp] theorem State.dropPrefetched_irtCache (s : State) (i : Nat) : (s.dropPrefetched i).irtCache = s.irtCache := rfl
@[simp] theorem State.dropPrefetched_faultLogged (s : State) (i : Nat) : (s.dropPrefetched i).faultLogged = s.faultLogged := rfl
@[simp] theorem State.dropPrefetched_prefetched (s : State) (i : Nat) : (s.dropPrefetched i).prefetched = s.prefetched.filter fun p => decide (p.index ≠ i) := rfl
@[simp] theorem State.dropPrefetched_fetched (s : State) (i : Nat) : (s.dropPrefetched i).fetched = s.fetched := rfl
@[simp] theorem State.dropPrefetched_outstanding (s : State) (i : Nat) : (s.dropPrefetched i).outstanding = s.outstanding := rfl
@[simp] theorem State.dropPrefetched_inFlight (s : State) (i : Nat) : (s.dropPrefetched i).inFlight = s.inFlight := rfl
@[simp] theorem State.dropPrefetched_upReads (s : State) (i : Nat) : (s.dropPrefetched i).upReads = s.upReads := rfl
@[simp] theorem State.dropPrefetched_upWrites (s : State) (i : Nat) : (s.dropPrefetched i).upWrites = s.upWrites := rfl
@[simp] theorem State.dropPrefetched_pendingEvents (s : State) (i : Nat) : (s.dropPrefetched i).pendingEvents = s.pendingEvents := rfl
@[simp] theorem State.dropPrefetched_intDue (s : State) (i : Nat) : (s.dropPrefetched i).intDue = s.intDue := rfl
@[simp] theorem State.dropPrefetched_mem (s : State) (i : Nat) : (s.dropPrefetched i).mem = s.mem := rfl
@[simp] theorem State.dropPrefetched_dram (s : State) (i : Nat) : (s.dropPrefetched i).dram = s.dram := rfl
@[simp] theorem State.dropPrefetched_holes (s : State) (i : Nat) : (s.dropPrefetched i).holes = s.holes := rfl
@[simp] theorem State.dropPrefetched_agenda (s : State) (i : Nat) : (s.dropPrefetched i).agenda = s.agenda := rfl
@[simp] theorem State.dropPrefetched_outputs (s : State) (i : Nat) : (s.dropPrefetched i).outputs = s.outputs := rfl
@[simp] theorem State.dropPrefetched_draws (s : State) (i : Nat) : (s.dropPrefetched i).draws = s.draws := rfl
@[simp] theorem State.dropPrefetched_nextId (s : State) (i : Nat) : (s.dropPrefetched i).nextId = s.nextId := rfl

@[simp] theorem State.advanceHead_capHeader (s : State) : s.advanceHead.capHeader = s.capHeader := rfl
@[simp] theorem State.advanceHead_capBaseLow (s : State) : s.advanceHead.capBaseLow = s.capBaseLow := rfl
@[simp] theorem State.advanceHead_capBaseHigh (s : State) : s.advanceHead.capBaseHigh = s.capBaseHigh := rfl
@[simp] theorem State.advanceHead_capRange (s : State) : s.advanceHead.capRange = s.capRange := rfl
@[simp] theorem State.advanceHead_capMisc (s : State) : s.advanceHead.capMisc = s.capMisc := rfl
@[simp] theorem State.advanceHead_rangeStrap (s : State) : s.advanceHead.rangeStrap = s.rangeStrap := rfl
@[simp] theorem State.advanceHead_devTabBase (s : State) : s.advanceHead.devTabBase = s.devTabBase := rfl
@[simp] theorem State.advanceHead_cmdBase (s : State) : s.advanceHead.cmdBase = s.cmdBase := rfl
@[simp] theorem State.advanceHead_evtBase (s : State) : s.advanceHead.evtBase = s.evtBase := rfl
@[simp] theorem State.advanceHead_control (s : State) : s.advanceHead.control = s.control := rfl
@[simp] theorem State.advanceHead_exclBase (s : State) : s.advanceHead.exclBase = s.exclBase := rfl
@[simp] theorem State.advanceHead_exclLimit (s : State) : s.advanceHead.exclLimit = s.exclLimit := rfl
@[simp] theorem State.advanceHead_cmdHead (s : State) : s.advanceHead.cmdHead = s.nextHead := rfl
@[simp] theorem State.advanceHead_cmdTail (s : State) : s.advanceHead.cmdTail = s.cmdTail := rfl
@[simp] theorem State.advanceHead_evtHead (s : State) : s.advanceHead.evtHead = s.evtHead := rfl
@[simp] theorem State.advanceHead_evtTail (s : State) : s.advanceHead.evtTail = s.evtTail := rfl
@[simp] theorem State.advanceHead_status (s : State) : s.advanceHead.status = s.status := rfl
@[simp] theorem State.advanceHead_halted (s : State) : s.advanceHead.halted = s.halted := rfl
@[simp] theorem State.advanceHead_evtHalted (s : State) : s.advanceHead.evtHalted = s.evtHalted := rfl
@[simp] theorem State.advanceHead_dteCache (s : State) : s.advanceHead.dteCache = s.dteCache := rfl
@[simp] theorem State.advanceHead_tlb (s : State) : s.advanceHead.tlb = s.tlb := rfl
@[simp] theorem State.advanceHead_pdc (s : State) : s.advanceHead.pdc = s.pdc := rfl
@[simp] theorem State.advanceHead_irtCache (s : State) : s.advanceHead.irtCache = s.irtCache := rfl
@[simp] theorem State.advanceHead_faultLogged (s : State) : s.advanceHead.faultLogged = s.faultLogged := rfl
@[simp] theorem State.advanceHead_prefetched (s : State) : s.advanceHead.prefetched = s.prefetched := rfl
@[simp] theorem State.advanceHead_fetched (s : State) : s.advanceHead.fetched = s.fetched := rfl
@[simp] theorem State.advanceHead_outstanding (s : State) : s.advanceHead.outstanding = s.outstanding := rfl
@[simp] theorem State.advanceHead_inFlight (s : State) : s.advanceHead.inFlight = s.inFlight := rfl
@[simp] theorem State.advanceHead_upReads (s : State) : s.advanceHead.upReads = s.upReads := rfl
@[simp] theorem State.advanceHead_upWrites (s : State) : s.advanceHead.upWrites = s.upWrites := rfl
@[simp] theorem State.advanceHead_pendingEvents (s : State) : s.advanceHead.pendingEvents = s.pendingEvents := rfl
@[simp] theorem State.advanceHead_intDue (s : State) : s.advanceHead.intDue = s.intDue := rfl
@[simp] theorem State.advanceHead_mem (s : State) : s.advanceHead.mem = s.mem := rfl
@[simp] theorem State.advanceHead_dram (s : State) : s.advanceHead.dram = s.dram := rfl
@[simp] theorem State.advanceHead_holes (s : State) : s.advanceHead.holes = s.holes := rfl
@[simp] theorem State.advanceHead_agenda (s : State) : s.advanceHead.agenda = s.agenda := rfl
@[simp] theorem State.advanceHead_outputs (s : State) : s.advanceHead.outputs = s.outputs := rfl
@[simp] theorem State.advanceHead_draws (s : State) : s.advanceHead.draws = s.draws := rfl
@[simp] theorem State.advanceHead_nextId (s : State) : s.advanceHead.nextId = s.nextId := rfl

@[simp] theorem State.enqueue_capHeader (s : State) (c : Command) : (s.enqueue c).capHeader = s.capHeader := rfl
@[simp] theorem State.enqueue_capBaseLow (s : State) (c : Command) : (s.enqueue c).capBaseLow = s.capBaseLow := rfl
@[simp] theorem State.enqueue_capBaseHigh (s : State) (c : Command) : (s.enqueue c).capBaseHigh = s.capBaseHigh := rfl
@[simp] theorem State.enqueue_capRange (s : State) (c : Command) : (s.enqueue c).capRange = s.capRange := rfl
@[simp] theorem State.enqueue_capMisc (s : State) (c : Command) : (s.enqueue c).capMisc = s.capMisc := rfl
@[simp] theorem State.enqueue_rangeStrap (s : State) (c : Command) : (s.enqueue c).rangeStrap = s.rangeStrap := rfl
@[simp] theorem State.enqueue_devTabBase (s : State) (c : Command) : (s.enqueue c).devTabBase = s.devTabBase := rfl
@[simp] theorem State.enqueue_cmdBase (s : State) (c : Command) : (s.enqueue c).cmdBase = s.cmdBase := rfl
@[simp] theorem State.enqueue_evtBase (s : State) (c : Command) : (s.enqueue c).evtBase = s.evtBase := rfl
@[simp] theorem State.enqueue_control (s : State) (c : Command) : (s.enqueue c).control = s.control := rfl
@[simp] theorem State.enqueue_exclBase (s : State) (c : Command) : (s.enqueue c).exclBase = s.exclBase := rfl
@[simp] theorem State.enqueue_exclLimit (s : State) (c : Command) : (s.enqueue c).exclLimit = s.exclLimit := rfl
@[simp] theorem State.enqueue_cmdHead (s : State) (c : Command) : (s.enqueue c).cmdHead = s.cmdHead := rfl
@[simp] theorem State.enqueue_cmdTail (s : State) (c : Command) : (s.enqueue c).cmdTail = s.cmdTail := rfl
@[simp] theorem State.enqueue_evtHead (s : State) (c : Command) : (s.enqueue c).evtHead = s.evtHead := rfl
@[simp] theorem State.enqueue_evtTail (s : State) (c : Command) : (s.enqueue c).evtTail = s.evtTail := rfl
@[simp] theorem State.enqueue_status (s : State) (c : Command) : (s.enqueue c).status = s.status := rfl
@[simp] theorem State.enqueue_halted (s : State) (c : Command) : (s.enqueue c).halted = s.halted := rfl
@[simp] theorem State.enqueue_evtHalted (s : State) (c : Command) : (s.enqueue c).evtHalted = s.evtHalted := rfl
@[simp] theorem State.enqueue_dteCache (s : State) (c : Command) : (s.enqueue c).dteCache = s.dteCache := rfl
@[simp] theorem State.enqueue_tlb (s : State) (c : Command) : (s.enqueue c).tlb = s.tlb := rfl
@[simp] theorem State.enqueue_pdc (s : State) (c : Command) : (s.enqueue c).pdc = s.pdc := rfl
@[simp] theorem State.enqueue_irtCache (s : State) (c : Command) : (s.enqueue c).irtCache = s.irtCache := rfl
@[simp] theorem State.enqueue_faultLogged (s : State) (c : Command) : (s.enqueue c).faultLogged = s.faultLogged := rfl
@[simp] theorem State.enqueue_prefetched (s : State) (c : Command) : (s.enqueue c).prefetched = s.prefetched := rfl
@[simp] theorem State.enqueue_fetched (s : State) (c : Command) : (s.enqueue c).fetched = s.fetched ++ [c] := rfl
@[simp] theorem State.enqueue_outstanding (s : State) (c : Command) : (s.enqueue c).outstanding = s.outstanding := rfl
@[simp] theorem State.enqueue_inFlight (s : State) (c : Command) : (s.enqueue c).inFlight = s.inFlight := rfl
@[simp] theorem State.enqueue_upReads (s : State) (c : Command) : (s.enqueue c).upReads = s.upReads := rfl
@[simp] theorem State.enqueue_upWrites (s : State) (c : Command) : (s.enqueue c).upWrites = s.upWrites := rfl
@[simp] theorem State.enqueue_pendingEvents (s : State) (c : Command) : (s.enqueue c).pendingEvents = s.pendingEvents := rfl
@[simp] theorem State.enqueue_intDue (s : State) (c : Command) : (s.enqueue c).intDue = s.intDue := rfl
@[simp] theorem State.enqueue_mem (s : State) (c : Command) : (s.enqueue c).mem = s.mem := rfl
@[simp] theorem State.enqueue_dram (s : State) (c : Command) : (s.enqueue c).dram = s.dram := rfl
@[simp] theorem State.enqueue_holes (s : State) (c : Command) : (s.enqueue c).holes = s.holes := rfl
@[simp] theorem State.enqueue_agenda (s : State) (c : Command) : (s.enqueue c).agenda = s.agenda := rfl
@[simp] theorem State.enqueue_outputs (s : State) (c : Command) : (s.enqueue c).outputs = s.outputs := rfl
@[simp] theorem State.enqueue_draws (s : State) (c : Command) : (s.enqueue c).draws = s.draws := rfl
@[simp] theorem State.enqueue_nextId (s : State) (c : Command) : (s.enqueue c).nextId = s.nextId := rfl

@[simp] theorem State.forgetDte_capHeader (s : State) (dev : DeviceId) : (s.forgetDte dev).capHeader = s.capHeader := rfl
@[simp] theorem State.forgetDte_capBaseLow (s : State) (dev : DeviceId) : (s.forgetDte dev).capBaseLow = s.capBaseLow := rfl
@[simp] theorem State.forgetDte_capBaseHigh (s : State) (dev : DeviceId) : (s.forgetDte dev).capBaseHigh = s.capBaseHigh := rfl
@[simp] theorem State.forgetDte_capRange (s : State) (dev : DeviceId) : (s.forgetDte dev).capRange = s.capRange := rfl
@[simp] theorem State.forgetDte_capMisc (s : State) (dev : DeviceId) : (s.forgetDte dev).capMisc = s.capMisc := rfl
@[simp] theorem State.forgetDte_rangeStrap (s : State) (dev : DeviceId) : (s.forgetDte dev).rangeStrap = s.rangeStrap := rfl
@[simp] theorem State.forgetDte_devTabBase (s : State) (dev : DeviceId) : (s.forgetDte dev).devTabBase = s.devTabBase := rfl
@[simp] theorem State.forgetDte_cmdBase (s : State) (dev : DeviceId) : (s.forgetDte dev).cmdBase = s.cmdBase := rfl
@[simp] theorem State.forgetDte_evtBase (s : State) (dev : DeviceId) : (s.forgetDte dev).evtBase = s.evtBase := rfl
@[simp] theorem State.forgetDte_control (s : State) (dev : DeviceId) : (s.forgetDte dev).control = s.control := rfl
@[simp] theorem State.forgetDte_exclBase (s : State) (dev : DeviceId) : (s.forgetDte dev).exclBase = s.exclBase := rfl
@[simp] theorem State.forgetDte_exclLimit (s : State) (dev : DeviceId) : (s.forgetDte dev).exclLimit = s.exclLimit := rfl
@[simp] theorem State.forgetDte_cmdHead (s : State) (dev : DeviceId) : (s.forgetDte dev).cmdHead = s.cmdHead := rfl
@[simp] theorem State.forgetDte_cmdTail (s : State) (dev : DeviceId) : (s.forgetDte dev).cmdTail = s.cmdTail := rfl
@[simp] theorem State.forgetDte_evtHead (s : State) (dev : DeviceId) : (s.forgetDte dev).evtHead = s.evtHead := rfl
@[simp] theorem State.forgetDte_evtTail (s : State) (dev : DeviceId) : (s.forgetDte dev).evtTail = s.evtTail := rfl
@[simp] theorem State.forgetDte_status (s : State) (dev : DeviceId) : (s.forgetDte dev).status = s.status := rfl
@[simp] theorem State.forgetDte_halted (s : State) (dev : DeviceId) : (s.forgetDte dev).halted = s.halted := rfl
@[simp] theorem State.forgetDte_evtHalted (s : State) (dev : DeviceId) : (s.forgetDte dev).evtHalted = s.evtHalted := rfl
@[simp] theorem State.forgetDte_dteCache (s : State) (dev : DeviceId) : (s.forgetDte dev).dteCache = s.dteCache.filter fun e => decide (e.dev ≠ dev) := rfl
@[simp] theorem State.forgetDte_tlb (s : State) (dev : DeviceId) : (s.forgetDte dev).tlb = s.tlb := rfl
@[simp] theorem State.forgetDte_pdc (s : State) (dev : DeviceId) : (s.forgetDte dev).pdc = s.pdc := rfl
@[simp] theorem State.forgetDte_irtCache (s : State) (dev : DeviceId) : (s.forgetDte dev).irtCache = s.irtCache := rfl
@[simp] theorem State.forgetDte_faultLogged (s : State) (dev : DeviceId) : (s.forgetDte dev).faultLogged = s.faultLogged.filter fun d => decide (d ≠ dev) := rfl
@[simp] theorem State.forgetDte_prefetched (s : State) (dev : DeviceId) : (s.forgetDte dev).prefetched = s.prefetched := rfl
@[simp] theorem State.forgetDte_fetched (s : State) (dev : DeviceId) : (s.forgetDte dev).fetched = s.fetched := rfl
@[simp] theorem State.forgetDte_outstanding (s : State) (dev : DeviceId) : (s.forgetDte dev).outstanding = s.outstanding := rfl
@[simp] theorem State.forgetDte_inFlight (s : State) (dev : DeviceId) : (s.forgetDte dev).inFlight = s.inFlight.map (InFlight.spoilDte dev) := rfl
@[simp] theorem State.forgetDte_upReads (s : State) (dev : DeviceId) : (s.forgetDte dev).upReads = s.upReads := rfl
@[simp] theorem State.forgetDte_upWrites (s : State) (dev : DeviceId) : (s.forgetDte dev).upWrites = s.upWrites := rfl
@[simp] theorem State.forgetDte_pendingEvents (s : State) (dev : DeviceId) : (s.forgetDte dev).pendingEvents = s.pendingEvents := rfl
@[simp] theorem State.forgetDte_intDue (s : State) (dev : DeviceId) : (s.forgetDte dev).intDue = s.intDue := rfl
@[simp] theorem State.forgetDte_mem (s : State) (dev : DeviceId) : (s.forgetDte dev).mem = s.mem := rfl
@[simp] theorem State.forgetDte_dram (s : State) (dev : DeviceId) : (s.forgetDte dev).dram = s.dram := rfl
@[simp] theorem State.forgetDte_holes (s : State) (dev : DeviceId) : (s.forgetDte dev).holes = s.holes := rfl
@[simp] theorem State.forgetDte_agenda (s : State) (dev : DeviceId) : (s.forgetDte dev).agenda = s.agenda := rfl
@[simp] theorem State.forgetDte_outputs (s : State) (dev : DeviceId) : (s.forgetDte dev).outputs = s.outputs := rfl
@[simp] theorem State.forgetDte_draws (s : State) (dev : DeviceId) : (s.forgetDte dev).draws = s.draws := rfl
@[simp] theorem State.forgetDte_nextId (s : State) (dev : DeviceId) : (s.forgetDte dev).nextId = s.nextId := rfl

@[simp] theorem State.forgetPages_capHeader (s : State) (m : DomainId) (p : Bool) (r : Option PageRange) : (s.forgetPages m p r).capHeader = s.capHeader := rfl
@[simp] theorem State.forgetPages_capBaseLow (s : State) (m : DomainId) (p : Bool) (r : Option PageRange) : (s.forgetPages m p r).capBaseLow = s.capBaseLow := rfl
@[simp] theorem State.forgetPages_capBaseHigh (s : State) (m : DomainId) (p : Bool) (r : Option PageRange) : (s.forgetPages m p r).capBaseHigh = s.capBaseHigh := rfl
@[simp] theorem State.forgetPages_capRange (s : State) (m : DomainId) (p : Bool) (r : Option PageRange) : (s.forgetPages m p r).capRange = s.capRange := rfl
@[simp] theorem State.forgetPages_capMisc (s : State) (m : DomainId) (p : Bool) (r : Option PageRange) : (s.forgetPages m p r).capMisc = s.capMisc := rfl
@[simp] theorem State.forgetPages_rangeStrap (s : State) (m : DomainId) (p : Bool) (r : Option PageRange) : (s.forgetPages m p r).rangeStrap = s.rangeStrap := rfl
@[simp] theorem State.forgetPages_devTabBase (s : State) (m : DomainId) (p : Bool) (r : Option PageRange) : (s.forgetPages m p r).devTabBase = s.devTabBase := rfl
@[simp] theorem State.forgetPages_cmdBase (s : State) (m : DomainId) (p : Bool) (r : Option PageRange) : (s.forgetPages m p r).cmdBase = s.cmdBase := rfl
@[simp] theorem State.forgetPages_evtBase (s : State) (m : DomainId) (p : Bool) (r : Option PageRange) : (s.forgetPages m p r).evtBase = s.evtBase := rfl
@[simp] theorem State.forgetPages_control (s : State) (m : DomainId) (p : Bool) (r : Option PageRange) : (s.forgetPages m p r).control = s.control := rfl
@[simp] theorem State.forgetPages_exclBase (s : State) (m : DomainId) (p : Bool) (r : Option PageRange) : (s.forgetPages m p r).exclBase = s.exclBase := rfl
@[simp] theorem State.forgetPages_exclLimit (s : State) (m : DomainId) (p : Bool) (r : Option PageRange) : (s.forgetPages m p r).exclLimit = s.exclLimit := rfl
@[simp] theorem State.forgetPages_cmdHead (s : State) (m : DomainId) (p : Bool) (r : Option PageRange) : (s.forgetPages m p r).cmdHead = s.cmdHead := rfl
@[simp] theorem State.forgetPages_cmdTail (s : State) (m : DomainId) (p : Bool) (r : Option PageRange) : (s.forgetPages m p r).cmdTail = s.cmdTail := rfl
@[simp] theorem State.forgetPages_evtHead (s : State) (m : DomainId) (p : Bool) (r : Option PageRange) : (s.forgetPages m p r).evtHead = s.evtHead := rfl
@[simp] theorem State.forgetPages_evtTail (s : State) (m : DomainId) (p : Bool) (r : Option PageRange) : (s.forgetPages m p r).evtTail = s.evtTail := rfl
@[simp] theorem State.forgetPages_status (s : State) (m : DomainId) (p : Bool) (r : Option PageRange) : (s.forgetPages m p r).status = s.status := rfl
@[simp] theorem State.forgetPages_halted (s : State) (m : DomainId) (p : Bool) (r : Option PageRange) : (s.forgetPages m p r).halted = s.halted := rfl
@[simp] theorem State.forgetPages_evtHalted (s : State) (m : DomainId) (p : Bool) (r : Option PageRange) : (s.forgetPages m p r).evtHalted = s.evtHalted := rfl
@[simp] theorem State.forgetPages_dteCache (s : State) (m : DomainId) (p : Bool) (r : Option PageRange) : (s.forgetPages m p r).dteCache = s.dteCache := rfl
@[simp] theorem State.forgetPages_tlb (s : State) (m : DomainId) (p : Bool) (r : Option PageRange) : (s.forgetPages m p r).tlb = s.tlb.filter (s.keepsTlb m r) := rfl
@[simp] theorem State.forgetPages_pdc (s : State) (m : DomainId) (p : Bool) (r : Option PageRange) : (s.forgetPages m p r).pdc = s.pdc.filter (s.keepsPdc m p r) := rfl
@[simp] theorem State.forgetPages_irtCache (s : State) (m : DomainId) (p : Bool) (r : Option PageRange) : (s.forgetPages m p r).irtCache = s.irtCache := rfl
@[simp] theorem State.forgetPages_faultLogged (s : State) (m : DomainId) (p : Bool) (r : Option PageRange) : (s.forgetPages m p r).faultLogged = s.faultLogged := rfl
@[simp] theorem State.forgetPages_prefetched (s : State) (m : DomainId) (p : Bool) (r : Option PageRange) : (s.forgetPages m p r).prefetched = s.prefetched := rfl
@[simp] theorem State.forgetPages_fetched (s : State) (m : DomainId) (p : Bool) (r : Option PageRange) : (s.forgetPages m p r).fetched = s.fetched := rfl
@[simp] theorem State.forgetPages_outstanding (s : State) (m : DomainId) (p : Bool) (r : Option PageRange) : (s.forgetPages m p r).outstanding = s.outstanding := rfl
@[simp] theorem State.forgetPages_inFlight (s : State) (m : DomainId) (p : Bool) (r : Option PageRange) : (s.forgetPages m p r).inFlight = s.inFlight.map (InFlight.spoil m) := rfl
@[simp] theorem State.forgetPages_upReads (s : State) (m : DomainId) (p : Bool) (r : Option PageRange) : (s.forgetPages m p r).upReads = s.upReads := rfl
@[simp] theorem State.forgetPages_upWrites (s : State) (m : DomainId) (p : Bool) (r : Option PageRange) : (s.forgetPages m p r).upWrites = s.upWrites := rfl
@[simp] theorem State.forgetPages_pendingEvents (s : State) (m : DomainId) (p : Bool) (r : Option PageRange) : (s.forgetPages m p r).pendingEvents = s.pendingEvents := rfl
@[simp] theorem State.forgetPages_intDue (s : State) (m : DomainId) (p : Bool) (r : Option PageRange) : (s.forgetPages m p r).intDue = s.intDue := rfl
@[simp] theorem State.forgetPages_mem (s : State) (m : DomainId) (p : Bool) (r : Option PageRange) : (s.forgetPages m p r).mem = s.mem := rfl
@[simp] theorem State.forgetPages_dram (s : State) (m : DomainId) (p : Bool) (r : Option PageRange) : (s.forgetPages m p r).dram = s.dram := rfl
@[simp] theorem State.forgetPages_holes (s : State) (m : DomainId) (p : Bool) (r : Option PageRange) : (s.forgetPages m p r).holes = s.holes := rfl
@[simp] theorem State.forgetPages_agenda (s : State) (m : DomainId) (p : Bool) (r : Option PageRange) : (s.forgetPages m p r).agenda = s.agenda := rfl
@[simp] theorem State.forgetPages_outputs (s : State) (m : DomainId) (p : Bool) (r : Option PageRange) : (s.forgetPages m p r).outputs = s.outputs := rfl
@[simp] theorem State.forgetPages_draws (s : State) (m : DomainId) (p : Bool) (r : Option PageRange) : (s.forgetPages m p r).draws = s.draws := rfl
@[simp] theorem State.forgetPages_nextId (s : State) (m : DomainId) (p : Bool) (r : Option PageRange) : (s.forgetPages m p r).nextId = s.nextId := rfl

@[simp] theorem State.forgetIrt_capHeader (s : State) (dev : DeviceId) : (s.forgetIrt dev).capHeader = s.capHeader := rfl
@[simp] theorem State.forgetIrt_capBaseLow (s : State) (dev : DeviceId) : (s.forgetIrt dev).capBaseLow = s.capBaseLow := rfl
@[simp] theorem State.forgetIrt_capBaseHigh (s : State) (dev : DeviceId) : (s.forgetIrt dev).capBaseHigh = s.capBaseHigh := rfl
@[simp] theorem State.forgetIrt_capRange (s : State) (dev : DeviceId) : (s.forgetIrt dev).capRange = s.capRange := rfl
@[simp] theorem State.forgetIrt_capMisc (s : State) (dev : DeviceId) : (s.forgetIrt dev).capMisc = s.capMisc := rfl
@[simp] theorem State.forgetIrt_rangeStrap (s : State) (dev : DeviceId) : (s.forgetIrt dev).rangeStrap = s.rangeStrap := rfl
@[simp] theorem State.forgetIrt_devTabBase (s : State) (dev : DeviceId) : (s.forgetIrt dev).devTabBase = s.devTabBase := rfl
@[simp] theorem State.forgetIrt_cmdBase (s : State) (dev : DeviceId) : (s.forgetIrt dev).cmdBase = s.cmdBase := rfl
@[simp] theorem State.forgetIrt_evtBase (s : State) (dev : DeviceId) : (s.forgetIrt dev).evtBase = s.evtBase := rfl
@[simp] theorem State.forgetIrt_control (s : State) (dev : DeviceId) : (s.forgetIrt dev).control = s.control := rfl
@[simp] theorem State.forgetIrt_exclBase (s : State) (dev : DeviceId) : (s.forgetIrt dev).exclBase = s.exclBase := rfl
@[simp] theorem State.forgetIrt_exclLimit (s : State) (dev : DeviceId) : (s.forgetIrt dev).exclLimit = s.exclLimit := rfl
@[simp] theorem State.forgetIrt_cmdHead (s : State) (dev : DeviceId) : (s.forgetIrt dev).cmdHead = s.cmdHead := rfl
@[simp] theorem State.forgetIrt_cmdTail (s : State) (dev : DeviceId) : (s.forgetIrt dev).cmdTail = s.cmdTail := rfl
@[simp] theorem State.forgetIrt_evtHead (s : State) (dev : DeviceId) : (s.forgetIrt dev).evtHead = s.evtHead := rfl
@[simp] theorem State.forgetIrt_evtTail (s : State) (dev : DeviceId) : (s.forgetIrt dev).evtTail = s.evtTail := rfl
@[simp] theorem State.forgetIrt_status (s : State) (dev : DeviceId) : (s.forgetIrt dev).status = s.status := rfl
@[simp] theorem State.forgetIrt_halted (s : State) (dev : DeviceId) : (s.forgetIrt dev).halted = s.halted := rfl
@[simp] theorem State.forgetIrt_evtHalted (s : State) (dev : DeviceId) : (s.forgetIrt dev).evtHalted = s.evtHalted := rfl
@[simp] theorem State.forgetIrt_dteCache (s : State) (dev : DeviceId) : (s.forgetIrt dev).dteCache = s.dteCache := rfl
@[simp] theorem State.forgetIrt_tlb (s : State) (dev : DeviceId) : (s.forgetIrt dev).tlb = s.tlb := rfl
@[simp] theorem State.forgetIrt_pdc (s : State) (dev : DeviceId) : (s.forgetIrt dev).pdc = s.pdc := rfl
@[simp] theorem State.forgetIrt_irtCache (s : State) (dev : DeviceId) : (s.forgetIrt dev).irtCache = s.irtCache.filter fun e => decide (e.dev ≠ dev) := rfl
@[simp] theorem State.forgetIrt_faultLogged (s : State) (dev : DeviceId) : (s.forgetIrt dev).faultLogged = s.faultLogged := rfl
@[simp] theorem State.forgetIrt_prefetched (s : State) (dev : DeviceId) : (s.forgetIrt dev).prefetched = s.prefetched := rfl
@[simp] theorem State.forgetIrt_fetched (s : State) (dev : DeviceId) : (s.forgetIrt dev).fetched = s.fetched := rfl
@[simp] theorem State.forgetIrt_outstanding (s : State) (dev : DeviceId) : (s.forgetIrt dev).outstanding = s.outstanding := rfl
@[simp] theorem State.forgetIrt_inFlight (s : State) (dev : DeviceId) : (s.forgetIrt dev).inFlight = s.inFlight.map (InFlight.spoilIrt dev) := rfl
@[simp] theorem State.forgetIrt_upReads (s : State) (dev : DeviceId) : (s.forgetIrt dev).upReads = s.upReads := rfl
@[simp] theorem State.forgetIrt_upWrites (s : State) (dev : DeviceId) : (s.forgetIrt dev).upWrites = s.upWrites := rfl
@[simp] theorem State.forgetIrt_pendingEvents (s : State) (dev : DeviceId) : (s.forgetIrt dev).pendingEvents = s.pendingEvents := rfl
@[simp] theorem State.forgetIrt_intDue (s : State) (dev : DeviceId) : (s.forgetIrt dev).intDue = s.intDue := rfl
@[simp] theorem State.forgetIrt_mem (s : State) (dev : DeviceId) : (s.forgetIrt dev).mem = s.mem := rfl
@[simp] theorem State.forgetIrt_dram (s : State) (dev : DeviceId) : (s.forgetIrt dev).dram = s.dram := rfl
@[simp] theorem State.forgetIrt_holes (s : State) (dev : DeviceId) : (s.forgetIrt dev).holes = s.holes := rfl
@[simp] theorem State.forgetIrt_agenda (s : State) (dev : DeviceId) : (s.forgetIrt dev).agenda = s.agenda := rfl
@[simp] theorem State.forgetIrt_outputs (s : State) (dev : DeviceId) : (s.forgetIrt dev).outputs = s.outputs := rfl
@[simp] theorem State.forgetIrt_draws (s : State) (dev : DeviceId) : (s.forgetIrt dev).draws = s.draws := rfl
@[simp] theorem State.forgetIrt_nextId (s : State) (dev : DeviceId) : (s.forgetIrt dev).nextId = s.nextId := rfl

@[simp] theorem State.sendIotlb_capHeader (s : State) (dev : DeviceId) (q : BitVec 16) (a : Addr) (r : PageRange) : (s.sendIotlb dev q a r).capHeader = s.capHeader := rfl
@[simp] theorem State.sendIotlb_capBaseLow (s : State) (dev : DeviceId) (q : BitVec 16) (a : Addr) (r : PageRange) : (s.sendIotlb dev q a r).capBaseLow = s.capBaseLow := rfl
@[simp] theorem State.sendIotlb_capBaseHigh (s : State) (dev : DeviceId) (q : BitVec 16) (a : Addr) (r : PageRange) : (s.sendIotlb dev q a r).capBaseHigh = s.capBaseHigh := rfl
@[simp] theorem State.sendIotlb_capRange (s : State) (dev : DeviceId) (q : BitVec 16) (a : Addr) (r : PageRange) : (s.sendIotlb dev q a r).capRange = s.capRange := rfl
@[simp] theorem State.sendIotlb_capMisc (s : State) (dev : DeviceId) (q : BitVec 16) (a : Addr) (r : PageRange) : (s.sendIotlb dev q a r).capMisc = s.capMisc := rfl
@[simp] theorem State.sendIotlb_rangeStrap (s : State) (dev : DeviceId) (q : BitVec 16) (a : Addr) (r : PageRange) : (s.sendIotlb dev q a r).rangeStrap = s.rangeStrap := rfl
@[simp] theorem State.sendIotlb_devTabBase (s : State) (dev : DeviceId) (q : BitVec 16) (a : Addr) (r : PageRange) : (s.sendIotlb dev q a r).devTabBase = s.devTabBase := rfl
@[simp] theorem State.sendIotlb_cmdBase (s : State) (dev : DeviceId) (q : BitVec 16) (a : Addr) (r : PageRange) : (s.sendIotlb dev q a r).cmdBase = s.cmdBase := rfl
@[simp] theorem State.sendIotlb_evtBase (s : State) (dev : DeviceId) (q : BitVec 16) (a : Addr) (r : PageRange) : (s.sendIotlb dev q a r).evtBase = s.evtBase := rfl
@[simp] theorem State.sendIotlb_control (s : State) (dev : DeviceId) (q : BitVec 16) (a : Addr) (r : PageRange) : (s.sendIotlb dev q a r).control = s.control := rfl
@[simp] theorem State.sendIotlb_exclBase (s : State) (dev : DeviceId) (q : BitVec 16) (a : Addr) (r : PageRange) : (s.sendIotlb dev q a r).exclBase = s.exclBase := rfl
@[simp] theorem State.sendIotlb_exclLimit (s : State) (dev : DeviceId) (q : BitVec 16) (a : Addr) (r : PageRange) : (s.sendIotlb dev q a r).exclLimit = s.exclLimit := rfl
@[simp] theorem State.sendIotlb_cmdHead (s : State) (dev : DeviceId) (q : BitVec 16) (a : Addr) (r : PageRange) : (s.sendIotlb dev q a r).cmdHead = s.cmdHead := rfl
@[simp] theorem State.sendIotlb_cmdTail (s : State) (dev : DeviceId) (q : BitVec 16) (a : Addr) (r : PageRange) : (s.sendIotlb dev q a r).cmdTail = s.cmdTail := rfl
@[simp] theorem State.sendIotlb_evtHead (s : State) (dev : DeviceId) (q : BitVec 16) (a : Addr) (r : PageRange) : (s.sendIotlb dev q a r).evtHead = s.evtHead := rfl
@[simp] theorem State.sendIotlb_evtTail (s : State) (dev : DeviceId) (q : BitVec 16) (a : Addr) (r : PageRange) : (s.sendIotlb dev q a r).evtTail = s.evtTail := rfl
@[simp] theorem State.sendIotlb_status (s : State) (dev : DeviceId) (q : BitVec 16) (a : Addr) (r : PageRange) : (s.sendIotlb dev q a r).status = s.status := rfl
@[simp] theorem State.sendIotlb_halted (s : State) (dev : DeviceId) (q : BitVec 16) (a : Addr) (r : PageRange) : (s.sendIotlb dev q a r).halted = s.halted := rfl
@[simp] theorem State.sendIotlb_evtHalted (s : State) (dev : DeviceId) (q : BitVec 16) (a : Addr) (r : PageRange) : (s.sendIotlb dev q a r).evtHalted = s.evtHalted := rfl
@[simp] theorem State.sendIotlb_dteCache (s : State) (dev : DeviceId) (q : BitVec 16) (a : Addr) (r : PageRange) : (s.sendIotlb dev q a r).dteCache = s.dteCache := rfl
@[simp] theorem State.sendIotlb_tlb (s : State) (dev : DeviceId) (q : BitVec 16) (a : Addr) (r : PageRange) : (s.sendIotlb dev q a r).tlb = s.tlb := rfl
@[simp] theorem State.sendIotlb_pdc (s : State) (dev : DeviceId) (q : BitVec 16) (a : Addr) (r : PageRange) : (s.sendIotlb dev q a r).pdc = s.pdc := rfl
@[simp] theorem State.sendIotlb_irtCache (s : State) (dev : DeviceId) (q : BitVec 16) (a : Addr) (r : PageRange) : (s.sendIotlb dev q a r).irtCache = s.irtCache := rfl
@[simp] theorem State.sendIotlb_faultLogged (s : State) (dev : DeviceId) (q : BitVec 16) (a : Addr) (r : PageRange) : (s.sendIotlb dev q a r).faultLogged = s.faultLogged := rfl
@[simp] theorem State.sendIotlb_prefetched (s : State) (dev : DeviceId) (q : BitVec 16) (a : Addr) (r : PageRange) : (s.sendIotlb dev q a r).prefetched = s.prefetched := rfl
@[simp] theorem State.sendIotlb_fetched (s : State) (dev : DeviceId) (q : BitVec 16) (a : Addr) (r : PageRange) : (s.sendIotlb dev q a r).fetched = s.fetched := rfl
@[simp] theorem State.sendIotlb_outstanding (s : State) (dev : DeviceId) (q : BitVec 16) (a : Addr) (r : PageRange) : (s.sendIotlb dev q a r).outstanding = s.outstanding ++ [⟨s.nextId, dev, q, a, r, s.invTimeOut⟩] := rfl
@[simp] theorem State.sendIotlb_inFlight (s : State) (dev : DeviceId) (q : BitVec 16) (a : Addr) (r : PageRange) : (s.sendIotlb dev q a r).inFlight = s.inFlight := rfl
@[simp] theorem State.sendIotlb_upReads (s : State) (dev : DeviceId) (q : BitVec 16) (a : Addr) (r : PageRange) : (s.sendIotlb dev q a r).upReads = s.upReads := rfl
@[simp] theorem State.sendIotlb_upWrites (s : State) (dev : DeviceId) (q : BitVec 16) (a : Addr) (r : PageRange) : (s.sendIotlb dev q a r).upWrites = s.upWrites := rfl
@[simp] theorem State.sendIotlb_pendingEvents (s : State) (dev : DeviceId) (q : BitVec 16) (a : Addr) (r : PageRange) : (s.sendIotlb dev q a r).pendingEvents = s.pendingEvents := rfl
@[simp] theorem State.sendIotlb_intDue (s : State) (dev : DeviceId) (q : BitVec 16) (a : Addr) (r : PageRange) : (s.sendIotlb dev q a r).intDue = s.intDue := rfl
@[simp] theorem State.sendIotlb_mem (s : State) (dev : DeviceId) (q : BitVec 16) (a : Addr) (r : PageRange) : (s.sendIotlb dev q a r).mem = s.mem := rfl
@[simp] theorem State.sendIotlb_dram (s : State) (dev : DeviceId) (q : BitVec 16) (a : Addr) (r : PageRange) : (s.sendIotlb dev q a r).dram = s.dram := rfl
@[simp] theorem State.sendIotlb_holes (s : State) (dev : DeviceId) (q : BitVec 16) (a : Addr) (r : PageRange) : (s.sendIotlb dev q a r).holes = s.holes := rfl
@[simp] theorem State.sendIotlb_agenda (s : State) (dev : DeviceId) (q : BitVec 16) (a : Addr) (r : PageRange) : (s.sendIotlb dev q a r).agenda = s.agenda := rfl
@[simp] theorem State.sendIotlb_outputs (s : State) (dev : DeviceId) (q : BitVec 16) (a : Addr) (r : PageRange) : (s.sendIotlb dev q a r).outputs = s.outputs ++ [.iotlbRequest dev q r] := rfl
@[simp] theorem State.sendIotlb_draws (s : State) (dev : DeviceId) (q : BitVec 16) (a : Addr) (r : PageRange) : (s.sendIotlb dev q a r).draws = s.draws := rfl
@[simp] theorem State.sendIotlb_nextId (s : State) (dev : DeviceId) (q : BitVec 16) (a : Addr) (r : PageRange) : (s.sendIotlb dev q a r).nextId = s.nextId + 1 := rfl

@[simp] theorem State.completeAt_capHeader (s : State) (k : Nat) : (s.completeAt k).capHeader = s.capHeader := rfl
@[simp] theorem State.completeAt_capBaseLow (s : State) (k : Nat) : (s.completeAt k).capBaseLow = s.capBaseLow := rfl
@[simp] theorem State.completeAt_capBaseHigh (s : State) (k : Nat) : (s.completeAt k).capBaseHigh = s.capBaseHigh := rfl
@[simp] theorem State.completeAt_capRange (s : State) (k : Nat) : (s.completeAt k).capRange = s.capRange := rfl
@[simp] theorem State.completeAt_capMisc (s : State) (k : Nat) : (s.completeAt k).capMisc = s.capMisc := rfl
@[simp] theorem State.completeAt_rangeStrap (s : State) (k : Nat) : (s.completeAt k).rangeStrap = s.rangeStrap := rfl
@[simp] theorem State.completeAt_devTabBase (s : State) (k : Nat) : (s.completeAt k).devTabBase = s.devTabBase := rfl
@[simp] theorem State.completeAt_cmdBase (s : State) (k : Nat) : (s.completeAt k).cmdBase = s.cmdBase := rfl
@[simp] theorem State.completeAt_evtBase (s : State) (k : Nat) : (s.completeAt k).evtBase = s.evtBase := rfl
@[simp] theorem State.completeAt_control (s : State) (k : Nat) : (s.completeAt k).control = s.control := rfl
@[simp] theorem State.completeAt_exclBase (s : State) (k : Nat) : (s.completeAt k).exclBase = s.exclBase := rfl
@[simp] theorem State.completeAt_exclLimit (s : State) (k : Nat) : (s.completeAt k).exclLimit = s.exclLimit := rfl
@[simp] theorem State.completeAt_cmdHead (s : State) (k : Nat) : (s.completeAt k).cmdHead = s.cmdHead := rfl
@[simp] theorem State.completeAt_cmdTail (s : State) (k : Nat) : (s.completeAt k).cmdTail = s.cmdTail := rfl
@[simp] theorem State.completeAt_evtHead (s : State) (k : Nat) : (s.completeAt k).evtHead = s.evtHead := rfl
@[simp] theorem State.completeAt_evtTail (s : State) (k : Nat) : (s.completeAt k).evtTail = s.evtTail := rfl
@[simp] theorem State.completeAt_status (s : State) (k : Nat) : (s.completeAt k).status = s.status := rfl
@[simp] theorem State.completeAt_halted (s : State) (k : Nat) : (s.completeAt k).halted = s.halted := rfl
@[simp] theorem State.completeAt_evtHalted (s : State) (k : Nat) : (s.completeAt k).evtHalted = s.evtHalted := rfl
@[simp] theorem State.completeAt_dteCache (s : State) (k : Nat) : (s.completeAt k).dteCache = s.dteCache := rfl
@[simp] theorem State.completeAt_tlb (s : State) (k : Nat) : (s.completeAt k).tlb = s.tlb := rfl
@[simp] theorem State.completeAt_pdc (s : State) (k : Nat) : (s.completeAt k).pdc = s.pdc := rfl
@[simp] theorem State.completeAt_irtCache (s : State) (k : Nat) : (s.completeAt k).irtCache = s.irtCache := rfl
@[simp] theorem State.completeAt_faultLogged (s : State) (k : Nat) : (s.completeAt k).faultLogged = s.faultLogged := rfl
@[simp] theorem State.completeAt_prefetched (s : State) (k : Nat) : (s.completeAt k).prefetched = s.prefetched := rfl
@[simp] theorem State.completeAt_fetched (s : State) (k : Nat) : (s.completeAt k).fetched = s.fetched.eraseIdx k := rfl
@[simp] theorem State.completeAt_outstanding (s : State) (k : Nat) : (s.completeAt k).outstanding = s.outstanding := rfl
@[simp] theorem State.completeAt_inFlight (s : State) (k : Nat) : (s.completeAt k).inFlight = s.inFlight := rfl
@[simp] theorem State.completeAt_upReads (s : State) (k : Nat) : (s.completeAt k).upReads = s.upReads := rfl
@[simp] theorem State.completeAt_upWrites (s : State) (k : Nat) : (s.completeAt k).upWrites = s.upWrites := rfl
@[simp] theorem State.completeAt_pendingEvents (s : State) (k : Nat) : (s.completeAt k).pendingEvents = s.pendingEvents := rfl
@[simp] theorem State.completeAt_intDue (s : State) (k : Nat) : (s.completeAt k).intDue = s.intDue := rfl
@[simp] theorem State.completeAt_mem (s : State) (k : Nat) : (s.completeAt k).mem = s.mem := rfl
@[simp] theorem State.completeAt_dram (s : State) (k : Nat) : (s.completeAt k).dram = s.dram := rfl
@[simp] theorem State.completeAt_holes (s : State) (k : Nat) : (s.completeAt k).holes = s.holes := rfl
@[simp] theorem State.completeAt_agenda (s : State) (k : Nat) : (s.completeAt k).agenda = s.agenda := rfl
@[simp] theorem State.completeAt_outputs (s : State) (k : Nat) : (s.completeAt k).outputs = s.outputs := rfl
@[simp] theorem State.completeAt_draws (s : State) (k : Nat) : (s.completeAt k).draws = s.draws := rfl
@[simp] theorem State.completeAt_nextId (s : State) (k : Nat) : (s.completeAt k).nextId = s.nextId := rfl

@[simp] theorem State.setPhase_capHeader (s : State) (k : Nat) (c : Command) (p : Phase) : (s.setPhase k c p).capHeader = s.capHeader := rfl
@[simp] theorem State.setPhase_capBaseLow (s : State) (k : Nat) (c : Command) (p : Phase) : (s.setPhase k c p).capBaseLow = s.capBaseLow := rfl
@[simp] theorem State.setPhase_capBaseHigh (s : State) (k : Nat) (c : Command) (p : Phase) : (s.setPhase k c p).capBaseHigh = s.capBaseHigh := rfl
@[simp] theorem State.setPhase_capRange (s : State) (k : Nat) (c : Command) (p : Phase) : (s.setPhase k c p).capRange = s.capRange := rfl
@[simp] theorem State.setPhase_capMisc (s : State) (k : Nat) (c : Command) (p : Phase) : (s.setPhase k c p).capMisc = s.capMisc := rfl
@[simp] theorem State.setPhase_rangeStrap (s : State) (k : Nat) (c : Command) (p : Phase) : (s.setPhase k c p).rangeStrap = s.rangeStrap := rfl
@[simp] theorem State.setPhase_devTabBase (s : State) (k : Nat) (c : Command) (p : Phase) : (s.setPhase k c p).devTabBase = s.devTabBase := rfl
@[simp] theorem State.setPhase_cmdBase (s : State) (k : Nat) (c : Command) (p : Phase) : (s.setPhase k c p).cmdBase = s.cmdBase := rfl
@[simp] theorem State.setPhase_evtBase (s : State) (k : Nat) (c : Command) (p : Phase) : (s.setPhase k c p).evtBase = s.evtBase := rfl
@[simp] theorem State.setPhase_control (s : State) (k : Nat) (c : Command) (p : Phase) : (s.setPhase k c p).control = s.control := rfl
@[simp] theorem State.setPhase_exclBase (s : State) (k : Nat) (c : Command) (p : Phase) : (s.setPhase k c p).exclBase = s.exclBase := rfl
@[simp] theorem State.setPhase_exclLimit (s : State) (k : Nat) (c : Command) (p : Phase) : (s.setPhase k c p).exclLimit = s.exclLimit := rfl
@[simp] theorem State.setPhase_cmdHead (s : State) (k : Nat) (c : Command) (p : Phase) : (s.setPhase k c p).cmdHead = s.cmdHead := rfl
@[simp] theorem State.setPhase_cmdTail (s : State) (k : Nat) (c : Command) (p : Phase) : (s.setPhase k c p).cmdTail = s.cmdTail := rfl
@[simp] theorem State.setPhase_evtHead (s : State) (k : Nat) (c : Command) (p : Phase) : (s.setPhase k c p).evtHead = s.evtHead := rfl
@[simp] theorem State.setPhase_evtTail (s : State) (k : Nat) (c : Command) (p : Phase) : (s.setPhase k c p).evtTail = s.evtTail := rfl
@[simp] theorem State.setPhase_status (s : State) (k : Nat) (c : Command) (p : Phase) : (s.setPhase k c p).status = s.status := rfl
@[simp] theorem State.setPhase_halted (s : State) (k : Nat) (c : Command) (p : Phase) : (s.setPhase k c p).halted = s.halted := rfl
@[simp] theorem State.setPhase_evtHalted (s : State) (k : Nat) (c : Command) (p : Phase) : (s.setPhase k c p).evtHalted = s.evtHalted := rfl
@[simp] theorem State.setPhase_dteCache (s : State) (k : Nat) (c : Command) (p : Phase) : (s.setPhase k c p).dteCache = s.dteCache := rfl
@[simp] theorem State.setPhase_tlb (s : State) (k : Nat) (c : Command) (p : Phase) : (s.setPhase k c p).tlb = s.tlb := rfl
@[simp] theorem State.setPhase_pdc (s : State) (k : Nat) (c : Command) (p : Phase) : (s.setPhase k c p).pdc = s.pdc := rfl
@[simp] theorem State.setPhase_irtCache (s : State) (k : Nat) (c : Command) (p : Phase) : (s.setPhase k c p).irtCache = s.irtCache := rfl
@[simp] theorem State.setPhase_faultLogged (s : State) (k : Nat) (c : Command) (p : Phase) : (s.setPhase k c p).faultLogged = s.faultLogged := rfl
@[simp] theorem State.setPhase_prefetched (s : State) (k : Nat) (c : Command) (p : Phase) : (s.setPhase k c p).prefetched = s.prefetched := rfl
@[simp] theorem State.setPhase_fetched (s : State) (k : Nat) (c : Command) (p : Phase) : (s.setPhase k c p).fetched = s.fetched.set k { c with phase := p } := rfl
@[simp] theorem State.setPhase_outstanding (s : State) (k : Nat) (c : Command) (p : Phase) : (s.setPhase k c p).outstanding = s.outstanding := rfl
@[simp] theorem State.setPhase_inFlight (s : State) (k : Nat) (c : Command) (p : Phase) : (s.setPhase k c p).inFlight = s.inFlight := rfl
@[simp] theorem State.setPhase_upReads (s : State) (k : Nat) (c : Command) (p : Phase) : (s.setPhase k c p).upReads = s.upReads := rfl
@[simp] theorem State.setPhase_upWrites (s : State) (k : Nat) (c : Command) (p : Phase) : (s.setPhase k c p).upWrites = s.upWrites := rfl
@[simp] theorem State.setPhase_pendingEvents (s : State) (k : Nat) (c : Command) (p : Phase) : (s.setPhase k c p).pendingEvents = s.pendingEvents := rfl
@[simp] theorem State.setPhase_intDue (s : State) (k : Nat) (c : Command) (p : Phase) : (s.setPhase k c p).intDue = s.intDue := rfl
@[simp] theorem State.setPhase_mem (s : State) (k : Nat) (c : Command) (p : Phase) : (s.setPhase k c p).mem = s.mem := rfl
@[simp] theorem State.setPhase_dram (s : State) (k : Nat) (c : Command) (p : Phase) : (s.setPhase k c p).dram = s.dram := rfl
@[simp] theorem State.setPhase_holes (s : State) (k : Nat) (c : Command) (p : Phase) : (s.setPhase k c p).holes = s.holes := rfl
@[simp] theorem State.setPhase_agenda (s : State) (k : Nat) (c : Command) (p : Phase) : (s.setPhase k c p).agenda = s.agenda := rfl
@[simp] theorem State.setPhase_outputs (s : State) (k : Nat) (c : Command) (p : Phase) : (s.setPhase k c p).outputs = s.outputs := rfl
@[simp] theorem State.setPhase_draws (s : State) (k : Nat) (c : Command) (p : Phase) : (s.setPhase k c p).draws = s.draws := rfl
@[simp] theorem State.setPhase_nextId (s : State) (k : Nat) (c : Command) (p : Phase) : (s.setPhase k c p).nextId = s.nextId := rfl

@[simp] theorem State.endRequest_capHeader (s : State) (k : Nat) (r : IotlbRequest) : (s.endRequest k r).capHeader = s.capHeader := rfl
@[simp] theorem State.endRequest_capBaseLow (s : State) (k : Nat) (r : IotlbRequest) : (s.endRequest k r).capBaseLow = s.capBaseLow := rfl
@[simp] theorem State.endRequest_capBaseHigh (s : State) (k : Nat) (r : IotlbRequest) : (s.endRequest k r).capBaseHigh = s.capBaseHigh := rfl
@[simp] theorem State.endRequest_capRange (s : State) (k : Nat) (r : IotlbRequest) : (s.endRequest k r).capRange = s.capRange := rfl
@[simp] theorem State.endRequest_capMisc (s : State) (k : Nat) (r : IotlbRequest) : (s.endRequest k r).capMisc = s.capMisc := rfl
@[simp] theorem State.endRequest_rangeStrap (s : State) (k : Nat) (r : IotlbRequest) : (s.endRequest k r).rangeStrap = s.rangeStrap := rfl
@[simp] theorem State.endRequest_devTabBase (s : State) (k : Nat) (r : IotlbRequest) : (s.endRequest k r).devTabBase = s.devTabBase := rfl
@[simp] theorem State.endRequest_cmdBase (s : State) (k : Nat) (r : IotlbRequest) : (s.endRequest k r).cmdBase = s.cmdBase := rfl
@[simp] theorem State.endRequest_evtBase (s : State) (k : Nat) (r : IotlbRequest) : (s.endRequest k r).evtBase = s.evtBase := rfl
@[simp] theorem State.endRequest_control (s : State) (k : Nat) (r : IotlbRequest) : (s.endRequest k r).control = s.control := rfl
@[simp] theorem State.endRequest_exclBase (s : State) (k : Nat) (r : IotlbRequest) : (s.endRequest k r).exclBase = s.exclBase := rfl
@[simp] theorem State.endRequest_exclLimit (s : State) (k : Nat) (r : IotlbRequest) : (s.endRequest k r).exclLimit = s.exclLimit := rfl
@[simp] theorem State.endRequest_cmdHead (s : State) (k : Nat) (r : IotlbRequest) : (s.endRequest k r).cmdHead = s.cmdHead := rfl
@[simp] theorem State.endRequest_cmdTail (s : State) (k : Nat) (r : IotlbRequest) : (s.endRequest k r).cmdTail = s.cmdTail := rfl
@[simp] theorem State.endRequest_evtHead (s : State) (k : Nat) (r : IotlbRequest) : (s.endRequest k r).evtHead = s.evtHead := rfl
@[simp] theorem State.endRequest_evtTail (s : State) (k : Nat) (r : IotlbRequest) : (s.endRequest k r).evtTail = s.evtTail := rfl
@[simp] theorem State.endRequest_status (s : State) (k : Nat) (r : IotlbRequest) : (s.endRequest k r).status = s.status := rfl
@[simp] theorem State.endRequest_halted (s : State) (k : Nat) (r : IotlbRequest) : (s.endRequest k r).halted = s.halted := rfl
@[simp] theorem State.endRequest_evtHalted (s : State) (k : Nat) (r : IotlbRequest) : (s.endRequest k r).evtHalted = s.evtHalted := rfl
@[simp] theorem State.endRequest_dteCache (s : State) (k : Nat) (r : IotlbRequest) : (s.endRequest k r).dteCache = s.dteCache := rfl
@[simp] theorem State.endRequest_tlb (s : State) (k : Nat) (r : IotlbRequest) : (s.endRequest k r).tlb = s.tlb := rfl
@[simp] theorem State.endRequest_pdc (s : State) (k : Nat) (r : IotlbRequest) : (s.endRequest k r).pdc = s.pdc := rfl
@[simp] theorem State.endRequest_irtCache (s : State) (k : Nat) (r : IotlbRequest) : (s.endRequest k r).irtCache = s.irtCache := rfl
@[simp] theorem State.endRequest_faultLogged (s : State) (k : Nat) (r : IotlbRequest) : (s.endRequest k r).faultLogged = s.faultLogged := rfl
@[simp] theorem State.endRequest_prefetched (s : State) (k : Nat) (r : IotlbRequest) : (s.endRequest k r).prefetched = s.prefetched := rfl
@[simp] theorem State.endRequest_fetched (s : State) (k : Nat) (r : IotlbRequest) : (s.endRequest k r).fetched = s.fetched.map (Command.answered r.id (s.matchIotlb r.dev r.range)) := rfl
@[simp] theorem State.endRequest_outstanding (s : State) (k : Nat) (r : IotlbRequest) : (s.endRequest k r).outstanding = s.outstanding.eraseIdx k := rfl
@[simp] theorem State.endRequest_inFlight (s : State) (k : Nat) (r : IotlbRequest) : (s.endRequest k r).inFlight = s.inFlight := rfl
@[simp] theorem State.endRequest_upReads (s : State) (k : Nat) (r : IotlbRequest) : (s.endRequest k r).upReads = s.upReads := rfl
@[simp] theorem State.endRequest_upWrites (s : State) (k : Nat) (r : IotlbRequest) : (s.endRequest k r).upWrites = s.upWrites := rfl
@[simp] theorem State.endRequest_pendingEvents (s : State) (k : Nat) (r : IotlbRequest) : (s.endRequest k r).pendingEvents = s.pendingEvents := rfl
@[simp] theorem State.endRequest_intDue (s : State) (k : Nat) (r : IotlbRequest) : (s.endRequest k r).intDue = s.intDue := rfl
@[simp] theorem State.endRequest_mem (s : State) (k : Nat) (r : IotlbRequest) : (s.endRequest k r).mem = s.mem := rfl
@[simp] theorem State.endRequest_dram (s : State) (k : Nat) (r : IotlbRequest) : (s.endRequest k r).dram = s.dram := rfl
@[simp] theorem State.endRequest_holes (s : State) (k : Nat) (r : IotlbRequest) : (s.endRequest k r).holes = s.holes := rfl
@[simp] theorem State.endRequest_agenda (s : State) (k : Nat) (r : IotlbRequest) : (s.endRequest k r).agenda = s.agenda := rfl
@[simp] theorem State.endRequest_outputs (s : State) (k : Nat) (r : IotlbRequest) : (s.endRequest k r).outputs = s.outputs := rfl
@[simp] theorem State.endRequest_draws (s : State) (k : Nat) (r : IotlbRequest) : (s.endRequest k r).draws = s.draws := rfl
@[simp] theorem State.endRequest_nextId (s : State) (k : Nat) (r : IotlbRequest) : (s.endRequest k r).nextId = s.nextId := rfl

@[simp] theorem State.expireRequest_capHeader (s : State) (k : Nat) (r : IotlbRequest) : (s.expireRequest k r).capHeader = s.capHeader := rfl
@[simp] theorem State.expireRequest_capBaseLow (s : State) (k : Nat) (r : IotlbRequest) : (s.expireRequest k r).capBaseLow = s.capBaseLow := rfl
@[simp] theorem State.expireRequest_capBaseHigh (s : State) (k : Nat) (r : IotlbRequest) : (s.expireRequest k r).capBaseHigh = s.capBaseHigh := rfl
@[simp] theorem State.expireRequest_capRange (s : State) (k : Nat) (r : IotlbRequest) : (s.expireRequest k r).capRange = s.capRange := rfl
@[simp] theorem State.expireRequest_capMisc (s : State) (k : Nat) (r : IotlbRequest) : (s.expireRequest k r).capMisc = s.capMisc := rfl
@[simp] theorem State.expireRequest_rangeStrap (s : State) (k : Nat) (r : IotlbRequest) : (s.expireRequest k r).rangeStrap = s.rangeStrap := rfl
@[simp] theorem State.expireRequest_devTabBase (s : State) (k : Nat) (r : IotlbRequest) : (s.expireRequest k r).devTabBase = s.devTabBase := rfl
@[simp] theorem State.expireRequest_cmdBase (s : State) (k : Nat) (r : IotlbRequest) : (s.expireRequest k r).cmdBase = s.cmdBase := rfl
@[simp] theorem State.expireRequest_evtBase (s : State) (k : Nat) (r : IotlbRequest) : (s.expireRequest k r).evtBase = s.evtBase := rfl
@[simp] theorem State.expireRequest_control (s : State) (k : Nat) (r : IotlbRequest) : (s.expireRequest k r).control = s.control := rfl
@[simp] theorem State.expireRequest_exclBase (s : State) (k : Nat) (r : IotlbRequest) : (s.expireRequest k r).exclBase = s.exclBase := rfl
@[simp] theorem State.expireRequest_exclLimit (s : State) (k : Nat) (r : IotlbRequest) : (s.expireRequest k r).exclLimit = s.exclLimit := rfl
@[simp] theorem State.expireRequest_cmdHead (s : State) (k : Nat) (r : IotlbRequest) : (s.expireRequest k r).cmdHead = s.cmdHead := rfl
@[simp] theorem State.expireRequest_cmdTail (s : State) (k : Nat) (r : IotlbRequest) : (s.expireRequest k r).cmdTail = s.cmdTail := rfl
@[simp] theorem State.expireRequest_evtHead (s : State) (k : Nat) (r : IotlbRequest) : (s.expireRequest k r).evtHead = s.evtHead := rfl
@[simp] theorem State.expireRequest_evtTail (s : State) (k : Nat) (r : IotlbRequest) : (s.expireRequest k r).evtTail = s.evtTail := rfl
@[simp] theorem State.expireRequest_status (s : State) (k : Nat) (r : IotlbRequest) : (s.expireRequest k r).status = s.status := rfl
@[simp] theorem State.expireRequest_halted (s : State) (k : Nat) (r : IotlbRequest) : (s.expireRequest k r).halted = s.halted := rfl
@[simp] theorem State.expireRequest_evtHalted (s : State) (k : Nat) (r : IotlbRequest) : (s.expireRequest k r).evtHalted = s.evtHalted := rfl
@[simp] theorem State.expireRequest_dteCache (s : State) (k : Nat) (r : IotlbRequest) : (s.expireRequest k r).dteCache = s.dteCache := rfl
@[simp] theorem State.expireRequest_tlb (s : State) (k : Nat) (r : IotlbRequest) : (s.expireRequest k r).tlb = s.tlb := rfl
@[simp] theorem State.expireRequest_pdc (s : State) (k : Nat) (r : IotlbRequest) : (s.expireRequest k r).pdc = s.pdc := rfl
@[simp] theorem State.expireRequest_irtCache (s : State) (k : Nat) (r : IotlbRequest) : (s.expireRequest k r).irtCache = s.irtCache := rfl
@[simp] theorem State.expireRequest_faultLogged (s : State) (k : Nat) (r : IotlbRequest) : (s.expireRequest k r).faultLogged = s.faultLogged := rfl
@[simp] theorem State.expireRequest_prefetched (s : State) (k : Nat) (r : IotlbRequest) : (s.expireRequest k r).prefetched = s.prefetched := rfl
@[simp] theorem State.expireRequest_fetched (s : State) (k : Nat) (r : IotlbRequest) : (s.expireRequest k r).fetched = s.fetched.filter fun c => !(c.waitsFor r.id) := rfl
@[simp] theorem State.expireRequest_outstanding (s : State) (k : Nat) (r : IotlbRequest) : (s.expireRequest k r).outstanding = s.outstanding.eraseIdx k := rfl
@[simp] theorem State.expireRequest_inFlight (s : State) (k : Nat) (r : IotlbRequest) : (s.expireRequest k r).inFlight = s.inFlight := rfl
@[simp] theorem State.expireRequest_upReads (s : State) (k : Nat) (r : IotlbRequest) : (s.expireRequest k r).upReads = s.upReads := rfl
@[simp] theorem State.expireRequest_upWrites (s : State) (k : Nat) (r : IotlbRequest) : (s.expireRequest k r).upWrites = s.upWrites := rfl
@[simp] theorem State.expireRequest_pendingEvents (s : State) (k : Nat) (r : IotlbRequest) : (s.expireRequest k r).pendingEvents = s.pendingEvents := rfl
@[simp] theorem State.expireRequest_intDue (s : State) (k : Nat) (r : IotlbRequest) : (s.expireRequest k r).intDue = s.intDue := rfl
@[simp] theorem State.expireRequest_mem (s : State) (k : Nat) (r : IotlbRequest) : (s.expireRequest k r).mem = s.mem := rfl
@[simp] theorem State.expireRequest_dram (s : State) (k : Nat) (r : IotlbRequest) : (s.expireRequest k r).dram = s.dram := rfl
@[simp] theorem State.expireRequest_holes (s : State) (k : Nat) (r : IotlbRequest) : (s.expireRequest k r).holes = s.holes := rfl
@[simp] theorem State.expireRequest_agenda (s : State) (k : Nat) (r : IotlbRequest) : (s.expireRequest k r).agenda = s.agenda := rfl
@[simp] theorem State.expireRequest_outputs (s : State) (k : Nat) (r : IotlbRequest) : (s.expireRequest k r).outputs = s.outputs := rfl
@[simp] theorem State.expireRequest_draws (s : State) (k : Nat) (r : IotlbRequest) : (s.expireRequest k r).draws = s.draws := rfl
@[simp] theorem State.expireRequest_nextId (s : State) (k : Nat) (r : IotlbRequest) : (s.expireRequest k r).nextId = s.nextId := rfl

@[simp] theorem State.dropEvent_capHeader (s : State) (k : Nat) : (s.dropEvent k).capHeader = s.capHeader := rfl
@[simp] theorem State.dropEvent_capBaseLow (s : State) (k : Nat) : (s.dropEvent k).capBaseLow = s.capBaseLow := rfl
@[simp] theorem State.dropEvent_capBaseHigh (s : State) (k : Nat) : (s.dropEvent k).capBaseHigh = s.capBaseHigh := rfl
@[simp] theorem State.dropEvent_capRange (s : State) (k : Nat) : (s.dropEvent k).capRange = s.capRange := rfl
@[simp] theorem State.dropEvent_capMisc (s : State) (k : Nat) : (s.dropEvent k).capMisc = s.capMisc := rfl
@[simp] theorem State.dropEvent_rangeStrap (s : State) (k : Nat) : (s.dropEvent k).rangeStrap = s.rangeStrap := rfl
@[simp] theorem State.dropEvent_devTabBase (s : State) (k : Nat) : (s.dropEvent k).devTabBase = s.devTabBase := rfl
@[simp] theorem State.dropEvent_cmdBase (s : State) (k : Nat) : (s.dropEvent k).cmdBase = s.cmdBase := rfl
@[simp] theorem State.dropEvent_evtBase (s : State) (k : Nat) : (s.dropEvent k).evtBase = s.evtBase := rfl
@[simp] theorem State.dropEvent_control (s : State) (k : Nat) : (s.dropEvent k).control = s.control := rfl
@[simp] theorem State.dropEvent_exclBase (s : State) (k : Nat) : (s.dropEvent k).exclBase = s.exclBase := rfl
@[simp] theorem State.dropEvent_exclLimit (s : State) (k : Nat) : (s.dropEvent k).exclLimit = s.exclLimit := rfl
@[simp] theorem State.dropEvent_cmdHead (s : State) (k : Nat) : (s.dropEvent k).cmdHead = s.cmdHead := rfl
@[simp] theorem State.dropEvent_cmdTail (s : State) (k : Nat) : (s.dropEvent k).cmdTail = s.cmdTail := rfl
@[simp] theorem State.dropEvent_evtHead (s : State) (k : Nat) : (s.dropEvent k).evtHead = s.evtHead := rfl
@[simp] theorem State.dropEvent_evtTail (s : State) (k : Nat) : (s.dropEvent k).evtTail = s.evtTail := rfl
@[simp] theorem State.dropEvent_status (s : State) (k : Nat) : (s.dropEvent k).status = s.status := rfl
@[simp] theorem State.dropEvent_halted (s : State) (k : Nat) : (s.dropEvent k).halted = s.halted := rfl
@[simp] theorem State.dropEvent_evtHalted (s : State) (k : Nat) : (s.dropEvent k).evtHalted = s.evtHalted := rfl
@[simp] theorem State.dropEvent_dteCache (s : State) (k : Nat) : (s.dropEvent k).dteCache = s.dteCache := rfl
@[simp] theorem State.dropEvent_tlb (s : State) (k : Nat) : (s.dropEvent k).tlb = s.tlb := rfl
@[simp] theorem State.dropEvent_pdc (s : State) (k : Nat) : (s.dropEvent k).pdc = s.pdc := rfl
@[simp] theorem State.dropEvent_irtCache (s : State) (k : Nat) : (s.dropEvent k).irtCache = s.irtCache := rfl
@[simp] theorem State.dropEvent_faultLogged (s : State) (k : Nat) : (s.dropEvent k).faultLogged = s.faultLogged := rfl
@[simp] theorem State.dropEvent_prefetched (s : State) (k : Nat) : (s.dropEvent k).prefetched = s.prefetched := rfl
@[simp] theorem State.dropEvent_fetched (s : State) (k : Nat) : (s.dropEvent k).fetched = s.fetched := rfl
@[simp] theorem State.dropEvent_outstanding (s : State) (k : Nat) : (s.dropEvent k).outstanding = s.outstanding := rfl
@[simp] theorem State.dropEvent_inFlight (s : State) (k : Nat) : (s.dropEvent k).inFlight = s.inFlight := rfl
@[simp] theorem State.dropEvent_upReads (s : State) (k : Nat) : (s.dropEvent k).upReads = s.upReads := rfl
@[simp] theorem State.dropEvent_upWrites (s : State) (k : Nat) : (s.dropEvent k).upWrites = s.upWrites := rfl
@[simp] theorem State.dropEvent_pendingEvents (s : State) (k : Nat) : (s.dropEvent k).pendingEvents = s.pendingEvents.eraseIdx k := rfl
@[simp] theorem State.dropEvent_intDue (s : State) (k : Nat) : (s.dropEvent k).intDue = s.intDue := rfl
@[simp] theorem State.dropEvent_mem (s : State) (k : Nat) : (s.dropEvent k).mem = s.mem := rfl
@[simp] theorem State.dropEvent_dram (s : State) (k : Nat) : (s.dropEvent k).dram = s.dram := rfl
@[simp] theorem State.dropEvent_holes (s : State) (k : Nat) : (s.dropEvent k).holes = s.holes := rfl
@[simp] theorem State.dropEvent_agenda (s : State) (k : Nat) : (s.dropEvent k).agenda = s.agenda := rfl
@[simp] theorem State.dropEvent_outputs (s : State) (k : Nat) : (s.dropEvent k).outputs = s.outputs := rfl
@[simp] theorem State.dropEvent_draws (s : State) (k : Nat) : (s.dropEvent k).draws = s.draws := rfl
@[simp] theorem State.dropEvent_nextId (s : State) (k : Nat) : (s.dropEvent k).nextId = s.nextId := rfl

@[simp] theorem State.dropUpWrite_capHeader (s : State) (k : Nat) : (s.dropUpWrite k).capHeader = s.capHeader := rfl
@[simp] theorem State.dropUpWrite_capBaseLow (s : State) (k : Nat) : (s.dropUpWrite k).capBaseLow = s.capBaseLow := rfl
@[simp] theorem State.dropUpWrite_capBaseHigh (s : State) (k : Nat) : (s.dropUpWrite k).capBaseHigh = s.capBaseHigh := rfl
@[simp] theorem State.dropUpWrite_capRange (s : State) (k : Nat) : (s.dropUpWrite k).capRange = s.capRange := rfl
@[simp] theorem State.dropUpWrite_capMisc (s : State) (k : Nat) : (s.dropUpWrite k).capMisc = s.capMisc := rfl
@[simp] theorem State.dropUpWrite_rangeStrap (s : State) (k : Nat) : (s.dropUpWrite k).rangeStrap = s.rangeStrap := rfl
@[simp] theorem State.dropUpWrite_devTabBase (s : State) (k : Nat) : (s.dropUpWrite k).devTabBase = s.devTabBase := rfl
@[simp] theorem State.dropUpWrite_cmdBase (s : State) (k : Nat) : (s.dropUpWrite k).cmdBase = s.cmdBase := rfl
@[simp] theorem State.dropUpWrite_evtBase (s : State) (k : Nat) : (s.dropUpWrite k).evtBase = s.evtBase := rfl
@[simp] theorem State.dropUpWrite_control (s : State) (k : Nat) : (s.dropUpWrite k).control = s.control := rfl
@[simp] theorem State.dropUpWrite_exclBase (s : State) (k : Nat) : (s.dropUpWrite k).exclBase = s.exclBase := rfl
@[simp] theorem State.dropUpWrite_exclLimit (s : State) (k : Nat) : (s.dropUpWrite k).exclLimit = s.exclLimit := rfl
@[simp] theorem State.dropUpWrite_cmdHead (s : State) (k : Nat) : (s.dropUpWrite k).cmdHead = s.cmdHead := rfl
@[simp] theorem State.dropUpWrite_cmdTail (s : State) (k : Nat) : (s.dropUpWrite k).cmdTail = s.cmdTail := rfl
@[simp] theorem State.dropUpWrite_evtHead (s : State) (k : Nat) : (s.dropUpWrite k).evtHead = s.evtHead := rfl
@[simp] theorem State.dropUpWrite_evtTail (s : State) (k : Nat) : (s.dropUpWrite k).evtTail = s.evtTail := rfl
@[simp] theorem State.dropUpWrite_status (s : State) (k : Nat) : (s.dropUpWrite k).status = s.status := rfl
@[simp] theorem State.dropUpWrite_halted (s : State) (k : Nat) : (s.dropUpWrite k).halted = s.halted := rfl
@[simp] theorem State.dropUpWrite_evtHalted (s : State) (k : Nat) : (s.dropUpWrite k).evtHalted = s.evtHalted := rfl
@[simp] theorem State.dropUpWrite_dteCache (s : State) (k : Nat) : (s.dropUpWrite k).dteCache = s.dteCache := rfl
@[simp] theorem State.dropUpWrite_tlb (s : State) (k : Nat) : (s.dropUpWrite k).tlb = s.tlb := rfl
@[simp] theorem State.dropUpWrite_pdc (s : State) (k : Nat) : (s.dropUpWrite k).pdc = s.pdc := rfl
@[simp] theorem State.dropUpWrite_irtCache (s : State) (k : Nat) : (s.dropUpWrite k).irtCache = s.irtCache := rfl
@[simp] theorem State.dropUpWrite_faultLogged (s : State) (k : Nat) : (s.dropUpWrite k).faultLogged = s.faultLogged := rfl
@[simp] theorem State.dropUpWrite_prefetched (s : State) (k : Nat) : (s.dropUpWrite k).prefetched = s.prefetched := rfl
@[simp] theorem State.dropUpWrite_fetched (s : State) (k : Nat) : (s.dropUpWrite k).fetched = s.fetched := rfl
@[simp] theorem State.dropUpWrite_outstanding (s : State) (k : Nat) : (s.dropUpWrite k).outstanding = s.outstanding := rfl
@[simp] theorem State.dropUpWrite_inFlight (s : State) (k : Nat) : (s.dropUpWrite k).inFlight = s.inFlight := rfl
@[simp] theorem State.dropUpWrite_upReads (s : State) (k : Nat) : (s.dropUpWrite k).upReads = s.upReads := rfl
@[simp] theorem State.dropUpWrite_upWrites (s : State) (k : Nat) : (s.dropUpWrite k).upWrites = s.upWrites.eraseIdx k := rfl
@[simp] theorem State.dropUpWrite_pendingEvents (s : State) (k : Nat) : (s.dropUpWrite k).pendingEvents = s.pendingEvents := rfl
@[simp] theorem State.dropUpWrite_intDue (s : State) (k : Nat) : (s.dropUpWrite k).intDue = s.intDue := rfl
@[simp] theorem State.dropUpWrite_mem (s : State) (k : Nat) : (s.dropUpWrite k).mem = s.mem := rfl
@[simp] theorem State.dropUpWrite_dram (s : State) (k : Nat) : (s.dropUpWrite k).dram = s.dram := rfl
@[simp] theorem State.dropUpWrite_holes (s : State) (k : Nat) : (s.dropUpWrite k).holes = s.holes := rfl
@[simp] theorem State.dropUpWrite_agenda (s : State) (k : Nat) : (s.dropUpWrite k).agenda = s.agenda := rfl
@[simp] theorem State.dropUpWrite_outputs (s : State) (k : Nat) : (s.dropUpWrite k).outputs = s.outputs := rfl
@[simp] theorem State.dropUpWrite_draws (s : State) (k : Nat) : (s.dropUpWrite k).draws = s.draws := rfl
@[simp] theorem State.dropUpWrite_nextId (s : State) (k : Nat) : (s.dropUpWrite k).nextId = s.nextId := rfl

@[simp] theorem State.dropUpRead_capHeader (s : State) (k : Nat) : (s.dropUpRead k).capHeader = s.capHeader := rfl
@[simp] theorem State.dropUpRead_capBaseLow (s : State) (k : Nat) : (s.dropUpRead k).capBaseLow = s.capBaseLow := rfl
@[simp] theorem State.dropUpRead_capBaseHigh (s : State) (k : Nat) : (s.dropUpRead k).capBaseHigh = s.capBaseHigh := rfl
@[simp] theorem State.dropUpRead_capRange (s : State) (k : Nat) : (s.dropUpRead k).capRange = s.capRange := rfl
@[simp] theorem State.dropUpRead_capMisc (s : State) (k : Nat) : (s.dropUpRead k).capMisc = s.capMisc := rfl
@[simp] theorem State.dropUpRead_rangeStrap (s : State) (k : Nat) : (s.dropUpRead k).rangeStrap = s.rangeStrap := rfl
@[simp] theorem State.dropUpRead_devTabBase (s : State) (k : Nat) : (s.dropUpRead k).devTabBase = s.devTabBase := rfl
@[simp] theorem State.dropUpRead_cmdBase (s : State) (k : Nat) : (s.dropUpRead k).cmdBase = s.cmdBase := rfl
@[simp] theorem State.dropUpRead_evtBase (s : State) (k : Nat) : (s.dropUpRead k).evtBase = s.evtBase := rfl
@[simp] theorem State.dropUpRead_control (s : State) (k : Nat) : (s.dropUpRead k).control = s.control := rfl
@[simp] theorem State.dropUpRead_exclBase (s : State) (k : Nat) : (s.dropUpRead k).exclBase = s.exclBase := rfl
@[simp] theorem State.dropUpRead_exclLimit (s : State) (k : Nat) : (s.dropUpRead k).exclLimit = s.exclLimit := rfl
@[simp] theorem State.dropUpRead_cmdHead (s : State) (k : Nat) : (s.dropUpRead k).cmdHead = s.cmdHead := rfl
@[simp] theorem State.dropUpRead_cmdTail (s : State) (k : Nat) : (s.dropUpRead k).cmdTail = s.cmdTail := rfl
@[simp] theorem State.dropUpRead_evtHead (s : State) (k : Nat) : (s.dropUpRead k).evtHead = s.evtHead := rfl
@[simp] theorem State.dropUpRead_evtTail (s : State) (k : Nat) : (s.dropUpRead k).evtTail = s.evtTail := rfl
@[simp] theorem State.dropUpRead_status (s : State) (k : Nat) : (s.dropUpRead k).status = s.status := rfl
@[simp] theorem State.dropUpRead_halted (s : State) (k : Nat) : (s.dropUpRead k).halted = s.halted := rfl
@[simp] theorem State.dropUpRead_evtHalted (s : State) (k : Nat) : (s.dropUpRead k).evtHalted = s.evtHalted := rfl
@[simp] theorem State.dropUpRead_dteCache (s : State) (k : Nat) : (s.dropUpRead k).dteCache = s.dteCache := rfl
@[simp] theorem State.dropUpRead_tlb (s : State) (k : Nat) : (s.dropUpRead k).tlb = s.tlb := rfl
@[simp] theorem State.dropUpRead_pdc (s : State) (k : Nat) : (s.dropUpRead k).pdc = s.pdc := rfl
@[simp] theorem State.dropUpRead_irtCache (s : State) (k : Nat) : (s.dropUpRead k).irtCache = s.irtCache := rfl
@[simp] theorem State.dropUpRead_faultLogged (s : State) (k : Nat) : (s.dropUpRead k).faultLogged = s.faultLogged := rfl
@[simp] theorem State.dropUpRead_prefetched (s : State) (k : Nat) : (s.dropUpRead k).prefetched = s.prefetched := rfl
@[simp] theorem State.dropUpRead_fetched (s : State) (k : Nat) : (s.dropUpRead k).fetched = s.fetched := rfl
@[simp] theorem State.dropUpRead_outstanding (s : State) (k : Nat) : (s.dropUpRead k).outstanding = s.outstanding := rfl
@[simp] theorem State.dropUpRead_inFlight (s : State) (k : Nat) : (s.dropUpRead k).inFlight = s.inFlight := rfl
@[simp] theorem State.dropUpRead_upReads (s : State) (k : Nat) : (s.dropUpRead k).upReads = s.upReads.eraseIdx k := rfl
@[simp] theorem State.dropUpRead_upWrites (s : State) (k : Nat) : (s.dropUpRead k).upWrites = s.upWrites := rfl
@[simp] theorem State.dropUpRead_pendingEvents (s : State) (k : Nat) : (s.dropUpRead k).pendingEvents = s.pendingEvents := rfl
@[simp] theorem State.dropUpRead_intDue (s : State) (k : Nat) : (s.dropUpRead k).intDue = s.intDue := rfl
@[simp] theorem State.dropUpRead_mem (s : State) (k : Nat) : (s.dropUpRead k).mem = s.mem := rfl
@[simp] theorem State.dropUpRead_dram (s : State) (k : Nat) : (s.dropUpRead k).dram = s.dram := rfl
@[simp] theorem State.dropUpRead_holes (s : State) (k : Nat) : (s.dropUpRead k).holes = s.holes := rfl
@[simp] theorem State.dropUpRead_agenda (s : State) (k : Nat) : (s.dropUpRead k).agenda = s.agenda := rfl
@[simp] theorem State.dropUpRead_outputs (s : State) (k : Nat) : (s.dropUpRead k).outputs = s.outputs := rfl
@[simp] theorem State.dropUpRead_draws (s : State) (k : Nat) : (s.dropUpRead k).draws = s.draws := rfl
@[simp] theorem State.dropUpRead_nextId (s : State) (k : Nat) : (s.dropUpRead k).nextId = s.nextId := rfl

@[simp] theorem State.setAgenda_capHeader (s : State) (r : List Action) : (s.setAgenda r).capHeader = s.capHeader := rfl
@[simp] theorem State.setAgenda_capBaseLow (s : State) (r : List Action) : (s.setAgenda r).capBaseLow = s.capBaseLow := rfl
@[simp] theorem State.setAgenda_capBaseHigh (s : State) (r : List Action) : (s.setAgenda r).capBaseHigh = s.capBaseHigh := rfl
@[simp] theorem State.setAgenda_capRange (s : State) (r : List Action) : (s.setAgenda r).capRange = s.capRange := rfl
@[simp] theorem State.setAgenda_capMisc (s : State) (r : List Action) : (s.setAgenda r).capMisc = s.capMisc := rfl
@[simp] theorem State.setAgenda_rangeStrap (s : State) (r : List Action) : (s.setAgenda r).rangeStrap = s.rangeStrap := rfl
@[simp] theorem State.setAgenda_devTabBase (s : State) (r : List Action) : (s.setAgenda r).devTabBase = s.devTabBase := rfl
@[simp] theorem State.setAgenda_cmdBase (s : State) (r : List Action) : (s.setAgenda r).cmdBase = s.cmdBase := rfl
@[simp] theorem State.setAgenda_evtBase (s : State) (r : List Action) : (s.setAgenda r).evtBase = s.evtBase := rfl
@[simp] theorem State.setAgenda_control (s : State) (r : List Action) : (s.setAgenda r).control = s.control := rfl
@[simp] theorem State.setAgenda_exclBase (s : State) (r : List Action) : (s.setAgenda r).exclBase = s.exclBase := rfl
@[simp] theorem State.setAgenda_exclLimit (s : State) (r : List Action) : (s.setAgenda r).exclLimit = s.exclLimit := rfl
@[simp] theorem State.setAgenda_cmdHead (s : State) (r : List Action) : (s.setAgenda r).cmdHead = s.cmdHead := rfl
@[simp] theorem State.setAgenda_cmdTail (s : State) (r : List Action) : (s.setAgenda r).cmdTail = s.cmdTail := rfl
@[simp] theorem State.setAgenda_evtHead (s : State) (r : List Action) : (s.setAgenda r).evtHead = s.evtHead := rfl
@[simp] theorem State.setAgenda_evtTail (s : State) (r : List Action) : (s.setAgenda r).evtTail = s.evtTail := rfl
@[simp] theorem State.setAgenda_status (s : State) (r : List Action) : (s.setAgenda r).status = s.status := rfl
@[simp] theorem State.setAgenda_halted (s : State) (r : List Action) : (s.setAgenda r).halted = s.halted := rfl
@[simp] theorem State.setAgenda_evtHalted (s : State) (r : List Action) : (s.setAgenda r).evtHalted = s.evtHalted := rfl
@[simp] theorem State.setAgenda_dteCache (s : State) (r : List Action) : (s.setAgenda r).dteCache = s.dteCache := rfl
@[simp] theorem State.setAgenda_tlb (s : State) (r : List Action) : (s.setAgenda r).tlb = s.tlb := rfl
@[simp] theorem State.setAgenda_pdc (s : State) (r : List Action) : (s.setAgenda r).pdc = s.pdc := rfl
@[simp] theorem State.setAgenda_irtCache (s : State) (r : List Action) : (s.setAgenda r).irtCache = s.irtCache := rfl
@[simp] theorem State.setAgenda_faultLogged (s : State) (r : List Action) : (s.setAgenda r).faultLogged = s.faultLogged := rfl
@[simp] theorem State.setAgenda_prefetched (s : State) (r : List Action) : (s.setAgenda r).prefetched = s.prefetched := rfl
@[simp] theorem State.setAgenda_fetched (s : State) (r : List Action) : (s.setAgenda r).fetched = s.fetched := rfl
@[simp] theorem State.setAgenda_outstanding (s : State) (r : List Action) : (s.setAgenda r).outstanding = s.outstanding := rfl
@[simp] theorem State.setAgenda_inFlight (s : State) (r : List Action) : (s.setAgenda r).inFlight = s.inFlight := rfl
@[simp] theorem State.setAgenda_upReads (s : State) (r : List Action) : (s.setAgenda r).upReads = s.upReads := rfl
@[simp] theorem State.setAgenda_upWrites (s : State) (r : List Action) : (s.setAgenda r).upWrites = s.upWrites := rfl
@[simp] theorem State.setAgenda_pendingEvents (s : State) (r : List Action) : (s.setAgenda r).pendingEvents = s.pendingEvents := rfl
@[simp] theorem State.setAgenda_intDue (s : State) (r : List Action) : (s.setAgenda r).intDue = s.intDue := rfl
@[simp] theorem State.setAgenda_mem (s : State) (r : List Action) : (s.setAgenda r).mem = s.mem := rfl
@[simp] theorem State.setAgenda_dram (s : State) (r : List Action) : (s.setAgenda r).dram = s.dram := rfl
@[simp] theorem State.setAgenda_holes (s : State) (r : List Action) : (s.setAgenda r).holes = s.holes := rfl
@[simp] theorem State.setAgenda_agenda (s : State) (r : List Action) : (s.setAgenda r).agenda = r := rfl
@[simp] theorem State.setAgenda_outputs (s : State) (r : List Action) : (s.setAgenda r).outputs = s.outputs := rfl
@[simp] theorem State.setAgenda_draws (s : State) (r : List Action) : (s.setAgenda r).draws = s.draws := rfl
@[simp] theorem State.setAgenda_nextId (s : State) (r : List Action) : (s.setAgenda r).nextId = s.nextId := rfl

@[simp] theorem State.retire_capHeader (s : State) (t : InFlight) : (s.retire t).capHeader = s.capHeader := rfl
@[simp] theorem State.retire_capBaseLow (s : State) (t : InFlight) : (s.retire t).capBaseLow = s.capBaseLow := rfl
@[simp] theorem State.retire_capBaseHigh (s : State) (t : InFlight) : (s.retire t).capBaseHigh = s.capBaseHigh := rfl
@[simp] theorem State.retire_capRange (s : State) (t : InFlight) : (s.retire t).capRange = s.capRange := rfl
@[simp] theorem State.retire_capMisc (s : State) (t : InFlight) : (s.retire t).capMisc = s.capMisc := rfl
@[simp] theorem State.retire_rangeStrap (s : State) (t : InFlight) : (s.retire t).rangeStrap = s.rangeStrap := rfl
@[simp] theorem State.retire_devTabBase (s : State) (t : InFlight) : (s.retire t).devTabBase = s.devTabBase := rfl
@[simp] theorem State.retire_cmdBase (s : State) (t : InFlight) : (s.retire t).cmdBase = s.cmdBase := rfl
@[simp] theorem State.retire_evtBase (s : State) (t : InFlight) : (s.retire t).evtBase = s.evtBase := rfl
@[simp] theorem State.retire_control (s : State) (t : InFlight) : (s.retire t).control = s.control := rfl
@[simp] theorem State.retire_exclBase (s : State) (t : InFlight) : (s.retire t).exclBase = s.exclBase := rfl
@[simp] theorem State.retire_exclLimit (s : State) (t : InFlight) : (s.retire t).exclLimit = s.exclLimit := rfl
@[simp] theorem State.retire_cmdHead (s : State) (t : InFlight) : (s.retire t).cmdHead = s.cmdHead := rfl
@[simp] theorem State.retire_cmdTail (s : State) (t : InFlight) : (s.retire t).cmdTail = s.cmdTail := rfl
@[simp] theorem State.retire_evtHead (s : State) (t : InFlight) : (s.retire t).evtHead = s.evtHead := rfl
@[simp] theorem State.retire_evtTail (s : State) (t : InFlight) : (s.retire t).evtTail = s.evtTail := rfl
@[simp] theorem State.retire_status (s : State) (t : InFlight) : (s.retire t).status = s.status := rfl
@[simp] theorem State.retire_halted (s : State) (t : InFlight) : (s.retire t).halted = s.halted := rfl
@[simp] theorem State.retire_evtHalted (s : State) (t : InFlight) : (s.retire t).evtHalted = s.evtHalted := rfl
@[simp] theorem State.retire_dteCache (s : State) (t : InFlight) : (s.retire t).dteCache = s.dteCache := rfl
@[simp] theorem State.retire_tlb (s : State) (t : InFlight) : (s.retire t).tlb = s.tlb := rfl
@[simp] theorem State.retire_pdc (s : State) (t : InFlight) : (s.retire t).pdc = s.pdc := rfl
@[simp] theorem State.retire_irtCache (s : State) (t : InFlight) : (s.retire t).irtCache = s.irtCache := rfl
@[simp] theorem State.retire_faultLogged (s : State) (t : InFlight) : (s.retire t).faultLogged = s.faultLogged := rfl
@[simp] theorem State.retire_prefetched (s : State) (t : InFlight) : (s.retire t).prefetched = s.prefetched := rfl
@[simp] theorem State.retire_fetched (s : State) (t : InFlight) : (s.retire t).fetched = s.fetched := rfl
@[simp] theorem State.retire_outstanding (s : State) (t : InFlight) : (s.retire t).outstanding = s.outstanding := rfl
@[simp] theorem State.retire_inFlight (s : State) (t : InFlight) : (s.retire t).inFlight = s.inFlight.filter fun u => decide (u.id ≠ t.id) := rfl
@[simp] theorem State.retire_upReads (s : State) (t : InFlight) : (s.retire t).upReads = s.upReads := rfl
@[simp] theorem State.retire_upWrites (s : State) (t : InFlight) : (s.retire t).upWrites = s.upWrites := rfl
@[simp] theorem State.retire_pendingEvents (s : State) (t : InFlight) : (s.retire t).pendingEvents = s.pendingEvents := rfl
@[simp] theorem State.retire_intDue (s : State) (t : InFlight) : (s.retire t).intDue = s.intDue := rfl
@[simp] theorem State.retire_mem (s : State) (t : InFlight) : (s.retire t).mem = s.mem := rfl
@[simp] theorem State.retire_dram (s : State) (t : InFlight) : (s.retire t).dram = s.dram := rfl
@[simp] theorem State.retire_holes (s : State) (t : InFlight) : (s.retire t).holes = s.holes := rfl
@[simp] theorem State.retire_agenda (s : State) (t : InFlight) : (s.retire t).agenda = s.agenda := rfl
@[simp] theorem State.retire_outputs (s : State) (t : InFlight) : (s.retire t).outputs = s.outputs := rfl
@[simp] theorem State.retire_draws (s : State) (t : InFlight) : (s.retire t).draws = s.draws := rfl
@[simp] theorem State.retire_nextId (s : State) (t : InFlight) : (s.retire t).nextId = s.nextId := rfl

@[simp] theorem State.refuseTx_capHeader (s : State) (t : InFlight) (a : Abort) : (s.refuseTx t a).capHeader = s.capHeader := rfl
@[simp] theorem State.refuseTx_capBaseLow (s : State) (t : InFlight) (a : Abort) : (s.refuseTx t a).capBaseLow = s.capBaseLow := rfl
@[simp] theorem State.refuseTx_capBaseHigh (s : State) (t : InFlight) (a : Abort) : (s.refuseTx t a).capBaseHigh = s.capBaseHigh := rfl
@[simp] theorem State.refuseTx_capRange (s : State) (t : InFlight) (a : Abort) : (s.refuseTx t a).capRange = s.capRange := rfl
@[simp] theorem State.refuseTx_capMisc (s : State) (t : InFlight) (a : Abort) : (s.refuseTx t a).capMisc = s.capMisc := rfl
@[simp] theorem State.refuseTx_rangeStrap (s : State) (t : InFlight) (a : Abort) : (s.refuseTx t a).rangeStrap = s.rangeStrap := rfl
@[simp] theorem State.refuseTx_devTabBase (s : State) (t : InFlight) (a : Abort) : (s.refuseTx t a).devTabBase = s.devTabBase := rfl
@[simp] theorem State.refuseTx_cmdBase (s : State) (t : InFlight) (a : Abort) : (s.refuseTx t a).cmdBase = s.cmdBase := rfl
@[simp] theorem State.refuseTx_evtBase (s : State) (t : InFlight) (a : Abort) : (s.refuseTx t a).evtBase = s.evtBase := rfl
@[simp] theorem State.refuseTx_control (s : State) (t : InFlight) (a : Abort) : (s.refuseTx t a).control = s.control := rfl
@[simp] theorem State.refuseTx_exclBase (s : State) (t : InFlight) (a : Abort) : (s.refuseTx t a).exclBase = s.exclBase := rfl
@[simp] theorem State.refuseTx_exclLimit (s : State) (t : InFlight) (a : Abort) : (s.refuseTx t a).exclLimit = s.exclLimit := rfl
@[simp] theorem State.refuseTx_cmdHead (s : State) (t : InFlight) (a : Abort) : (s.refuseTx t a).cmdHead = s.cmdHead := rfl
@[simp] theorem State.refuseTx_cmdTail (s : State) (t : InFlight) (a : Abort) : (s.refuseTx t a).cmdTail = s.cmdTail := rfl
@[simp] theorem State.refuseTx_evtHead (s : State) (t : InFlight) (a : Abort) : (s.refuseTx t a).evtHead = s.evtHead := rfl
@[simp] theorem State.refuseTx_evtTail (s : State) (t : InFlight) (a : Abort) : (s.refuseTx t a).evtTail = s.evtTail := rfl
@[simp] theorem State.refuseTx_status (s : State) (t : InFlight) (a : Abort) : (s.refuseTx t a).status = s.status := rfl
@[simp] theorem State.refuseTx_halted (s : State) (t : InFlight) (a : Abort) : (s.refuseTx t a).halted = s.halted := rfl
@[simp] theorem State.refuseTx_evtHalted (s : State) (t : InFlight) (a : Abort) : (s.refuseTx t a).evtHalted = s.evtHalted := rfl
@[simp] theorem State.refuseTx_dteCache (s : State) (t : InFlight) (a : Abort) : (s.refuseTx t a).dteCache = s.dteCache := rfl
@[simp] theorem State.refuseTx_tlb (s : State) (t : InFlight) (a : Abort) : (s.refuseTx t a).tlb = s.tlb := rfl
@[simp] theorem State.refuseTx_pdc (s : State) (t : InFlight) (a : Abort) : (s.refuseTx t a).pdc = s.pdc := rfl
@[simp] theorem State.refuseTx_irtCache (s : State) (t : InFlight) (a : Abort) : (s.refuseTx t a).irtCache = s.irtCache := rfl
@[simp] theorem State.refuseTx_faultLogged (s : State) (t : InFlight) (a : Abort) : (s.refuseTx t a).faultLogged = s.faultLogged := rfl
@[simp] theorem State.refuseTx_prefetched (s : State) (t : InFlight) (a : Abort) : (s.refuseTx t a).prefetched = s.prefetched := rfl
@[simp] theorem State.refuseTx_fetched (s : State) (t : InFlight) (a : Abort) : (s.refuseTx t a).fetched = s.fetched := rfl
@[simp] theorem State.refuseTx_outstanding (s : State) (t : InFlight) (a : Abort) : (s.refuseTx t a).outstanding = s.outstanding := rfl
@[simp] theorem State.refuseTx_inFlight (s : State) (t : InFlight) (a : Abort) : (s.refuseTx t a).inFlight = s.inFlight.filter fun u => decide (u.id ≠ t.id) := rfl
@[simp] theorem State.refuseTx_upReads (s : State) (t : InFlight) (a : Abort) : (s.refuseTx t a).upReads = s.upReads := rfl
@[simp] theorem State.refuseTx_upWrites (s : State) (t : InFlight) (a : Abort) : (s.refuseTx t a).upWrites = s.upWrites := rfl
@[simp] theorem State.refuseTx_pendingEvents (s : State) (t : InFlight) (a : Abort) : (s.refuseTx t a).pendingEvents = s.pendingEvents := rfl
@[simp] theorem State.refuseTx_intDue (s : State) (t : InFlight) (a : Abort) : (s.refuseTx t a).intDue = s.intDue := rfl
@[simp] theorem State.refuseTx_mem (s : State) (t : InFlight) (a : Abort) : (s.refuseTx t a).mem = s.mem := rfl
@[simp] theorem State.refuseTx_dram (s : State) (t : InFlight) (a : Abort) : (s.refuseTx t a).dram = s.dram := rfl
@[simp] theorem State.refuseTx_holes (s : State) (t : InFlight) (a : Abort) : (s.refuseTx t a).holes = s.holes := rfl
@[simp] theorem State.refuseTx_agenda (s : State) (t : InFlight) (a : Abort) : (s.refuseTx t a).agenda = s.agenda := rfl
@[simp] theorem State.refuseTx_outputs (s : State) (t : InFlight) (a : Abort) : (s.refuseTx t a).outputs = s.outputs ++ [.aborted t.tx a] := rfl
@[simp] theorem State.refuseTx_draws (s : State) (t : InFlight) (a : Abort) : (s.refuseTx t a).draws = s.draws := rfl
@[simp] theorem State.refuseTx_nextId (s : State) (t : InFlight) (a : Abort) : (s.refuseTx t a).nextId = s.nextId := rfl

@[simp] theorem State.setTx_capHeader (s : State) (t : InFlight) (p : TxPhase) : (s.setTx t p).capHeader = s.capHeader := rfl
@[simp] theorem State.setTx_capBaseLow (s : State) (t : InFlight) (p : TxPhase) : (s.setTx t p).capBaseLow = s.capBaseLow := rfl
@[simp] theorem State.setTx_capBaseHigh (s : State) (t : InFlight) (p : TxPhase) : (s.setTx t p).capBaseHigh = s.capBaseHigh := rfl
@[simp] theorem State.setTx_capRange (s : State) (t : InFlight) (p : TxPhase) : (s.setTx t p).capRange = s.capRange := rfl
@[simp] theorem State.setTx_capMisc (s : State) (t : InFlight) (p : TxPhase) : (s.setTx t p).capMisc = s.capMisc := rfl
@[simp] theorem State.setTx_rangeStrap (s : State) (t : InFlight) (p : TxPhase) : (s.setTx t p).rangeStrap = s.rangeStrap := rfl
@[simp] theorem State.setTx_devTabBase (s : State) (t : InFlight) (p : TxPhase) : (s.setTx t p).devTabBase = s.devTabBase := rfl
@[simp] theorem State.setTx_cmdBase (s : State) (t : InFlight) (p : TxPhase) : (s.setTx t p).cmdBase = s.cmdBase := rfl
@[simp] theorem State.setTx_evtBase (s : State) (t : InFlight) (p : TxPhase) : (s.setTx t p).evtBase = s.evtBase := rfl
@[simp] theorem State.setTx_control (s : State) (t : InFlight) (p : TxPhase) : (s.setTx t p).control = s.control := rfl
@[simp] theorem State.setTx_exclBase (s : State) (t : InFlight) (p : TxPhase) : (s.setTx t p).exclBase = s.exclBase := rfl
@[simp] theorem State.setTx_exclLimit (s : State) (t : InFlight) (p : TxPhase) : (s.setTx t p).exclLimit = s.exclLimit := rfl
@[simp] theorem State.setTx_cmdHead (s : State) (t : InFlight) (p : TxPhase) : (s.setTx t p).cmdHead = s.cmdHead := rfl
@[simp] theorem State.setTx_cmdTail (s : State) (t : InFlight) (p : TxPhase) : (s.setTx t p).cmdTail = s.cmdTail := rfl
@[simp] theorem State.setTx_evtHead (s : State) (t : InFlight) (p : TxPhase) : (s.setTx t p).evtHead = s.evtHead := rfl
@[simp] theorem State.setTx_evtTail (s : State) (t : InFlight) (p : TxPhase) : (s.setTx t p).evtTail = s.evtTail := rfl
@[simp] theorem State.setTx_status (s : State) (t : InFlight) (p : TxPhase) : (s.setTx t p).status = s.status := rfl
@[simp] theorem State.setTx_halted (s : State) (t : InFlight) (p : TxPhase) : (s.setTx t p).halted = s.halted := rfl
@[simp] theorem State.setTx_evtHalted (s : State) (t : InFlight) (p : TxPhase) : (s.setTx t p).evtHalted = s.evtHalted := rfl
@[simp] theorem State.setTx_dteCache (s : State) (t : InFlight) (p : TxPhase) : (s.setTx t p).dteCache = s.dteCache := rfl
@[simp] theorem State.setTx_tlb (s : State) (t : InFlight) (p : TxPhase) : (s.setTx t p).tlb = s.tlb := rfl
@[simp] theorem State.setTx_pdc (s : State) (t : InFlight) (p : TxPhase) : (s.setTx t p).pdc = s.pdc := rfl
@[simp] theorem State.setTx_irtCache (s : State) (t : InFlight) (p : TxPhase) : (s.setTx t p).irtCache = s.irtCache := rfl
@[simp] theorem State.setTx_faultLogged (s : State) (t : InFlight) (p : TxPhase) : (s.setTx t p).faultLogged = s.faultLogged := rfl
@[simp] theorem State.setTx_prefetched (s : State) (t : InFlight) (p : TxPhase) : (s.setTx t p).prefetched = s.prefetched := rfl
@[simp] theorem State.setTx_fetched (s : State) (t : InFlight) (p : TxPhase) : (s.setTx t p).fetched = s.fetched := rfl
@[simp] theorem State.setTx_outstanding (s : State) (t : InFlight) (p : TxPhase) : (s.setTx t p).outstanding = s.outstanding := rfl
@[simp] theorem State.setTx_inFlight (s : State) (t : InFlight) (p : TxPhase) : (s.setTx t p).inFlight = s.inFlight.map fun u => if u.id = t.id then { u with phase := p } else u := rfl
@[simp] theorem State.setTx_upReads (s : State) (t : InFlight) (p : TxPhase) : (s.setTx t p).upReads = s.upReads := rfl
@[simp] theorem State.setTx_upWrites (s : State) (t : InFlight) (p : TxPhase) : (s.setTx t p).upWrites = s.upWrites := rfl
@[simp] theorem State.setTx_pendingEvents (s : State) (t : InFlight) (p : TxPhase) : (s.setTx t p).pendingEvents = s.pendingEvents := rfl
@[simp] theorem State.setTx_intDue (s : State) (t : InFlight) (p : TxPhase) : (s.setTx t p).intDue = s.intDue := rfl
@[simp] theorem State.setTx_mem (s : State) (t : InFlight) (p : TxPhase) : (s.setTx t p).mem = s.mem := rfl
@[simp] theorem State.setTx_dram (s : State) (t : InFlight) (p : TxPhase) : (s.setTx t p).dram = s.dram := rfl
@[simp] theorem State.setTx_holes (s : State) (t : InFlight) (p : TxPhase) : (s.setTx t p).holes = s.holes := rfl
@[simp] theorem State.setTx_agenda (s : State) (t : InFlight) (p : TxPhase) : (s.setTx t p).agenda = s.agenda := rfl
@[simp] theorem State.setTx_outputs (s : State) (t : InFlight) (p : TxPhase) : (s.setTx t p).outputs = s.outputs := rfl
@[simp] theorem State.setTx_draws (s : State) (t : InFlight) (p : TxPhase) : (s.setTx t p).draws = s.draws := rfl
@[simp] theorem State.setTx_nextId (s : State) (t : InFlight) (p : TxPhase) : (s.setTx t p).nextId = s.nextId := rfl

@[simp] theorem State.accept_capHeader (s : State) (x : Transaction) : (s.accept x).capHeader = s.capHeader := rfl
@[simp] theorem State.accept_capBaseLow (s : State) (x : Transaction) : (s.accept x).capBaseLow = s.capBaseLow := rfl
@[simp] theorem State.accept_capBaseHigh (s : State) (x : Transaction) : (s.accept x).capBaseHigh = s.capBaseHigh := rfl
@[simp] theorem State.accept_capRange (s : State) (x : Transaction) : (s.accept x).capRange = s.capRange := rfl
@[simp] theorem State.accept_capMisc (s : State) (x : Transaction) : (s.accept x).capMisc = s.capMisc := rfl
@[simp] theorem State.accept_rangeStrap (s : State) (x : Transaction) : (s.accept x).rangeStrap = s.rangeStrap := rfl
@[simp] theorem State.accept_devTabBase (s : State) (x : Transaction) : (s.accept x).devTabBase = s.devTabBase := rfl
@[simp] theorem State.accept_cmdBase (s : State) (x : Transaction) : (s.accept x).cmdBase = s.cmdBase := rfl
@[simp] theorem State.accept_evtBase (s : State) (x : Transaction) : (s.accept x).evtBase = s.evtBase := rfl
@[simp] theorem State.accept_control (s : State) (x : Transaction) : (s.accept x).control = s.control := rfl
@[simp] theorem State.accept_exclBase (s : State) (x : Transaction) : (s.accept x).exclBase = s.exclBase := rfl
@[simp] theorem State.accept_exclLimit (s : State) (x : Transaction) : (s.accept x).exclLimit = s.exclLimit := rfl
@[simp] theorem State.accept_cmdHead (s : State) (x : Transaction) : (s.accept x).cmdHead = s.cmdHead := rfl
@[simp] theorem State.accept_cmdTail (s : State) (x : Transaction) : (s.accept x).cmdTail = s.cmdTail := rfl
@[simp] theorem State.accept_evtHead (s : State) (x : Transaction) : (s.accept x).evtHead = s.evtHead := rfl
@[simp] theorem State.accept_evtTail (s : State) (x : Transaction) : (s.accept x).evtTail = s.evtTail := rfl
@[simp] theorem State.accept_status (s : State) (x : Transaction) : (s.accept x).status = s.status := rfl
@[simp] theorem State.accept_halted (s : State) (x : Transaction) : (s.accept x).halted = s.halted := rfl
@[simp] theorem State.accept_evtHalted (s : State) (x : Transaction) : (s.accept x).evtHalted = s.evtHalted := rfl
@[simp] theorem State.accept_dteCache (s : State) (x : Transaction) : (s.accept x).dteCache = s.dteCache := rfl
@[simp] theorem State.accept_tlb (s : State) (x : Transaction) : (s.accept x).tlb = s.tlb := rfl
@[simp] theorem State.accept_pdc (s : State) (x : Transaction) : (s.accept x).pdc = s.pdc := rfl
@[simp] theorem State.accept_irtCache (s : State) (x : Transaction) : (s.accept x).irtCache = s.irtCache := rfl
@[simp] theorem State.accept_faultLogged (s : State) (x : Transaction) : (s.accept x).faultLogged = s.faultLogged := rfl
@[simp] theorem State.accept_prefetched (s : State) (x : Transaction) : (s.accept x).prefetched = s.prefetched := rfl
@[simp] theorem State.accept_fetched (s : State) (x : Transaction) : (s.accept x).fetched = s.fetched := rfl
@[simp] theorem State.accept_outstanding (s : State) (x : Transaction) : (s.accept x).outstanding = s.outstanding := rfl
@[simp] theorem State.accept_inFlight (s : State) (x : Transaction) : (s.accept x).inFlight = s.inFlight ++ [⟨s.nextId, x, .needDte, false, false⟩] := rfl
@[simp] theorem State.accept_upReads (s : State) (x : Transaction) : (s.accept x).upReads = s.upReads := rfl
@[simp] theorem State.accept_upWrites (s : State) (x : Transaction) : (s.accept x).upWrites = s.upWrites := rfl
@[simp] theorem State.accept_pendingEvents (s : State) (x : Transaction) : (s.accept x).pendingEvents = s.pendingEvents := rfl
@[simp] theorem State.accept_intDue (s : State) (x : Transaction) : (s.accept x).intDue = s.intDue := rfl
@[simp] theorem State.accept_mem (s : State) (x : Transaction) : (s.accept x).mem = s.mem := rfl
@[simp] theorem State.accept_dram (s : State) (x : Transaction) : (s.accept x).dram = s.dram := rfl
@[simp] theorem State.accept_holes (s : State) (x : Transaction) : (s.accept x).holes = s.holes := rfl
@[simp] theorem State.accept_agenda (s : State) (x : Transaction) : (s.accept x).agenda = s.agenda := rfl
@[simp] theorem State.accept_outputs (s : State) (x : Transaction) : (s.accept x).outputs = s.outputs := rfl
@[simp] theorem State.accept_draws (s : State) (x : Transaction) : (s.accept x).draws = s.draws := rfl
@[simp] theorem State.accept_nextId (s : State) (x : Transaction) : (s.accept x).nextId = s.nextId + 1 := rfl

@[simp] theorem State.fillTlb_capHeader (s : State) (l : List TlbEntry) : (s.fillTlb l).capHeader = s.capHeader := rfl
@[simp] theorem State.fillTlb_capBaseLow (s : State) (l : List TlbEntry) : (s.fillTlb l).capBaseLow = s.capBaseLow := rfl
@[simp] theorem State.fillTlb_capBaseHigh (s : State) (l : List TlbEntry) : (s.fillTlb l).capBaseHigh = s.capBaseHigh := rfl
@[simp] theorem State.fillTlb_capRange (s : State) (l : List TlbEntry) : (s.fillTlb l).capRange = s.capRange := rfl
@[simp] theorem State.fillTlb_capMisc (s : State) (l : List TlbEntry) : (s.fillTlb l).capMisc = s.capMisc := rfl
@[simp] theorem State.fillTlb_rangeStrap (s : State) (l : List TlbEntry) : (s.fillTlb l).rangeStrap = s.rangeStrap := rfl
@[simp] theorem State.fillTlb_devTabBase (s : State) (l : List TlbEntry) : (s.fillTlb l).devTabBase = s.devTabBase := rfl
@[simp] theorem State.fillTlb_cmdBase (s : State) (l : List TlbEntry) : (s.fillTlb l).cmdBase = s.cmdBase := rfl
@[simp] theorem State.fillTlb_evtBase (s : State) (l : List TlbEntry) : (s.fillTlb l).evtBase = s.evtBase := rfl
@[simp] theorem State.fillTlb_control (s : State) (l : List TlbEntry) : (s.fillTlb l).control = s.control := rfl
@[simp] theorem State.fillTlb_exclBase (s : State) (l : List TlbEntry) : (s.fillTlb l).exclBase = s.exclBase := rfl
@[simp] theorem State.fillTlb_exclLimit (s : State) (l : List TlbEntry) : (s.fillTlb l).exclLimit = s.exclLimit := rfl
@[simp] theorem State.fillTlb_cmdHead (s : State) (l : List TlbEntry) : (s.fillTlb l).cmdHead = s.cmdHead := rfl
@[simp] theorem State.fillTlb_cmdTail (s : State) (l : List TlbEntry) : (s.fillTlb l).cmdTail = s.cmdTail := rfl
@[simp] theorem State.fillTlb_evtHead (s : State) (l : List TlbEntry) : (s.fillTlb l).evtHead = s.evtHead := rfl
@[simp] theorem State.fillTlb_evtTail (s : State) (l : List TlbEntry) : (s.fillTlb l).evtTail = s.evtTail := rfl
@[simp] theorem State.fillTlb_status (s : State) (l : List TlbEntry) : (s.fillTlb l).status = s.status := rfl
@[simp] theorem State.fillTlb_halted (s : State) (l : List TlbEntry) : (s.fillTlb l).halted = s.halted := rfl
@[simp] theorem State.fillTlb_evtHalted (s : State) (l : List TlbEntry) : (s.fillTlb l).evtHalted = s.evtHalted := rfl
@[simp] theorem State.fillTlb_dteCache (s : State) (l : List TlbEntry) : (s.fillTlb l).dteCache = s.dteCache := rfl
@[simp] theorem State.fillTlb_tlb (s : State) (l : List TlbEntry) : (s.fillTlb l).tlb = l ++ s.tlb := rfl
@[simp] theorem State.fillTlb_pdc (s : State) (l : List TlbEntry) : (s.fillTlb l).pdc = s.pdc := rfl
@[simp] theorem State.fillTlb_irtCache (s : State) (l : List TlbEntry) : (s.fillTlb l).irtCache = s.irtCache := rfl
@[simp] theorem State.fillTlb_faultLogged (s : State) (l : List TlbEntry) : (s.fillTlb l).faultLogged = s.faultLogged := rfl
@[simp] theorem State.fillTlb_prefetched (s : State) (l : List TlbEntry) : (s.fillTlb l).prefetched = s.prefetched := rfl
@[simp] theorem State.fillTlb_fetched (s : State) (l : List TlbEntry) : (s.fillTlb l).fetched = s.fetched := rfl
@[simp] theorem State.fillTlb_outstanding (s : State) (l : List TlbEntry) : (s.fillTlb l).outstanding = s.outstanding := rfl
@[simp] theorem State.fillTlb_inFlight (s : State) (l : List TlbEntry) : (s.fillTlb l).inFlight = s.inFlight := rfl
@[simp] theorem State.fillTlb_upReads (s : State) (l : List TlbEntry) : (s.fillTlb l).upReads = s.upReads := rfl
@[simp] theorem State.fillTlb_upWrites (s : State) (l : List TlbEntry) : (s.fillTlb l).upWrites = s.upWrites := rfl
@[simp] theorem State.fillTlb_pendingEvents (s : State) (l : List TlbEntry) : (s.fillTlb l).pendingEvents = s.pendingEvents := rfl
@[simp] theorem State.fillTlb_intDue (s : State) (l : List TlbEntry) : (s.fillTlb l).intDue = s.intDue := rfl
@[simp] theorem State.fillTlb_mem (s : State) (l : List TlbEntry) : (s.fillTlb l).mem = s.mem := rfl
@[simp] theorem State.fillTlb_dram (s : State) (l : List TlbEntry) : (s.fillTlb l).dram = s.dram := rfl
@[simp] theorem State.fillTlb_holes (s : State) (l : List TlbEntry) : (s.fillTlb l).holes = s.holes := rfl
@[simp] theorem State.fillTlb_agenda (s : State) (l : List TlbEntry) : (s.fillTlb l).agenda = s.agenda := rfl
@[simp] theorem State.fillTlb_outputs (s : State) (l : List TlbEntry) : (s.fillTlb l).outputs = s.outputs := rfl
@[simp] theorem State.fillTlb_draws (s : State) (l : List TlbEntry) : (s.fillTlb l).draws = s.draws := rfl
@[simp] theorem State.fillTlb_nextId (s : State) (l : List TlbEntry) : (s.fillTlb l).nextId = s.nextId := rfl

@[simp] theorem State.fillPdc_capHeader (s : State) (e : PdcEntry) : (s.fillPdc e).capHeader = s.capHeader := rfl
@[simp] theorem State.fillPdc_capBaseLow (s : State) (e : PdcEntry) : (s.fillPdc e).capBaseLow = s.capBaseLow := rfl
@[simp] theorem State.fillPdc_capBaseHigh (s : State) (e : PdcEntry) : (s.fillPdc e).capBaseHigh = s.capBaseHigh := rfl
@[simp] theorem State.fillPdc_capRange (s : State) (e : PdcEntry) : (s.fillPdc e).capRange = s.capRange := rfl
@[simp] theorem State.fillPdc_capMisc (s : State) (e : PdcEntry) : (s.fillPdc e).capMisc = s.capMisc := rfl
@[simp] theorem State.fillPdc_rangeStrap (s : State) (e : PdcEntry) : (s.fillPdc e).rangeStrap = s.rangeStrap := rfl
@[simp] theorem State.fillPdc_devTabBase (s : State) (e : PdcEntry) : (s.fillPdc e).devTabBase = s.devTabBase := rfl
@[simp] theorem State.fillPdc_cmdBase (s : State) (e : PdcEntry) : (s.fillPdc e).cmdBase = s.cmdBase := rfl
@[simp] theorem State.fillPdc_evtBase (s : State) (e : PdcEntry) : (s.fillPdc e).evtBase = s.evtBase := rfl
@[simp] theorem State.fillPdc_control (s : State) (e : PdcEntry) : (s.fillPdc e).control = s.control := rfl
@[simp] theorem State.fillPdc_exclBase (s : State) (e : PdcEntry) : (s.fillPdc e).exclBase = s.exclBase := rfl
@[simp] theorem State.fillPdc_exclLimit (s : State) (e : PdcEntry) : (s.fillPdc e).exclLimit = s.exclLimit := rfl
@[simp] theorem State.fillPdc_cmdHead (s : State) (e : PdcEntry) : (s.fillPdc e).cmdHead = s.cmdHead := rfl
@[simp] theorem State.fillPdc_cmdTail (s : State) (e : PdcEntry) : (s.fillPdc e).cmdTail = s.cmdTail := rfl
@[simp] theorem State.fillPdc_evtHead (s : State) (e : PdcEntry) : (s.fillPdc e).evtHead = s.evtHead := rfl
@[simp] theorem State.fillPdc_evtTail (s : State) (e : PdcEntry) : (s.fillPdc e).evtTail = s.evtTail := rfl
@[simp] theorem State.fillPdc_status (s : State) (e : PdcEntry) : (s.fillPdc e).status = s.status := rfl
@[simp] theorem State.fillPdc_halted (s : State) (e : PdcEntry) : (s.fillPdc e).halted = s.halted := rfl
@[simp] theorem State.fillPdc_evtHalted (s : State) (e : PdcEntry) : (s.fillPdc e).evtHalted = s.evtHalted := rfl
@[simp] theorem State.fillPdc_dteCache (s : State) (e : PdcEntry) : (s.fillPdc e).dteCache = s.dteCache := rfl
@[simp] theorem State.fillPdc_tlb (s : State) (e : PdcEntry) : (s.fillPdc e).tlb = s.tlb := rfl
@[simp] theorem State.fillPdc_pdc (s : State) (e : PdcEntry) : (s.fillPdc e).pdc = e :: s.pdc := rfl
@[simp] theorem State.fillPdc_irtCache (s : State) (e : PdcEntry) : (s.fillPdc e).irtCache = s.irtCache := rfl
@[simp] theorem State.fillPdc_faultLogged (s : State) (e : PdcEntry) : (s.fillPdc e).faultLogged = s.faultLogged := rfl
@[simp] theorem State.fillPdc_prefetched (s : State) (e : PdcEntry) : (s.fillPdc e).prefetched = s.prefetched := rfl
@[simp] theorem State.fillPdc_fetched (s : State) (e : PdcEntry) : (s.fillPdc e).fetched = s.fetched := rfl
@[simp] theorem State.fillPdc_outstanding (s : State) (e : PdcEntry) : (s.fillPdc e).outstanding = s.outstanding := rfl
@[simp] theorem State.fillPdc_inFlight (s : State) (e : PdcEntry) : (s.fillPdc e).inFlight = s.inFlight := rfl
@[simp] theorem State.fillPdc_upReads (s : State) (e : PdcEntry) : (s.fillPdc e).upReads = s.upReads := rfl
@[simp] theorem State.fillPdc_upWrites (s : State) (e : PdcEntry) : (s.fillPdc e).upWrites = s.upWrites := rfl
@[simp] theorem State.fillPdc_pendingEvents (s : State) (e : PdcEntry) : (s.fillPdc e).pendingEvents = s.pendingEvents := rfl
@[simp] theorem State.fillPdc_intDue (s : State) (e : PdcEntry) : (s.fillPdc e).intDue = s.intDue := rfl
@[simp] theorem State.fillPdc_mem (s : State) (e : PdcEntry) : (s.fillPdc e).mem = s.mem := rfl
@[simp] theorem State.fillPdc_dram (s : State) (e : PdcEntry) : (s.fillPdc e).dram = s.dram := rfl
@[simp] theorem State.fillPdc_holes (s : State) (e : PdcEntry) : (s.fillPdc e).holes = s.holes := rfl
@[simp] theorem State.fillPdc_agenda (s : State) (e : PdcEntry) : (s.fillPdc e).agenda = s.agenda := rfl
@[simp] theorem State.fillPdc_outputs (s : State) (e : PdcEntry) : (s.fillPdc e).outputs = s.outputs := rfl
@[simp] theorem State.fillPdc_draws (s : State) (e : PdcEntry) : (s.fillPdc e).draws = s.draws := rfl
@[simp] theorem State.fillPdc_nextId (s : State) (e : PdcEntry) : (s.fillPdc e).nextId = s.nextId := rfl

@[simp] theorem State.fillIrte_capHeader (s : State) (dev : DeviceId) (o : Nat) (e : BitVec 32) : (s.fillIrte dev o e).capHeader = s.capHeader := rfl
@[simp] theorem State.fillIrte_capBaseLow (s : State) (dev : DeviceId) (o : Nat) (e : BitVec 32) : (s.fillIrte dev o e).capBaseLow = s.capBaseLow := rfl
@[simp] theorem State.fillIrte_capBaseHigh (s : State) (dev : DeviceId) (o : Nat) (e : BitVec 32) : (s.fillIrte dev o e).capBaseHigh = s.capBaseHigh := rfl
@[simp] theorem State.fillIrte_capRange (s : State) (dev : DeviceId) (o : Nat) (e : BitVec 32) : (s.fillIrte dev o e).capRange = s.capRange := rfl
@[simp] theorem State.fillIrte_capMisc (s : State) (dev : DeviceId) (o : Nat) (e : BitVec 32) : (s.fillIrte dev o e).capMisc = s.capMisc := rfl
@[simp] theorem State.fillIrte_rangeStrap (s : State) (dev : DeviceId) (o : Nat) (e : BitVec 32) : (s.fillIrte dev o e).rangeStrap = s.rangeStrap := rfl
@[simp] theorem State.fillIrte_devTabBase (s : State) (dev : DeviceId) (o : Nat) (e : BitVec 32) : (s.fillIrte dev o e).devTabBase = s.devTabBase := rfl
@[simp] theorem State.fillIrte_cmdBase (s : State) (dev : DeviceId) (o : Nat) (e : BitVec 32) : (s.fillIrte dev o e).cmdBase = s.cmdBase := rfl
@[simp] theorem State.fillIrte_evtBase (s : State) (dev : DeviceId) (o : Nat) (e : BitVec 32) : (s.fillIrte dev o e).evtBase = s.evtBase := rfl
@[simp] theorem State.fillIrte_control (s : State) (dev : DeviceId) (o : Nat) (e : BitVec 32) : (s.fillIrte dev o e).control = s.control := rfl
@[simp] theorem State.fillIrte_exclBase (s : State) (dev : DeviceId) (o : Nat) (e : BitVec 32) : (s.fillIrte dev o e).exclBase = s.exclBase := rfl
@[simp] theorem State.fillIrte_exclLimit (s : State) (dev : DeviceId) (o : Nat) (e : BitVec 32) : (s.fillIrte dev o e).exclLimit = s.exclLimit := rfl
@[simp] theorem State.fillIrte_cmdHead (s : State) (dev : DeviceId) (o : Nat) (e : BitVec 32) : (s.fillIrte dev o e).cmdHead = s.cmdHead := rfl
@[simp] theorem State.fillIrte_cmdTail (s : State) (dev : DeviceId) (o : Nat) (e : BitVec 32) : (s.fillIrte dev o e).cmdTail = s.cmdTail := rfl
@[simp] theorem State.fillIrte_evtHead (s : State) (dev : DeviceId) (o : Nat) (e : BitVec 32) : (s.fillIrte dev o e).evtHead = s.evtHead := rfl
@[simp] theorem State.fillIrte_evtTail (s : State) (dev : DeviceId) (o : Nat) (e : BitVec 32) : (s.fillIrte dev o e).evtTail = s.evtTail := rfl
@[simp] theorem State.fillIrte_status (s : State) (dev : DeviceId) (o : Nat) (e : BitVec 32) : (s.fillIrte dev o e).status = s.status := rfl
@[simp] theorem State.fillIrte_halted (s : State) (dev : DeviceId) (o : Nat) (e : BitVec 32) : (s.fillIrte dev o e).halted = s.halted := rfl
@[simp] theorem State.fillIrte_evtHalted (s : State) (dev : DeviceId) (o : Nat) (e : BitVec 32) : (s.fillIrte dev o e).evtHalted = s.evtHalted := rfl
@[simp] theorem State.fillIrte_dteCache (s : State) (dev : DeviceId) (o : Nat) (e : BitVec 32) : (s.fillIrte dev o e).dteCache = s.dteCache := rfl
@[simp] theorem State.fillIrte_tlb (s : State) (dev : DeviceId) (o : Nat) (e : BitVec 32) : (s.fillIrte dev o e).tlb = s.tlb := rfl
@[simp] theorem State.fillIrte_pdc (s : State) (dev : DeviceId) (o : Nat) (e : BitVec 32) : (s.fillIrte dev o e).pdc = s.pdc := rfl
@[simp] theorem State.fillIrte_irtCache (s : State) (dev : DeviceId) (o : Nat) (e : BitVec 32) : (s.fillIrte dev o e).irtCache = ⟨dev, o, e⟩ :: s.irtCache := rfl
@[simp] theorem State.fillIrte_faultLogged (s : State) (dev : DeviceId) (o : Nat) (e : BitVec 32) : (s.fillIrte dev o e).faultLogged = s.faultLogged := rfl
@[simp] theorem State.fillIrte_prefetched (s : State) (dev : DeviceId) (o : Nat) (e : BitVec 32) : (s.fillIrte dev o e).prefetched = s.prefetched := rfl
@[simp] theorem State.fillIrte_fetched (s : State) (dev : DeviceId) (o : Nat) (e : BitVec 32) : (s.fillIrte dev o e).fetched = s.fetched := rfl
@[simp] theorem State.fillIrte_outstanding (s : State) (dev : DeviceId) (o : Nat) (e : BitVec 32) : (s.fillIrte dev o e).outstanding = s.outstanding := rfl
@[simp] theorem State.fillIrte_inFlight (s : State) (dev : DeviceId) (o : Nat) (e : BitVec 32) : (s.fillIrte dev o e).inFlight = s.inFlight := rfl
@[simp] theorem State.fillIrte_upReads (s : State) (dev : DeviceId) (o : Nat) (e : BitVec 32) : (s.fillIrte dev o e).upReads = s.upReads := rfl
@[simp] theorem State.fillIrte_upWrites (s : State) (dev : DeviceId) (o : Nat) (e : BitVec 32) : (s.fillIrte dev o e).upWrites = s.upWrites := rfl
@[simp] theorem State.fillIrte_pendingEvents (s : State) (dev : DeviceId) (o : Nat) (e : BitVec 32) : (s.fillIrte dev o e).pendingEvents = s.pendingEvents := rfl
@[simp] theorem State.fillIrte_intDue (s : State) (dev : DeviceId) (o : Nat) (e : BitVec 32) : (s.fillIrte dev o e).intDue = s.intDue := rfl
@[simp] theorem State.fillIrte_mem (s : State) (dev : DeviceId) (o : Nat) (e : BitVec 32) : (s.fillIrte dev o e).mem = s.mem := rfl
@[simp] theorem State.fillIrte_dram (s : State) (dev : DeviceId) (o : Nat) (e : BitVec 32) : (s.fillIrte dev o e).dram = s.dram := rfl
@[simp] theorem State.fillIrte_holes (s : State) (dev : DeviceId) (o : Nat) (e : BitVec 32) : (s.fillIrte dev o e).holes = s.holes := rfl
@[simp] theorem State.fillIrte_agenda (s : State) (dev : DeviceId) (o : Nat) (e : BitVec 32) : (s.fillIrte dev o e).agenda = s.agenda := rfl
@[simp] theorem State.fillIrte_outputs (s : State) (dev : DeviceId) (o : Nat) (e : BitVec 32) : (s.fillIrte dev o e).outputs = s.outputs := rfl
@[simp] theorem State.fillIrte_draws (s : State) (dev : DeviceId) (o : Nat) (e : BitVec 32) : (s.fillIrte dev o e).draws = s.draws := rfl
@[simp] theorem State.fillIrte_nextId (s : State) (dev : DeviceId) (o : Nat) (e : BitVec 32) : (s.fillIrte dev o e).nextId = s.nextId := rfl

@[simp] theorem State.fillDte_capHeader (s : State) (l : List DteCacheEntry) : (s.fillDte l).capHeader = s.capHeader := rfl
@[simp] theorem State.fillDte_capBaseLow (s : State) (l : List DteCacheEntry) : (s.fillDte l).capBaseLow = s.capBaseLow := rfl
@[simp] theorem State.fillDte_capBaseHigh (s : State) (l : List DteCacheEntry) : (s.fillDte l).capBaseHigh = s.capBaseHigh := rfl
@[simp] theorem State.fillDte_capRange (s : State) (l : List DteCacheEntry) : (s.fillDte l).capRange = s.capRange := rfl
@[simp] theorem State.fillDte_capMisc (s : State) (l : List DteCacheEntry) : (s.fillDte l).capMisc = s.capMisc := rfl
@[simp] theorem State.fillDte_rangeStrap (s : State) (l : List DteCacheEntry) : (s.fillDte l).rangeStrap = s.rangeStrap := rfl
@[simp] theorem State.fillDte_devTabBase (s : State) (l : List DteCacheEntry) : (s.fillDte l).devTabBase = s.devTabBase := rfl
@[simp] theorem State.fillDte_cmdBase (s : State) (l : List DteCacheEntry) : (s.fillDte l).cmdBase = s.cmdBase := rfl
@[simp] theorem State.fillDte_evtBase (s : State) (l : List DteCacheEntry) : (s.fillDte l).evtBase = s.evtBase := rfl
@[simp] theorem State.fillDte_control (s : State) (l : List DteCacheEntry) : (s.fillDte l).control = s.control := rfl
@[simp] theorem State.fillDte_exclBase (s : State) (l : List DteCacheEntry) : (s.fillDte l).exclBase = s.exclBase := rfl
@[simp] theorem State.fillDte_exclLimit (s : State) (l : List DteCacheEntry) : (s.fillDte l).exclLimit = s.exclLimit := rfl
@[simp] theorem State.fillDte_cmdHead (s : State) (l : List DteCacheEntry) : (s.fillDte l).cmdHead = s.cmdHead := rfl
@[simp] theorem State.fillDte_cmdTail (s : State) (l : List DteCacheEntry) : (s.fillDte l).cmdTail = s.cmdTail := rfl
@[simp] theorem State.fillDte_evtHead (s : State) (l : List DteCacheEntry) : (s.fillDte l).evtHead = s.evtHead := rfl
@[simp] theorem State.fillDte_evtTail (s : State) (l : List DteCacheEntry) : (s.fillDte l).evtTail = s.evtTail := rfl
@[simp] theorem State.fillDte_status (s : State) (l : List DteCacheEntry) : (s.fillDte l).status = s.status := rfl
@[simp] theorem State.fillDte_halted (s : State) (l : List DteCacheEntry) : (s.fillDte l).halted = s.halted := rfl
@[simp] theorem State.fillDte_evtHalted (s : State) (l : List DteCacheEntry) : (s.fillDte l).evtHalted = s.evtHalted := rfl
@[simp] theorem State.fillDte_dteCache (s : State) (l : List DteCacheEntry) : (s.fillDte l).dteCache = l ++ s.dteCache := rfl
@[simp] theorem State.fillDte_tlb (s : State) (l : List DteCacheEntry) : (s.fillDte l).tlb = s.tlb := rfl
@[simp] theorem State.fillDte_pdc (s : State) (l : List DteCacheEntry) : (s.fillDte l).pdc = s.pdc := rfl
@[simp] theorem State.fillDte_irtCache (s : State) (l : List DteCacheEntry) : (s.fillDte l).irtCache = s.irtCache := rfl
@[simp] theorem State.fillDte_faultLogged (s : State) (l : List DteCacheEntry) : (s.fillDte l).faultLogged = s.faultLogged := rfl
@[simp] theorem State.fillDte_prefetched (s : State) (l : List DteCacheEntry) : (s.fillDte l).prefetched = s.prefetched := rfl
@[simp] theorem State.fillDte_fetched (s : State) (l : List DteCacheEntry) : (s.fillDte l).fetched = s.fetched := rfl
@[simp] theorem State.fillDte_outstanding (s : State) (l : List DteCacheEntry) : (s.fillDte l).outstanding = s.outstanding := rfl
@[simp] theorem State.fillDte_inFlight (s : State) (l : List DteCacheEntry) : (s.fillDte l).inFlight = s.inFlight := rfl
@[simp] theorem State.fillDte_upReads (s : State) (l : List DteCacheEntry) : (s.fillDte l).upReads = s.upReads := rfl
@[simp] theorem State.fillDte_upWrites (s : State) (l : List DteCacheEntry) : (s.fillDte l).upWrites = s.upWrites := rfl
@[simp] theorem State.fillDte_pendingEvents (s : State) (l : List DteCacheEntry) : (s.fillDte l).pendingEvents = s.pendingEvents := rfl
@[simp] theorem State.fillDte_intDue (s : State) (l : List DteCacheEntry) : (s.fillDte l).intDue = s.intDue := rfl
@[simp] theorem State.fillDte_mem (s : State) (l : List DteCacheEntry) : (s.fillDte l).mem = s.mem := rfl
@[simp] theorem State.fillDte_dram (s : State) (l : List DteCacheEntry) : (s.fillDte l).dram = s.dram := rfl
@[simp] theorem State.fillDte_holes (s : State) (l : List DteCacheEntry) : (s.fillDte l).holes = s.holes := rfl
@[simp] theorem State.fillDte_agenda (s : State) (l : List DteCacheEntry) : (s.fillDte l).agenda = s.agenda := rfl
@[simp] theorem State.fillDte_outputs (s : State) (l : List DteCacheEntry) : (s.fillDte l).outputs = s.outputs := rfl
@[simp] theorem State.fillDte_draws (s : State) (l : List DteCacheEntry) : (s.fillDte l).draws = s.draws := rfl
@[simp] theorem State.fillDte_nextId (s : State) (l : List DteCacheEntry) : (s.fillDte l).nextId = s.nextId := rfl

@[simp] theorem State.loseDte_capHeader (s : State) (k : Nat) (e : DteCacheEntry) (f : Bool) : (s.loseDte k e f).capHeader = s.capHeader := rfl
@[simp] theorem State.loseDte_capBaseLow (s : State) (k : Nat) (e : DteCacheEntry) (f : Bool) : (s.loseDte k e f).capBaseLow = s.capBaseLow := rfl
@[simp] theorem State.loseDte_capBaseHigh (s : State) (k : Nat) (e : DteCacheEntry) (f : Bool) : (s.loseDte k e f).capBaseHigh = s.capBaseHigh := rfl
@[simp] theorem State.loseDte_capRange (s : State) (k : Nat) (e : DteCacheEntry) (f : Bool) : (s.loseDte k e f).capRange = s.capRange := rfl
@[simp] theorem State.loseDte_capMisc (s : State) (k : Nat) (e : DteCacheEntry) (f : Bool) : (s.loseDte k e f).capMisc = s.capMisc := rfl
@[simp] theorem State.loseDte_rangeStrap (s : State) (k : Nat) (e : DteCacheEntry) (f : Bool) : (s.loseDte k e f).rangeStrap = s.rangeStrap := rfl
@[simp] theorem State.loseDte_devTabBase (s : State) (k : Nat) (e : DteCacheEntry) (f : Bool) : (s.loseDte k e f).devTabBase = s.devTabBase := rfl
@[simp] theorem State.loseDte_cmdBase (s : State) (k : Nat) (e : DteCacheEntry) (f : Bool) : (s.loseDte k e f).cmdBase = s.cmdBase := rfl
@[simp] theorem State.loseDte_evtBase (s : State) (k : Nat) (e : DteCacheEntry) (f : Bool) : (s.loseDte k e f).evtBase = s.evtBase := rfl
@[simp] theorem State.loseDte_control (s : State) (k : Nat) (e : DteCacheEntry) (f : Bool) : (s.loseDte k e f).control = s.control := rfl
@[simp] theorem State.loseDte_exclBase (s : State) (k : Nat) (e : DteCacheEntry) (f : Bool) : (s.loseDte k e f).exclBase = s.exclBase := rfl
@[simp] theorem State.loseDte_exclLimit (s : State) (k : Nat) (e : DteCacheEntry) (f : Bool) : (s.loseDte k e f).exclLimit = s.exclLimit := rfl
@[simp] theorem State.loseDte_cmdHead (s : State) (k : Nat) (e : DteCacheEntry) (f : Bool) : (s.loseDte k e f).cmdHead = s.cmdHead := rfl
@[simp] theorem State.loseDte_cmdTail (s : State) (k : Nat) (e : DteCacheEntry) (f : Bool) : (s.loseDte k e f).cmdTail = s.cmdTail := rfl
@[simp] theorem State.loseDte_evtHead (s : State) (k : Nat) (e : DteCacheEntry) (f : Bool) : (s.loseDte k e f).evtHead = s.evtHead := rfl
@[simp] theorem State.loseDte_evtTail (s : State) (k : Nat) (e : DteCacheEntry) (f : Bool) : (s.loseDte k e f).evtTail = s.evtTail := rfl
@[simp] theorem State.loseDte_status (s : State) (k : Nat) (e : DteCacheEntry) (f : Bool) : (s.loseDte k e f).status = s.status := rfl
@[simp] theorem State.loseDte_halted (s : State) (k : Nat) (e : DteCacheEntry) (f : Bool) : (s.loseDte k e f).halted = s.halted := rfl
@[simp] theorem State.loseDte_evtHalted (s : State) (k : Nat) (e : DteCacheEntry) (f : Bool) : (s.loseDte k e f).evtHalted = s.evtHalted := rfl
@[simp] theorem State.loseDte_dteCache (s : State) (k : Nat) (e : DteCacheEntry) (f : Bool) : (s.loseDte k e f).dteCache = s.dteCache.eraseIdx k := rfl
@[simp] theorem State.loseDte_tlb (s : State) (k : Nat) (e : DteCacheEntry) (f : Bool) : (s.loseDte k e f).tlb = s.tlb := rfl
@[simp] theorem State.loseDte_pdc (s : State) (k : Nat) (e : DteCacheEntry) (f : Bool) : (s.loseDte k e f).pdc = s.pdc := rfl
@[simp] theorem State.loseDte_irtCache (s : State) (k : Nat) (e : DteCacheEntry) (f : Bool) : (s.loseDte k e f).irtCache = s.irtCache := rfl
@[simp] theorem State.loseDte_faultLogged (s : State) (k : Nat) (e : DteCacheEntry) (f : Bool) : (s.loseDte k e f).faultLogged = s.faultLogged.filter fun d => decide (d ≠ e.dev) || (!f && (s.dteCache.eraseIdx k).any fun x => decide (x.dev = d)) := rfl
@[simp] theorem State.loseDte_prefetched (s : State) (k : Nat) (e : DteCacheEntry) (f : Bool) : (s.loseDte k e f).prefetched = s.prefetched := rfl
@[simp] theorem State.loseDte_fetched (s : State) (k : Nat) (e : DteCacheEntry) (f : Bool) : (s.loseDte k e f).fetched = s.fetched := rfl
@[simp] theorem State.loseDte_outstanding (s : State) (k : Nat) (e : DteCacheEntry) (f : Bool) : (s.loseDte k e f).outstanding = s.outstanding := rfl
@[simp] theorem State.loseDte_inFlight (s : State) (k : Nat) (e : DteCacheEntry) (f : Bool) : (s.loseDte k e f).inFlight = s.inFlight := rfl
@[simp] theorem State.loseDte_upReads (s : State) (k : Nat) (e : DteCacheEntry) (f : Bool) : (s.loseDte k e f).upReads = s.upReads := rfl
@[simp] theorem State.loseDte_upWrites (s : State) (k : Nat) (e : DteCacheEntry) (f : Bool) : (s.loseDte k e f).upWrites = s.upWrites := rfl
@[simp] theorem State.loseDte_pendingEvents (s : State) (k : Nat) (e : DteCacheEntry) (f : Bool) : (s.loseDte k e f).pendingEvents = s.pendingEvents := rfl
@[simp] theorem State.loseDte_intDue (s : State) (k : Nat) (e : DteCacheEntry) (f : Bool) : (s.loseDte k e f).intDue = s.intDue := rfl
@[simp] theorem State.loseDte_mem (s : State) (k : Nat) (e : DteCacheEntry) (f : Bool) : (s.loseDte k e f).mem = s.mem := rfl
@[simp] theorem State.loseDte_dram (s : State) (k : Nat) (e : DteCacheEntry) (f : Bool) : (s.loseDte k e f).dram = s.dram := rfl
@[simp] theorem State.loseDte_holes (s : State) (k : Nat) (e : DteCacheEntry) (f : Bool) : (s.loseDte k e f).holes = s.holes := rfl
@[simp] theorem State.loseDte_agenda (s : State) (k : Nat) (e : DteCacheEntry) (f : Bool) : (s.loseDte k e f).agenda = s.agenda := rfl
@[simp] theorem State.loseDte_outputs (s : State) (k : Nat) (e : DteCacheEntry) (f : Bool) : (s.loseDte k e f).outputs = s.outputs := rfl
@[simp] theorem State.loseDte_draws (s : State) (k : Nat) (e : DteCacheEntry) (f : Bool) : (s.loseDte k e f).draws = s.draws := rfl
@[simp] theorem State.loseDte_nextId (s : State) (k : Nat) (e : DteCacheEntry) (f : Bool) : (s.loseDte k e f).nextId = s.nextId := rfl

@[simp] theorem State.classRead_capHeader (s : State) : s.classRead.capHeader = s.capHeader := rfl
@[simp] theorem State.classRead_capBaseLow (s : State) : s.classRead.capBaseLow = s.capBaseLow := rfl
@[simp] theorem State.classRead_capBaseHigh (s : State) : s.classRead.capBaseHigh = s.capBaseHigh := rfl
@[simp] theorem State.classRead_capRange (s : State) : s.classRead.capRange = s.capRange := rfl
@[simp] theorem State.classRead_capMisc (s : State) : s.classRead.capMisc = s.capMisc := rfl
@[simp] theorem State.classRead_rangeStrap (s : State) : s.classRead.rangeStrap = s.rangeStrap := rfl
@[simp] theorem State.classRead_devTabBase (s : State) : s.classRead.devTabBase = s.devTabBase := rfl
@[simp] theorem State.classRead_cmdBase (s : State) : s.classRead.cmdBase = s.cmdBase := rfl
@[simp] theorem State.classRead_evtBase (s : State) : s.classRead.evtBase = s.evtBase := rfl
@[simp] theorem State.classRead_control (s : State) : s.classRead.control = s.control := rfl
@[simp] theorem State.classRead_exclBase (s : State) : s.classRead.exclBase = s.exclBase := rfl
@[simp] theorem State.classRead_exclLimit (s : State) : s.classRead.exclLimit = s.exclLimit := rfl
@[simp] theorem State.classRead_cmdHead (s : State) : s.classRead.cmdHead = s.cmdHead := rfl
@[simp] theorem State.classRead_cmdTail (s : State) : s.classRead.cmdTail = s.cmdTail := rfl
@[simp] theorem State.classRead_evtHead (s : State) : s.classRead.evtHead = s.evtHead := rfl
@[simp] theorem State.classRead_evtTail (s : State) : s.classRead.evtTail = s.evtTail := rfl
@[simp] theorem State.classRead_status (s : State) : s.classRead.status = s.status := rfl
@[simp] theorem State.classRead_halted (s : State) : s.classRead.halted = s.halted := rfl
@[simp] theorem State.classRead_evtHalted (s : State) : s.classRead.evtHalted = s.evtHalted := rfl
@[simp] theorem State.classRead_dteCache (s : State) : s.classRead.dteCache = s.dteCache := rfl
@[simp] theorem State.classRead_tlb (s : State) : s.classRead.tlb = s.tlb := rfl
@[simp] theorem State.classRead_pdc (s : State) : s.classRead.pdc = s.pdc := rfl
@[simp] theorem State.classRead_irtCache (s : State) : s.classRead.irtCache = s.irtCache := rfl
@[simp] theorem State.classRead_faultLogged (s : State) : s.classRead.faultLogged = s.faultLogged := rfl
@[simp] theorem State.classRead_prefetched (s : State) : s.classRead.prefetched = s.prefetched := rfl
@[simp] theorem State.classRead_fetched (s : State) : s.classRead.fetched = s.fetched := rfl
@[simp] theorem State.classRead_outstanding (s : State) : s.classRead.outstanding = s.outstanding := rfl
@[simp] theorem State.classRead_inFlight (s : State) : s.classRead.inFlight = s.inFlight := rfl
@[simp] theorem State.classRead_upReads (s : State) : s.classRead.upReads = s.upReads := rfl
@[simp] theorem State.classRead_upWrites (s : State) : s.classRead.upWrites = s.upWrites := rfl
@[simp] theorem State.classRead_pendingEvents (s : State) : s.classRead.pendingEvents = s.pendingEvents := rfl
@[simp] theorem State.classRead_intDue (s : State) : s.classRead.intDue = s.intDue := rfl
@[simp] theorem State.classRead_mem (s : State) : s.classRead.mem = s.mem := rfl
@[simp] theorem State.classRead_dram (s : State) : s.classRead.dram = s.dram := rfl
@[simp] theorem State.classRead_holes (s : State) : s.classRead.holes = s.holes := rfl
@[simp] theorem State.classRead_agenda (s : State) : s.classRead.agenda = s.agenda := rfl
@[simp] theorem State.classRead_outputs (s : State) : s.classRead.outputs = s.outputs ++ [.cpuData (leBytes 3 pciClassCode.toNat)] := rfl
@[simp] theorem State.classRead_draws (s : State) : s.classRead.draws = s.draws := rfl
@[simp] theorem State.classRead_nextId (s : State) : s.classRead.nextId = s.nextId := rfl

/-! ### Updates under a condition -/

@[simp] theorem State.ownWrite_capHeader (s : State) (a : Addr) (d : List Byte) (t : Attrs) : (s.ownWrite a d t).capHeader = s.capHeader := by unfold State.ownWrite; split <;> (try split) <;> rfl
@[simp] theorem State.ownWrite_capBaseLow (s : State) (a : Addr) (d : List Byte) (t : Attrs) : (s.ownWrite a d t).capBaseLow = s.capBaseLow := by unfold State.ownWrite; split <;> (try split) <;> rfl
@[simp] theorem State.ownWrite_capBaseHigh (s : State) (a : Addr) (d : List Byte) (t : Attrs) : (s.ownWrite a d t).capBaseHigh = s.capBaseHigh := by unfold State.ownWrite; split <;> (try split) <;> rfl
@[simp] theorem State.ownWrite_capRange (s : State) (a : Addr) (d : List Byte) (t : Attrs) : (s.ownWrite a d t).capRange = s.capRange := by unfold State.ownWrite; split <;> (try split) <;> rfl
@[simp] theorem State.ownWrite_capMisc (s : State) (a : Addr) (d : List Byte) (t : Attrs) : (s.ownWrite a d t).capMisc = s.capMisc := by unfold State.ownWrite; split <;> (try split) <;> rfl
@[simp] theorem State.ownWrite_rangeStrap (s : State) (a : Addr) (d : List Byte) (t : Attrs) : (s.ownWrite a d t).rangeStrap = s.rangeStrap := by unfold State.ownWrite; split <;> (try split) <;> rfl
@[simp] theorem State.ownWrite_devTabBase (s : State) (a : Addr) (d : List Byte) (t : Attrs) : (s.ownWrite a d t).devTabBase = s.devTabBase := by unfold State.ownWrite; split <;> (try split) <;> rfl
@[simp] theorem State.ownWrite_cmdBase (s : State) (a : Addr) (d : List Byte) (t : Attrs) : (s.ownWrite a d t).cmdBase = s.cmdBase := by unfold State.ownWrite; split <;> (try split) <;> rfl
@[simp] theorem State.ownWrite_evtBase (s : State) (a : Addr) (d : List Byte) (t : Attrs) : (s.ownWrite a d t).evtBase = s.evtBase := by unfold State.ownWrite; split <;> (try split) <;> rfl
@[simp] theorem State.ownWrite_control (s : State) (a : Addr) (d : List Byte) (t : Attrs) : (s.ownWrite a d t).control = s.control := by unfold State.ownWrite; split <;> (try split) <;> rfl
@[simp] theorem State.ownWrite_exclBase (s : State) (a : Addr) (d : List Byte) (t : Attrs) : (s.ownWrite a d t).exclBase = s.exclBase := by unfold State.ownWrite; split <;> (try split) <;> rfl
@[simp] theorem State.ownWrite_exclLimit (s : State) (a : Addr) (d : List Byte) (t : Attrs) : (s.ownWrite a d t).exclLimit = s.exclLimit := by unfold State.ownWrite; split <;> (try split) <;> rfl
@[simp] theorem State.ownWrite_cmdHead (s : State) (a : Addr) (d : List Byte) (t : Attrs) : (s.ownWrite a d t).cmdHead = s.cmdHead := by unfold State.ownWrite; split <;> (try split) <;> rfl
@[simp] theorem State.ownWrite_cmdTail (s : State) (a : Addr) (d : List Byte) (t : Attrs) : (s.ownWrite a d t).cmdTail = s.cmdTail := by unfold State.ownWrite; split <;> (try split) <;> rfl
@[simp] theorem State.ownWrite_evtHead (s : State) (a : Addr) (d : List Byte) (t : Attrs) : (s.ownWrite a d t).evtHead = s.evtHead := by unfold State.ownWrite; split <;> (try split) <;> rfl
@[simp] theorem State.ownWrite_evtTail (s : State) (a : Addr) (d : List Byte) (t : Attrs) : (s.ownWrite a d t).evtTail = s.evtTail := by unfold State.ownWrite; split <;> (try split) <;> rfl
@[simp] theorem State.ownWrite_status (s : State) (a : Addr) (d : List Byte) (t : Attrs) : (s.ownWrite a d t).status = s.status := by unfold State.ownWrite; split <;> (try split) <;> rfl
@[simp] theorem State.ownWrite_halted (s : State) (a : Addr) (d : List Byte) (t : Attrs) : (s.ownWrite a d t).halted = s.halted := by unfold State.ownWrite; split <;> (try split) <;> rfl
@[simp] theorem State.ownWrite_evtHalted (s : State) (a : Addr) (d : List Byte) (t : Attrs) : (s.ownWrite a d t).evtHalted = s.evtHalted := by unfold State.ownWrite; split <;> (try split) <;> rfl
@[simp] theorem State.ownWrite_dteCache (s : State) (a : Addr) (d : List Byte) (t : Attrs) : (s.ownWrite a d t).dteCache = s.dteCache := by unfold State.ownWrite; split <;> (try split) <;> rfl
@[simp] theorem State.ownWrite_tlb (s : State) (a : Addr) (d : List Byte) (t : Attrs) : (s.ownWrite a d t).tlb = s.tlb := by unfold State.ownWrite; split <;> (try split) <;> rfl
@[simp] theorem State.ownWrite_pdc (s : State) (a : Addr) (d : List Byte) (t : Attrs) : (s.ownWrite a d t).pdc = s.pdc := by unfold State.ownWrite; split <;> (try split) <;> rfl
@[simp] theorem State.ownWrite_irtCache (s : State) (a : Addr) (d : List Byte) (t : Attrs) : (s.ownWrite a d t).irtCache = s.irtCache := by unfold State.ownWrite; split <;> (try split) <;> rfl
@[simp] theorem State.ownWrite_faultLogged (s : State) (a : Addr) (d : List Byte) (t : Attrs) : (s.ownWrite a d t).faultLogged = s.faultLogged := by unfold State.ownWrite; split <;> (try split) <;> rfl
@[simp] theorem State.ownWrite_prefetched (s : State) (a : Addr) (d : List Byte) (t : Attrs) : (s.ownWrite a d t).prefetched = s.prefetched := by unfold State.ownWrite; split <;> (try split) <;> rfl
@[simp] theorem State.ownWrite_fetched (s : State) (a : Addr) (d : List Byte) (t : Attrs) : (s.ownWrite a d t).fetched = s.fetched := by unfold State.ownWrite; split <;> (try split) <;> rfl
@[simp] theorem State.ownWrite_outstanding (s : State) (a : Addr) (d : List Byte) (t : Attrs) : (s.ownWrite a d t).outstanding = s.outstanding := by unfold State.ownWrite; split <;> (try split) <;> rfl
@[simp] theorem State.ownWrite_inFlight (s : State) (a : Addr) (d : List Byte) (t : Attrs) : (s.ownWrite a d t).inFlight = s.inFlight := by unfold State.ownWrite; split <;> (try split) <;> rfl
@[simp] theorem State.ownWrite_upReads (s : State) (a : Addr) (d : List Byte) (t : Attrs) : (s.ownWrite a d t).upReads = s.upReads := by unfold State.ownWrite; split <;> (try split) <;> rfl
@[simp] theorem State.ownWrite_upWrites (s : State) (a : Addr) (d : List Byte) (t : Attrs) : (s.ownWrite a d t).upWrites = s.upWrites := by unfold State.ownWrite; split <;> (try split) <;> rfl
@[simp] theorem State.ownWrite_pendingEvents (s : State) (a : Addr) (d : List Byte) (t : Attrs) : (s.ownWrite a d t).pendingEvents = s.pendingEvents := by unfold State.ownWrite; split <;> (try split) <;> rfl
@[simp] theorem State.ownWrite_intDue (s : State) (a : Addr) (d : List Byte) (t : Attrs) : (s.ownWrite a d t).intDue = s.intDue := by unfold State.ownWrite; split <;> (try split) <;> rfl
@[simp] theorem State.ownWrite_holes (s : State) (a : Addr) (d : List Byte) (t : Attrs) : (s.ownWrite a d t).holes = s.holes := by unfold State.ownWrite; split <;> (try split) <;> rfl
@[simp] theorem State.ownWrite_agenda (s : State) (a : Addr) (d : List Byte) (t : Attrs) : (s.ownWrite a d t).agenda = s.agenda := by unfold State.ownWrite; split <;> (try split) <;> rfl
@[simp] theorem State.ownWrite_outputs (s : State) (a : Addr) (d : List Byte) (t : Attrs) : (s.ownWrite a d t).outputs = s.outputs ++ [.ownWrite (s.onLink a) d t] := by unfold State.ownWrite; split <;> (try split) <;> rfl
@[simp] theorem State.ownWrite_draws (s : State) (a : Addr) (d : List Byte) (t : Attrs) : (s.ownWrite a d t).draws = s.draws := by unfold State.ownWrite; split <;> (try split) <;> rfl
@[simp] theorem State.ownWrite_nextId (s : State) (a : Addr) (d : List Byte) (t : Attrs) : (s.ownWrite a d t).nextId = s.nextId := by unfold State.ownWrite; split <;> (try split) <;> rfl

@[simp] theorem State.waitStore_capHeader (s : State) (b : Bool) (a : Addr) (d : BitVec 64) : (s.waitStore b a d).capHeader = s.capHeader := by cases b <;> simp [State.waitStore]
@[simp] theorem State.waitStore_capBaseLow (s : State) (b : Bool) (a : Addr) (d : BitVec 64) : (s.waitStore b a d).capBaseLow = s.capBaseLow := by cases b <;> simp [State.waitStore]
@[simp] theorem State.waitStore_capBaseHigh (s : State) (b : Bool) (a : Addr) (d : BitVec 64) : (s.waitStore b a d).capBaseHigh = s.capBaseHigh := by cases b <;> simp [State.waitStore]
@[simp] theorem State.waitStore_capRange (s : State) (b : Bool) (a : Addr) (d : BitVec 64) : (s.waitStore b a d).capRange = s.capRange := by cases b <;> simp [State.waitStore]
@[simp] theorem State.waitStore_capMisc (s : State) (b : Bool) (a : Addr) (d : BitVec 64) : (s.waitStore b a d).capMisc = s.capMisc := by cases b <;> simp [State.waitStore]
@[simp] theorem State.waitStore_rangeStrap (s : State) (b : Bool) (a : Addr) (d : BitVec 64) : (s.waitStore b a d).rangeStrap = s.rangeStrap := by cases b <;> simp [State.waitStore]
@[simp] theorem State.waitStore_devTabBase (s : State) (b : Bool) (a : Addr) (d : BitVec 64) : (s.waitStore b a d).devTabBase = s.devTabBase := by cases b <;> simp [State.waitStore]
@[simp] theorem State.waitStore_cmdBase (s : State) (b : Bool) (a : Addr) (d : BitVec 64) : (s.waitStore b a d).cmdBase = s.cmdBase := by cases b <;> simp [State.waitStore]
@[simp] theorem State.waitStore_evtBase (s : State) (b : Bool) (a : Addr) (d : BitVec 64) : (s.waitStore b a d).evtBase = s.evtBase := by cases b <;> simp [State.waitStore]
@[simp] theorem State.waitStore_control (s : State) (b : Bool) (a : Addr) (d : BitVec 64) : (s.waitStore b a d).control = s.control := by cases b <;> simp [State.waitStore]
@[simp] theorem State.waitStore_exclBase (s : State) (b : Bool) (a : Addr) (d : BitVec 64) : (s.waitStore b a d).exclBase = s.exclBase := by cases b <;> simp [State.waitStore]
@[simp] theorem State.waitStore_exclLimit (s : State) (b : Bool) (a : Addr) (d : BitVec 64) : (s.waitStore b a d).exclLimit = s.exclLimit := by cases b <;> simp [State.waitStore]
@[simp] theorem State.waitStore_cmdHead (s : State) (b : Bool) (a : Addr) (d : BitVec 64) : (s.waitStore b a d).cmdHead = s.cmdHead := by cases b <;> simp [State.waitStore]
@[simp] theorem State.waitStore_cmdTail (s : State) (b : Bool) (a : Addr) (d : BitVec 64) : (s.waitStore b a d).cmdTail = s.cmdTail := by cases b <;> simp [State.waitStore]
@[simp] theorem State.waitStore_evtHead (s : State) (b : Bool) (a : Addr) (d : BitVec 64) : (s.waitStore b a d).evtHead = s.evtHead := by cases b <;> simp [State.waitStore]
@[simp] theorem State.waitStore_evtTail (s : State) (b : Bool) (a : Addr) (d : BitVec 64) : (s.waitStore b a d).evtTail = s.evtTail := by cases b <;> simp [State.waitStore]
@[simp] theorem State.waitStore_status (s : State) (b : Bool) (a : Addr) (d : BitVec 64) : (s.waitStore b a d).status = s.status := by cases b <;> simp [State.waitStore]
@[simp] theorem State.waitStore_halted (s : State) (b : Bool) (a : Addr) (d : BitVec 64) : (s.waitStore b a d).halted = s.halted := by cases b <;> simp [State.waitStore]
@[simp] theorem State.waitStore_evtHalted (s : State) (b : Bool) (a : Addr) (d : BitVec 64) : (s.waitStore b a d).evtHalted = s.evtHalted := by cases b <;> simp [State.waitStore]
@[simp] theorem State.waitStore_dteCache (s : State) (b : Bool) (a : Addr) (d : BitVec 64) : (s.waitStore b a d).dteCache = s.dteCache := by cases b <;> simp [State.waitStore]
@[simp] theorem State.waitStore_tlb (s : State) (b : Bool) (a : Addr) (d : BitVec 64) : (s.waitStore b a d).tlb = s.tlb := by cases b <;> simp [State.waitStore]
@[simp] theorem State.waitStore_pdc (s : State) (b : Bool) (a : Addr) (d : BitVec 64) : (s.waitStore b a d).pdc = s.pdc := by cases b <;> simp [State.waitStore]
@[simp] theorem State.waitStore_irtCache (s : State) (b : Bool) (a : Addr) (d : BitVec 64) : (s.waitStore b a d).irtCache = s.irtCache := by cases b <;> simp [State.waitStore]
@[simp] theorem State.waitStore_faultLogged (s : State) (b : Bool) (a : Addr) (d : BitVec 64) : (s.waitStore b a d).faultLogged = s.faultLogged := by cases b <;> simp [State.waitStore]
@[simp] theorem State.waitStore_prefetched (s : State) (b : Bool) (a : Addr) (d : BitVec 64) : (s.waitStore b a d).prefetched = s.prefetched := by cases b <;> simp [State.waitStore]
@[simp] theorem State.waitStore_fetched (s : State) (b : Bool) (a : Addr) (d : BitVec 64) : (s.waitStore b a d).fetched = s.fetched := by cases b <;> simp [State.waitStore]
@[simp] theorem State.waitStore_outstanding (s : State) (b : Bool) (a : Addr) (d : BitVec 64) : (s.waitStore b a d).outstanding = s.outstanding := by cases b <;> simp [State.waitStore]
@[simp] theorem State.waitStore_inFlight (s : State) (b : Bool) (a : Addr) (d : BitVec 64) : (s.waitStore b a d).inFlight = s.inFlight := by cases b <;> simp [State.waitStore]
@[simp] theorem State.waitStore_upReads (s : State) (b : Bool) (a : Addr) (d : BitVec 64) : (s.waitStore b a d).upReads = s.upReads := by cases b <;> simp [State.waitStore]
@[simp] theorem State.waitStore_upWrites (s : State) (b : Bool) (a : Addr) (d : BitVec 64) : (s.waitStore b a d).upWrites = s.upWrites := by cases b <;> simp [State.waitStore]
@[simp] theorem State.waitStore_pendingEvents (s : State) (b : Bool) (a : Addr) (d : BitVec 64) : (s.waitStore b a d).pendingEvents = s.pendingEvents := by cases b <;> simp [State.waitStore]
@[simp] theorem State.waitStore_intDue (s : State) (b : Bool) (a : Addr) (d : BitVec 64) : (s.waitStore b a d).intDue = s.intDue := by cases b <;> simp [State.waitStore]
@[simp] theorem State.waitStore_holes (s : State) (b : Bool) (a : Addr) (d : BitVec 64) : (s.waitStore b a d).holes = s.holes := by cases b <;> simp [State.waitStore]
@[simp] theorem State.waitStore_agenda (s : State) (b : Bool) (a : Addr) (d : BitVec 64) : (s.waitStore b a d).agenda = s.agenda := by cases b <;> simp [State.waitStore]
@[simp] theorem State.waitStore_draws (s : State) (b : Bool) (a : Addr) (d : BitVec 64) : (s.waitStore b a d).draws = s.draws := by cases b <;> simp [State.waitStore]
@[simp] theorem State.waitStore_nextId (s : State) (b : Bool) (a : Addr) (d : BitVec 64) : (s.waitStore b a d).nextId = s.nextId := by cases b <;> simp [State.waitStore]

@[simp] theorem State.waitFlag_capHeader (s : State) (b : Bool) : (s.waitFlag b).capHeader = s.capHeader := by cases b <;> rfl
@[simp] theorem State.waitFlag_capBaseLow (s : State) (b : Bool) : (s.waitFlag b).capBaseLow = s.capBaseLow := by cases b <;> rfl
@[simp] theorem State.waitFlag_capBaseHigh (s : State) (b : Bool) : (s.waitFlag b).capBaseHigh = s.capBaseHigh := by cases b <;> rfl
@[simp] theorem State.waitFlag_capRange (s : State) (b : Bool) : (s.waitFlag b).capRange = s.capRange := by cases b <;> rfl
@[simp] theorem State.waitFlag_capMisc (s : State) (b : Bool) : (s.waitFlag b).capMisc = s.capMisc := by cases b <;> rfl
@[simp] theorem State.waitFlag_rangeStrap (s : State) (b : Bool) : (s.waitFlag b).rangeStrap = s.rangeStrap := by cases b <;> rfl
@[simp] theorem State.waitFlag_devTabBase (s : State) (b : Bool) : (s.waitFlag b).devTabBase = s.devTabBase := by cases b <;> rfl
@[simp] theorem State.waitFlag_cmdBase (s : State) (b : Bool) : (s.waitFlag b).cmdBase = s.cmdBase := by cases b <;> rfl
@[simp] theorem State.waitFlag_evtBase (s : State) (b : Bool) : (s.waitFlag b).evtBase = s.evtBase := by cases b <;> rfl
@[simp] theorem State.waitFlag_control (s : State) (b : Bool) : (s.waitFlag b).control = s.control := by cases b <;> rfl
@[simp] theorem State.waitFlag_exclBase (s : State) (b : Bool) : (s.waitFlag b).exclBase = s.exclBase := by cases b <;> rfl
@[simp] theorem State.waitFlag_exclLimit (s : State) (b : Bool) : (s.waitFlag b).exclLimit = s.exclLimit := by cases b <;> rfl
@[simp] theorem State.waitFlag_cmdHead (s : State) (b : Bool) : (s.waitFlag b).cmdHead = s.cmdHead := by cases b <;> rfl
@[simp] theorem State.waitFlag_cmdTail (s : State) (b : Bool) : (s.waitFlag b).cmdTail = s.cmdTail := by cases b <;> rfl
@[simp] theorem State.waitFlag_evtHead (s : State) (b : Bool) : (s.waitFlag b).evtHead = s.evtHead := by cases b <;> rfl
@[simp] theorem State.waitFlag_evtTail (s : State) (b : Bool) : (s.waitFlag b).evtTail = s.evtTail := by cases b <;> rfl
@[simp] theorem State.waitFlag_status (s : State) (b : Bool) : (s.waitFlag b).status = if b then withBit s.status 2 true else s.status := by cases b <;> rfl
@[simp] theorem State.waitFlag_halted (s : State) (b : Bool) : (s.waitFlag b).halted = s.halted := by cases b <;> rfl
@[simp] theorem State.waitFlag_evtHalted (s : State) (b : Bool) : (s.waitFlag b).evtHalted = s.evtHalted := by cases b <;> rfl
@[simp] theorem State.waitFlag_dteCache (s : State) (b : Bool) : (s.waitFlag b).dteCache = s.dteCache := by cases b <;> rfl
@[simp] theorem State.waitFlag_tlb (s : State) (b : Bool) : (s.waitFlag b).tlb = s.tlb := by cases b <;> rfl
@[simp] theorem State.waitFlag_pdc (s : State) (b : Bool) : (s.waitFlag b).pdc = s.pdc := by cases b <;> rfl
@[simp] theorem State.waitFlag_irtCache (s : State) (b : Bool) : (s.waitFlag b).irtCache = s.irtCache := by cases b <;> rfl
@[simp] theorem State.waitFlag_faultLogged (s : State) (b : Bool) : (s.waitFlag b).faultLogged = s.faultLogged := by cases b <;> rfl
@[simp] theorem State.waitFlag_prefetched (s : State) (b : Bool) : (s.waitFlag b).prefetched = s.prefetched := by cases b <;> rfl
@[simp] theorem State.waitFlag_fetched (s : State) (b : Bool) : (s.waitFlag b).fetched = s.fetched := by cases b <;> rfl
@[simp] theorem State.waitFlag_outstanding (s : State) (b : Bool) : (s.waitFlag b).outstanding = s.outstanding := by cases b <;> rfl
@[simp] theorem State.waitFlag_inFlight (s : State) (b : Bool) : (s.waitFlag b).inFlight = s.inFlight := by cases b <;> rfl
@[simp] theorem State.waitFlag_upReads (s : State) (b : Bool) : (s.waitFlag b).upReads = s.upReads := by cases b <;> rfl
@[simp] theorem State.waitFlag_upWrites (s : State) (b : Bool) : (s.waitFlag b).upWrites = s.upWrites := by cases b <;> rfl
@[simp] theorem State.waitFlag_pendingEvents (s : State) (b : Bool) : (s.waitFlag b).pendingEvents = s.pendingEvents := by cases b <;> rfl
@[simp] theorem State.waitFlag_intDue (s : State) (b : Bool) : (s.waitFlag b).intDue = s.intDue + if b then s.interruptsFor .comWaitInt else 0 := by cases b <;> rfl
@[simp] theorem State.waitFlag_mem (s : State) (b : Bool) : (s.waitFlag b).mem = s.mem := by cases b <;> rfl
@[simp] theorem State.waitFlag_dram (s : State) (b : Bool) : (s.waitFlag b).dram = s.dram := by cases b <;> rfl
@[simp] theorem State.waitFlag_holes (s : State) (b : Bool) : (s.waitFlag b).holes = s.holes := by cases b <;> rfl
@[simp] theorem State.waitFlag_agenda (s : State) (b : Bool) : (s.waitFlag b).agenda = s.agenda := by cases b <;> rfl
@[simp] theorem State.waitFlag_outputs (s : State) (b : Bool) : (s.waitFlag b).outputs = s.outputs := by cases b <;> rfl
@[simp] theorem State.waitFlag_draws (s : State) (b : Bool) : (s.waitFlag b).draws = s.draws := by cases b <;> rfl
@[simp] theorem State.waitFlag_nextId (s : State) (b : Bool) : (s.waitFlag b).nextId = s.nextId := by cases b <;> rfl

@[simp] theorem State.raiseUnless_capHeader (s : State) (b : Bool) (e : Event) : (s.raiseUnless b e).capHeader = s.capHeader := by cases b <;> rfl
@[simp] theorem State.raiseUnless_capBaseLow (s : State) (b : Bool) (e : Event) : (s.raiseUnless b e).capBaseLow = s.capBaseLow := by cases b <;> rfl
@[simp] theorem State.raiseUnless_capBaseHigh (s : State) (b : Bool) (e : Event) : (s.raiseUnless b e).capBaseHigh = s.capBaseHigh := by cases b <;> rfl
@[simp] theorem State.raiseUnless_capRange (s : State) (b : Bool) (e : Event) : (s.raiseUnless b e).capRange = s.capRange := by cases b <;> rfl
@[simp] theorem State.raiseUnless_capMisc (s : State) (b : Bool) (e : Event) : (s.raiseUnless b e).capMisc = s.capMisc := by cases b <;> rfl
@[simp] theorem State.raiseUnless_rangeStrap (s : State) (b : Bool) (e : Event) : (s.raiseUnless b e).rangeStrap = s.rangeStrap := by cases b <;> rfl
@[simp] theorem State.raiseUnless_devTabBase (s : State) (b : Bool) (e : Event) : (s.raiseUnless b e).devTabBase = s.devTabBase := by cases b <;> rfl
@[simp] theorem State.raiseUnless_cmdBase (s : State) (b : Bool) (e : Event) : (s.raiseUnless b e).cmdBase = s.cmdBase := by cases b <;> rfl
@[simp] theorem State.raiseUnless_evtBase (s : State) (b : Bool) (e : Event) : (s.raiseUnless b e).evtBase = s.evtBase := by cases b <;> rfl
@[simp] theorem State.raiseUnless_control (s : State) (b : Bool) (e : Event) : (s.raiseUnless b e).control = s.control := by cases b <;> rfl
@[simp] theorem State.raiseUnless_exclBase (s : State) (b : Bool) (e : Event) : (s.raiseUnless b e).exclBase = s.exclBase := by cases b <;> rfl
@[simp] theorem State.raiseUnless_exclLimit (s : State) (b : Bool) (e : Event) : (s.raiseUnless b e).exclLimit = s.exclLimit := by cases b <;> rfl
@[simp] theorem State.raiseUnless_cmdHead (s : State) (b : Bool) (e : Event) : (s.raiseUnless b e).cmdHead = s.cmdHead := by cases b <;> rfl
@[simp] theorem State.raiseUnless_cmdTail (s : State) (b : Bool) (e : Event) : (s.raiseUnless b e).cmdTail = s.cmdTail := by cases b <;> rfl
@[simp] theorem State.raiseUnless_evtHead (s : State) (b : Bool) (e : Event) : (s.raiseUnless b e).evtHead = s.evtHead := by cases b <;> rfl
@[simp] theorem State.raiseUnless_evtTail (s : State) (b : Bool) (e : Event) : (s.raiseUnless b e).evtTail = s.evtTail := by cases b <;> rfl
@[simp] theorem State.raiseUnless_status (s : State) (b : Bool) (e : Event) : (s.raiseUnless b e).status = s.status := by cases b <;> rfl
@[simp] theorem State.raiseUnless_halted (s : State) (b : Bool) (e : Event) : (s.raiseUnless b e).halted = s.halted := by cases b <;> rfl
@[simp] theorem State.raiseUnless_evtHalted (s : State) (b : Bool) (e : Event) : (s.raiseUnless b e).evtHalted = s.evtHalted := by cases b <;> rfl
@[simp] theorem State.raiseUnless_dteCache (s : State) (b : Bool) (e : Event) : (s.raiseUnless b e).dteCache = s.dteCache := by cases b <;> rfl
@[simp] theorem State.raiseUnless_tlb (s : State) (b : Bool) (e : Event) : (s.raiseUnless b e).tlb = s.tlb := by cases b <;> rfl
@[simp] theorem State.raiseUnless_pdc (s : State) (b : Bool) (e : Event) : (s.raiseUnless b e).pdc = s.pdc := by cases b <;> rfl
@[simp] theorem State.raiseUnless_irtCache (s : State) (b : Bool) (e : Event) : (s.raiseUnless b e).irtCache = s.irtCache := by cases b <;> rfl
@[simp] theorem State.raiseUnless_faultLogged (s : State) (b : Bool) (e : Event) : (s.raiseUnless b e).faultLogged = s.faultLogged := by cases b <;> rfl
@[simp] theorem State.raiseUnless_prefetched (s : State) (b : Bool) (e : Event) : (s.raiseUnless b e).prefetched = s.prefetched := by cases b <;> rfl
@[simp] theorem State.raiseUnless_fetched (s : State) (b : Bool) (e : Event) : (s.raiseUnless b e).fetched = s.fetched := by cases b <;> rfl
@[simp] theorem State.raiseUnless_outstanding (s : State) (b : Bool) (e : Event) : (s.raiseUnless b e).outstanding = s.outstanding := by cases b <;> rfl
@[simp] theorem State.raiseUnless_inFlight (s : State) (b : Bool) (e : Event) : (s.raiseUnless b e).inFlight = s.inFlight := by cases b <;> rfl
@[simp] theorem State.raiseUnless_upReads (s : State) (b : Bool) (e : Event) : (s.raiseUnless b e).upReads = s.upReads := by cases b <;> rfl
@[simp] theorem State.raiseUnless_upWrites (s : State) (b : Bool) (e : Event) : (s.raiseUnless b e).upWrites = s.upWrites := by cases b <;> rfl
@[simp] theorem State.raiseUnless_pendingEvents (s : State) (b : Bool) (e : Event) : (s.raiseUnless b e).pendingEvents = s.pendingEvents ++ if b then [] else [⟨e, none, s.detected⟩] := by cases b <;> simp [State.raiseUnless]
@[simp] theorem State.raiseUnless_intDue (s : State) (b : Bool) (e : Event) : (s.raiseUnless b e).intDue = s.intDue := by cases b <;> rfl
@[simp] theorem State.raiseUnless_mem (s : State) (b : Bool) (e : Event) : (s.raiseUnless b e).mem = s.mem := by cases b <;> rfl
@[simp] theorem State.raiseUnless_dram (s : State) (b : Bool) (e : Event) : (s.raiseUnless b e).dram = s.dram := by cases b <;> rfl
@[simp] theorem State.raiseUnless_holes (s : State) (b : Bool) (e : Event) : (s.raiseUnless b e).holes = s.holes := by cases b <;> rfl
@[simp] theorem State.raiseUnless_agenda (s : State) (b : Bool) (e : Event) : (s.raiseUnless b e).agenda = s.agenda := by cases b <;> rfl
@[simp] theorem State.raiseUnless_outputs (s : State) (b : Bool) (e : Event) : (s.raiseUnless b e).outputs = s.outputs := by cases b <;> rfl
@[simp] theorem State.raiseUnless_draws (s : State) (b : Bool) (e : Event) : (s.raiseUnless b e).draws = s.draws := by cases b <;> rfl
@[simp] theorem State.raiseUnless_nextId (s : State) (b : Bool) (e : Event) : (s.raiseUnless b e).nextId = s.nextId := by cases b <;> rfl

@[simp] theorem State.raisePageFault_capHeader (s : State) (d : Dte) (dev : DeviceId) (e : Event) : (s.raisePageFault d dev e).capHeader = s.capHeader := by unfold State.raisePageFault; split <;> (try split) <;> simp_all
@[simp] theorem State.raisePageFault_capBaseLow (s : State) (d : Dte) (dev : DeviceId) (e : Event) : (s.raisePageFault d dev e).capBaseLow = s.capBaseLow := by unfold State.raisePageFault; split <;> (try split) <;> simp_all
@[simp] theorem State.raisePageFault_capBaseHigh (s : State) (d : Dte) (dev : DeviceId) (e : Event) : (s.raisePageFault d dev e).capBaseHigh = s.capBaseHigh := by unfold State.raisePageFault; split <;> (try split) <;> simp_all
@[simp] theorem State.raisePageFault_capRange (s : State) (d : Dte) (dev : DeviceId) (e : Event) : (s.raisePageFault d dev e).capRange = s.capRange := by unfold State.raisePageFault; split <;> (try split) <;> simp_all
@[simp] theorem State.raisePageFault_capMisc (s : State) (d : Dte) (dev : DeviceId) (e : Event) : (s.raisePageFault d dev e).capMisc = s.capMisc := by unfold State.raisePageFault; split <;> (try split) <;> simp_all
@[simp] theorem State.raisePageFault_rangeStrap (s : State) (d : Dte) (dev : DeviceId) (e : Event) : (s.raisePageFault d dev e).rangeStrap = s.rangeStrap := by unfold State.raisePageFault; split <;> (try split) <;> simp_all
@[simp] theorem State.raisePageFault_devTabBase (s : State) (d : Dte) (dev : DeviceId) (e : Event) : (s.raisePageFault d dev e).devTabBase = s.devTabBase := by unfold State.raisePageFault; split <;> (try split) <;> simp_all
@[simp] theorem State.raisePageFault_cmdBase (s : State) (d : Dte) (dev : DeviceId) (e : Event) : (s.raisePageFault d dev e).cmdBase = s.cmdBase := by unfold State.raisePageFault; split <;> (try split) <;> simp_all
@[simp] theorem State.raisePageFault_evtBase (s : State) (d : Dte) (dev : DeviceId) (e : Event) : (s.raisePageFault d dev e).evtBase = s.evtBase := by unfold State.raisePageFault; split <;> (try split) <;> simp_all
@[simp] theorem State.raisePageFault_control (s : State) (d : Dte) (dev : DeviceId) (e : Event) : (s.raisePageFault d dev e).control = s.control := by unfold State.raisePageFault; split <;> (try split) <;> simp_all
@[simp] theorem State.raisePageFault_exclBase (s : State) (d : Dte) (dev : DeviceId) (e : Event) : (s.raisePageFault d dev e).exclBase = s.exclBase := by unfold State.raisePageFault; split <;> (try split) <;> simp_all
@[simp] theorem State.raisePageFault_exclLimit (s : State) (d : Dte) (dev : DeviceId) (e : Event) : (s.raisePageFault d dev e).exclLimit = s.exclLimit := by unfold State.raisePageFault; split <;> (try split) <;> simp_all
@[simp] theorem State.raisePageFault_cmdHead (s : State) (d : Dte) (dev : DeviceId) (e : Event) : (s.raisePageFault d dev e).cmdHead = s.cmdHead := by unfold State.raisePageFault; split <;> (try split) <;> simp_all
@[simp] theorem State.raisePageFault_cmdTail (s : State) (d : Dte) (dev : DeviceId) (e : Event) : (s.raisePageFault d dev e).cmdTail = s.cmdTail := by unfold State.raisePageFault; split <;> (try split) <;> simp_all
@[simp] theorem State.raisePageFault_evtHead (s : State) (d : Dte) (dev : DeviceId) (e : Event) : (s.raisePageFault d dev e).evtHead = s.evtHead := by unfold State.raisePageFault; split <;> (try split) <;> simp_all
@[simp] theorem State.raisePageFault_evtTail (s : State) (d : Dte) (dev : DeviceId) (e : Event) : (s.raisePageFault d dev e).evtTail = s.evtTail := by unfold State.raisePageFault; split <;> (try split) <;> simp_all
@[simp] theorem State.raisePageFault_status (s : State) (d : Dte) (dev : DeviceId) (e : Event) : (s.raisePageFault d dev e).status = s.status := by unfold State.raisePageFault; split <;> (try split) <;> simp_all
@[simp] theorem State.raisePageFault_halted (s : State) (d : Dte) (dev : DeviceId) (e : Event) : (s.raisePageFault d dev e).halted = s.halted := by unfold State.raisePageFault; split <;> (try split) <;> simp_all
@[simp] theorem State.raisePageFault_evtHalted (s : State) (d : Dte) (dev : DeviceId) (e : Event) : (s.raisePageFault d dev e).evtHalted = s.evtHalted := by unfold State.raisePageFault; split <;> (try split) <;> simp_all
@[simp] theorem State.raisePageFault_dteCache (s : State) (d : Dte) (dev : DeviceId) (e : Event) : (s.raisePageFault d dev e).dteCache = s.dteCache := by unfold State.raisePageFault; split <;> (try split) <;> simp_all
@[simp] theorem State.raisePageFault_tlb (s : State) (d : Dte) (dev : DeviceId) (e : Event) : (s.raisePageFault d dev e).tlb = s.tlb := by unfold State.raisePageFault; split <;> (try split) <;> simp_all
@[simp] theorem State.raisePageFault_pdc (s : State) (d : Dte) (dev : DeviceId) (e : Event) : (s.raisePageFault d dev e).pdc = s.pdc := by unfold State.raisePageFault; split <;> (try split) <;> simp_all
@[simp] theorem State.raisePageFault_irtCache (s : State) (d : Dte) (dev : DeviceId) (e : Event) : (s.raisePageFault d dev e).irtCache = s.irtCache := by unfold State.raisePageFault; split <;> (try split) <;> simp_all
@[simp] theorem State.raisePageFault_faultLogged (s : State) (d : Dte) (dev : DeviceId) (e : Event) : (s.raisePageFault d dev e).faultLogged = s.faultLogged := by unfold State.raisePageFault; split <;> (try split) <;> simp_all
@[simp] theorem State.raisePageFault_prefetched (s : State) (d : Dte) (dev : DeviceId) (e : Event) : (s.raisePageFault d dev e).prefetched = s.prefetched := by unfold State.raisePageFault; split <;> (try split) <;> simp_all
@[simp] theorem State.raisePageFault_fetched (s : State) (d : Dte) (dev : DeviceId) (e : Event) : (s.raisePageFault d dev e).fetched = s.fetched := by unfold State.raisePageFault; split <;> (try split) <;> simp_all
@[simp] theorem State.raisePageFault_outstanding (s : State) (d : Dte) (dev : DeviceId) (e : Event) : (s.raisePageFault d dev e).outstanding = s.outstanding := by unfold State.raisePageFault; split <;> (try split) <;> simp_all
@[simp] theorem State.raisePageFault_inFlight (s : State) (d : Dte) (dev : DeviceId) (e : Event) : (s.raisePageFault d dev e).inFlight = s.inFlight := by unfold State.raisePageFault; split <;> (try split) <;> simp_all
@[simp] theorem State.raisePageFault_upReads (s : State) (d : Dte) (dev : DeviceId) (e : Event) : (s.raisePageFault d dev e).upReads = s.upReads := by unfold State.raisePageFault; split <;> (try split) <;> simp_all
@[simp] theorem State.raisePageFault_upWrites (s : State) (d : Dte) (dev : DeviceId) (e : Event) : (s.raisePageFault d dev e).upWrites = s.upWrites := by unfold State.raisePageFault; split <;> (try split) <;> simp_all
@[simp] theorem State.raisePageFault_pendingEvents (s : State) (d : Dte) (dev : DeviceId) (e : Event) : (s.raisePageFault d dev e).pendingEvents = s.pendingEvents ++ if d.sa then [] else [⟨e, if d.se then some dev else none, s.detected⟩] := by unfold State.raisePageFault; split <;> (try split) <;> simp_all
@[simp] theorem State.raisePageFault_intDue (s : State) (d : Dte) (dev : DeviceId) (e : Event) : (s.raisePageFault d dev e).intDue = s.intDue := by unfold State.raisePageFault; split <;> (try split) <;> simp_all
@[simp] theorem State.raisePageFault_mem (s : State) (d : Dte) (dev : DeviceId) (e : Event) : (s.raisePageFault d dev e).mem = s.mem := by unfold State.raisePageFault; split <;> (try split) <;> simp_all
@[simp] theorem State.raisePageFault_dram (s : State) (d : Dte) (dev : DeviceId) (e : Event) : (s.raisePageFault d dev e).dram = s.dram := by unfold State.raisePageFault; split <;> (try split) <;> simp_all
@[simp] theorem State.raisePageFault_holes (s : State) (d : Dte) (dev : DeviceId) (e : Event) : (s.raisePageFault d dev e).holes = s.holes := by unfold State.raisePageFault; split <;> (try split) <;> simp_all
@[simp] theorem State.raisePageFault_agenda (s : State) (d : Dte) (dev : DeviceId) (e : Event) : (s.raisePageFault d dev e).agenda = s.agenda := by unfold State.raisePageFault; split <;> (try split) <;> simp_all
@[simp] theorem State.raisePageFault_outputs (s : State) (d : Dte) (dev : DeviceId) (e : Event) : (s.raisePageFault d dev e).outputs = s.outputs := by unfold State.raisePageFault; split <;> (try split) <;> simp_all
@[simp] theorem State.raisePageFault_draws (s : State) (d : Dte) (dev : DeviceId) (e : Event) : (s.raisePageFault d dev e).draws = s.draws := by unfold State.raisePageFault; split <;> (try split) <;> simp_all
@[simp] theorem State.raisePageFault_nextId (s : State) (d : Dte) (dev : DeviceId) (e : Event) : (s.raisePageFault d dev e).nextId = s.nextId := by unfold State.raisePageFault; split <;> (try split) <;> simp_all

/-- Which devices are cached does not depend on what a write to memory, the tail pointer or a flag changes. -/
theorem State.dteCached_ownWrite (s : State) (a : Addr) (d : List Byte) (t : Attrs) (r : Reg) (b : StatusBit) :
    ({ s.ownWrite a d t with evtTail := r }.raiseFlag b).dteCached = s.dteCached := by
  funext x; simp [State.dteCached]

@[simp] theorem State.noteFirstFault_capHeader (s : State) (d : Option DeviceId) : (s.noteFirstFault d).capHeader = s.capHeader := by unfold State.noteFirstFault; split <;> (try split) <;> rfl
@[simp] theorem State.noteFirstFault_capBaseLow (s : State) (d : Option DeviceId) : (s.noteFirstFault d).capBaseLow = s.capBaseLow := by unfold State.noteFirstFault; split <;> (try split) <;> rfl
@[simp] theorem State.noteFirstFault_capBaseHigh (s : State) (d : Option DeviceId) : (s.noteFirstFault d).capBaseHigh = s.capBaseHigh := by unfold State.noteFirstFault; split <;> (try split) <;> rfl
@[simp] theorem State.noteFirstFault_capRange (s : State) (d : Option DeviceId) : (s.noteFirstFault d).capRange = s.capRange := by unfold State.noteFirstFault; split <;> (try split) <;> rfl
@[simp] theorem State.noteFirstFault_capMisc (s : State) (d : Option DeviceId) : (s.noteFirstFault d).capMisc = s.capMisc := by unfold State.noteFirstFault; split <;> (try split) <;> rfl
@[simp] theorem State.noteFirstFault_rangeStrap (s : State) (d : Option DeviceId) : (s.noteFirstFault d).rangeStrap = s.rangeStrap := by unfold State.noteFirstFault; split <;> (try split) <;> rfl
@[simp] theorem State.noteFirstFault_devTabBase (s : State) (d : Option DeviceId) : (s.noteFirstFault d).devTabBase = s.devTabBase := by unfold State.noteFirstFault; split <;> (try split) <;> rfl
@[simp] theorem State.noteFirstFault_cmdBase (s : State) (d : Option DeviceId) : (s.noteFirstFault d).cmdBase = s.cmdBase := by unfold State.noteFirstFault; split <;> (try split) <;> rfl
@[simp] theorem State.noteFirstFault_evtBase (s : State) (d : Option DeviceId) : (s.noteFirstFault d).evtBase = s.evtBase := by unfold State.noteFirstFault; split <;> (try split) <;> rfl
@[simp] theorem State.noteFirstFault_control (s : State) (d : Option DeviceId) : (s.noteFirstFault d).control = s.control := by unfold State.noteFirstFault; split <;> (try split) <;> rfl
@[simp] theorem State.noteFirstFault_exclBase (s : State) (d : Option DeviceId) : (s.noteFirstFault d).exclBase = s.exclBase := by unfold State.noteFirstFault; split <;> (try split) <;> rfl
@[simp] theorem State.noteFirstFault_exclLimit (s : State) (d : Option DeviceId) : (s.noteFirstFault d).exclLimit = s.exclLimit := by unfold State.noteFirstFault; split <;> (try split) <;> rfl
@[simp] theorem State.noteFirstFault_cmdHead (s : State) (d : Option DeviceId) : (s.noteFirstFault d).cmdHead = s.cmdHead := by unfold State.noteFirstFault; split <;> (try split) <;> rfl
@[simp] theorem State.noteFirstFault_cmdTail (s : State) (d : Option DeviceId) : (s.noteFirstFault d).cmdTail = s.cmdTail := by unfold State.noteFirstFault; split <;> (try split) <;> rfl
@[simp] theorem State.noteFirstFault_evtHead (s : State) (d : Option DeviceId) : (s.noteFirstFault d).evtHead = s.evtHead := by unfold State.noteFirstFault; split <;> (try split) <;> rfl
@[simp] theorem State.noteFirstFault_evtTail (s : State) (d : Option DeviceId) : (s.noteFirstFault d).evtTail = s.evtTail := by unfold State.noteFirstFault; split <;> (try split) <;> rfl
@[simp] theorem State.noteFirstFault_status (s : State) (d : Option DeviceId) : (s.noteFirstFault d).status = s.status := by unfold State.noteFirstFault; split <;> (try split) <;> rfl
@[simp] theorem State.noteFirstFault_halted (s : State) (d : Option DeviceId) : (s.noteFirstFault d).halted = s.halted := by unfold State.noteFirstFault; split <;> (try split) <;> rfl
@[simp] theorem State.noteFirstFault_evtHalted (s : State) (d : Option DeviceId) : (s.noteFirstFault d).evtHalted = s.evtHalted := by unfold State.noteFirstFault; split <;> (try split) <;> rfl
@[simp] theorem State.noteFirstFault_dteCache (s : State) (d : Option DeviceId) : (s.noteFirstFault d).dteCache = s.dteCache := by unfold State.noteFirstFault; split <;> (try split) <;> rfl
@[simp] theorem State.noteFirstFault_tlb (s : State) (d : Option DeviceId) : (s.noteFirstFault d).tlb = s.tlb := by unfold State.noteFirstFault; split <;> (try split) <;> rfl
@[simp] theorem State.noteFirstFault_pdc (s : State) (d : Option DeviceId) : (s.noteFirstFault d).pdc = s.pdc := by unfold State.noteFirstFault; split <;> (try split) <;> rfl
@[simp] theorem State.noteFirstFault_irtCache (s : State) (d : Option DeviceId) : (s.noteFirstFault d).irtCache = s.irtCache := by unfold State.noteFirstFault; split <;> (try split) <;> rfl
@[simp] theorem State.noteFirstFault_faultLogged (s : State) (d : Option DeviceId) : (s.noteFirstFault d).faultLogged = (d.filter s.dteCached).toList ++ s.faultLogged := by cases d <;> simp [State.noteFirstFault, Option.filter]; split <;> simp_all
@[simp] theorem State.noteFirstFault_prefetched (s : State) (d : Option DeviceId) : (s.noteFirstFault d).prefetched = s.prefetched := by unfold State.noteFirstFault; split <;> (try split) <;> rfl
@[simp] theorem State.noteFirstFault_fetched (s : State) (d : Option DeviceId) : (s.noteFirstFault d).fetched = s.fetched := by unfold State.noteFirstFault; split <;> (try split) <;> rfl
@[simp] theorem State.noteFirstFault_outstanding (s : State) (d : Option DeviceId) : (s.noteFirstFault d).outstanding = s.outstanding := by unfold State.noteFirstFault; split <;> (try split) <;> rfl
@[simp] theorem State.noteFirstFault_inFlight (s : State) (d : Option DeviceId) : (s.noteFirstFault d).inFlight = s.inFlight := by unfold State.noteFirstFault; split <;> (try split) <;> rfl
@[simp] theorem State.noteFirstFault_upReads (s : State) (d : Option DeviceId) : (s.noteFirstFault d).upReads = s.upReads := by unfold State.noteFirstFault; split <;> (try split) <;> rfl
@[simp] theorem State.noteFirstFault_upWrites (s : State) (d : Option DeviceId) : (s.noteFirstFault d).upWrites = s.upWrites := by unfold State.noteFirstFault; split <;> (try split) <;> rfl
@[simp] theorem State.noteFirstFault_pendingEvents (s : State) (d : Option DeviceId) : (s.noteFirstFault d).pendingEvents = s.pendingEvents := by unfold State.noteFirstFault; split <;> (try split) <;> rfl
@[simp] theorem State.noteFirstFault_intDue (s : State) (d : Option DeviceId) : (s.noteFirstFault d).intDue = s.intDue := by unfold State.noteFirstFault; split <;> (try split) <;> rfl
@[simp] theorem State.noteFirstFault_mem (s : State) (d : Option DeviceId) : (s.noteFirstFault d).mem = s.mem := by unfold State.noteFirstFault; split <;> (try split) <;> rfl
@[simp] theorem State.noteFirstFault_dram (s : State) (d : Option DeviceId) : (s.noteFirstFault d).dram = s.dram := by unfold State.noteFirstFault; split <;> (try split) <;> rfl
@[simp] theorem State.noteFirstFault_holes (s : State) (d : Option DeviceId) : (s.noteFirstFault d).holes = s.holes := by unfold State.noteFirstFault; split <;> (try split) <;> rfl
@[simp] theorem State.noteFirstFault_agenda (s : State) (d : Option DeviceId) : (s.noteFirstFault d).agenda = s.agenda := by unfold State.noteFirstFault; split <;> (try split) <;> rfl
@[simp] theorem State.noteFirstFault_outputs (s : State) (d : Option DeviceId) : (s.noteFirstFault d).outputs = s.outputs := by unfold State.noteFirstFault; split <;> (try split) <;> rfl
@[simp] theorem State.noteFirstFault_draws (s : State) (d : Option DeviceId) : (s.noteFirstFault d).draws = s.draws := by unfold State.noteFirstFault; split <;> (try split) <;> rfl
@[simp] theorem State.noteFirstFault_nextId (s : State) (d : Option DeviceId) : (s.noteFirstFault d).nextId = s.nextId := by unfold State.noteFirstFault; split <;> (try split) <;> rfl

@[simp] theorem State.keepDte_capHeader (s : State) (t : InFlight) (c : TxChoice) (l : List DteCacheEntry) : (s.keepDte t c l).capHeader = s.capHeader := by unfold State.keepDte; split <;> rfl
@[simp] theorem State.keepDte_capBaseLow (s : State) (t : InFlight) (c : TxChoice) (l : List DteCacheEntry) : (s.keepDte t c l).capBaseLow = s.capBaseLow := by unfold State.keepDte; split <;> rfl
@[simp] theorem State.keepDte_capBaseHigh (s : State) (t : InFlight) (c : TxChoice) (l : List DteCacheEntry) : (s.keepDte t c l).capBaseHigh = s.capBaseHigh := by unfold State.keepDte; split <;> rfl
@[simp] theorem State.keepDte_capRange (s : State) (t : InFlight) (c : TxChoice) (l : List DteCacheEntry) : (s.keepDte t c l).capRange = s.capRange := by unfold State.keepDte; split <;> rfl
@[simp] theorem State.keepDte_capMisc (s : State) (t : InFlight) (c : TxChoice) (l : List DteCacheEntry) : (s.keepDte t c l).capMisc = s.capMisc := by unfold State.keepDte; split <;> rfl
@[simp] theorem State.keepDte_rangeStrap (s : State) (t : InFlight) (c : TxChoice) (l : List DteCacheEntry) : (s.keepDte t c l).rangeStrap = s.rangeStrap := by unfold State.keepDte; split <;> rfl
@[simp] theorem State.keepDte_devTabBase (s : State) (t : InFlight) (c : TxChoice) (l : List DteCacheEntry) : (s.keepDte t c l).devTabBase = s.devTabBase := by unfold State.keepDte; split <;> rfl
@[simp] theorem State.keepDte_cmdBase (s : State) (t : InFlight) (c : TxChoice) (l : List DteCacheEntry) : (s.keepDte t c l).cmdBase = s.cmdBase := by unfold State.keepDte; split <;> rfl
@[simp] theorem State.keepDte_evtBase (s : State) (t : InFlight) (c : TxChoice) (l : List DteCacheEntry) : (s.keepDte t c l).evtBase = s.evtBase := by unfold State.keepDte; split <;> rfl
@[simp] theorem State.keepDte_control (s : State) (t : InFlight) (c : TxChoice) (l : List DteCacheEntry) : (s.keepDte t c l).control = s.control := by unfold State.keepDte; split <;> rfl
@[simp] theorem State.keepDte_exclBase (s : State) (t : InFlight) (c : TxChoice) (l : List DteCacheEntry) : (s.keepDte t c l).exclBase = s.exclBase := by unfold State.keepDte; split <;> rfl
@[simp] theorem State.keepDte_exclLimit (s : State) (t : InFlight) (c : TxChoice) (l : List DteCacheEntry) : (s.keepDte t c l).exclLimit = s.exclLimit := by unfold State.keepDte; split <;> rfl
@[simp] theorem State.keepDte_cmdHead (s : State) (t : InFlight) (c : TxChoice) (l : List DteCacheEntry) : (s.keepDte t c l).cmdHead = s.cmdHead := by unfold State.keepDte; split <;> rfl
@[simp] theorem State.keepDte_cmdTail (s : State) (t : InFlight) (c : TxChoice) (l : List DteCacheEntry) : (s.keepDte t c l).cmdTail = s.cmdTail := by unfold State.keepDte; split <;> rfl
@[simp] theorem State.keepDte_evtHead (s : State) (t : InFlight) (c : TxChoice) (l : List DteCacheEntry) : (s.keepDte t c l).evtHead = s.evtHead := by unfold State.keepDte; split <;> rfl
@[simp] theorem State.keepDte_evtTail (s : State) (t : InFlight) (c : TxChoice) (l : List DteCacheEntry) : (s.keepDte t c l).evtTail = s.evtTail := by unfold State.keepDte; split <;> rfl
@[simp] theorem State.keepDte_status (s : State) (t : InFlight) (c : TxChoice) (l : List DteCacheEntry) : (s.keepDte t c l).status = s.status := by unfold State.keepDte; split <;> rfl
@[simp] theorem State.keepDte_halted (s : State) (t : InFlight) (c : TxChoice) (l : List DteCacheEntry) : (s.keepDte t c l).halted = s.halted := by unfold State.keepDte; split <;> rfl
@[simp] theorem State.keepDte_evtHalted (s : State) (t : InFlight) (c : TxChoice) (l : List DteCacheEntry) : (s.keepDte t c l).evtHalted = s.evtHalted := by unfold State.keepDte; split <;> rfl
@[simp] theorem State.keepDte_tlb (s : State) (t : InFlight) (c : TxChoice) (l : List DteCacheEntry) : (s.keepDte t c l).tlb = s.tlb := by unfold State.keepDte; split <;> rfl
@[simp] theorem State.keepDte_pdc (s : State) (t : InFlight) (c : TxChoice) (l : List DteCacheEntry) : (s.keepDte t c l).pdc = s.pdc := by unfold State.keepDte; split <;> rfl
@[simp] theorem State.keepDte_irtCache (s : State) (t : InFlight) (c : TxChoice) (l : List DteCacheEntry) : (s.keepDte t c l).irtCache = s.irtCache := by unfold State.keepDte; split <;> rfl
@[simp] theorem State.keepDte_faultLogged (s : State) (t : InFlight) (c : TxChoice) (l : List DteCacheEntry) : (s.keepDte t c l).faultLogged = s.faultLogged := by unfold State.keepDte; split <;> rfl
@[simp] theorem State.keepDte_prefetched (s : State) (t : InFlight) (c : TxChoice) (l : List DteCacheEntry) : (s.keepDte t c l).prefetched = s.prefetched := by unfold State.keepDte; split <;> rfl
@[simp] theorem State.keepDte_fetched (s : State) (t : InFlight) (c : TxChoice) (l : List DteCacheEntry) : (s.keepDte t c l).fetched = s.fetched := by unfold State.keepDte; split <;> rfl
@[simp] theorem State.keepDte_outstanding (s : State) (t : InFlight) (c : TxChoice) (l : List DteCacheEntry) : (s.keepDte t c l).outstanding = s.outstanding := by unfold State.keepDte; split <;> rfl
@[simp] theorem State.keepDte_inFlight (s : State) (t : InFlight) (c : TxChoice) (l : List DteCacheEntry) : (s.keepDte t c l).inFlight = s.inFlight := by unfold State.keepDte; split <;> rfl
@[simp] theorem State.keepDte_upReads (s : State) (t : InFlight) (c : TxChoice) (l : List DteCacheEntry) : (s.keepDte t c l).upReads = s.upReads := by unfold State.keepDte; split <;> rfl
@[simp] theorem State.keepDte_upWrites (s : State) (t : InFlight) (c : TxChoice) (l : List DteCacheEntry) : (s.keepDte t c l).upWrites = s.upWrites := by unfold State.keepDte; split <;> rfl
@[simp] theorem State.keepDte_pendingEvents (s : State) (t : InFlight) (c : TxChoice) (l : List DteCacheEntry) : (s.keepDte t c l).pendingEvents = s.pendingEvents := by unfold State.keepDte; split <;> rfl
@[simp] theorem State.keepDte_intDue (s : State) (t : InFlight) (c : TxChoice) (l : List DteCacheEntry) : (s.keepDte t c l).intDue = s.intDue := by unfold State.keepDte; split <;> rfl
@[simp] theorem State.keepDte_mem (s : State) (t : InFlight) (c : TxChoice) (l : List DteCacheEntry) : (s.keepDte t c l).mem = s.mem := by unfold State.keepDte; split <;> rfl
@[simp] theorem State.keepDte_dram (s : State) (t : InFlight) (c : TxChoice) (l : List DteCacheEntry) : (s.keepDte t c l).dram = s.dram := by unfold State.keepDte; split <;> rfl
@[simp] theorem State.keepDte_holes (s : State) (t : InFlight) (c : TxChoice) (l : List DteCacheEntry) : (s.keepDte t c l).holes = s.holes := by unfold State.keepDte; split <;> rfl
@[simp] theorem State.keepDte_agenda (s : State) (t : InFlight) (c : TxChoice) (l : List DteCacheEntry) : (s.keepDte t c l).agenda = s.agenda := by unfold State.keepDte; split <;> rfl
@[simp] theorem State.keepDte_outputs (s : State) (t : InFlight) (c : TxChoice) (l : List DteCacheEntry) : (s.keepDte t c l).outputs = s.outputs := by unfold State.keepDte; split <;> rfl
@[simp] theorem State.keepDte_draws (s : State) (t : InFlight) (c : TxChoice) (l : List DteCacheEntry) : (s.keepDte t c l).draws = s.draws := by unfold State.keepDte; split <;> rfl
@[simp] theorem State.keepDte_nextId (s : State) (t : InFlight) (c : TxChoice) (l : List DteCacheEntry) : (s.keepDte t c l).nextId = s.nextId := by unfold State.keepDte; split <;> rfl

@[simp] theorem State.sendUp_capHeader (s : State) (f : Forwarded) : (s.sendUp f).capHeader = s.capHeader := by unfold State.sendUp; split <;> rfl
@[simp] theorem State.sendUp_capBaseLow (s : State) (f : Forwarded) : (s.sendUp f).capBaseLow = s.capBaseLow := by unfold State.sendUp; split <;> rfl
@[simp] theorem State.sendUp_capBaseHigh (s : State) (f : Forwarded) : (s.sendUp f).capBaseHigh = s.capBaseHigh := by unfold State.sendUp; split <;> rfl
@[simp] theorem State.sendUp_capRange (s : State) (f : Forwarded) : (s.sendUp f).capRange = s.capRange := by unfold State.sendUp; split <;> rfl
@[simp] theorem State.sendUp_capMisc (s : State) (f : Forwarded) : (s.sendUp f).capMisc = s.capMisc := by unfold State.sendUp; split <;> rfl
@[simp] theorem State.sendUp_rangeStrap (s : State) (f : Forwarded) : (s.sendUp f).rangeStrap = s.rangeStrap := by unfold State.sendUp; split <;> rfl
@[simp] theorem State.sendUp_devTabBase (s : State) (f : Forwarded) : (s.sendUp f).devTabBase = s.devTabBase := by unfold State.sendUp; split <;> rfl
@[simp] theorem State.sendUp_cmdBase (s : State) (f : Forwarded) : (s.sendUp f).cmdBase = s.cmdBase := by unfold State.sendUp; split <;> rfl
@[simp] theorem State.sendUp_evtBase (s : State) (f : Forwarded) : (s.sendUp f).evtBase = s.evtBase := by unfold State.sendUp; split <;> rfl
@[simp] theorem State.sendUp_control (s : State) (f : Forwarded) : (s.sendUp f).control = s.control := by unfold State.sendUp; split <;> rfl
@[simp] theorem State.sendUp_exclBase (s : State) (f : Forwarded) : (s.sendUp f).exclBase = s.exclBase := by unfold State.sendUp; split <;> rfl
@[simp] theorem State.sendUp_exclLimit (s : State) (f : Forwarded) : (s.sendUp f).exclLimit = s.exclLimit := by unfold State.sendUp; split <;> rfl
@[simp] theorem State.sendUp_cmdHead (s : State) (f : Forwarded) : (s.sendUp f).cmdHead = s.cmdHead := by unfold State.sendUp; split <;> rfl
@[simp] theorem State.sendUp_cmdTail (s : State) (f : Forwarded) : (s.sendUp f).cmdTail = s.cmdTail := by unfold State.sendUp; split <;> rfl
@[simp] theorem State.sendUp_evtHead (s : State) (f : Forwarded) : (s.sendUp f).evtHead = s.evtHead := by unfold State.sendUp; split <;> rfl
@[simp] theorem State.sendUp_evtTail (s : State) (f : Forwarded) : (s.sendUp f).evtTail = s.evtTail := by unfold State.sendUp; split <;> rfl
@[simp] theorem State.sendUp_status (s : State) (f : Forwarded) : (s.sendUp f).status = s.status := by unfold State.sendUp; split <;> rfl
@[simp] theorem State.sendUp_halted (s : State) (f : Forwarded) : (s.sendUp f).halted = s.halted := by unfold State.sendUp; split <;> rfl
@[simp] theorem State.sendUp_evtHalted (s : State) (f : Forwarded) : (s.sendUp f).evtHalted = s.evtHalted := by unfold State.sendUp; split <;> rfl
@[simp] theorem State.sendUp_dteCache (s : State) (f : Forwarded) : (s.sendUp f).dteCache = s.dteCache := by unfold State.sendUp; split <;> rfl
@[simp] theorem State.sendUp_tlb (s : State) (f : Forwarded) : (s.sendUp f).tlb = s.tlb := by unfold State.sendUp; split <;> rfl
@[simp] theorem State.sendUp_pdc (s : State) (f : Forwarded) : (s.sendUp f).pdc = s.pdc := by unfold State.sendUp; split <;> rfl
@[simp] theorem State.sendUp_irtCache (s : State) (f : Forwarded) : (s.sendUp f).irtCache = s.irtCache := by unfold State.sendUp; split <;> rfl
@[simp] theorem State.sendUp_faultLogged (s : State) (f : Forwarded) : (s.sendUp f).faultLogged = s.faultLogged := by unfold State.sendUp; split <;> rfl
@[simp] theorem State.sendUp_prefetched (s : State) (f : Forwarded) : (s.sendUp f).prefetched = s.prefetched := by unfold State.sendUp; split <;> rfl
@[simp] theorem State.sendUp_fetched (s : State) (f : Forwarded) : (s.sendUp f).fetched = s.fetched := by unfold State.sendUp; split <;> rfl
@[simp] theorem State.sendUp_outstanding (s : State) (f : Forwarded) : (s.sendUp f).outstanding = s.outstanding := by unfold State.sendUp; split <;> rfl
@[simp] theorem State.sendUp_inFlight (s : State) (f : Forwarded) : (s.sendUp f).inFlight = s.inFlight := by unfold State.sendUp; split <;> rfl
@[simp] theorem State.sendUp_pendingEvents (s : State) (f : Forwarded) : (s.sendUp f).pendingEvents = s.pendingEvents := by unfold State.sendUp; split <;> rfl
@[simp] theorem State.sendUp_intDue (s : State) (f : Forwarded) : (s.sendUp f).intDue = s.intDue := by unfold State.sendUp; split <;> rfl
@[simp] theorem State.sendUp_mem (s : State) (f : Forwarded) : (s.sendUp f).mem = s.mem := by unfold State.sendUp; split <;> rfl
@[simp] theorem State.sendUp_dram (s : State) (f : Forwarded) : (s.sendUp f).dram = s.dram := by unfold State.sendUp; split <;> rfl
@[simp] theorem State.sendUp_holes (s : State) (f : Forwarded) : (s.sendUp f).holes = s.holes := by unfold State.sendUp; split <;> rfl
@[simp] theorem State.sendUp_agenda (s : State) (f : Forwarded) : (s.sendUp f).agenda = s.agenda := by unfold State.sendUp; split <;> rfl
@[simp] theorem State.sendUp_outputs (s : State) (f : Forwarded) : (s.sendUp f).outputs = s.outputs ++ [.forwarded f.sent] := by unfold State.sendUp; split <;> rfl
@[simp] theorem State.sendUp_draws (s : State) (f : Forwarded) : (s.sendUp f).draws = s.draws := by unfold State.sendUp; split <;> rfl
@[simp] theorem State.sendUp_nextId (s : State) (f : Forwarded) : (s.sendUp f).nextId = s.nextId := by unfold State.sendUp; split <;> rfl

@[simp] theorem State.sendInterrupt_capHeader (s : State) : s.sendInterrupt.capHeader = s.capHeader := by unfold State.sendInterrupt; split <;> rfl
@[simp] theorem State.sendInterrupt_capBaseLow (s : State) : s.sendInterrupt.capBaseLow = s.capBaseLow := by unfold State.sendInterrupt; split <;> rfl
@[simp] theorem State.sendInterrupt_capBaseHigh (s : State) : s.sendInterrupt.capBaseHigh = s.capBaseHigh := by unfold State.sendInterrupt; split <;> rfl
@[simp] theorem State.sendInterrupt_capRange (s : State) : s.sendInterrupt.capRange = s.capRange := by unfold State.sendInterrupt; split <;> rfl
@[simp] theorem State.sendInterrupt_capMisc (s : State) : s.sendInterrupt.capMisc = s.capMisc := by unfold State.sendInterrupt; split <;> rfl
@[simp] theorem State.sendInterrupt_rangeStrap (s : State) : s.sendInterrupt.rangeStrap = s.rangeStrap := by unfold State.sendInterrupt; split <;> rfl
@[simp] theorem State.sendInterrupt_devTabBase (s : State) : s.sendInterrupt.devTabBase = s.devTabBase := by unfold State.sendInterrupt; split <;> rfl
@[simp] theorem State.sendInterrupt_cmdBase (s : State) : s.sendInterrupt.cmdBase = s.cmdBase := by unfold State.sendInterrupt; split <;> rfl
@[simp] theorem State.sendInterrupt_evtBase (s : State) : s.sendInterrupt.evtBase = s.evtBase := by unfold State.sendInterrupt; split <;> rfl
@[simp] theorem State.sendInterrupt_control (s : State) : s.sendInterrupt.control = s.control := by unfold State.sendInterrupt; split <;> rfl
@[simp] theorem State.sendInterrupt_exclBase (s : State) : s.sendInterrupt.exclBase = s.exclBase := by unfold State.sendInterrupt; split <;> rfl
@[simp] theorem State.sendInterrupt_exclLimit (s : State) : s.sendInterrupt.exclLimit = s.exclLimit := by unfold State.sendInterrupt; split <;> rfl
@[simp] theorem State.sendInterrupt_cmdHead (s : State) : s.sendInterrupt.cmdHead = s.cmdHead := by unfold State.sendInterrupt; split <;> rfl
@[simp] theorem State.sendInterrupt_cmdTail (s : State) : s.sendInterrupt.cmdTail = s.cmdTail := by unfold State.sendInterrupt; split <;> rfl
@[simp] theorem State.sendInterrupt_evtHead (s : State) : s.sendInterrupt.evtHead = s.evtHead := by unfold State.sendInterrupt; split <;> rfl
@[simp] theorem State.sendInterrupt_evtTail (s : State) : s.sendInterrupt.evtTail = s.evtTail := by unfold State.sendInterrupt; split <;> rfl
@[simp] theorem State.sendInterrupt_status (s : State) : s.sendInterrupt.status = s.status := by unfold State.sendInterrupt; split <;> rfl
@[simp] theorem State.sendInterrupt_halted (s : State) : s.sendInterrupt.halted = s.halted := by unfold State.sendInterrupt; split <;> rfl
@[simp] theorem State.sendInterrupt_evtHalted (s : State) : s.sendInterrupt.evtHalted = s.evtHalted := by unfold State.sendInterrupt; split <;> rfl
@[simp] theorem State.sendInterrupt_dteCache (s : State) : s.sendInterrupt.dteCache = s.dteCache := by unfold State.sendInterrupt; split <;> rfl
@[simp] theorem State.sendInterrupt_tlb (s : State) : s.sendInterrupt.tlb = s.tlb := by unfold State.sendInterrupt; split <;> rfl
@[simp] theorem State.sendInterrupt_pdc (s : State) : s.sendInterrupt.pdc = s.pdc := by unfold State.sendInterrupt; split <;> rfl
@[simp] theorem State.sendInterrupt_irtCache (s : State) : s.sendInterrupt.irtCache = s.irtCache := by unfold State.sendInterrupt; split <;> rfl
@[simp] theorem State.sendInterrupt_faultLogged (s : State) : s.sendInterrupt.faultLogged = s.faultLogged := by unfold State.sendInterrupt; split <;> rfl
@[simp] theorem State.sendInterrupt_prefetched (s : State) : s.sendInterrupt.prefetched = s.prefetched := by unfold State.sendInterrupt; split <;> rfl
@[simp] theorem State.sendInterrupt_fetched (s : State) : s.sendInterrupt.fetched = s.fetched := by unfold State.sendInterrupt; split <;> rfl
@[simp] theorem State.sendInterrupt_outstanding (s : State) : s.sendInterrupt.outstanding = s.outstanding := by unfold State.sendInterrupt; split <;> rfl
@[simp] theorem State.sendInterrupt_inFlight (s : State) : s.sendInterrupt.inFlight = s.inFlight := by unfold State.sendInterrupt; split <;> rfl
@[simp] theorem State.sendInterrupt_upReads (s : State) : s.sendInterrupt.upReads = s.upReads := by unfold State.sendInterrupt; split <;> rfl
@[simp] theorem State.sendInterrupt_upWrites (s : State) : s.sendInterrupt.upWrites = s.upWrites := by unfold State.sendInterrupt; split <;> rfl
@[simp] theorem State.sendInterrupt_pendingEvents (s : State) : s.sendInterrupt.pendingEvents = s.pendingEvents := by unfold State.sendInterrupt; split <;> rfl
@[simp] theorem State.sendInterrupt_intDue (s : State) : s.sendInterrupt.intDue = s.intDue - 1 := by unfold State.sendInterrupt; split <;> simp_all
@[simp] theorem State.sendInterrupt_mem (s : State) : s.sendInterrupt.mem = s.mem := by unfold State.sendInterrupt; split <;> rfl
@[simp] theorem State.sendInterrupt_dram (s : State) : s.sendInterrupt.dram = s.dram := by unfold State.sendInterrupt; split <;> rfl
@[simp] theorem State.sendInterrupt_holes (s : State) : s.sendInterrupt.holes = s.holes := by unfold State.sendInterrupt; split <;> rfl
@[simp] theorem State.sendInterrupt_agenda (s : State) : s.sendInterrupt.agenda = s.agenda := by unfold State.sendInterrupt; split <;> rfl
@[simp] theorem State.sendInterrupt_draws (s : State) : s.sendInterrupt.draws = s.draws := by unfold State.sendInterrupt; split <;> rfl
@[simp] theorem State.sendInterrupt_nextId (s : State) : s.sendInterrupt.nextId = s.nextId := by unfold State.sendInterrupt; split <;> rfl

@[simp] theorem State.logEntry_capHeader (s : State) (p : PendingEvent) : (s.logEntry p).capHeader = s.capHeader := by simp [State.logEntry]
@[simp] theorem State.logEntry_capBaseLow (s : State) (p : PendingEvent) : (s.logEntry p).capBaseLow = s.capBaseLow := by simp [State.logEntry]
@[simp] theorem State.logEntry_capBaseHigh (s : State) (p : PendingEvent) : (s.logEntry p).capBaseHigh = s.capBaseHigh := by simp [State.logEntry]
@[simp] theorem State.logEntry_capRange (s : State) (p : PendingEvent) : (s.logEntry p).capRange = s.capRange := by simp [State.logEntry]
@[simp] theorem State.logEntry_capMisc (s : State) (p : PendingEvent) : (s.logEntry p).capMisc = s.capMisc := by simp [State.logEntry]
@[simp] theorem State.logEntry_rangeStrap (s : State) (p : PendingEvent) : (s.logEntry p).rangeStrap = s.rangeStrap := by simp [State.logEntry]
@[simp] theorem State.logEntry_devTabBase (s : State) (p : PendingEvent) : (s.logEntry p).devTabBase = s.devTabBase := by simp [State.logEntry]
@[simp] theorem State.logEntry_cmdBase (s : State) (p : PendingEvent) : (s.logEntry p).cmdBase = s.cmdBase := by simp [State.logEntry]
@[simp] theorem State.logEntry_evtBase (s : State) (p : PendingEvent) : (s.logEntry p).evtBase = s.evtBase := by simp [State.logEntry]
@[simp] theorem State.logEntry_control (s : State) (p : PendingEvent) : (s.logEntry p).control = s.control := by simp [State.logEntry]
@[simp] theorem State.logEntry_exclBase (s : State) (p : PendingEvent) : (s.logEntry p).exclBase = s.exclBase := by simp [State.logEntry]
@[simp] theorem State.logEntry_exclLimit (s : State) (p : PendingEvent) : (s.logEntry p).exclLimit = s.exclLimit := by simp [State.logEntry]
@[simp] theorem State.logEntry_cmdHead (s : State) (p : PendingEvent) : (s.logEntry p).cmdHead = s.cmdHead := by simp [State.logEntry]
@[simp] theorem State.logEntry_cmdTail (s : State) (p : PendingEvent) : (s.logEntry p).cmdTail = s.cmdTail := by simp [State.logEntry]
@[simp] theorem State.logEntry_evtHead (s : State) (p : PendingEvent) : (s.logEntry p).evtHead = s.evtHead := by simp [State.logEntry]
@[simp] theorem State.logEntry_evtTail (s : State) (p : PendingEvent) : (s.logEntry p).evtTail = s.nextEvtTail := by simp [State.logEntry]
@[simp] theorem State.logEntry_status (s : State) (p : PendingEvent) : (s.logEntry p).status = withBit s.status 1 true := by simp [State.logEntry, StatusBit.place]
@[simp] theorem State.logEntry_halted (s : State) (p : PendingEvent) : (s.logEntry p).halted = s.halted := by simp [State.logEntry]
@[simp] theorem State.logEntry_evtHalted (s : State) (p : PendingEvent) : (s.logEntry p).evtHalted = s.evtHalted := by simp [State.logEntry]
@[simp] theorem State.logEntry_dteCache (s : State) (p : PendingEvent) : (s.logEntry p).dteCache = s.dteCache := by simp [State.logEntry]
@[simp] theorem State.logEntry_tlb (s : State) (p : PendingEvent) : (s.logEntry p).tlb = s.tlb := by simp [State.logEntry]
@[simp] theorem State.logEntry_pdc (s : State) (p : PendingEvent) : (s.logEntry p).pdc = s.pdc := by simp [State.logEntry]
@[simp] theorem State.logEntry_irtCache (s : State) (p : PendingEvent) : (s.logEntry p).irtCache = s.irtCache := by simp [State.logEntry]
@[simp] theorem State.logEntry_faultLogged (s : State) (p : PendingEvent) : (s.logEntry p).faultLogged = (p.seDevice.filter s.dteCached).toList ++ s.faultLogged := by rw [State.logEntry, State.noteFirstFault_faultLogged, State.dteCached_ownWrite]; simp
@[simp] theorem State.logEntry_prefetched (s : State) (p : PendingEvent) : (s.logEntry p).prefetched = s.prefetched := by simp [State.logEntry]
@[simp] theorem State.logEntry_fetched (s : State) (p : PendingEvent) : (s.logEntry p).fetched = s.fetched := by simp [State.logEntry]
@[simp] theorem State.logEntry_outstanding (s : State) (p : PendingEvent) : (s.logEntry p).outstanding = s.outstanding := by simp [State.logEntry]
@[simp] theorem State.logEntry_inFlight (s : State) (p : PendingEvent) : (s.logEntry p).inFlight = s.inFlight := by simp [State.logEntry]
@[simp] theorem State.logEntry_upReads (s : State) (p : PendingEvent) : (s.logEntry p).upReads = s.upReads := by simp [State.logEntry]
@[simp] theorem State.logEntry_upWrites (s : State) (p : PendingEvent) : (s.logEntry p).upWrites = s.upWrites := by simp [State.logEntry]
@[simp] theorem State.logEntry_pendingEvents (s : State) (p : PendingEvent) : (s.logEntry p).pendingEvents = s.pendingEvents := by simp [State.logEntry]
@[simp] theorem State.logEntry_mem (s : State) (p : PendingEvent) : (s.logEntry p).mem = (s.ownWrite s.evtTailAddr p.event.bytes ringAttrs).mem := by simp [State.logEntry]
@[simp] theorem State.logEntry_dram (s : State) (p : PendingEvent) : (s.logEntry p).dram = (s.ownWrite s.evtTailAddr p.event.bytes ringAttrs).dram := by simp [State.logEntry]
@[simp] theorem State.logEntry_holes (s : State) (p : PendingEvent) : (s.logEntry p).holes = s.holes := by simp [State.logEntry]
@[simp] theorem State.logEntry_agenda (s : State) (p : PendingEvent) : (s.logEntry p).agenda = s.agenda := by simp [State.logEntry]
@[simp] theorem State.logEntry_outputs (s : State) (p : PendingEvent) : (s.logEntry p).outputs = s.outputs ++ [.ownWrite (s.onLink s.evtTailAddr) p.event.bytes ringAttrs] := by simp [State.logEntry]
@[simp] theorem State.logEntry_draws (s : State) (p : PendingEvent) : (s.logEntry p).draws = s.draws := by simp [State.logEntry]
@[simp] theorem State.logEntry_nextId (s : State) (p : PendingEvent) : (s.logEntry p).nextId = s.nextId := by simp [State.logEntry]

@[simp] theorem State.discardEvent_capHeader (s : State) : s.discardEvent.capHeader = s.capHeader := by unfold State.discardEvent; split <;> rfl
@[simp] theorem State.discardEvent_capBaseLow (s : State) : s.discardEvent.capBaseLow = s.capBaseLow := by unfold State.discardEvent; split <;> rfl
@[simp] theorem State.discardEvent_capBaseHigh (s : State) : s.discardEvent.capBaseHigh = s.capBaseHigh := by unfold State.discardEvent; split <;> rfl
@[simp] theorem State.discardEvent_capRange (s : State) : s.discardEvent.capRange = s.capRange := by unfold State.discardEvent; split <;> rfl
@[simp] theorem State.discardEvent_capMisc (s : State) : s.discardEvent.capMisc = s.capMisc := by unfold State.discardEvent; split <;> rfl
@[simp] theorem State.discardEvent_rangeStrap (s : State) : s.discardEvent.rangeStrap = s.rangeStrap := by unfold State.discardEvent; split <;> rfl
@[simp] theorem State.discardEvent_devTabBase (s : State) : s.discardEvent.devTabBase = s.devTabBase := by unfold State.discardEvent; split <;> rfl
@[simp] theorem State.discardEvent_cmdBase (s : State) : s.discardEvent.cmdBase = s.cmdBase := by unfold State.discardEvent; split <;> rfl
@[simp] theorem State.discardEvent_evtBase (s : State) : s.discardEvent.evtBase = s.evtBase := by unfold State.discardEvent; split <;> rfl
@[simp] theorem State.discardEvent_control (s : State) : s.discardEvent.control = s.control := by unfold State.discardEvent; split <;> rfl
@[simp] theorem State.discardEvent_exclBase (s : State) : s.discardEvent.exclBase = s.exclBase := by unfold State.discardEvent; split <;> rfl
@[simp] theorem State.discardEvent_exclLimit (s : State) : s.discardEvent.exclLimit = s.exclLimit := by unfold State.discardEvent; split <;> rfl
@[simp] theorem State.discardEvent_cmdHead (s : State) : s.discardEvent.cmdHead = s.cmdHead := by unfold State.discardEvent; split <;> rfl
@[simp] theorem State.discardEvent_cmdTail (s : State) : s.discardEvent.cmdTail = s.cmdTail := by unfold State.discardEvent; split <;> rfl
@[simp] theorem State.discardEvent_evtHead (s : State) : s.discardEvent.evtHead = s.evtHead := by unfold State.discardEvent; split <;> rfl
@[simp] theorem State.discardEvent_evtTail (s : State) : s.discardEvent.evtTail = s.evtTail := by unfold State.discardEvent; split <;> rfl
@[simp] theorem State.discardEvent_halted (s : State) : s.discardEvent.halted = s.halted := by unfold State.discardEvent; split <;> rfl
@[simp] theorem State.discardEvent_evtHalted (s : State) : s.discardEvent.evtHalted = s.evtHalted := by unfold State.discardEvent; split <;> rfl
@[simp] theorem State.discardEvent_dteCache (s : State) : s.discardEvent.dteCache = s.dteCache := by unfold State.discardEvent; split <;> rfl
@[simp] theorem State.discardEvent_tlb (s : State) : s.discardEvent.tlb = s.tlb := by unfold State.discardEvent; split <;> rfl
@[simp] theorem State.discardEvent_pdc (s : State) : s.discardEvent.pdc = s.pdc := by unfold State.discardEvent; split <;> rfl
@[simp] theorem State.discardEvent_irtCache (s : State) : s.discardEvent.irtCache = s.irtCache := by unfold State.discardEvent; split <;> rfl
@[simp] theorem State.discardEvent_faultLogged (s : State) : s.discardEvent.faultLogged = s.faultLogged := by unfold State.discardEvent; split <;> rfl
@[simp] theorem State.discardEvent_prefetched (s : State) : s.discardEvent.prefetched = s.prefetched := by unfold State.discardEvent; split <;> rfl
@[simp] theorem State.discardEvent_fetched (s : State) : s.discardEvent.fetched = s.fetched := by unfold State.discardEvent; split <;> rfl
@[simp] theorem State.discardEvent_outstanding (s : State) : s.discardEvent.outstanding = s.outstanding := by unfold State.discardEvent; split <;> rfl
@[simp] theorem State.discardEvent_inFlight (s : State) : s.discardEvent.inFlight = s.inFlight := by unfold State.discardEvent; split <;> rfl
@[simp] theorem State.discardEvent_upReads (s : State) : s.discardEvent.upReads = s.upReads := by unfold State.discardEvent; split <;> rfl
@[simp] theorem State.discardEvent_upWrites (s : State) : s.discardEvent.upWrites = s.upWrites := by unfold State.discardEvent; split <;> rfl
@[simp] theorem State.discardEvent_pendingEvents (s : State) : s.discardEvent.pendingEvents = s.pendingEvents := by unfold State.discardEvent; split <;> rfl
@[simp] theorem State.discardEvent_mem (s : State) : s.discardEvent.mem = s.mem := by unfold State.discardEvent; split <;> rfl
@[simp] theorem State.discardEvent_dram (s : State) : s.discardEvent.dram = s.dram := by unfold State.discardEvent; split <;> rfl
@[simp] theorem State.discardEvent_holes (s : State) : s.discardEvent.holes = s.holes := by unfold State.discardEvent; split <;> rfl
@[simp] theorem State.discardEvent_agenda (s : State) : s.discardEvent.agenda = s.agenda := by unfold State.discardEvent; split <;> rfl
@[simp] theorem State.discardEvent_outputs (s : State) : s.discardEvent.outputs = s.outputs := by unfold State.discardEvent; split <;> rfl
@[simp] theorem State.discardEvent_draws (s : State) : s.discardEvent.draws = s.draws := by unfold State.discardEvent; split <;> rfl
@[simp] theorem State.discardEvent_nextId (s : State) : s.discardEvent.nextId = s.nextId := by unfold State.discardEvent; split <;> rfl

@[simp] theorem State.settleCmdRun_capHeader (s : State) : s.settleCmdRun.capHeader = s.capHeader := by unfold State.settleCmdRun; split <;> rfl
@[simp] theorem State.settleCmdRun_capBaseLow (s : State) : s.settleCmdRun.capBaseLow = s.capBaseLow := by unfold State.settleCmdRun; split <;> rfl
@[simp] theorem State.settleCmdRun_capBaseHigh (s : State) : s.settleCmdRun.capBaseHigh = s.capBaseHigh := by unfold State.settleCmdRun; split <;> rfl
@[simp] theorem State.settleCmdRun_capRange (s : State) : s.settleCmdRun.capRange = s.capRange := by unfold State.settleCmdRun; split <;> rfl
@[simp] theorem State.settleCmdRun_capMisc (s : State) : s.settleCmdRun.capMisc = s.capMisc := by unfold State.settleCmdRun; split <;> rfl
@[simp] theorem State.settleCmdRun_rangeStrap (s : State) : s.settleCmdRun.rangeStrap = s.rangeStrap := by unfold State.settleCmdRun; split <;> rfl
@[simp] theorem State.settleCmdRun_devTabBase (s : State) : s.settleCmdRun.devTabBase = s.devTabBase := by unfold State.settleCmdRun; split <;> rfl
@[simp] theorem State.settleCmdRun_cmdBase (s : State) : s.settleCmdRun.cmdBase = s.cmdBase := by unfold State.settleCmdRun; split <;> rfl
@[simp] theorem State.settleCmdRun_evtBase (s : State) : s.settleCmdRun.evtBase = s.evtBase := by unfold State.settleCmdRun; split <;> rfl
@[simp] theorem State.settleCmdRun_control (s : State) : s.settleCmdRun.control = s.control := by unfold State.settleCmdRun; split <;> rfl
@[simp] theorem State.settleCmdRun_exclBase (s : State) : s.settleCmdRun.exclBase = s.exclBase := by unfold State.settleCmdRun; split <;> rfl
@[simp] theorem State.settleCmdRun_exclLimit (s : State) : s.settleCmdRun.exclLimit = s.exclLimit := by unfold State.settleCmdRun; split <;> rfl
@[simp] theorem State.settleCmdRun_cmdHead (s : State) : s.settleCmdRun.cmdHead = s.cmdHead := by unfold State.settleCmdRun; split <;> rfl
@[simp] theorem State.settleCmdRun_cmdTail (s : State) : s.settleCmdRun.cmdTail = s.cmdTail := by unfold State.settleCmdRun; split <;> rfl
@[simp] theorem State.settleCmdRun_evtHead (s : State) : s.settleCmdRun.evtHead = s.evtHead := by unfold State.settleCmdRun; split <;> rfl
@[simp] theorem State.settleCmdRun_evtTail (s : State) : s.settleCmdRun.evtTail = s.evtTail := by unfold State.settleCmdRun; split <;> rfl
@[simp] theorem State.settleCmdRun_halted (s : State) : s.settleCmdRun.halted = s.halted := by unfold State.settleCmdRun; split <;> rfl
@[simp] theorem State.settleCmdRun_evtHalted (s : State) : s.settleCmdRun.evtHalted = s.evtHalted := by unfold State.settleCmdRun; split <;> rfl
@[simp] theorem State.settleCmdRun_dteCache (s : State) : s.settleCmdRun.dteCache = s.dteCache := by unfold State.settleCmdRun; split <;> rfl
@[simp] theorem State.settleCmdRun_tlb (s : State) : s.settleCmdRun.tlb = s.tlb := by unfold State.settleCmdRun; split <;> rfl
@[simp] theorem State.settleCmdRun_pdc (s : State) : s.settleCmdRun.pdc = s.pdc := by unfold State.settleCmdRun; split <;> rfl
@[simp] theorem State.settleCmdRun_irtCache (s : State) : s.settleCmdRun.irtCache = s.irtCache := by unfold State.settleCmdRun; split <;> rfl
@[simp] theorem State.settleCmdRun_faultLogged (s : State) : s.settleCmdRun.faultLogged = s.faultLogged := by unfold State.settleCmdRun; split <;> rfl
@[simp] theorem State.settleCmdRun_prefetched (s : State) : s.settleCmdRun.prefetched = s.prefetched := by unfold State.settleCmdRun; split <;> rfl
@[simp] theorem State.settleCmdRun_fetched (s : State) : s.settleCmdRun.fetched = s.fetched := by unfold State.settleCmdRun; split <;> rfl
@[simp] theorem State.settleCmdRun_outstanding (s : State) : s.settleCmdRun.outstanding = s.outstanding := by unfold State.settleCmdRun; split <;> rfl
@[simp] theorem State.settleCmdRun_inFlight (s : State) : s.settleCmdRun.inFlight = s.inFlight := by unfold State.settleCmdRun; split <;> rfl
@[simp] theorem State.settleCmdRun_upReads (s : State) : s.settleCmdRun.upReads = s.upReads := by unfold State.settleCmdRun; split <;> rfl
@[simp] theorem State.settleCmdRun_upWrites (s : State) : s.settleCmdRun.upWrites = s.upWrites := by unfold State.settleCmdRun; split <;> rfl
@[simp] theorem State.settleCmdRun_pendingEvents (s : State) : s.settleCmdRun.pendingEvents = s.pendingEvents := by unfold State.settleCmdRun; split <;> rfl
@[simp] theorem State.settleCmdRun_intDue (s : State) : s.settleCmdRun.intDue = s.intDue := by unfold State.settleCmdRun; split <;> rfl
@[simp] theorem State.settleCmdRun_mem (s : State) : s.settleCmdRun.mem = s.mem := by unfold State.settleCmdRun; split <;> rfl
@[simp] theorem State.settleCmdRun_dram (s : State) : s.settleCmdRun.dram = s.dram := by unfold State.settleCmdRun; split <;> rfl
@[simp] theorem State.settleCmdRun_holes (s : State) : s.settleCmdRun.holes = s.holes := by unfold State.settleCmdRun; split <;> rfl
@[simp] theorem State.settleCmdRun_agenda (s : State) : s.settleCmdRun.agenda = s.agenda := by unfold State.settleCmdRun; split <;> rfl
@[simp] theorem State.settleCmdRun_outputs (s : State) : s.settleCmdRun.outputs = s.outputs := by unfold State.settleCmdRun; split <;> rfl
@[simp] theorem State.settleCmdRun_draws (s : State) : s.settleCmdRun.draws = s.draws := by unfold State.settleCmdRun; split <;> rfl
@[simp] theorem State.settleCmdRun_nextId (s : State) : s.settleCmdRun.nextId = s.nextId := by unfold State.settleCmdRun; split <;> rfl

@[simp] theorem State.settleEvtRun_capHeader (s : State) : s.settleEvtRun.capHeader = s.capHeader := by unfold State.settleEvtRun; split <;> rfl
@[simp] theorem State.settleEvtRun_capBaseLow (s : State) : s.settleEvtRun.capBaseLow = s.capBaseLow := by unfold State.settleEvtRun; split <;> rfl
@[simp] theorem State.settleEvtRun_capBaseHigh (s : State) : s.settleEvtRun.capBaseHigh = s.capBaseHigh := by unfold State.settleEvtRun; split <;> rfl
@[simp] theorem State.settleEvtRun_capRange (s : State) : s.settleEvtRun.capRange = s.capRange := by unfold State.settleEvtRun; split <;> rfl
@[simp] theorem State.settleEvtRun_capMisc (s : State) : s.settleEvtRun.capMisc = s.capMisc := by unfold State.settleEvtRun; split <;> rfl
@[simp] theorem State.settleEvtRun_rangeStrap (s : State) : s.settleEvtRun.rangeStrap = s.rangeStrap := by unfold State.settleEvtRun; split <;> rfl
@[simp] theorem State.settleEvtRun_devTabBase (s : State) : s.settleEvtRun.devTabBase = s.devTabBase := by unfold State.settleEvtRun; split <;> rfl
@[simp] theorem State.settleEvtRun_cmdBase (s : State) : s.settleEvtRun.cmdBase = s.cmdBase := by unfold State.settleEvtRun; split <;> rfl
@[simp] theorem State.settleEvtRun_evtBase (s : State) : s.settleEvtRun.evtBase = s.evtBase := by unfold State.settleEvtRun; split <;> rfl
@[simp] theorem State.settleEvtRun_control (s : State) : s.settleEvtRun.control = s.control := by unfold State.settleEvtRun; split <;> rfl
@[simp] theorem State.settleEvtRun_exclBase (s : State) : s.settleEvtRun.exclBase = s.exclBase := by unfold State.settleEvtRun; split <;> rfl
@[simp] theorem State.settleEvtRun_exclLimit (s : State) : s.settleEvtRun.exclLimit = s.exclLimit := by unfold State.settleEvtRun; split <;> rfl
@[simp] theorem State.settleEvtRun_cmdHead (s : State) : s.settleEvtRun.cmdHead = s.cmdHead := by unfold State.settleEvtRun; split <;> rfl
@[simp] theorem State.settleEvtRun_cmdTail (s : State) : s.settleEvtRun.cmdTail = s.cmdTail := by unfold State.settleEvtRun; split <;> rfl
@[simp] theorem State.settleEvtRun_evtHead (s : State) : s.settleEvtRun.evtHead = s.evtHead := by unfold State.settleEvtRun; split <;> rfl
@[simp] theorem State.settleEvtRun_evtTail (s : State) : s.settleEvtRun.evtTail = s.evtTail := by unfold State.settleEvtRun; split <;> rfl
@[simp] theorem State.settleEvtRun_halted (s : State) : s.settleEvtRun.halted = s.halted := by unfold State.settleEvtRun; split <;> rfl
@[simp] theorem State.settleEvtRun_evtHalted (s : State) : s.settleEvtRun.evtHalted = s.evtHalted := by unfold State.settleEvtRun; split <;> rfl
@[simp] theorem State.settleEvtRun_dteCache (s : State) : s.settleEvtRun.dteCache = s.dteCache := by unfold State.settleEvtRun; split <;> rfl
@[simp] theorem State.settleEvtRun_tlb (s : State) : s.settleEvtRun.tlb = s.tlb := by unfold State.settleEvtRun; split <;> rfl
@[simp] theorem State.settleEvtRun_pdc (s : State) : s.settleEvtRun.pdc = s.pdc := by unfold State.settleEvtRun; split <;> rfl
@[simp] theorem State.settleEvtRun_irtCache (s : State) : s.settleEvtRun.irtCache = s.irtCache := by unfold State.settleEvtRun; split <;> rfl
@[simp] theorem State.settleEvtRun_faultLogged (s : State) : s.settleEvtRun.faultLogged = s.faultLogged := by unfold State.settleEvtRun; split <;> rfl
@[simp] theorem State.settleEvtRun_prefetched (s : State) : s.settleEvtRun.prefetched = s.prefetched := by unfold State.settleEvtRun; split <;> rfl
@[simp] theorem State.settleEvtRun_fetched (s : State) : s.settleEvtRun.fetched = s.fetched := by unfold State.settleEvtRun; split <;> rfl
@[simp] theorem State.settleEvtRun_outstanding (s : State) : s.settleEvtRun.outstanding = s.outstanding := by unfold State.settleEvtRun; split <;> rfl
@[simp] theorem State.settleEvtRun_inFlight (s : State) : s.settleEvtRun.inFlight = s.inFlight := by unfold State.settleEvtRun; split <;> rfl
@[simp] theorem State.settleEvtRun_upReads (s : State) : s.settleEvtRun.upReads = s.upReads := by unfold State.settleEvtRun; split <;> rfl
@[simp] theorem State.settleEvtRun_upWrites (s : State) : s.settleEvtRun.upWrites = s.upWrites := by unfold State.settleEvtRun; split <;> rfl
@[simp] theorem State.settleEvtRun_pendingEvents (s : State) : s.settleEvtRun.pendingEvents = s.pendingEvents := by unfold State.settleEvtRun; split <;> rfl
@[simp] theorem State.settleEvtRun_intDue (s : State) : s.settleEvtRun.intDue = s.intDue := by unfold State.settleEvtRun; split <;> rfl
@[simp] theorem State.settleEvtRun_mem (s : State) : s.settleEvtRun.mem = s.mem := by unfold State.settleEvtRun; split <;> rfl
@[simp] theorem State.settleEvtRun_dram (s : State) : s.settleEvtRun.dram = s.dram := by unfold State.settleEvtRun; split <;> rfl
@[simp] theorem State.settleEvtRun_holes (s : State) : s.settleEvtRun.holes = s.holes := by unfold State.settleEvtRun; split <;> rfl
@[simp] theorem State.settleEvtRun_agenda (s : State) : s.settleEvtRun.agenda = s.agenda := by unfold State.settleEvtRun; split <;> rfl
@[simp] theorem State.settleEvtRun_outputs (s : State) : s.settleEvtRun.outputs = s.outputs := by unfold State.settleEvtRun; split <;> rfl
@[simp] theorem State.settleEvtRun_draws (s : State) : s.settleEvtRun.draws = s.draws := by unfold State.settleEvtRun; split <;> rfl
@[simp] theorem State.settleEvtRun_nextId (s : State) : s.settleEvtRun.nextId = s.nextId := by unfold State.settleEvtRun; split <;> rfl

/-! ### What is read from the registers, under the updates that leave them alone -/

@[simp] theorem State.tick_isMemory (s : State) (a n : Nat) : s.tick.isMemory a n = s.isMemory a n := rfl
@[simp] theorem State.tick_readAnswer (s : State) (a n : Nat) : s.tick.readAnswer a n = s.readAnswer a n := rfl
@[simp] theorem State.tick_evtTailAddr (s : State) : s.tick.evtTailAddr = s.evtTailAddr := rfl
@[simp] theorem State.tick_cmdEntries (s : State) : s.tick.cmdEntries = s.cmdEntries := rfl
@[simp] theorem State.tick_evtEntries (s : State) : s.tick.evtEntries = s.evtEntries := rfl
@[simp] theorem State.tick_evtTailIndex (s : State) : s.tick.evtTailIndex = s.evtTailIndex := rfl
@[simp] theorem State.tick_evtHeadIndex (s : State) : s.tick.evtHeadIndex = s.evtHeadIndex := rfl
@[simp] theorem State.tick_logFull (s : State) : s.tick.logFull = s.logFull := rfl
@[simp] theorem State.tick_eventLogRun (s : State) : s.tick.eventLogRun = s.eventLogRun := rfl
@[simp] theorem State.tick_eventOverflow (s : State) : s.tick.eventOverflow = s.eventOverflow := rfl
@[simp] theorem State.tick_logging (s : State) : s.tick.logging = s.logging := rfl
@[simp] theorem State.tick_logRuns (s : State) : s.tick.logRuns = s.logRuns := rfl
@[simp] theorem State.tick_detected (s : State) : s.tick.detected = s.detected := rfl
@[simp] theorem State.tick_fetching (s : State) : s.tick.fetching = s.fetching := rfl
@[simp] theorem State.tick_iotlbSup (s : State) : s.tick.iotlbSup = s.iotlbSup := rfl
@[simp] theorem State.tick_paSize (s : State) : s.tick.paSize = s.paSize := rfl
@[simp] theorem State.tick_coherent (s : State) : s.tick.coherent = s.coherent := rfl
@[simp] theorem State.tick_inTable (s : State) (v : DeviceId) : s.tick.inTable v = s.inTable v := rfl
@[simp] theorem State.tick_dteAddr (s : State) (v : DeviceId) : s.tick.dteAddr v = s.dteAddr v := rfl
@[simp] theorem State.tick_tailIndex (s : State) : s.tick.tailIndex = s.tailIndex := rfl
@[simp] theorem State.tick_headIndex (s : State) : s.tick.headIndex = s.headIndex := rfl
@[simp] theorem State.tick_headAddr (s : State) : s.tick.headAddr = s.headAddr := rfl
@[simp] theorem State.tick_nextHead (s : State) : s.tick.nextHead = s.nextHead := rfl

@[simp] theorem State.emit_isMemory (s : State) (o : Output) (a n : Nat) : (s.emit o).isMemory a n = s.isMemory a n := rfl
@[simp] theorem State.emit_readAnswer (s : State) (o : Output) (a n : Nat) : (s.emit o).readAnswer a n = s.readAnswer a n := rfl
@[simp] theorem State.emit_evtTailAddr (s : State) (o : Output) : (s.emit o).evtTailAddr = s.evtTailAddr := rfl
@[simp] theorem State.emit_cmdEntries (s : State) (o : Output) : (s.emit o).cmdEntries = s.cmdEntries := rfl
@[simp] theorem State.emit_evtEntries (s : State) (o : Output) : (s.emit o).evtEntries = s.evtEntries := rfl
@[simp] theorem State.emit_evtTailIndex (s : State) (o : Output) : (s.emit o).evtTailIndex = s.evtTailIndex := rfl
@[simp] theorem State.emit_evtHeadIndex (s : State) (o : Output) : (s.emit o).evtHeadIndex = s.evtHeadIndex := rfl
@[simp] theorem State.emit_logFull (s : State) (o : Output) : (s.emit o).logFull = s.logFull := rfl
@[simp] theorem State.emit_eventLogRun (s : State) (o : Output) : (s.emit o).eventLogRun = s.eventLogRun := rfl
@[simp] theorem State.emit_eventOverflow (s : State) (o : Output) : (s.emit o).eventOverflow = s.eventOverflow := rfl
@[simp] theorem State.emit_logging (s : State) (o : Output) : (s.emit o).logging = s.logging := rfl
@[simp] theorem State.emit_logRuns (s : State) (o : Output) : (s.emit o).logRuns = s.logRuns := rfl
@[simp] theorem State.emit_detected (s : State) (o : Output) : (s.emit o).detected = s.detected := rfl
@[simp] theorem State.emit_tableTarget (s : State) (o : Output) (y : Nat) : (s.emit o).tableTarget y = s.tableTarget y := rfl
@[simp] theorem State.emit_fetching (s : State) (o : Output) : (s.emit o).fetching = s.fetching := rfl
@[simp] theorem State.emit_iotlbSup (s : State) (o : Output) : (s.emit o).iotlbSup = s.iotlbSup := rfl
@[simp] theorem State.emit_paSize (s : State) (o : Output) : (s.emit o).paSize = s.paSize := rfl
@[simp] theorem State.emit_coherent (s : State) (o : Output) : (s.emit o).coherent = s.coherent := rfl
@[simp] theorem State.emit_inTable (s : State) (o : Output) (v : DeviceId) : (s.emit o).inTable v = s.inTable v := rfl
@[simp] theorem State.emit_dteAddr (s : State) (o : Output) (v : DeviceId) : (s.emit o).dteAddr v = s.dteAddr v := rfl
@[simp] theorem State.emit_tailIndex (s : State) (o : Output) : (s.emit o).tailIndex = s.tailIndex := rfl
@[simp] theorem State.emit_headIndex (s : State) (o : Output) : (s.emit o).headIndex = s.headIndex := rfl
@[simp] theorem State.emit_headAddr (s : State) (o : Output) : (s.emit o).headAddr = s.headAddr := rfl
@[simp] theorem State.emit_nextHead (s : State) (o : Output) : (s.emit o).nextHead = s.nextHead := rfl

@[simp] theorem State.sawRead_isMemory (s : State) (x : Addr) (m : Nat) (t : Attrs) (a n : Nat) : (s.sawRead x m t).isMemory a n = s.isMemory a n := rfl
@[simp] theorem State.sawRead_readAnswer (s : State) (x : Addr) (m : Nat) (t : Attrs) (a n : Nat) : (s.sawRead x m t).readAnswer a n = s.readAnswer a n := rfl
@[simp] theorem State.sawRead_evtTailAddr (s : State) (a : Addr) (n : Nat) (t : Attrs) : (s.sawRead a n t).evtTailAddr = s.evtTailAddr := rfl
@[simp] theorem State.sawRead_cmdEntries (s : State) (a : Addr) (n : Nat) (t : Attrs) : (s.sawRead a n t).cmdEntries = s.cmdEntries := rfl
@[simp] theorem State.sawRead_evtEntries (s : State) (a : Addr) (n : Nat) (t : Attrs) : (s.sawRead a n t).evtEntries = s.evtEntries := rfl
@[simp] theorem State.sawRead_evtTailIndex (s : State) (a : Addr) (n : Nat) (t : Attrs) : (s.sawRead a n t).evtTailIndex = s.evtTailIndex := rfl
@[simp] theorem State.sawRead_evtHeadIndex (s : State) (a : Addr) (n : Nat) (t : Attrs) : (s.sawRead a n t).evtHeadIndex = s.evtHeadIndex := rfl
@[simp] theorem State.sawRead_logFull (s : State) (a : Addr) (n : Nat) (t : Attrs) : (s.sawRead a n t).logFull = s.logFull := rfl
@[simp] theorem State.sawRead_eventLogRun (s : State) (a : Addr) (n : Nat) (t : Attrs) : (s.sawRead a n t).eventLogRun = s.eventLogRun := rfl
@[simp] theorem State.sawRead_eventOverflow (s : State) (a : Addr) (n : Nat) (t : Attrs) : (s.sawRead a n t).eventOverflow = s.eventOverflow := rfl
@[simp] theorem State.sawRead_logging (s : State) (a : Addr) (n : Nat) (t : Attrs) : (s.sawRead a n t).logging = s.logging := rfl
@[simp] theorem State.sawRead_logRuns (s : State) (a : Addr) (n : Nat) (t : Attrs) : (s.sawRead a n t).logRuns = s.logRuns := rfl
@[simp] theorem State.sawRead_detected (s : State) (a : Addr) (n : Nat) (t : Attrs) : (s.sawRead a n t).detected = s.detected := rfl
@[simp] theorem State.sawRead_tableTarget (s : State) (x : Addr) (m : Nat) (t : Attrs) (y : Nat) : (s.sawRead x m t).tableTarget y = s.tableTarget y := rfl
@[simp] theorem State.sawRead_fetching (s : State) (a : Addr) (n : Nat) (t : Attrs) : (s.sawRead a n t).fetching = s.fetching := rfl
@[simp] theorem State.sawRead_iotlbSup (s : State) (a : Addr) (n : Nat) (t : Attrs) : (s.sawRead a n t).iotlbSup = s.iotlbSup := rfl
@[simp] theorem State.sawRead_paSize (s : State) (a : Addr) (n : Nat) (t : Attrs) : (s.sawRead a n t).paSize = s.paSize := rfl
@[simp] theorem State.sawRead_coherent (s : State) (a : Addr) (n : Nat) (t : Attrs) : (s.sawRead a n t).coherent = s.coherent := rfl
@[simp] theorem State.sawRead_inTable (s : State) (x : Addr) (m : Nat) (t : Attrs) (v : DeviceId) : (s.sawRead x m t).inTable v = s.inTable v := rfl
@[simp] theorem State.sawRead_dteAddr (s : State) (x : Addr) (m : Nat) (t : Attrs) (v : DeviceId) : (s.sawRead x m t).dteAddr v = s.dteAddr v := rfl
@[simp] theorem State.sawRead_tailIndex (s : State) (a : Addr) (n : Nat) (t : Attrs) : (s.sawRead a n t).tailIndex = s.tailIndex := rfl
@[simp] theorem State.sawRead_headIndex (s : State) (a : Addr) (n : Nat) (t : Attrs) : (s.sawRead a n t).headIndex = s.headIndex := rfl
@[simp] theorem State.sawRead_headAddr (s : State) (a : Addr) (n : Nat) (t : Attrs) : (s.sawRead a n t).headAddr = s.headAddr := rfl
@[simp] theorem State.sawRead_nextHead (s : State) (a : Addr) (n : Nat) (t : Attrs) : (s.sawRead a n t).nextHead = s.nextHead := rfl

@[simp] theorem State.dropEvent_isMemory (s : State) (k : Nat) (a n : Nat) : (s.dropEvent k).isMemory a n = s.isMemory a n := rfl
@[simp] theorem State.dropEvent_readAnswer (s : State) (k : Nat) (a n : Nat) : (s.dropEvent k).readAnswer a n = s.readAnswer a n := rfl
@[simp] theorem State.dropEvent_evtTailAddr (s : State) (k : Nat) : (s.dropEvent k).evtTailAddr = s.evtTailAddr := rfl
@[simp] theorem State.dropEvent_cmdEntries (s : State) (k : Nat) : (s.dropEvent k).cmdEntries = s.cmdEntries := rfl
@[simp] theorem State.dropEvent_evtEntries (s : State) (k : Nat) : (s.dropEvent k).evtEntries = s.evtEntries := rfl
@[simp] theorem State.dropEvent_evtTailIndex (s : State) (k : Nat) : (s.dropEvent k).evtTailIndex = s.evtTailIndex := rfl
@[simp] theorem State.dropEvent_evtHeadIndex (s : State) (k : Nat) : (s.dropEvent k).evtHeadIndex = s.evtHeadIndex := rfl
@[simp] theorem State.dropEvent_logFull (s : State) (k : Nat) : (s.dropEvent k).logFull = s.logFull := rfl
@[simp] theorem State.dropEvent_eventLogRun (s : State) (k : Nat) : (s.dropEvent k).eventLogRun = s.eventLogRun := rfl
@[simp] theorem State.dropEvent_eventOverflow (s : State) (k : Nat) : (s.dropEvent k).eventOverflow = s.eventOverflow := rfl
@[simp] theorem State.dropEvent_logging (s : State) (k : Nat) : (s.dropEvent k).logging = s.logging := rfl
@[simp] theorem State.dropEvent_logRuns (s : State) (k : Nat) : (s.dropEvent k).logRuns = s.logRuns := rfl
@[simp] theorem State.dropEvent_detected (s : State) (k : Nat) : (s.dropEvent k).detected = s.detected := rfl
@[simp] theorem State.dropEvent_tableTarget (s : State) (k : Nat) (y : Nat) : (s.dropEvent k).tableTarget y = s.tableTarget y := rfl
@[simp] theorem State.dropEvent_fetching (s : State) (k : Nat) : (s.dropEvent k).fetching = s.fetching := rfl
@[simp] theorem State.dropEvent_iotlbSup (s : State) (k : Nat) : (s.dropEvent k).iotlbSup = s.iotlbSup := rfl
@[simp] theorem State.dropEvent_paSize (s : State) (k : Nat) : (s.dropEvent k).paSize = s.paSize := rfl
@[simp] theorem State.dropEvent_coherent (s : State) (k : Nat) : (s.dropEvent k).coherent = s.coherent := rfl
@[simp] theorem State.dropEvent_inTable (s : State) (k : Nat) (v : DeviceId) : (s.dropEvent k).inTable v = s.inTable v := rfl
@[simp] theorem State.dropEvent_dteAddr (s : State) (k : Nat) (v : DeviceId) : (s.dropEvent k).dteAddr v = s.dteAddr v := rfl
@[simp] theorem State.dropEvent_tailIndex (s : State) (k : Nat) : (s.dropEvent k).tailIndex = s.tailIndex := rfl
@[simp] theorem State.dropEvent_headIndex (s : State) (k : Nat) : (s.dropEvent k).headIndex = s.headIndex := rfl
@[simp] theorem State.dropEvent_headAddr (s : State) (k : Nat) : (s.dropEvent k).headAddr = s.headAddr := rfl
@[simp] theorem State.dropEvent_nextHead (s : State) (k : Nat) : (s.dropEvent k).nextHead = s.nextHead := rfl

@[simp] theorem State.retire_isMemory (s : State) (t : InFlight) (a n : Nat) : (s.retire t).isMemory a n = s.isMemory a n := rfl
@[simp] theorem State.retire_readAnswer (s : State) (t : InFlight) (a n : Nat) : (s.retire t).readAnswer a n = s.readAnswer a n := rfl
@[simp] theorem State.retire_evtTailAddr (s : State) (t : InFlight) : (s.retire t).evtTailAddr = s.evtTailAddr := rfl
@[simp] theorem State.retire_cmdEntries (s : State) (t : InFlight) : (s.retire t).cmdEntries = s.cmdEntries := rfl
@[simp] theorem State.retire_evtEntries (s : State) (t : InFlight) : (s.retire t).evtEntries = s.evtEntries := rfl
@[simp] theorem State.retire_evtTailIndex (s : State) (t : InFlight) : (s.retire t).evtTailIndex = s.evtTailIndex := rfl
@[simp] theorem State.retire_evtHeadIndex (s : State) (t : InFlight) : (s.retire t).evtHeadIndex = s.evtHeadIndex := rfl
@[simp] theorem State.retire_logFull (s : State) (t : InFlight) : (s.retire t).logFull = s.logFull := rfl
@[simp] theorem State.retire_eventLogRun (s : State) (t : InFlight) : (s.retire t).eventLogRun = s.eventLogRun := rfl
@[simp] theorem State.retire_eventOverflow (s : State) (t : InFlight) : (s.retire t).eventOverflow = s.eventOverflow := rfl
@[simp] theorem State.retire_logging (s : State) (t : InFlight) : (s.retire t).logging = s.logging := rfl
@[simp] theorem State.retire_logRuns (s : State) (t : InFlight) : (s.retire t).logRuns = s.logRuns := rfl
@[simp] theorem State.retire_detected (s : State) (t : InFlight) : (s.retire t).detected = s.detected := rfl
@[simp] theorem State.retire_tableTarget (s : State) (t : InFlight) (y : Nat) : (s.retire t).tableTarget y = s.tableTarget y := rfl
@[simp] theorem State.retire_fetching (s : State) (t : InFlight) : (s.retire t).fetching = s.fetching := rfl
@[simp] theorem State.retire_iotlbSup (s : State) (t : InFlight) : (s.retire t).iotlbSup = s.iotlbSup := rfl
@[simp] theorem State.retire_paSize (s : State) (t : InFlight) : (s.retire t).paSize = s.paSize := rfl
@[simp] theorem State.retire_coherent (s : State) (t : InFlight) : (s.retire t).coherent = s.coherent := rfl
@[simp] theorem State.retire_inTable (s : State) (t : InFlight) (v : DeviceId) : (s.retire t).inTable v = s.inTable v := rfl
@[simp] theorem State.retire_dteAddr (s : State) (t : InFlight) (v : DeviceId) : (s.retire t).dteAddr v = s.dteAddr v := rfl
@[simp] theorem State.retire_tailIndex (s : State) (t : InFlight) : (s.retire t).tailIndex = s.tailIndex := rfl
@[simp] theorem State.retire_headIndex (s : State) (t : InFlight) : (s.retire t).headIndex = s.headIndex := rfl
@[simp] theorem State.retire_headAddr (s : State) (t : InFlight) : (s.retire t).headAddr = s.headAddr := rfl
@[simp] theorem State.retire_nextHead (s : State) (t : InFlight) : (s.retire t).nextHead = s.nextHead := rfl

@[simp] theorem State.raise_isMemory (s : State) (e : Event) (a n : Nat) : (s.raise e).isMemory a n = s.isMemory a n := rfl
@[simp] theorem State.raise_readAnswer (s : State) (e : Event) (a n : Nat) : (s.raise e).readAnswer a n = s.readAnswer a n := rfl
@[simp] theorem State.raise_evtTailAddr (s : State) (e : Event) : (s.raise e).evtTailAddr = s.evtTailAddr := rfl
@[simp] theorem State.raise_cmdEntries (s : State) (e : Event) : (s.raise e).cmdEntries = s.cmdEntries := rfl
@[simp] theorem State.raise_evtEntries (s : State) (e : Event) : (s.raise e).evtEntries = s.evtEntries := rfl
@[simp] theorem State.raise_evtTailIndex (s : State) (e : Event) : (s.raise e).evtTailIndex = s.evtTailIndex := rfl
@[simp] theorem State.raise_evtHeadIndex (s : State) (e : Event) : (s.raise e).evtHeadIndex = s.evtHeadIndex := rfl
@[simp] theorem State.raise_logFull (s : State) (e : Event) : (s.raise e).logFull = s.logFull := rfl
@[simp] theorem State.raise_eventLogRun (s : State) (e : Event) : (s.raise e).eventLogRun = s.eventLogRun := rfl
@[simp] theorem State.raise_eventOverflow (s : State) (e : Event) : (s.raise e).eventOverflow = s.eventOverflow := rfl
@[simp] theorem State.raise_logging (s : State) (e : Event) : (s.raise e).logging = s.logging := rfl
@[simp] theorem State.raise_logRuns (s : State) (e : Event) : (s.raise e).logRuns = s.logRuns := rfl
@[simp] theorem State.raise_detected (s : State) (e : Event) : (s.raise e).detected = s.detected := rfl
@[simp] theorem State.raise_tableTarget (s : State) (e : Event) (y : Nat) : (s.raise e).tableTarget y = s.tableTarget y := rfl
@[simp] theorem State.raise_fetching (s : State) (e : Event) : (s.raise e).fetching = s.fetching := rfl
@[simp] theorem State.raise_iotlbSup (s : State) (e : Event) : (s.raise e).iotlbSup = s.iotlbSup := rfl
@[simp] theorem State.raise_paSize (s : State) (e : Event) : (s.raise e).paSize = s.paSize := rfl
@[simp] theorem State.raise_coherent (s : State) (e : Event) : (s.raise e).coherent = s.coherent := rfl
@[simp] theorem State.raise_inTable (s : State) (e : Event) (v : DeviceId) : (s.raise e).inTable v = s.inTable v := rfl
@[simp] theorem State.raise_dteAddr (s : State) (e : Event) (v : DeviceId) : (s.raise e).dteAddr v = s.dteAddr v := rfl
@[simp] theorem State.raise_tailIndex (s : State) (e : Event) : (s.raise e).tailIndex = s.tailIndex := rfl
@[simp] theorem State.raise_headIndex (s : State) (e : Event) : (s.raise e).headIndex = s.headIndex := rfl
@[simp] theorem State.raise_headAddr (s : State) (e : Event) : (s.raise e).headAddr = s.headAddr := rfl
@[simp] theorem State.raise_nextHead (s : State) (e : Event) : (s.raise e).nextHead = s.nextHead := rfl

@[simp] theorem State.advanceHead_isMemory (s : State) (a n : Nat) : s.advanceHead.isMemory a n = s.isMemory a n := rfl
@[simp] theorem State.advanceHead_readAnswer (s : State) (a n : Nat) : s.advanceHead.readAnswer a n = s.readAnswer a n := rfl
@[simp] theorem State.advanceHead_evtTailAddr (s : State) : s.advanceHead.evtTailAddr = s.evtTailAddr := rfl
@[simp] theorem State.advanceHead_cmdEntries (s : State) : s.advanceHead.cmdEntries = s.cmdEntries := rfl
@[simp] theorem State.advanceHead_evtEntries (s : State) : s.advanceHead.evtEntries = s.evtEntries := rfl
@[simp] theorem State.advanceHead_evtTailIndex (s : State) : s.advanceHead.evtTailIndex = s.evtTailIndex := rfl
@[simp] theorem State.advanceHead_evtHeadIndex (s : State) : s.advanceHead.evtHeadIndex = s.evtHeadIndex := rfl
@[simp] theorem State.advanceHead_logFull (s : State) : s.advanceHead.logFull = s.logFull := rfl
@[simp] theorem State.advanceHead_eventLogRun (s : State) : s.advanceHead.eventLogRun = s.eventLogRun := rfl
@[simp] theorem State.advanceHead_eventOverflow (s : State) : s.advanceHead.eventOverflow = s.eventOverflow := rfl
@[simp] theorem State.advanceHead_logging (s : State) : s.advanceHead.logging = s.logging := rfl
@[simp] theorem State.advanceHead_logRuns (s : State) : s.advanceHead.logRuns = s.logRuns := rfl
@[simp] theorem State.advanceHead_detected (s : State) : s.advanceHead.detected = s.detected := rfl
@[simp] theorem State.advanceHead_tableTarget (s : State) (y : Nat) : s.advanceHead.tableTarget y = s.tableTarget y := rfl
@[simp] theorem State.advanceHead_fetching (s : State) : s.advanceHead.fetching = s.fetching := rfl
@[simp] theorem State.advanceHead_iotlbSup (s : State) : s.advanceHead.iotlbSup = s.iotlbSup := rfl
@[simp] theorem State.advanceHead_paSize (s : State) : s.advanceHead.paSize = s.paSize := rfl
@[simp] theorem State.advanceHead_coherent (s : State) : s.advanceHead.coherent = s.coherent := rfl
@[simp] theorem State.advanceHead_inTable (s : State) (v : DeviceId) : s.advanceHead.inTable v = s.inTable v := rfl
@[simp] theorem State.advanceHead_dteAddr (s : State) (v : DeviceId) : s.advanceHead.dteAddr v = s.dteAddr v := rfl
@[simp] theorem State.advanceHead_tailIndex (s : State) : s.advanceHead.tailIndex = s.tailIndex := rfl

end Sys2Proof.Machine
end

