-- ==== Sys2Proof/Laws/Ops.lean ====
section
/-! SUPPORT. What the shared operations can do, said once each: the platform's answer, table reads, writes of
the IOMMU, the fetch of a command, the report of an event. -/

namespace Sys2Proof.Machine

/-! ### The platform -/

/-- A range of memory lies within the 52-bit space. -/
theorem State.isMemory_bound {s : State} {a n : Nat} (h : s.isMemory a n = true) : a + n ≤ 2 ^ 52 := by
  simp only [State.isMemory, Bool.and_eq_true, decide_eq_true_eq] at h
  exact h.1.1

/-- A range of memory shares no address with the IOMMU's own registers. -/
theorem State.isMemory_registers {s : State} {a n : Nat} (h : s.isMemory a n = true) : s.touchesRegisters a n = false := by
  simp only [State.isMemory, Bool.and_eq_true, Bool.not_eq_true'] at h
  exact h.1.2

/-- An address within `PAsize` bits is accessed as it stands. -/
theorem State.tableTarget_small {s : State} {a : Nat} (h : a < 2 ^ s.paSize) : s.tableTarget a = .ok a := by
  rw [State.tableTarget, if_pos h]

/-- An address that is accessed at all is accessed as it stands, or without the bits above `PAsize`. -/
theorem State.tableTarget_cases {s : State} {a t : Nat} (h : s.tableTarget a = .ok t) :
    t = a ∨ t = a % 2 ^ s.paSize := by
  unfold State.tableTarget at h
  split at h
  · cases h; exact .inl rfl
  · split at h
    · cases h; exact .inr rfl
    · cases h

/-- An address within `PAsize` bits is what the access carries. -/
theorem State.onLink_small {s : State} {a : Addr} (h : a.toNat < 2 ^ s.paSize) : s.onLink a = a := by
  unfold State.onLink
  rw [State.tableTarget_small h]
  simp

/-- A table read within `PAsize` bits that the platform answers gives the bytes there. -/
theorem State.tableRead_ok {s : State} {a : Addr} {n : Nat} (coherent : Bool) (h : a.toNat < 2 ^ s.paSize)
    (hr : s.readAnswer a.toNat n = none) :
    s.tableRead a n coherent = .ok ((if coherent then s.mem else s.dram).readBytes a.toNat n) := by
  unfold State.tableRead State.tableTarget
  rw [if_pos h]
  simp only [hr]

/-- A table read within `PAsize` bits that the platform refuses fails as the platform says. -/
theorem State.tableRead_error {s : State} {a : Addr} {n : Nat} {f : ReadFailure} (coherent : Bool)
    (h : a.toNat < 2 ^ s.paSize) (hr : s.readAnswer a.toNat n = some f) : s.tableRead a n coherent = .error f := by
  unfold State.tableRead State.tableTarget
  rw [if_pos h]
  simp only [hr]

/-- A table read that succeeds gives as many bytes as asked for. -/
theorem State.tableRead_length {s : State} {a : Addr} {n : Nat} {c : Bool} {b : List Byte}
    (h : s.tableRead a n c = .ok b) : b.length = n := by
  unfold State.tableRead at h
  split at h
  · cases h
  · split at h
    · cases h
    · cases h; simp

/-! ### Writes of memory -/

/-- A store keeps the canonical form. -/
theorem State.store_canonical {s : State} (a : Nat) (d : List Byte) (h : s.memoryCanonical) :
    (s.store a d).memoryCanonical := ⟨Memory.wf_writeBytes _ _ _ h.1, Memory.wf_writeBytes _ _ _ h.2⟩

/-- A store leaves every other byte alone. -/
theorem State.store_outside (s : State) (a : Nat) (d : List Byte) : s.sameMemoryOutside (s.store a d) a d.length :=
  fun _ h => ⟨Memory.read_writeBytes_other _ _ _ _ h, Memory.read_writeBytes_other _ _ _ _ h⟩

/-- A store reads back. -/
theorem State.store_holds {s : State} (a : Nat) (d : List Byte) (h : s.memoryCanonical) : (s.store a d).holdsBytes a d :=
  ⟨Memory.readBytes_writeBytes _ _ _ h.1, Memory.readBytes_writeBytes _ _ _ h.2⟩

/-- All that a write of the IOMMU does: a store where the access goes and memory is, or nothing, and its trace. -/
theorem State.ownWrite_cases (s : State) (a : Addr) (d : List Byte) (t : Attrs) :
    (∃ b, s.tableTarget a.toNat = .ok b ∧ s.isMemory b d.length = true ∧
      s.ownWrite a d t = (s.store b d).emit (.ownWrite (s.onLink a) d t)) ∨
    s.ownWrite a d t = s.emit (.ownWrite (s.onLink a) d t) := by
  unfold State.ownWrite
  split
  · rename_i b hb
    split
    · rename_i hm; exact .inl ⟨b, hb, hm, rfl⟩
    · exact .inr rfl
  · exact .inr rfl

/-- A write of the IOMMU to memory within `PAsize` bits is a store. -/
theorem State.ownWrite_memory {s : State} {a : Addr} {d : List Byte} (t : Attrs) (h : s.ownMemory a.toNat d.length) :
    s.ownWrite a d t = (s.store a.toNat d).emit (.ownWrite a d t) := by
  unfold State.ownWrite
  rw [State.onLink_small h.1]
  simp only [State.tableTarget_small h.1, h.2, if_true]

/-- A write of the IOMMU keeps the canonical form. -/
theorem State.ownWrite_canonical {s : State} (a : Addr) (d : List Byte) (t : Attrs) (h : s.memoryCanonical) :
    (s.ownWrite a d t).memoryCanonical := by
  rcases s.ownWrite_cases a d t with ⟨b, -, -, e⟩ | e <;> rw [e]
  · exact s.store_canonical _ _ h
  · exact h

/-- A write of the IOMMU leaves every byte outside the place it is accessed at alone. -/
theorem State.ownWrite_outside {s : State} {a : Addr} {d : List Byte} {b : Nat} (t : Attrs)
    (h : s.tableTarget a.toNat = .ok b) : s.sameMemoryOutside (s.ownWrite a d t) b d.length := by
  rcases s.ownWrite_cases a d t with ⟨c, hc, -, e⟩ | e <;> rw [e]
  · rw [h] at hc; cases hc; exact s.store_outside _ _
  · exact fun _ _ => ⟨rfl, rfl⟩

/-- A write of the IOMMU whose access fails for its width changes no byte. -/
theorem State.ownWrite_wide {s : State} {a : Addr} {d : List Byte} {f : ReadFailure} (t : Attrs)
    (h : s.tableTarget a.toNat = .error f) : s.ownWrite a d t = s.emit (.ownWrite (s.onLink a) d t) := by
  unfold State.ownWrite
  simp only [h]

/-! ### The fetch of a command -/

/-- A copy read ahead is used, without a read. -/
theorem State.fetchEntry_copy {s : State} {w : Entry} (h : s.prefetchedAt s.headIndex = some w) :
    s.fetchEntry = .ok (s.dropPrefetched s.headIndex, w) := by
  unfold State.fetchEntry
  rw [h]

/-- Without a copy the entry is read from memory. -/
theorem State.fetchEntry_memory {s : State} (h : s.prefetchedAt s.headIndex = none) (hr : s.entryReadable) :
    s.fetchEntry = .ok (s.sawRead s.headAddr 16 ringAttrs, wordOf 128 s.entryBytes) := by
  unfold State.fetchEntry
  rw [h]
  simp only [State.tableRead_ok true hr.1 hr.2]
  rfl

/-- A read that fails fails the fetch. -/
theorem State.fetchEntry_error {s : State} {f : ReadFailure} (h : s.prefetchedAt s.headIndex = none)
    (ha : s.headAddr.toNat < 2 ^ s.paSize) (hr : s.readAnswer s.headAddr.toNat 16 = some f) : s.fetchEntry = .error f := by
  unfold State.fetchEntry
  rw [h]
  simp only [State.tableRead_error true ha hr]

/-- All a fetch can give: the state with the trace of a read or with a copy used up. -/
theorem State.fetchEntry_cases {s t : State} {w : Entry} (h : s.fetchEntry = .ok (t, w)) :
    t = s.sawRead s.headAddr 16 ringAttrs ∨ t = s.dropPrefetched s.headIndex := by
  unfold State.fetchEntry at h
  split at h
  · cases h; exact .inr rfl
  · split at h
    · cases h
    · cases h; exact .inl rfl

/-- All that fetching and validating can lead to: a failed read, an illegal entry, or the command. -/
theorem State.fetchThen_cases (s : State) (run : Instr → State → Result) :
    (∃ f, s.fetchThen run = .next ((s.sawRead s.headAddr 16 ringAttrs).commandError f)) ∨
    (∃ t w e, s.fetchEntry = .ok (t, w) ∧ decodeEntry w = .illegal e ∧ s.fetchThen run = .next t.illegalCommand) ∨
    ∃ t w i, s.fetchEntry = .ok (t, w) ∧ decodeEntry w = .instr i ∧ s.fetchThen run = run i t := by
  unfold State.fetchThen
  split
  · exact .inl ⟨_, rfl⟩
  · rename_i t w hf
    split
    · rename_i e he; exact .inr (.inl ⟨t, w, e, hf, he, rfl⟩)
    · rename_i i hi; exact .inr (.inr ⟨t, w, i, hf, hi, rfl⟩)

/-- The bytes of the entry decode as the word they spell. -/
theorem State.decode_entryBytes (s : State) : decode s.entryBytes = decodeEntry (wordOf 128 s.entryBytes) := by
  have hl : s.entryBytes.length = 16 := by simp [State.entryBytes]
  rw [decode, if_neg (by omega), List.take_of_length_le (by omega)]
  rfl

/-! ### Events -/

/-- Events are logged while `EventLogRun` holds, no overflow has halted the log and the IOMMU is enabled. -/
theorem State.logRuns_iff (s : State) :
    s.logRuns = true ↔ s.eventLogRun = true ∧ s.evtHalted = false ∧ s.iommuEn = true := by
  simp [State.logRuns, and_assoc]

/-- What a discarded event can do: nothing, or set `EventOverflow` with the interrupt that goes with it. -/
theorem State.discardEvent_cases (s : State) :
    s.discardEvent = s ∨ s.discardEvent = s.raiseFlag .eventOverflow := by
  unfold State.discardEvent
  split
  · exact .inr rfl
  · exact .inl rfl

/-- All that a report can lead to: nothing, an overflow bit set while not logging, an overflow, a log entry. -/
theorem State.report_cases (s : State) (p : PendingEvent) :
    s.report p = s ∨ (s.logRuns = false ∧ s.report p = s.raiseFlag .eventOverflow) ∨
      (s.logRuns = true ∧ s.logFull = true ∧ s.report p = s.overflowLog) ∨
      (p.detected = .logging ∧ s.firstFaultSeen p.seDevice = false ∧ s.logRuns = true ∧ s.eventOverflow = false ∧
        s.logFull = false ∧ s.report p = s.logEntry p) := by
  unfold State.report
  split
  · exact .inl rfl
  split
  · exact .inl rfl
  rename_i h1
  have discarded : s.logRuns = false → s.discardEvent = s ∨
      (s.logRuns = false ∧ s.discardEvent = s.raiseFlag .eventOverflow) := fun h =>
    s.discardEvent_cases.imp id fun e => ⟨h, e⟩
  split
  · rename_i h0
    exact (discarded (by simp [State.logRuns, by simpa using h0])).imp id .inl
  split
  · exact .inl rfl
  rename_i h4
  split
  · rename_i h2
    exact (discarded (by simpa using h2)).imp id .inl
  rename_i h2
  split
  · exact .inl rfl
  rename_i h3
  split
  · rename_i h5; exact .inr (.inr (.inl ⟨by simpa using h2, h5, rfl⟩))
  · rename_i h5
    exact .inr (.inr (.inr ⟨by simpa using h3, by simpa using h1, by simpa using h2, by simpa using h4, by simpa using h5,
      rfl⟩))

/-- A log entry keeps the canonical form. -/
theorem State.logEntry_canonical {s : State} (p : PendingEvent) (h : s.memoryCanonical) : (s.logEntry p).memoryCanonical := by
  have := s.ownWrite_canonical s.evtTailAddr p.event.bytes ringAttrs h
  simpa [State.memoryCanonical] using this

/-- A report keeps the canonical form. -/
theorem State.report_canonical {s : State} (p : PendingEvent) (h : s.memoryCanonical) : (s.report p).memoryCanonical := by
  rcases s.report_cases p with e | ⟨-, e⟩ | ⟨-, -, e⟩ | ⟨-, -, -, -, -, e⟩ <;> rw [e]
  · exact h
  · simpa [State.memoryCanonical] using h
  · exact h
  · exact s.logEntry_canonical p h

/-- A log entry writes the 16 bytes where the tail of the event log is accessed and no others. -/
theorem State.logEntry_outside {s : State} {b : Nat} (p : PendingEvent) (h : s.tableTarget s.evtTailAddr.toNat = .ok b) :
    s.sameMemoryOutside (s.logEntry p) b 16 := by
  have := State.ownWrite_outside (d := p.event.bytes) ringAttrs h
  simpa [State.sameMemoryOutside, Event.bytes] using this

/-- A report writes at most the 16 bytes where the tail of the event log is accessed. -/
theorem State.report_outside {s : State} {b : Nat} (p : PendingEvent) (h : s.tableTarget s.evtTailAddr.toNat = .ok b) :
    s.sameMemoryOutside (s.report p) b 16 := by
  rcases s.report_cases p with e | ⟨-, e⟩ | ⟨-, -, e⟩ | ⟨-, -, -, -, -, e⟩ <;> rw [e]
  · exact fun _ _ => ⟨rfl, rfl⟩
  · exact fun _ _ => ⟨rfl, rfl⟩
  · exact fun _ _ => ⟨rfl, rfl⟩
  · exact State.logEntry_outside p h

/-- A report whose access of the event log fails for its width changes no byte. -/
theorem State.report_wide {s : State} {f : ReadFailure} (p : PendingEvent)
    (h : s.tableTarget s.evtTailAddr.toNat = .error f) : s.sameMemory (s.report p) := by
  rcases s.report_cases p with e | ⟨-, e⟩ | ⟨-, -, e⟩ | ⟨-, -, -, -, -, e⟩ <;> rw [e]
  · exact fun _ => ⟨rfl, rfl⟩
  · exact fun _ => ⟨rfl, rfl⟩
  · exact fun _ => ⟨rfl, rfl⟩
  · intro b; simp [State.ownWrite_wide ringAttrs h]

end Sys2Proof.Machine
end

