-- ==== Sys2Proof/Laws/Commands.lean ====
section
/-! SUPPORT. What the commands can do, said once: how a command begins, where it goes, how it goes on. -/

namespace Sys2Proof.Machine

/-- The effect a command can have when it takes effect: one of five. -/
def Effect (i : Instr) (s t : State) : Prop :=
  (∃ store int fence a d, i = .completionWait store int fence a d ∧ t = (s.waitStore store a d).waitFlag int ∧
    (store = true → s.storeRefused a = false)) ∨
  (∃ dev, i = .invalidateDevtabEntry dev ∧ t = s.forgetDte dev) ∨
  (∃ m size pde address, i = .invalidateIommuPages m size pde address ∧ t = s.forgetPages m pde (invRange size address)) ∨
  (∃ dev x q size address addr r, i = .invalidateIotlbPages dev x q size address ∧ t = s.sendIotlb dev q addr r) ∨
  ∃ dev, i = .invalidateInterruptTable dev ∧ t = s.forgetIrt dev

/-- A command that takes effect has its own effect. -/
theorem Command.start_effect {c : Command} {older : List Command} {s t : State} {rest : Option Phase}
    (h : c.start older s = .took t rest) : Effect c.instr s t := by
  unfold Command.start at h
  split at h
  · rename_i store int fence a d hi
    unfold startCompletionWait at h
    split at h
    · cases h
    · split at h
      · cases h
      · rename_i h2
        cases h
        exact .inl ⟨store, int, fence, a, d, hi, rfl, fun hs => by simpa [hs] using h2⟩
  · rename_i dev hi
    unfold startInvalidateDevtabEntry at h
    split at h
    · cases h
    · cases h; exact .inr (.inl ⟨dev, hi, rfl⟩)
  · rename_i m size pde address hi
    unfold startInvalidateIommuPages at h
    split at h
    · cases h
    · cases h; exact .inr (.inr (.inl ⟨m, size, pde, address, hi, rfl⟩))
  · rename_i dev x q size address hi
    unfold startInvalidateIotlbPages at h
    split at h
    · cases h
    · split at h
      · cases h
      · split at h
        · cases h
        · cases h; exact .inr (.inr (.inr (.inl ⟨dev, x, q, size, address, _, _, hi, rfl⟩)))
  · rename_i dev hi
    unfold startInvalidateInterruptTable at h
    split at h
    · cases h
    · cases h; exact .inr (.inr (.inr (.inr ⟨dev, hi, rfl⟩)))

/-- A command just fetched begins like a waiting one, at the state whose head pointer has moved. -/
theorem exec_start (i : Instr) (s : State) (h : (∀ dev x q size address, i ≠ .invalidateIotlbPages dev x q size address) ∨ s.iotlbSup = true) :
    exec i s =
      ((Command.mk i s.headAddr .waiting).start s.fetched s.advanceHead).place i s.headAddr s.advanceHead := by
  cases i with
  | invalidateIotlbPages dev x q size address =>
    rcases h with h | h
    · exact absurd rfl (h dev x q size address)
    · show execInvalidateIotlbPages dev x q size address s = _
      unfold execInvalidateIotlbPages
      rw [h]; rfl
  | _ => rfl

/-- All that executing a command can lead to: an illegal command, one held back, or its effect with the command
completed or left among the fetched ones. -/
theorem exec_cases {i : Instr} {s t : State} (h : exec i s = .next t) :
    ((∃ dev x q size address, i = .invalidateIotlbPages dev x q size address) ∧ s.iotlbSup = false ∧ t = s.illegalCommand) ∨
    (t = s.advanceHead.enqueue ⟨i, s.headAddr, .waiting⟩) ∨
    ∃ u, Effect i s.advanceHead u ∧ (t = u ∨ ∃ p, t = u.enqueue ⟨i, s.headAddr, p⟩) := by
  by_cases hi : (∀ dev x q size address, i ≠ .invalidateIotlbPages dev x q size address) ∨ s.iotlbSup = true
  · rw [exec_start i s hi] at h
    right
    generalize hb : (Command.mk i s.headAddr .waiting).start s.fetched s.advanceHead = b at h
    unfold Started.place at h
    split at h
    · cases h; exact .inl rfl
    · cases h
    · cases h; exact .inr ⟨t, Command.start_effect hb, .inl rfl⟩
    · cases h; exact .inr ⟨_, Command.start_effect hb, .inr ⟨_, rfl⟩⟩
  · left
    rw [not_or] at hi
    obtain ⟨hi, hs⟩ := hi
    simp only [not_forall, not_not] at hi
    obtain ⟨dev, x, q, size, address, rfl⟩ := hi
    have hs' : s.iotlbSup = false := by simpa using hs
    refine ⟨⟨dev, x, q, size, address, rfl⟩, hs', ?_⟩
    have : execInvalidateIotlbPages dev x q size address s = .next t := h
    unfold execInvalidateIotlbPages at this
    rw [hs'] at this
    cases this; rfl

/-- All that letting a fetched command go on can lead to. -/
theorem State.runCommand_cases {s t : State} {k : Nat} (h : s.runCommand k = .next t) :
    t = s ∨ t = s.completeAt k ∨
      ∃ c u, s.fetched[k]? = some c ∧ Effect c.instr s u ∧ (t = u.completeAt k ∨ ∃ p, t = u.setPhase k c p) := by
  unfold State.runCommand at h
  split at h
  · cases h; exact .inl rfl
  · rename_i c hc
    split at h
    · generalize hb : c.start (s.fetched.take k) s = b at h
      unfold Started.settle at h
      split at h
      · cases h; exact .inl rfl
      · cases h
      · cases h; exact .inr (.inr ⟨c, _, hc, Command.start_effect hb, .inl rfl⟩)
      · cases h; exact .inr (.inr ⟨c, _, hc, Command.start_effect hb, .inr ⟨_, rfl⟩⟩)
    · cases h; exact .inl rfl
    · split at h
      · cases h; exact .inr (.inl rfl)
      · cases h; exact .inl rfl

/-- A waiting command that goes on begins behind the commands fetched before it. -/
theorem State.act_run_waiting {s : State} {before after : List Command} {c : Command}
    (h : s.fetched = before ++ c :: after) (hp : c.phase = .waiting) :
    s.act (.run before.length) = (c.start before s).settle before.length c s := by
  show s.runCommand before.length = _
  unfold State.runCommand
  simp [h, hp]

/-- A command that takes effect at its fetch completes, or joins the fetched ones to wait for what it matches. -/
theorem Started.place_restOf (ids : List Nat) (i : Instr) (addr : Addr) (s u : State) :
    Started.place i addr s (.took u (restOf ids)) =
      .next (if ids = [] then u else u.enqueue ⟨i, addr, .draining ids⟩) := by
  unfold restOf
  cases ids <;> simp [Started.place]

/-- A command that takes effect later completes, or waits at its place for what it matches. -/
theorem Started.settle_restOf (ids : List Nat) (k : Nat) (c : Command) (s u : State) :
    Started.settle k c s (.took u (restOf ids)) =
      .next (if ids = [] then u.completeAt k else u.setPhase k c (.draining ids)) := by
  unfold restOf
  cases ids <;> simp [Started.settle]

/-- The command between the others is the one that leaves. -/
theorem eraseIdx_between (before after : List Command) (c : Command) :
    (before ++ c :: after).eraseIdx before.length = before ++ after := by
  simp [List.eraseIdx_append_of_length_le]

/-- The command between the others is the one that gets further. -/
theorem set_between (before after : List Command) (c d : Command) :
    (before ++ c :: after).set before.length d = before ++ d :: after := by
  simp

/-- What INVALIDATE_DEVTAB_ENTRY marks. -/
theorem InFlight.spoilDte_eq (dev : DeviceId) (t : InFlight) :
    t.spoilDte dev = { t with staleDte := t.staleDte || t.halfRead dev } := by
  unfold InFlight.spoilDte; split <;> rename_i h <;> simp [h]

/-- What INVALIDATE_IOMMU_PAGES marks. -/
theorem InFlight.spoil_eq (m : DomainId) (t : InFlight) :
    t.spoil m = { t with stale := t.stale || t.underDomain m } := by
  unfold InFlight.spoil; split <;> rename_i h <;> simp [h]

/-- What INVALIDATE_INTERRUPT_TABLE marks. -/
theorem InFlight.spoilIrt_eq (dev : DeviceId) (t : InFlight) :
    t.spoilIrt dev = { t with stale := t.stale || t.remapsFor dev } := by
  unfold InFlight.spoilIrt; split <;> rename_i h <;> simp [h]

/-- All that fetching without beginning can lead to. -/
theorem holdCommand_cases (i : Instr) (s : State) :
    holdCommand i s = .next s.illegalCommand ∨
      holdCommand i s = .next (s.advanceHead.enqueue ⟨i, s.headAddr, .waiting⟩) := by
  cases i with
  | invalidateIotlbPages dev x q size address =>
    unfold holdCommand
    dsimp only
    split
    · exact .inr rfl
    · exact .inl rfl
  | _ => exact .inr rfl

/-- The numbers an invalidation waits for are those of the transactions it matches. -/
theorem State.mem_matching (s : State) (f : InFlight → Bool) (g : Forwarded → Bool) (id : Nat) :
    id ∈ s.matching f g ↔ ((∃ u ∈ s.inFlight, u.id = id ∧ f u = true) ∨
      ∃ x ∈ s.upReads ++ s.upWrites, x.id = id ∧ g x = true) := by
  simp only [State.matching, List.mem_append, List.mem_map, List.mem_filter]
  constructor
  · rintro ((⟨u, ⟨h1, h2⟩, h3⟩ | ⟨u, ⟨h1, h2⟩, h3⟩) | ⟨u, ⟨h1, h2⟩, h3⟩)
    · exact .inl ⟨u, h1, h3, h2⟩
    · exact .inr ⟨u, .inl h1, h3, h2⟩
    · exact .inr ⟨u, .inr h1, h3, h2⟩
  · rintro (⟨u, h1, h2, h3⟩ | ⟨u, h1 | h1, h2, h3⟩)
    · exact .inl (.inl ⟨u, ⟨h1, h3⟩, h2⟩)
    · exact .inl (.inr ⟨u, ⟨h1, h3⟩, h2⟩)
    · exact .inr ⟨u, ⟨h1, h3⟩, h2⟩

/-- An invalidation waits for nothing exactly where it matches nothing. -/
theorem State.matching_eq_nil (s : State) (f : InFlight → Bool) (g : Forwarded → Bool) :
    s.matching f g = [] ↔ (∀ u ∈ s.inFlight, f u = false) ∧ ∀ x ∈ s.upReads ++ s.upWrites, g x = false := by
  rw [List.eq_nil_iff_forall_not_mem]
  simp only [State.mem_matching, not_or, not_exists, not_and, Bool.not_eq_true]
  exact ⟨fun h => ⟨fun u hu => (h u.id).1 u hu rfl, fun x hx => (h x.id).2 x hx rfl⟩,
    fun h _ => ⟨fun u hu _ => h.1 u hu, fun x hx _ => h.2 x hx⟩⟩

/-! ### Memory under the commands -/

/-- Memory has become what a COMPLETION_WAIT with this instruction stores, where the store is accessed. -/
def Instr.stored (i : Instr) (s t : State) : Prop :=
  ∃ a b d, storesAt a i ∧ s.tableTarget a.toNat = .ok b ∧ t.mem = s.mem.writeBytes b (leBytes 8 d) ∧
    t.dram = s.dram.writeBytes b (leBytes 8 d)

/-- The effect of a command changes memory only as the store of a COMPLETION_WAIT. -/
theorem Effect.memory {i : Instr} {s t : State} (h : Effect i s t) :
    (t.mem = s.mem ∧ t.dram = s.dram) ∨ Instr.stored i s t := by
  rcases h with ⟨store, int, fence, a, d, rfl, rfl, hm⟩ | ⟨_, -, rfl⟩ | ⟨_, _, _, _, -, rfl⟩ |
    ⟨_, _, _, _, _, _, _, -, rfl⟩ | ⟨_, -, rfl⟩
  · cases store with
    | false => left; constructor <;> simp [State.waitStore]
    | true =>
      rcases s.ownWrite_cases a (leBytes 8 d.toNat) waitStoreAttrs with ⟨b, hb, -, e⟩ | e
      · right
        exact ⟨a, b, d.toNat, ⟨rfl, rfl⟩, hb, by simp [State.waitStore, e], by simp [State.waitStore, e]⟩
      · left
        exact ⟨by simp [State.waitStore, e], by simp [State.waitStore, e]⟩
  all_goals left; constructor <;> simp

/-- The effect of a command keeps the canonical form. -/
theorem Effect.canonical {i : Instr} {s t : State} (h : Effect i s t) (hc : s.memoryCanonical) : t.memoryCanonical := by
  rcases h.memory with ⟨h1, h2⟩ | ⟨a, b, d, -, -, h1, h2⟩
  · exact ⟨by rw [h1]; exact hc.1, by rw [h2]; exact hc.2⟩
  · exact ⟨by rw [h1]; exact Memory.wf_writeBytes _ _ _ hc.1, by rw [h2]; exact Memory.wf_writeBytes _ _ _ hc.2⟩

/-- Executing a command changes memory only as the store of a COMPLETION_WAIT. -/
theorem exec_memory {i : Instr} {s t : State} (h : exec i s = .next t) :
    (t.mem = s.mem ∧ t.dram = s.dram) ∨ Instr.stored i s t := by
  rcases exec_cases h with ⟨-, -, rfl⟩ | rfl | ⟨u, hu, h⟩
  · exact .inl ⟨rfl, rfl⟩
  · exact .inl ⟨rfl, rfl⟩
  · rcases h with rfl | ⟨p, rfl⟩ <;> simpa [Instr.stored] using hu.memory

/-- A fetched command that goes on changes memory only as the store of a COMPLETION_WAIT. -/
theorem State.runCommand_memory {s t : State} {k : Nat} (h : s.runCommand k = .next t) :
    (t.mem = s.mem ∧ t.dram = s.dram) ∨ ∃ c ∈ s.fetched, Instr.stored c.instr s t := by
  rcases s.runCommand_cases h with rfl | rfl | ⟨c, u, hc, hu, h⟩
  · exact .inl ⟨rfl, rfl⟩
  · exact .inl ⟨rfl, rfl⟩
  · have hm : c ∈ s.fetched := List.mem_of_getElem? hc
    rcases hu.memory with hu | hu
    · rcases h with rfl | ⟨p, rfl⟩ <;> exact .inl (by simpa using hu)
    · rcases h with rfl | ⟨p, rfl⟩ <;> exact .inr ⟨c, hm, by simpa [Instr.stored] using hu⟩

end Sys2Proof.Machine
end

