-- ==== Sys2Proof/Laws/Engine.lean ====
section
/-! SUPPORT. What the parts of the transaction engine leave alone: memory, the registers, the command processor
and the environment. One lemma per part; each part may change the caches, the transactions, the events waiting
and what has been sent. -/

namespace Sys2Proof.Machine

/-- Only what the transaction engine owns may differ. -/
def EngineFrame (s t : State) : Prop :=
  t = { s with
    dteCache := t.dteCache, tlb := t.tlb, pdc := t.pdc, irtCache := t.irtCache, inFlight := t.inFlight,
    upReads := t.upReads, upWrites := t.upWrites, pendingEvents := t.pendingEvents, outputs := t.outputs }

/-- Nothing differs. -/
theorem EngineFrame.refl (s : State) : EngineFrame s s := rfl

/-- One part after another. -/
theorem EngineFrame.trans {s t u : State} (h : EngineFrame s t) (k : EngineFrame t u) : EngineFrame s u := by
  unfold EngineFrame at h k ⊢
  rw [h] at k
  exact k

theorem State.emit_frame (s : State) (o : Output) : EngineFrame s (s.emit o) := rfl
theorem State.raise_frame (s : State) (e : Event) : EngineFrame s (s.raise e) := rfl
theorem State.retire_frame (s : State) (t : InFlight) : EngineFrame s (s.retire t) := rfl
theorem State.setTx_frame (s : State) (t : InFlight) (p : TxPhase) : EngineFrame s (s.setTx t p) := rfl
theorem State.refuseTx_frame (s : State) (t : InFlight) (a : Abort) : EngineFrame s (s.refuseTx t a) := rfl
theorem State.answerPages_frame (s : State) (t : InFlight) (p : Config.PageAnswer) : EngineFrame s (s.answerPages t p) := rfl
theorem State.answerDirect_frame (s : State) (t : InFlight) (p : Config.PageAnswer) : EngineFrame s (s.answerDirect t p) := by
  unfold State.answerDirect; split <;> rfl
theorem State.sawRead_frame (s : State) (a : Addr) (n : Nat) (t : Attrs) : EngineFrame s (s.sawRead a n t) := rfl

theorem State.sendUp_frame (s : State) (f : Forwarded) : EngineFrame s (s.sendUp f) := by
  unfold State.sendUp; split <;> rfl

/-- Where a forwarded transaction stands from then on: `v` is a state in which no other joined those under way. -/
theorem State.sendUp_underWay {s v : State} (f : Forwarded) (hr : v.upReads = s.upReads) (hw : v.upWrites = s.upWrites)
    (ho : f.obscure = true → f.orig.kind = .zeroByteRead ∧ f.used ≠ none) :
    s.underWay (v.sendUp f) f.id f.orig f.sent f.used := by
  refine ⟨f.obscure, ho, ?_, ?_⟩ <;> unfold State.sendUp <;> split <;> rename_i h <;> simp [h, hr, hw]

theorem State.raiseUnless_frame (s : State) (b : Bool) (e : Event) : EngineFrame s (s.raiseUnless b e) := by
  cases b <;> rfl

theorem State.raisePageFault_frame (s : State) (d : Dte) (dev : DeviceId) (e : Event) :
    EngineFrame s (s.raisePageFault d dev e) := by
  unfold State.raisePageFault; split <;> (try split) <;> rfl

theorem State.passOn_frame (s : State) (t : InFlight) : EngineFrame s (s.passOn t) :=
  (s.retire_frame t).trans (State.sendUp_frame _ _)

theorem State.finishMemory_frame (s : State) (t : InFlight) (d : Dte) (p : PageUse) (a : Addr) (ir iw fc : Bool) :
    EngineFrame s (s.finishMemory t d p a ir iw fc) := by
  unfold State.finishMemory
  split
  · exact (s.retire_frame t).trans (State.sendUp_frame _ _)
  · exact (s.raisePageFault_frame d t.tx.dev _).trans (State.refuseTx_frame _ _ _)

theorem State.finishDirect_frame (s : State) (t : InFlight) (d : Dte) : EngineFrame s (s.finishDirect t d) := by
  unfold State.finishDirect
  split
  · exact s.answerDirect_frame t _
  · exact s.finishMemory_frame t d _ _ _ _ _

theorem State.finishPage_frame (s : State) (t : InFlight) (d : Dte) (p : PageUse) (a : Addr) (n : Nat)
    (ir iw fc u : Bool) : EngineFrame s (s.finishPage t d p a n ir iw fc u) := by
  unfold State.finishPage
  split
  · exact s.answerPages_frame t _
  · exact s.finishMemory_frame t d _ _ _ _ _

theorem State.finishFault_frame (s : State) (t : InFlight) (d : Dte) (pr rz ir iw : Bool) :
    EngineFrame s (s.finishFault t d pr rz ir iw) := by
  unfold State.finishFault
  split
  · exact s.answerPages_frame t _
  · exact (s.raisePageFault_frame d t.tx.dev _).trans (State.refuseTx_frame _ _ _)

theorem State.finishWalk_frame (s : State) (t : InFlight) (d : Dte) (p : PageUse) (v : Addr) (ir iw : Bool)
    (r : WalkResult) : EngineFrame s (s.finishWalk t d p v ir iw r) := by
  cases r with
  | page base bits i w fc u => exact s.finishPage_frame t d _ _ _ _ _ _ _
  | fault pr rz i w => exact s.finishFault_frame t d _ _ _ _

theorem State.concludeWalk_frame (s : State) (t : InFlight) (d : Dte) (w : Walk) (c : TxChoice) (n : Nat) (p : Bool)
    (r : WalkResult) : EngineFrame s (s.concludeWalk t d w c n p r) := by
  unfold State.concludeWalk
  refine EngineFrame.trans ?_ (State.finishWalk_frame _ _ _ _ _ _ _ _)
  split <;> rfl

theorem State.descendWalk_frame (s : State) (t : InFlight) (d : Dte) (w : Walk) (c : TxChoice) (a : Addr) (l : Nat) :
    EngineFrame s (s.descendWalk t d w c a l) := by
  unfold State.descendWalk
  dsimp only
  refine EngineFrame.trans ?_ (State.setTx_frame _ _ _)
  split <;> rfl

theorem State.walkLevel_frame (s : State) (t : InFlight) (d : Dte) (w : Walk) (c : TxChoice) :
    EngineFrame s (s.walkLevel t d w c) := by
  unfold State.walkLevel
  split
  · exact s.finishWalk_frame t d _ _ _ _ _
  · dsimp only
    split
    · exact (s.sawRead_frame _ _ _).trans ((State.raise_frame _ _).trans (State.refuseTx_frame _ _ _))
    · refine (s.sawRead_frame (entryAddr w.table w.level w.dva) 8 (s.pageTabAttrs d.sd)).trans ?_
      split
      · exact State.concludeWalk_frame _ _ _ _ _ _ _ _
      · exact State.concludeWalk_frame _ _ _ _ _ _ _ _
      · exact State.descendWalk_frame _ _ _ _ _ _ _

theorem State.beginTranslate_frame (s : State) (t : InFlight) (d : Dte) : EngineFrame s (s.beginTranslate t d) := by
  unfold State.beginTranslate
  split
  · exact s.finishDirect_frame t d
  · split
    · exact s.finishFault_frame t d _ _ _ _
    · exact s.setTx_frame t _

theorem State.finishRemap_frame (s : State) (t : InFlight) (d : Dte) (e : BitVec 32) : EngineFrame s (s.finishRemap t d e) := by
  unfold State.finishRemap
  split
  · exact (s.raiseUnless_frame _ _).trans (State.refuseTx_frame _ _ _)
  · exact (s.retire_frame t).trans (State.sendUp_frame _ _)

theorem State.remapStep_frame (s : State) (t : InFlight) (d : Dte) (n : Nat) (c : TxChoice) :
    EngineFrame s (s.remapStep t d n c) := by
  unfold State.remapStep
  split
  · exact s.finishRemap_frame t d _
  · dsimp only
    split
    · exact (s.sawRead_frame _ _ _).trans ((State.raise_frame _ _).trans (State.refuseTx_frame _ _ _))
    · refine EngineFrame.trans ?_ (State.finishRemap_frame _ _ _ _)
      split <;> rfl

theorem State.judged_frame (s : State) (t : InFlight) (d : Dte) : EngineFrame s (s.judged t d) := by
  unfold State.judged
  cases s.judge t.tx d with
  | pass => exact s.passOn_frame t
  | deny a e b => exact (s.raiseUnless_frame b e).trans (State.refuseTx_frame _ _ _)
  | fault e => exact (s.raisePageFault_frame d t.tx.dev e).trans (State.refuseTx_frame _ _ _)
  | excluded => exact s.answerDirect_frame t _
  | translate => exact s.beginTranslate_frame t d
  | remap n => exact s.setTx_frame t _

theorem State.keepDte_frame (s : State) (t : InFlight) (c : TxChoice) (l : List DteCacheEntry) :
    EngineFrame s (s.keepDte t c l) := by
  unfold State.keepDte; split <;> rfl

theorem State.dteFailed_frame (s : State) (t : InFlight) (f : ReadFailure) (a : Addr) : EngineFrame s (s.dteFailed t f a) :=
  (s.raise_frame _).trans (State.refuseTx_frame _ _ _)

theorem State.readHalf_frame (s : State) (t : InFlight) (r : HalfRead) (k : State → BitVec 128 → State)
    (h : ∀ u v, EngineFrame u (k u v)) : EngineFrame s (s.readHalf t r k) := by
  have hs : EngineFrame s (if r.issued.isNone then s.sawRead r.addr 16 s.devTabAttrs else s) := by split <;> rfl
  unfold State.readHalf
  dsimp only
  split
  · exact hs.trans (State.dteFailed_frame _ _ _ _)
  · exact hs.trans (h _ _)

theorem State.readWide_frame (s : State) (t : InFlight) (k : State → Dte → State) (h : ∀ u v, EngineFrame u (k u v)) :
    EngineFrame s (s.readWide t k) := by
  unfold State.readWide
  dsimp only
  split
  · exact (s.sawRead_frame _ _ _).trans (State.dteFailed_frame _ _ _ _)
  · split
    · exact (s.sawRead_frame _ _ _).trans (State.dteFailed_frame _ _ _ _)
    · exact (s.sawRead_frame _ _ _).trans (h _ _)

theorem State.finishHigh_frame (s : State) (t : InFlight) (c : TxChoice) (r : HalfRead) (lo : BitVec 128) :
    EngineFrame s (s.finishHigh t c r lo) :=
  s.readHalf_frame t r _ fun u _ => (u.keepDte_frame t c _).trans (State.judged_frame _ _ _)

theorem State.finishLow_frame (s : State) (t : InFlight) (c : TxChoice) (r : HalfRead) (hi : BitVec 128) :
    EngineFrame s (s.finishLow t c r hi) :=
  s.readHalf_frame t r _ fun u _ => (u.keepDte_frame t c _).trans (State.judged_frame _ _ _)

theorem State.beginHalf_frame (s : State) (t : InFlight) (c : TxChoice) (l h : HalfRead) :
    EngineFrame s (s.beginHalf t c l h) := by
  unfold State.beginHalf
  split
  · exact s.readHalf_frame t h _ fun u _ => (u.keepDte_frame t c _).trans (State.setTx_frame _ _ _)
  · exact s.readHalf_frame t l _ fun u _ => (u.keepDte_frame t c _).trans (State.setTx_frame _ _ _)

theorem State.readTorn_frame (s : State) (t : InFlight) (c : TxChoice) : EngineFrame s (s.readTorn t c) :=
  (s.sawRead_frame _ _ _).trans (State.beginHalf_frame _ _ _ _ _)

theorem State.readDte_frame (s : State) (t : InFlight) (c : TxChoice) : EngineFrame s (s.readDte t c) := by
  unfold State.readDte
  split
  · exact s.readTorn_frame t c
  · split
    · exact s.readWide_frame t _ fun u _ => (u.keepDte_frame t c _).trans (State.judged_frame _ _ _)
    · exact s.beginHalf_frame t c _ _

theorem State.lookupDte_frame (s : State) (t : InFlight) (c : TxChoice) : EngineFrame s (s.lookupDte t c) := by
  unfold State.lookupDte
  split
  · exact s.judged_frame t _
  · split
    · exact s.judged_frame t _
    · exact s.finishHigh_frame t c _ _
    · exact s.finishLow_frame t c _ _
    · exact s.readDte_frame t c

theorem State.walkOn_frame (s : State) (t : InFlight) (d : Dte) (w : Walk) (c : TxChoice) :
    EngineFrame s (s.walkOn t d w c) := by
  unfold State.walkOn
  split
  · exact s.finishWalk_frame t d _ _ _ _ _
  · split
    · exact s.setTx_frame t _
    · exact s.walkLevel_frame t d _ c

/-- A step of a walk that is not refused is one under a domain whose tables agree, or has begun before. -/
theorem State.walkStep_next {s u : State} {t : InFlight} {d : Dte} {w : Walk} {c : TxChoice}
    (h : s.walkStep t d w c = .next u) : u = s.walkOn t d w c ∧ (w.fresh = true → s.tablesDisagree d.domain = false) := by
  unfold State.walkStep at h
  split at h
  · cases h
  · rename_i hn
    cases h
    exact ⟨rfl, fun hf => by simpa [hf] using hn⟩

theorem State.walkStep_frame {s u : State} {t : InFlight} {d : Dte} {w : Walk} {c : TxChoice}
    (h : s.walkStep t d w c = .next u) : EngineFrame s u := by
  rw [(State.walkStep_next h).1]
  exact s.walkOn_frame t d w c

/-! ### The caches -/

/-- A hit is the entry at the place that is named, and it fits. -/
theorem pick_eq_some {α : Type} {l : List α} {k : Option Nat} {fits : α → Bool} {x : α} :
    pick l k fits = some x ↔ standsAt l k x ∧ fits x = true := by
  simp [pick, standsAt, Option.filter_eq_some_iff]

/-- A hit is an entry of the cache. -/
theorem pick_mem {α : Type} {l : List α} {k : Option Nat} {fits : α → Bool} {x : α} (h : pick l k fits = some x) : x ∈ l := by
  obtain ⟨p, -, hp⟩ := Option.bind_eq_some_iff.mp (pick_eq_some.mp h).1
  exact List.mem_of_getElem? hp

/-- The half of an entry that hits. -/
theorem State.hitDte_eq_some {s : State} {k : Option Nat} {dev : DeviceId} {high : Bool} {half : BitVec 128} :
    s.hitDte k dev high = some half ↔ s.usesHalf k dev high half := by
  simp [State.hitDte, State.usesHalf, pick_eq_some, and_assoc]

/-- No half of an entry hits. -/
theorem State.hitDte_eq_none {s : State} {k : Option Nat} {dev : DeviceId} {high : Bool} :
    s.hitDte k dev high = none ↔ s.usesNoHalf k dev high := by
  rw [Option.eq_none_iff_forall_ne_some]
  simp only [ne_eq, State.hitDte_eq_some, State.usesHalf, State.usesNoHalf]
  exact ⟨fun h e h1 h2 h3 => h e.half ⟨e, h1, h2, h3, rfl⟩, fun h _ ⟨e, h1, h2, h3, _⟩ => h e h1 h2 h3⟩

/-- The translation that hits. -/
theorem State.hitTlb_eq_some {s : State} {k : Option Nat} {m : DomainId} {dva : Addr} {e : TlbEntry} :
    s.hitTlb k m dva = some e ↔ s.usesTlb k m dva e := by
  simp [State.hitTlb, State.usesTlb, pick_eq_some]

/-- The directory entry that hits. -/
theorem State.hitPdc_eq_some {s : State} {k : Option Nat} {m : DomainId} {dva : Addr} {e : PdcEntry} :
    s.hitPdc k m dva = some e ↔ s.usesPdc k m dva e := by
  simp [State.hitPdc, State.usesPdc, pick_eq_some]

/-- The interrupt remapping entry that hits. -/
theorem State.hitIrte_eq_some {s : State} {k : Option Nat} {dev : DeviceId} {n : Nat} {w : BitVec 32} :
    s.hitIrte k dev n = some w ↔ ∃ e, s.usesIrte k dev n e ∧ e.entry = w := by
  simp [State.hitIrte, State.usesIrte, pick_eq_some]

/-- All that keeping halves of a device table entry can do. -/
theorem State.keepDte_cases (s : State) (t : InFlight) (c : TxChoice) (l : List DteCacheEntry) :
    s.keepDte t c l = s ∨ c.keepDte = true ∧ t.staleDte = false ∧
      s.keepDte t c l = s.fillDte (l.filter fun e => e.valid || s.npCache) := by
  unfold State.keepDte
  split
  · exact .inr (by simp_all)
  · exact .inl rfl

/-- The cache after a whole entry has been read. -/
theorem State.keepWhole_eq (s : State) (t : InFlight) (c : TxChoice) (d : Dte) :
    s.keepWhole t c d = { s with dteCache := s.dteCacheWith t c d } := by
  unfold State.keepWhole State.keepDte State.dteCacheWith State.fillDte DteCacheEntry.valid Dte.v Dte.iv
  cases c.keepDte <;> cases t.staleDte <;> cases hl : d.lo.getLsbD 0 <;> cases hh : d.hi.getLsbD 0 <;> cases s.npCache <;>
    simp_all [List.filter]

/-- The cache after one half of an entry has been read. -/
theorem State.keepHalf_eq (s : State) (t : InFlight) (c : TxChoice) (half : BitVec 128) :
    s.keepHalf t c c.highFirst half = { s with dteCache := s.dteCacheHalf t c half } := by
  have hk : s.knownValid t.tx.dev (!c.highFirst) =
      decide (∃ e ∈ s.dteCache, e.dev = t.tx.dev ∧ e.high ≠ c.highFirst ∧ e.half.getLsbD 0 = true) := by
    rw [Bool.eq_iff_iff]
    simp only [State.knownValid, List.any_eq_true, Bool.and_eq_true, decide_eq_true_eq, and_assoc, ne_eq, Bool.eq_not]
  unfold State.keepHalf State.keepDte State.dteCacheHalf State.fillDte DteCacheEntry.valid
  rw [hk]
  generalize decide (∃ e ∈ s.dteCache, e.dev = t.tx.dev ∧ e.high ≠ c.highFirst ∧ e.half.getLsbD 0 = true) = known
  cases c.keepDte <;> cases t.staleDte <;> cases hh : half.getLsbD 0 <;> cases known <;> cases s.npCache <;>
    simp_all [List.filter]

/-- The cache entries in which the result of a walk is kept. -/
theorem walkEntries_eq (t : InFlight) (d : Dte) (w : Walk) (c : TxChoice) (bits : Nat) (r : WalkResult) :
    walkEntries d t.tx.dev w c bits r = keptPieces t d w c bits r := by
  have h : ∀ a : Addr, rangesMeet (alignDown w.dva bits) bits a 0 =
      decide (a.toNat / 2 ^ bits = w.dva.toNat / 2 ^ bits) := by
    intro a
    have h1 : w.dva.toNat / 2 ^ bits * 2 ^ bits < 2 ^ 64 := lt_of_le_of_lt (Nat.div_mul_le_self _ _) w.dva.isLt
    simp only [rangesMeet, alignDown, Nat.max_zero, BitVec.toNat_ofNat, Nat.mod_eq_of_lt h1]
    rw [Nat.mul_div_cancel _ (by positivity), decide_eq_decide]
    exact eq_comm
  simp only [walkEntries, keptPieces, cacheSpan, h]

/-- All that losing a cached half of a device table entry can do. -/
theorem State.dropDte_cases (s : State) (k : Nat) (forget : Bool) :
    s.dropDte k forget = s ∨ ∃ e, s.dteCache[k]? = some e ∧ s.dropDte k forget = s.loseDte k e forget := by
  unfold State.dropDte
  split
  · exact .inl rfl
  · rename_i e h; exact .inr ⟨e, h, rfl⟩

end Sys2Proof.Machine
end

