-- ==== Sys2Proof/Laws/PerInstr.lean ====
section
/-! SUPPORT. One lemma per command: its encoding is 16 bytes long and carries its own opcode. -/

namespace Sys2Proof.Laws

/-- The opcode of each command (spec/30_encoding.md R142). -/
def opcodeFor : Instr → BitVec 4
  | .completionWait .. => 1
  | .invalidateDevtabEntry _ => 2
  | .invalidateIommuPages .. => 3
  | .invalidateIotlbPages .. => 4
  | .invalidateInterruptTable _ => 5

/-- The encoding of a command is 16 bytes long and has the command's opcode in bits 63:60
(spec/30_encoding.md R140 to R142). -/
def Encoded.Statement (i : Instr) : Prop := (encode i).length = 16 ∧ opcodeOf (encodeEntry i) = opcodeFor i

/-- The opcode of a word whose bits 63:60 are those of a 4-bit number. -/
theorem opcode_of_bits {v : Entry} {op : BitVec 4} (h : ∀ i, i < 4 → v.getLsbD (60 + i) = op.getLsbD i) : opcodeOf v = op := by
  apply BitVec.eq_of_getLsbD_eq
  intro i hi
  simp [opcodeOf, hi, h i hi]

/-- A bit of a placed field. -/
theorem getElem_placed {n : Nat} (v : BitVec n) (lo i : Nat) (hi : i < 128) :
    (placed v lo)[i] = (decide (lo ≤ i) && v.getLsbD (i - lo)) := by
  rw [← BitVec.getLsbD_eq_getElem, getLsbD_placed v lo i hi]

/-- A bit of a placed flag. -/
theorem getElem_placedBit (b : Bool) (lo i : Nat) (hi : i < 128) : (placedBit b lo)[i] = (decide (i = lo) && b) := by
  rw [← BitVec.getLsbD_eq_getElem, getLsbD_placedBit b lo i hi]

theorem Encoded.completionWait (store int fence : Bool) (a : Addr) (d : BitVec 64) :
    Encoded.Statement (.completionWait store int fence a d) := by
  refine ⟨by simp [encode], opcode_of_bits fun i hi => ?_⟩
  interval_cases i <;> simp [encodeEntry, opcodeFor, getElem_placed, getElem_placedBit]

theorem Encoded.invalidateDevtabEntry (dev : DeviceId) :
    Encoded.Statement (.invalidateDevtabEntry dev) := by
  refine ⟨by simp [encode], opcode_of_bits fun i hi => ?_⟩
  interval_cases i <;> simp [encodeEntry, opcodeFor, getElem_placed]

theorem Encoded.invalidateIommuPages (m : DomainId) (size pde : Bool) (a : Addr) :
    Encoded.Statement (.invalidateIommuPages m size pde a) := by
  refine ⟨by simp [encode], opcode_of_bits fun i hi => ?_⟩
  interval_cases i <;> simp [encodeEntry, opcodeFor, getElem_placed, getElem_placedBit]

theorem Encoded.invalidateIotlbPages (dev : DeviceId) (x : BitVec 8) (q : BitVec 16) (size : Bool) (a : Addr) :
    Encoded.Statement (.invalidateIotlbPages dev x q size a) := by
  refine ⟨by simp [encode], opcode_of_bits fun i hi => ?_⟩
  interval_cases i <;> simp [encodeEntry, opcodeFor, getElem_placed, getElem_placedBit]

theorem Encoded.invalidateInterruptTable (dev : DeviceId) :
    Encoded.Statement (.invalidateInterruptTable dev) := by
  refine ⟨by simp [encode], opcode_of_bits fun i hi => ?_⟩
  interval_cases i <;> simp [encodeEntry, opcodeFor, getElem_placed]

end Sys2Proof.Laws
end

