-- ==== Sys2Proof/Tests/Slice0.lean ====
section
/-! SUPPORT. Tests on single steps and single definitions, their expected results from spec/95_test_vectors.md
(the vector is named with each test), and for every obligation with hypotheses a concrete state and operands
that meet them. -/

namespace Sys2Proof.Tests

open Sys2Proof Sys2Proof.Machine

/-! ### Helpers -/

/-- A 128-bit entry from its four words, in the order +00, +04, +08, +12. -/
def words (a b c d : BitVec 32) : Entry := d ++ c ++ b ++ a

/-- The answer is a next state that passes a check. -/
def okAnd (r : Result) (p : State → Bool) : Bool :=
  match r with
  | .next t => p t
  | .fault _ => false
  | .refused _ => false

/-- The answer is this refusal. -/
def refusedWith (r : Result) (x : Refusal) : Bool :=
  match r with
  | .refused y => decide (x = y)
  | .next _ => false
  | .fault _ => false

/-- A running IOMMU: the common start state of spec/95_test_vectors.md section 3, with one entry in the
command ring. -/
def running : State :=
  { State.reset with
    capBaseLow := 0xFEB80001
    devTabBase := 0x8001FF
    cmdBase := 0x0800000000900000
    evtBase := 0x0800000000A00000
    control := 0x141D
    status := 0x18
    cmdTail := 0x10 }

/-- The state with a little-endian number of `n` bytes in memory. -/
def put (s : State) (a n v : Nat) : State := s.store a (leBytes n v)

/-- The running IOMMU with a command at the head. -/
def withCommand (w : Entry) : State := put running 0x900000 16 w.toNat

/-- A transaction of device 0108h. -/
def txOf (kind : TxKind) (addr : Addr) : Transaction := ⟨0x0108, kind, false, addr, 4, [], false, false, 1, false⟩

/-- A transaction just accepted. -/
def fresh (kind : TxKind) (addr : Addr) : InFlight := ⟨0, txOf kind addr, .needDte, false, false⟩

/-- The running IOMMU with one accepted transaction. -/
def busyWith (t : InFlight) : State := { running with inFlight := [t] }

/-- A device table entry from its four quadwords. -/
def dteOf (q0 q1 q2 q3 : BitVec 64) : Dte := ⟨q1 ++ q0, q3 ++ q2⟩

/-- The log entries of the events raised. -/
def logged (s : State) : List Entry := s.pendingEvents.map fun p => p.event.entry

/-- What one transaction leads to: what was sent, and the log entries of the events raised. -/
def outcome (s : State) : List Output × List Entry := (s.outputs, logged s)

/-! ### Well-formedness: each check refuses an ill-formed term -/

theorem test_store_address_unaligned_is_ill_formed : (Instr.completionWait true false false 4 0).wellFormed = false := by decide
theorem test_store_address_wide_is_ill_formed :
    (Instr.completionWait true false false 0x10000000000000 0).wellFormed = false := by decide
theorem test_iommu_pages_address_low_bits_are_ill_formed :
    (Instr.invalidateIommuPages 7 false false 0x1800).wellFormed = false := by decide
theorem test_iotlb_pages_address_low_bits_are_ill_formed :
    (Instr.invalidateIotlbPages 1 1 1 false 0x1800).wellFormed = false := by decide

/-! ### Decoding (vectors K1 to K34) -/

theorem test_decode_k1 : decode [0x89, 0x67, 0x45, 0x23, 0x01, 0x00, 0x00, 0x10, 0xEF, 0xCD, 0xAB, 0x89, 0x67, 0x45, 0x23, 0x01] =
    .instr (.completionWait true false false 0x0000000123456788 0x0123456789ABCDEF) := by decide
theorem test_decode_k2 : decodeEntry (words 0x00000006 0x10000000 0 0) = .instr (.completionWait false true true 0 0) := by decide
theorem test_decode_k3 : decodeEntry (words 0x00000108 0x20000000 0 0) = .instr (.invalidateDevtabEntry 0x0108) := by decide
theorem test_decode_k4 : decodeEntry (words 0 0x30000007 0x00200000 0) =
    .instr (.invalidateIommuPages 7 false false 0x200000) := by decide
theorem test_decode_k5 : decodeEntry (words 0 0x30000007 0xFFFFF003 0x7FFFFFFF) =
    .instr (.invalidateIommuPages 7 true true 0x7FFFFFFFFFFFF000) := by decide
theorem test_decode_k6 : decodeEntry (words 0 0x30000007 0x401FF003 0) =
    .instr (.invalidateIommuPages 7 true true 0x401FF000) := by decide
theorem test_decode_k7 : decodeEntry (words 0x20000310 0x40000310 0xFFFFF001 0x7FFFFFFF) =
    .instr (.invalidateIotlbPages 0x0310 0x20 0x0310 true 0x7FFFFFFFFFFFF000) := by decide
theorem test_decode_k8 : decodeEntry (words 0x01000001 0x40000001 0x00001000 0) =
    .instr (.invalidateIotlbPages 1 1 1 false 0x1000) := by decide
theorem test_decode_k9 : decodeEntry (words 0x000000A0 0x50000000 0 0) = .instr (.invalidateInterruptTable 0x00A0) := by decide
theorem test_decode_k10 : decodeEntry (words 0x00B0000F 0x10000000 0x00000002 0xCAFEF00D) =
    .instr (.completionWait true true true 0xB00008 0xCAFEF00D00000002) := by decide
theorem test_decode_unsupported_opcodes : [words 0 0 0 0, words 0x1234 0 0 0, words 0 0x60000000 0 0, words 0 0xF0000000 0 0].map
    decodeEntry = List.replicate 4 (.illegal .unsupportedOpcode) := by decide
theorem test_decode_reserved_bits : [words 0x00001001 0x10100000 1 0, words 0 0x18000000 0 0, words 0x00010010 0x20000000 0 0,
    words 0x10 0x20000000 1 0, words 1 0x30000001 0x1000 0, words 0 0x30000001 0x1004 0, words 0 0x30000001 0x1800 0,
    words 0x01000001 0x40000001 0x1002 0, words 0x01010001 0x40000001 0x1000 0, words 1 0x50000000 0 0x80000000].map decodeEntry =
    List.replicate 10 (.illegal .reservedBits) := by decide
theorem test_decode_legal_corners : decodeEntry (words 0x00001000 0x10000000 5 0) =
      .instr (.completionWait false false false 0x1000 5) ∧
    decodeEntry (words 0 0x10000000 0 0) = .instr (.completionWait false false false 0 0) ∧
    decodeEntry (words 0x0000FFFF 0x20000000 0 0) = .instr (.invalidateDevtabEntry 0xFFFF) := by decide
theorem test_decode_fifteen_bytes_are_refused : decode (List.replicate 15 0) = .illegal .truncated := by decide
theorem test_table_word_of_k9 : decodeTableWord 128 0x500000000000 = none ∧
    decodeTableWord 128 0x50000000000000A0 = some (.invalidateInterruptTable 0x00A0) := by decide
theorem test_encode_k8 : encode (.invalidateIotlbPages 1 1 1 false 0x1000) =
    [1, 0, 0, 1, 1, 0, 0, 0x40, 0, 0x10, 0, 0, 0, 0, 0, 0] := by decide

/-! ### Ranges of the page invalidations (vectors V1 to V12) -/

theorem test_ranges_of_one_page : invRange false 0x12345000 = some ⟨0x12345000, 12⟩ ∧
    invRange false 0x7FFFFFFFFFFFF000 = some ⟨0x7FFFFFFFFFFFF000, 12⟩ := by decide
theorem test_ranges_of_small_sizes : [0x12344000, 0x12345000, 0x1234D000, 0x400FF000, 0x401FF000, 0x57FFFF000].map (invRange true) =
    [some ⟨0x12344000, 13⟩, some ⟨0x12344000, 14⟩, some ⟨0x1234C000, 14⟩, some ⟨0x40000000, 21⟩, some ⟨0x40000000, 22⟩,
      some ⟨0x500000000, 32⟩] := by decide
theorem test_ranges_of_large_sizes : [0x3FFFFFFFFFFFF000, 0xBFFFFFFFFFFFF000, 0x7FFFFFFFFFFFF000, 0xFFFFFFFFFFFFF000].map (invRange true) =
    [some ⟨0, 63⟩, some ⟨0x8000000000000000, 63⟩, some ⟨0, 64⟩, none] := by decide

/-! ### One step of each command -/

theorem test_reset_runs_each_command_first : [words 0x23456789 0x10000001 0x89ABCDEF 0x01234567, words 0x00000108 0x20000000 0 0,
      words 0 0x30000007 0x00200000 0, words 0x01000001 0x40000001 0x00001000 0, words 0x000000A0 0x50000000 0 0].map
      (fun w => okAnd (step (State.reset.withFetchWord 128 w.toNat)) fun t => decide (t.headIndex = 1)) =
    List.replicate 5 true := by decide
theorem test_k1_stores_its_data : okAnd (step (withCommand (words 0x23456789 0x10000001 0x89ABCDEF 0x01234567)))
    (fun t => decide (t.mem.readBytes 0x123456788 8 = [0xEF, 0xCD, 0xAB, 0x89, 0x67, 0x45, 0x23, 0x01] ∧ t.status = 0x18)) := by
  decide
theorem test_k2_sets_the_flag : okAnd (step (withCommand (words 6 0x10000000 0 0)))
    (fun t => decide (t.status = 0x1C ∧ t.intDue = 1 ∧ t.mem = (withCommand (words 6 0x10000000 0 0)).mem)) := by decide
theorem test_k3_forgets_the_device : okAnd (step { withCommand (words 0x0108 0x20000000 0 0) with
      dteCache := [⟨0x0108, false, 1, false⟩, ⟨0x0109, false, 1, false⟩], faultLogged := [0x0108] })
    (fun t => decide (t.dteCache = [⟨0x0109, false, 1, false⟩] ∧ t.faultLogged = [] ∧ t.fetched = [])) := by decide
theorem test_k3_waits_for_traffic : okAnd (step { withCommand (words 0x0108 0x20000000 0 0) with
      upWrites := [⟨5, txOf .writePosted 0, txOf .writePosted 0, none, false⟩] })
    (fun t => decide (t.fetched.map (·.phase) = [.draining [5]])) := by decide
theorem test_k6_removes_the_pages : okAnd (step { withCommand (words 0 0x30000007 0x401FF003 0) with
      tlb := [⟨7, 1, 0x40200000, 21, .page 0 21 true true false false, true, true⟩],
      pdc := [⟨7, 1, 0x40200000, 21, 0, 1, true, true, true, true⟩] })
    (fun t => decide (t.tlb = [] ∧ t.pdc = [])) := by decide
theorem test_k8_sends_its_request : okAnd (step (withCommand (words 0x01000001 0x40000001 0x00001000 0)))
    (fun t => decide (t.outstanding = [⟨0, 1, 1, 0x900000, ⟨0x1000, 12⟩, 0⟩] ∧ t.fetched.map (·.phase) = [.requested 0])) := by
  decide
theorem test_k24_is_illegal_without_iotlbs : okAnd (step { withCommand (words 0x01000001 0x40000001 0x00001000 0) with
      capHeader := 0x000B000F })
    (fun t => t.halted && decide (t.pendingEvents = [⟨.illegalCommandError 0x900000, none, .logging⟩] ∧ t.outstanding = [])) := by decide
theorem test_maxpend_zero_never_begins : okAnd (step (withCommand (words 1 0x40000001 0x00001000 0)))
    (fun t => decide (t.fetched.map (·.phase) = [.waiting] ∧ t.outstanding = [])) := by decide
theorem test_t4_expiry_completes_the_command : okAnd ({ running with
      outstanding := [⟨0, 1, 1, 0x900000, ⟨0x1000, 12⟩, 1⟩]
      fetched := [⟨.invalidateIotlbPages 1 1 1 false 0x1000, 0x900000, .requested 0⟩] }.act (.timeout 0))
    (fun t => decide (t.fetched = [] ∧ t.outstanding = [] ∧ t.pendingEvents.length = 1)) := by decide
theorem test_pages_wait_for_a_larger_page_used : okAnd (step { withCommand (words 0 0x30000007 0x00200000 0) with
      upReads := [⟨5, txOf .read 0x3FF000, txOf .read 0x3FF000, some ⟨7, 0x200000, 21⟩, false⟩] })
    (fun t => decide (t.fetched.map (·.phase) = [.draining [5]])) := by decide
theorem test_pages_spoil_a_half_read_entry : okAnd (step { withCommand (words 0 0x30000007 0x00200000 0) with
      inFlight := [⟨5, txOf .read 0x1000, .haveLow (dteOf 0x603 7 0 0).lo ⟨0x802110, none⟩, false, false⟩] })
    (fun t => decide (t.inFlight.map (·.stale) = [true] ∧ t.fetched = [])) := by decide
theorem test_iotlb_waits_for_a_pre_translated_write_not_begun :
    (busyWith ⟨5, { txOf .writePosted 0x9000 with preTranslated := true }, .needDte, false, false⟩).matchIotlb 0x0108 ⟨0x1000, 12⟩ =
      [5] ∧
    (busyWith ⟨5, txOf .writePosted 0x1000, .needDte, false, false⟩).matchIotlb 0x0108 ⟨0x1000, 12⟩ = [] := by decide
theorem test_k9_forgets_the_interrupts : okAnd (step { withCommand (words 0xA0 0x50000000 0 0) with
      irtCache := [⟨0xA0, 3, 1⟩, ⟨0xA1, 3, 1⟩] }) (fun t => decide (t.irtCache = [⟨0xA1, 3, 1⟩])) := by decide
theorem test_iotlb_undefined_address_is_refused :
    refusedWith (step (withCommand (words 0x01000001 0x40000001 0xFFFFF001 0xFFFFFFFF))) .undefinedIotlbAddress := by decide

/-! ### The command ring (vectors Q1 to Q10) -/

theorem test_q1_empty_ring_is_not_fetched : { running with cmdTail := 0 }.canFetch = false := by decide
theorem test_q3_head_wraps : okAnd (step (put { running with cmdHead := 0xFF0, cmdTail := 0x10 } 0x900FF0 16
      (words 0x0108 0x20000000 0 0).toNat)) (fun t => decide (t.cmdHead = 0)) := by decide
theorem test_q7_disabled_fetches_nothing : { running with control := 0x141C }.canFetch = false := by decide
theorem test_q8_illegal_entry_halts : okAnd (step { running with cmdHead := 0x30, cmdTail := 0x60 })
    (fun t => t.halted && decide (t.pendingEvents = [⟨.illegalCommandError 0x900030, none, .logging⟩] ∧ t.control = 0x141D)) := by decide
theorem test_q9_unreadable_entry_halts :
    okAnd (step { running with cmdHead := 0x30, cmdTail := 0x60, holes := [⟨0x900030, 16, .targetAbort⟩] })
    (fun t => t.halted && decide (t.pendingEvents.map (·.event.entry) = [words 0 0x64000000 0x900030 0])) := by decide
theorem test_fence_holds_a_younger_command : okAnd (step { withCommand (words 0x0108 0x20000000 0 0) with
      fetched := [⟨.completionWait false false true 0 0, 0x900000, .waiting⟩], dteCache := [⟨0x0108, false, 1, false⟩] })
    (fun t => decide (t.dteCache ≠ [] ∧ t.fetched.length = 2)) := by decide

theorem test_a_fetch_alone_begins_nothing : okAnd ({ withCommand (words 0x0108 0x20000000 0 0) with
      dteCache := [⟨0x0108, false, 1, false⟩] }.act .fetch)
    (fun t => decide (t.headIndex = 1 ∧ t.dteCache ≠ [] ∧ t.fetched = [⟨.invalidateDevtabEntry 0x0108, 0x900000, .waiting⟩])) := by
  decide
theorem test_reading_ahead_stays_below_the_tail : okAnd ((withCommand 0xA0).act (.prefetch 0))
      (fun t => decide (t.prefetched = [⟨0, 0xA0⟩] ∧ t.cmdHead = 0) &&
        okAnd (t.act (.prefetch 0)) fun u => decide (u.prefetched.length = 1 ∧ u.outputs.length = 1)) ∧
    okAnd ((withCommand 0xA0).act (.prefetch 1)) (fun t => decide (t.prefetched = [] ∧ t.outputs = [])) := by decide

/-! ### Registers (vectors G1 to G14) -/

/-- What a processor reads of a control register. -/
def reads (s : State) (offset len : Nat) (bytes : List Byte) : Bool :=
  okAnd (s.act (.cpuRead (s.registerAddr offset) len)) fun t => decide (t.outputs = s.outputs ++ [.cpuData bytes])

/-- What a control register holds after a processor's write of 8 bytes. -/
def afterWrite (s : State) (offset v : Nat) (r : MmioReg) (w : Reg) : Bool :=
  okAnd (s.act (.cpuWrite (s.registerAddr offset) (leBytes 8 v) false)) fun t => decide (t.mmioReg r = w)

theorem test_g1_g2_g3_reset_values : State.reset.control = 0x400 ∧ State.reset.cmdBase = 0x0800000000000000 ∧
    State.reset.evtBase = 0x0800000000000000 ∧ State.reset.status = 0 := by decide
theorem test_g4_control_reserved_bits : afterWrite running 0x18 0xFFFFFFFFFFFFFFFF .control 0x1FFF := by decide
theorem test_g5_device_table_reserved_bits : afterWrite running 0 0xFFFFFFFFFFFFFFFF .devTabBase 0x000FFFFFFFFFF1FF := by decide
theorem test_g6_head_pointer_field :
    afterWrite { running with status := 0, cmdBase := 0x0F00000000000000 } 0x2000 0xFFFFFFFFFFFFFFFF .cmdHead 0x7FFF0 := by decide
theorem test_g7_g8_g9_status_is_write_one_to_clear : [2, 0, 0xFFFFFFFF].map (fun v =>
      [0x1D, 0x1F, 0x18].map fun w => afterWrite { running with status := 0x1F } 0x2020 v .status w) =
    [[true, false, false], [false, true, false], [false, false, true]] := by decide
theorem test_g10_one_byte_write : okAnd ({ running with status := 0x1F }.act (.cpuWrite 0xFEB82020 [4] false))
    (fun t => decide (t.status = 0x1B)) := by decide
theorem test_g13_no_register : reads running 0x30 8 (List.replicate 8 0) ∧ afterWrite running 0x2028 7 .status 0x18 := by decide
theorem test_g14_exclusion_range : [0xBFFFFFFF, 0xC0000000, 0xC0000FFF, 0xC0001000].map
    { running with exclBase := 0xC0000003, exclLimit := 0xC0000000 }.inExclusionRange = [false, true, true, false] := by decide
theorem test_q6_base_write_resets_pointers : okAnd ({ running with cmdHead := 0x70, cmdTail := 0x90 }.act
      (.cpuWrite 0xFEB80008 [0] false)) (fun t => decide (t.cmdHead = 0 ∧ t.cmdTail = 0)) := by decide
theorem test_u13_tail_past_head_is_refused : refusedWith ({ running with cmdHead := 0x50, cmdTail := 0x40 }.act
      (.cpuWrite 0xFEB82008 (leBytes 8 0x50) false)) .commandTailPastHead := by decide
theorem test_register_access_of_three_bytes_is_refused :
    refusedWith (running.act (.cpuWrite 0xFEB80000 [0, 0, 0] false)) .registerAccessSize := by decide
theorem test_p3_disable_clears_the_halt : okAnd ({ running with halted := true, status := 8 }.act
      (.cpuWrite 0xFEB80018 (leBytes 8 0x41D) false)) (fun t => !t.halted && decide (t.status = 8)) := by decide
theorem test_only_a_write_that_covers_an_enable_ends_its_halt :
    [(0x19, (0x04 : Byte)), (0x18, 0x19)].map (fun w => okAnd ({ running with control := 0x419, halted := true, evtHalted := true }.act
      (.cpuWrite (running.registerAddr w.1) [w.2] false)) fun t => !t.halted && t.evtHalted) = [true, false] ∧
    okAnd ({ running with control := 0x419, halted := true, evtHalted := true }.act (.cpuWrite (running.registerAddr 0x18) [0x19] false))
      (fun t => t.halted && !t.evtHalted) := by decide
theorem test_p4_restart_of_logging : okAnd ({ running with control := 0x1419, status := 0x10 }.act
      (.cpuWrite 0xFEB80018 (leBytes 8 0x141D) false)) (fun t => decide (t.status = 0x18)) := by decide
theorem test_class_code : okAnd (running.act .classRead) (fun t => decide (t.outputs = [.cpuData [0, 6, 8]])) := by decide
theorem test_narrow_accesses : okAnd (running.act (.cpuWrite 0xFEB80022 [0x12, 0x34] false)) (fun t => decide (t.exclBase = 0x34120000)) ∧
    reads { running with exclBase := 0x34120000 } 0x23 1 [0x34] := by decide

/-! ### Events, the event log and interrupts (vectors E1 to E8, L1 to L8, J1 to J5) -/

theorem test_e1_to_e6_log_entries : [Event.illegalDevTableEntry 0x0108 false false true false 0x40203ABF,
      .ioPageFault 0x0108 false false true true true false 7 0x40203ABC, .devTabHardwareError 0x0108 1 false false false 0x802100,
      .pageTabHardwareError 0x0108 3 false false false 7 0x101008, .illegalCommandError 0x900010,
      .commandHardwareError 2 0x900020].map Event.entry =
    [words 0x0108 0x10200000 0x40203ABC 0, words 0x0108 0x20700007 0x40203ABC 0, words 0x0108 0x32000000 0x802100 0,
      words 0x0108 0x46000007 0x101000 0, words 0 0x50000000 0x900010 0, words 0 0x64000000 0x900020 0] := by decide
theorem test_e7_e8_log_entries : Event.entry (.iotlbInvTimeout 0x0310 0 0x900010) = words 0x0310 0x70000000 0x900010 0 ∧
    Event.entry (.invalidDeviceRequest 0x0108 5 false 0xFDF8123456) = words 0x0108 0x8A000000 0xF8123456 0xFD := by decide
theorem test_e2_bytes : Event.bytes (.ioPageFault 0x0108 false false true true true false 7 0x40203ABC) =
    [0x08, 0x01, 0, 0, 0x07, 0, 0x70, 0x20, 0xBC, 0x3A, 0x20, 0x40, 0, 0, 0, 0] := by decide

/-- The running IOMMU with one event to report. -/
def withEvent : State := { running with cmdTail := 0, pendingEvents := [⟨.illegalCommandError 0x900010, none, .logging⟩] }

theorem test_l1_event_is_written : okAnd (step withEvent) (fun t => decide (t.evtTail = 0x10 ∧ t.status = 0x1A ∧ t.intDue = 1 ∧
    t.mem.readBytes 0xA00000 16 = [0, 0, 0, 0, 0, 0, 0, 0x50, 0x10, 0, 0x90, 0, 0, 0, 0, 0])) := by decide
theorem test_l2_full_log_overflows : okAnd (step { withEvent with evtTail := 0xFF0 }) (fun t =>
    t.evtHalted && decide (t.evtTail = 0xFF0 ∧ t.status = 0x19 ∧ t.mem = [] ∧ t.pendingEvents = [])) := by decide
theorem test_l3_tail_wraps : okAnd (step { withEvent with evtHead := 0xA0, evtTail := 0xFF0 }) (fun t =>
    decide (t.evtTail = 0 ∧ t.mem.read 0xA00FF7 = 0x50)) := by decide
theorem test_l5_overflow_discards : okAnd (step { withEvent with evtHead := 0xC80, evtTail := 0xFF0, status := 0x19 })
    (fun t => decide (t.evtTail = 0xFF0 ∧ t.mem = [] ∧ t.pendingEvents = [])) := by decide
theorem test_event_of_a_stopped_log_is_lost : okAnd (step { withEvent with
      pendingEvents := [⟨.illegalCommandError 0x900010, none, .stopped⟩] })
    (fun t => decide (t.evtTail = 0 ∧ t.mem = [] ∧ t.status = 0x18 ∧ t.pendingEvents = [])) := by decide
theorem test_disabled_logs_nothing : okAnd (step { withEvent with control := 0x141C, pendingEvents := [⟨.illegalCommandError 0x900010, none, .disabled⟩] })
    (fun t => decide (t.evtTail = 0 ∧ t.mem = [] ∧ t.status = 0x18 ∧ t.pendingEvents = [])) := by decide
theorem test_running_log_is_written_without_its_enable : okAnd (step { withEvent with control := 0x1419 })
    (fun t => decide (t.evtTail = 0x10 ∧ t.mem.read 0xA00007 = 0x50)) := by decide
theorem test_j1_interrupt_is_due : (running.raiseFlag .comWaitInt).intDue = 1 ∧ (running.raiseFlag .comWaitInt).status = 0x1C := by
  decide
theorem test_j2_disabled_interrupt_is_not : ({ running with control := 0x140D }.raiseFlag .comWaitInt).intDue = 0 := by decide
theorem test_j4_interrupt_message : ∃ t, { running with intDue := 1 }.act .sendInterrupt = .next t ∧
    t.outputs = [.interrupt Config.msiX 0 false] := ⟨_, rfl, rfl⟩
theorem test_first_fault_only : okAnd (step { withEvent with
      pendingEvents := [⟨.ioPageFault 1 false false true true true false 7 0, some 1, .logging⟩], faultLogged := [1],
      dteCache := [⟨1, false, 1, false⟩] })
    (fun t => decide (t.mem = [] ∧ t.evtTail = 0)) := by decide
theorem test_without_a_cached_entry_every_fault_is_logged : okAnd (step { withEvent with
      pendingEvents := [⟨.ioPageFault 1 false false true true true false 7 0, some 1, .logging⟩], faultLogged := [1] })
    (fun t => decide (t.evtTail = 0x10 ∧ t.faultLogged = [1])) := by decide

/-! ### Transactions (vectors X1 to X32) -/

/-- What a transaction of device 0108h with this entry leads to. -/
def judgedOf (d : Dte) (kind : TxKind) (addr : Addr) : State := (busyWith (fresh kind addr)).judged (fresh kind addr) d

/-- The transaction goes upstream unaltered. -/
def passes (d : Dte) (kind : TxKind) (addr : Addr) : Bool :=
  decide (outcome (judgedOf d kind addr) = ([.forwarded (txOf kind addr)], []))

/-- The transaction is aborted with this log entry. -/
def deniedWith (a : Abort) (w : Entry) (d : Dte) (kind : TxKind) (addr : Addr) : Bool :=
  decide (outcome (judgedOf d kind addr) = ([.aborted (txOf kind addr) a], [w]))

theorem test_x1_invalid_entry_passes : passes (dteOf 0 0 0 0) .read 0x12345678 := by decide
theorem test_x2_no_translation_faults : ∃ pe, (judgedOf (dteOf 1 7 0 0) .writePosted 0x1000).pendingEvents =
    [⟨.ioPageFault 0x0108 false false pe true true false 7 0x1000, none, .logging⟩] := ⟨_, rfl⟩
theorem test_x3_mode_zero_passes : passes (dteOf 0x2000000000000003 0 0 0) .read 0x12345678 ∧
    deniedWith .targetAbort (words 0x0108 0x20700000 0x12345678 0) (dteOf 0x2000000000000003 0 0 0) .writePosted 0x12345678 := by
  decide
theorem test_x5_zero_byte_read_passes : passes (dteOf 0x2000000000000003 0 0 0) .zeroByteRead 0x12345678 := by decide
theorem test_x6_atomic_needs_both : ∃ rw, (judgedOf (dteOf 0x2000000000000003 0 0 0) .atomic 0x12345678).pendingEvents =
    [⟨.ioPageFault 0x0108 false false true rw true false 0 0x12345678, none, .logging⟩] := ⟨_, rfl⟩
theorem test_x8_last_entry_of_the_table : { running with devTabBase := 0x80003F }.inTable 0x1FFF = true ∧
    { running with devTabBase := 0x80003F }.inTable 0x2000 = false ∧ running.dteAddr 0x1FFF = 0x83FFE0 := by decide
theorem test_x9_x10_illegal_entries : deniedWith .targetAbort (words 0x0108 0x10200000 0x40203ABC 0)
      (dteOf 0x6000000000000E03 0 0 0) .writePosted 0x40203ABF ∧
    deniedWith .targetAbort (words 0x0108 0x10800000 0x40203ABC 0) (dteOf 0x6000000000100607 0 0 0) .read 0x40203ABC := by decide
theorem test_x13_table_read_fails : okAnd ({ busyWith (fresh .read 0x1000) with holes := [⟨0x802100, 32, .masterAbort⟩] }.act
      (.advance 0 defaultChoice)) (fun t => decide (logged t = [words 0x0108 0x32000000 0x802100 0])) := by decide
theorem test_x14_high_half_fails : okAnd ({ busyWith (fresh .writePosted 0x1000) with holes := [⟨0x802110, 16, .targetAbort⟩] }.act
      (.advance 0 { defaultChoice with wide := false, highFirst := true }))
    (fun t => decide (logged t = [words 0x0108 0x34200000 0x802110 0])) := by decide
theorem test_halves_of_one_access_may_differ_in_time : okAnd ((put (busyWith (fresh .read 0x1000)) 0x802100 1 3).act
      (.advance 0 { defaultChoice with torn := true }))
    (fun t => decide (t.inFlight.map (·.phase) = [.haveLow 3 ⟨0x802110, some true⟩] ∧ t.outputs.length = 1)) := by decide
theorem test_empty_entry_is_not_cached : (running.dteCacheWith (fresh .read 0) { defaultChoice with keepDte := true } ⟨0, 0⟩ = []) ∧
    running.dteCacheWith (fresh .read 0) { defaultChoice with keepDte := true } ⟨1, 0⟩ =
      [⟨0x0108, false, 1, false⟩, ⟨0x0108, true, 0, true⟩] := by decide

/-- A transaction of device 0108h whose low half, with `V` = 0, has been read; its high half stands at 802110h. -/
def lowRead (stale : Bool) : State :=
  put (busyWith ⟨0, txOf .read 0x1000, .haveLow 0 ⟨0x802110, none⟩, false, stale⟩) 0x802110 1 1

theorem test_whole_entry_is_cached_after_its_halves : okAnd ((lowRead false).act (.advance 0 { defaultChoice with keepDte := true }))
    (fun t => decide (t.dteCache = [⟨0x0108, false, 0, true⟩, ⟨0x0108, true, 1, false⟩] ∧ logged t = [])) := by decide
theorem test_invalidated_lookup_caches_nothing : ((lowRead false).forgetDte 0x0108).inFlight.map (·.staleDte) = [true] ∧
    okAnd ((lowRead true).act (.advance 0 { defaultChoice with keepDte := true })) (fun t => decide (t.dteCache = [])) := by decide
theorem test_pages_spoil_an_overtaken_lookup : ([false, true].map fun stale =>
      ({ running with inFlight := [⟨0, txOf .read 0, .haveHigh 0 ⟨0x802100, some true⟩, false, stale⟩] }.forgetPages 7 false
        (some ⟨0, 64⟩)).inFlight.map InFlight.stale) = [[false], [true]] := by decide
theorem test_interrupt_table_spoils_an_overtaken_lookup : ((lowRead true).forgetIrt 0x0108).inFlight.map (·.stale) = [true] ∧
    ((lowRead false).forgetIrt 0x0108).inFlight.map (·.stale) = [false] := by decide
theorem test_second_half_keeps_its_address : okAnd ({ lowRead false with devTabBase := 0x9001FF }.act (.advance 0 defaultChoice))
    (fun t => decide (t.outputs.head? = some (.ownRead 0x802110 16 ⟨true, false, some false, some false⟩))) := by decide
theorem test_x15_x16_port_io : deniedWith .targetAbort (words 0x0108 0x84000000 0xFC0003F8 0xFD) (dteOf 1 0 0 0) .read 0xFDFC0003F8 ∧
    passes (dteOf 1 0x0000000800000000 0 0) .read 0xFDFC0003F8 := by decide
theorem test_x17_x18_system_management :
    deniedWith .targetAbort (words 0x0108 0x86000000 0xF9100000 0xFD) (dteOf 1 0 0 0) .writePosted 0xFDF9100000 ∧
    deniedWith .targetAbort (words 0x0108 0x88000000 0xF9100000 0xFD) (dteOf 1 0x0000010000000000 0 0) .read 0xFDF9100000 := by
  decide
theorem test_x20_translated_range_without_tables : deniedWith .targetAbort (words 0x0108 0x8E000000 0xF9100000 0xFD)
    (dteOf 1 0x0000030000000000 0 0) .writePosted 0xFDF9100000 := by decide
theorem test_x21_x22_interrupt_ranges : deniedWith .targetAbort (words 0x0108 0x8C000000 0 0xFD) (dteOf 0 0 0 0) .writePosted 0xFD00000000 ∧
    deniedWith .targetAbort (words 0x0108 0x80000000 0xF8000000 0xFD) (dteOf 0 0 0 0) .read 0xFDF8000000 := by decide
theorem test_x25_x26_translation_requests :
    deniedWith .masterAbort (words 0x0108 0x81000000 0x1000 0) (dteOf 1 0 0 0) .transReq 0x1000 ∧
    deniedWith .targetAbort (words 0x0108 0x83000000 0xFC000010 0xFD) (dteOf 1 0x0000000100000000 0 0) .transReq 0xFDFC000010 := by
  decide
theorem test_x31_disabled_passes : okAnd ({ running with control := 0x141C }.act (.arrive (txOf .read 0x1000)))
    (fun t => decide (outcome t = ([.forwarded (txOf .read 0x1000)], []) ∧ t.inFlight = [])) := by decide
theorem test_x32_high_address_is_ordinary : rangeOf 0x010000FDF8000000 = .ordinary ∧ rangeOf 0xFDF8000000 = .interruptEoi := by decide

/-! ### Page table walks (vectors W1 to W19) -/

/-- A walk of device 0108h, domain 7, one step before it reads its last table. -/
def walkAt (dva : Addr) (table : Addr) (level : Nat) (kind : TxKind) : InFlight :=
  ⟨0, txOf kind dva, .walking (dteOf 0x6000000000000003 7 0 0) ⟨dva, table, level, levelTop level, true, true, true, true, false⟩, false, false⟩

/-- One step of a walk that reads this entry. -/
def walked (dva table : Addr) (level : Nat) (kind : TxKind) (at_ e : Nat) : Result :=
  (put (busyWith (walkAt dva table level kind)) at_ 8 e).act (.advance 0 defaultChoice)

/-- The transaction is forwarded to this address. -/
def goesTo (r : Result) (spa : Addr) : Bool :=
  okAnd r fun t => decide ((t.outputs.getLast?.map fun o => match o with
    | .forwarded tx => tx.addr
    | _ => 0) = some spa)

/-- The transaction is aborted with this log entry. -/
def faultsWith (w : Entry) (r : Result) : Bool := okAnd r fun t => decide (logged t = [w])

theorem test_w1_last_step : goesTo (walked 0x40203ABC 0x102000 1 .read 0x102018 0x3000000089ABC001) 0x89ABCABC ∧
    faultsWith (words 0x0108 0x20700007 0x40203ABC 0) (walked 0x40203ABC 0x102000 1 .writePosted 0x102018 0x3000000089ABC001) := by
  decide
theorem test_w1_first_step : okAnd (walked 0x40203ABC 0x100000 3 .read 0x100008 0x6000000000101401) (fun t =>
    t.inFlight.any fun u => decide (u.phase = .walking (dteOf 0x6000000000000003 7 0 0)
      ⟨0x40203ABC, 0x101000, 2, 30, true, true, true, true, false⟩)) := by decide
theorem test_w3_not_present : ∃ t rz pe rw, walked 0x80203ABC 0x100000 3 .read 0x100010 0 = .next t ∧
    t.pendingEvents = [⟨.ioPageFault 0x0108 false rz pe rw false false 7 0x80203ABC, none, .logging⟩] := ⟨_, _, _, _, rfl, rfl⟩
theorem test_w5_skipped_bits : skippedBits 0x323456 39 1 = true ∧ skippedBits 0x123456 39 1 = false ∧
    skippedBits 0x8040203ABC 64 3 = true := by decide
theorem test_w6_bit_21_is_used_twice : goesTo (walked 0xC01234 0x300000 2 .read 0x300030 0x60000000401FFE01) 0x40001234 ∧
    goesTo (walked 0xE01234 0x300000 2 .read 0x300038 0x60000000401FFE01) 0x40201234 := by decide
theorem test_w7_page_of_32k : enterPte 0x680000005000BE01 1 false = .page 0x50008000 15 ∧
    goesTo (walked 0xFABC 0x400000 1 .read 0x400078 0x680000005000BE01) 0x5000FABC := by decide
theorem test_w8_reserved_bit : faultsWith (words 0x0108 0x20900007 0 0) (walked 0 0x400000 1 .read 0x400000 0x6080000000001001) := by
  decide
theorem test_w9_to_w10c_entries_of_level_1 : [0x6000000000001201, 0x60000000601FFE01, 0x60000000600FFE01, 0x600000006007FE01].map
    (fun e => enterPte e 1 false) = [.fault true false, .fault true false, .fault true false, .page 0x60000000 20] := by decide
theorem test_w11_to_w16_entries_of_level_2 : [0x6000000060000E01, 0x6000000060001001, 0x600FFFFFFFFFFE01, 0x7000000000301201,
      0x4000000060200001, 0x6000000000301401].map (fun e => enterPte e 2 false) =
    [.fault true false, .fault true false, .fault true false, .fault true true, .page 0x60200000 21, .fault true false] := by decide
theorem test_w17_index_of_level_6 : levelIndex 6 0xFFFFFFFFFFFFFFFF = 127 := by decide
theorem test_w18_level_6_page : enterPte 0x6000000000000001 6 false = .fault true false ∧
    enterPte 0x6000000000000001 6 true = .page 0 57 := by decide
theorem test_w19_poisoned_table : faultsWith (words 0x0108 0x46000007 0x101000 0)
    ({ busyWith (walkAt 0x40203ABC 0x101000 2 .read) with holes := [⟨0x101000, 4096, .dataError⟩] }.act (.advance 0 defaultChoice)) := by
  decide
theorem test_u26_tables_in_memory_decide : (put (put running 0x802100 16 0x70000000000000603) 0x802120 16 0x70000000000000A03).tablesDisagree 7 ∧
    (put (put running 0x802100 16 0x70000000000000603) 0x802120 16 0x70000000000000603).tablesDisagree 7 = false := by decide

/-! ### Interrupt remapping (vectors I1 to I22) -/

/-- What an interrupt message of device 0108h that finds this table entry leads to. -/
def remapped (d : Dte) (e : BitVec 32) : State :=
  (busyWith (fresh .writePosted 0xFDF8001000)).finishRemap (fresh .writePosted 0xFDF8001000) d e

theorem test_i1_address_of_the_entry : running.irteAddr (dteOf 1 7 0x200000000012348D 0) 0x25 = 0x123514 := by decide
theorem test_i1_i8_remapped_addresses : remappedAddr 0xFDF8001000 0x00410301 = 0xFDF8410300 ∧
    remappedAddr 0xFDF8001000 0x00A5FF65 = 0xFDF8A5FF64 := by decide
theorem test_i3_to_i7_entry_faults : [0x00410300, 0x01410301, 0x00410381, 0x00410309, 0x00410301].map (irteFault ·) =
    [some (false, false), some (true, true), some (true, true), some (true, false), none] := by decide
theorem test_i4_reserved_bit_faults : ∃ pe rw, (remapped (dteOf 1 7 0x200000000012348D 0) 0x01410301).pendingEvents =
    [⟨.ioPageFault 0x0108 false true pe rw true true 7 0xFDF8001000, none, .logging⟩] := ⟨_, _, rfl⟩
theorem test_i7_suppressed_fault : outcome (remapped (dteOf 1 7 0x200000000012348D 0) 0x00410302) =
    ([.aborted (txOf .writePosted 0xFDF8001000) .targetAbort], []) := by decide
theorem test_i12_to_i15_high_half : [0x3000000000000001, 0x2000000000123499, 0x1000000000123499, 0x1800000000000001].map
    (fun q => (dteOf 0 0 q 0).checkHigh) = [some true, some true, none, some true] := by decide
theorem test_i16_unmapped_passes : passes (dteOf 0 0 0 0) .writePosted 0xFDF8001000 := by decide
theorem test_i17_to_i21_classes : [⟨3, false, 0⟩, ⟨2, false, 0⟩, ⟨5, false, 0⟩, ⟨3, true, 0x25⟩].map
    (intClass (dteOf 1 7 0x240000000012348D 0)) = [.passControlled true, .smi, .aborted, .remappable] := by decide

/-! ### ACPI tables (spec/45_acpi_tables.md R408) -/

theorem test_worked_ivhd_aliases : [0x0008#16, 0x00FF, 0x0100, 0x01FF, 0x0200].map
    (deviceIdSeen (fun _ => true) (ivhdCovers (ivhdEntries workedIvhd))) = [0x0008, 0x00FF, 0x0010, 0x0010, 0x0200] := by decide
/-- A special device of DeviceID 20h inside an alias range of 10h (R397, R399, R401): its setting counts at 20h, that of
the range at 10h. -/
theorem test_a_special_device_keeps_its_own_entry : (fun covers : List IvhdCover => (deviceIdsSeen (fun _ => false) covers 0x20,
      (settingOf (fun _ => false) covers 0x20).map (·.data), (specialSetting (fun _ => false) covers 0x20).map (·.data)))
      [⟨.span 0x20 0x20, 0x80, .special⟩, ⟨.span 0x10 0x2F, 0x04, .aliased 0x10⟩] = ([0x10, 0x20], some 0x04, some 0x80) := by decide
/-- The pad of the worked block with a DeviceID, a type of the unusable ones, a data setting on the end of the last
range (R395, R397, R402). -/
theorem test_an_empty_range_shares_no_device : aliasesApart [⟨.span 0x100 0x1FF, 0, .aliased 0x10⟩, ⟨.span 0x180 0x170, 0, .plain⟩] = true ∧
    aliasesApart [⟨.span 0x100 0x1FF, 0, .aliased 0x10⟩, ⟨.span 0x1FF 0x1FF, 0, .plain⟩] = false := by decide
theorem test_an_empty_range_describes_no_device :
    [(workedIvhd.take 32).set 2 32, ((workedIvhd.take 32).set 2 32).set 29 7].map ivhdValid = [true, false] := by decide
theorem test_ivhd_reserved_fields : [(workedIvhd.set 45 1), (workedIvhd.set 44 0x80), (workedIvhd.set 43 1), workedIvhd].map ivhdValid =
    [false, false, false, true] := by decide

/-! ### For every obligation with hypotheses: a state and operands that meet them, clause by clause -/

/-- A fetched command that has had no effect yet. -/
def waiting (i : Instr) : Command := ⟨i, 0x900000, .waiting⟩

/-- The running IOMMU with these commands fetched. -/
def behind (cs : List Command) : State := { running with fetched := cs }

/-- COMPLETION_WAIT with a store. -/
def storing : Instr := .completionWait true false false 0xB00000 1

/-- COMPLETION_WAIT with `f` = 1. -/
def fence : Instr := .completionWait false false true 0 0

/-- An event of a completed command that has not been reported. -/
def timeoutEvent : PendingEvent := ⟨.iotlbInvTimeout 1 0 0x900000, none, .logging⟩

theorem running_reservedClear : running.reservedClear := by intro r; cases r <;> decide

theorem witness_DecodeOfEncode : [storing, .invalidateDevtabEntry 0xFFFF, .invalidateIommuPages 7 true true 0x7FFFFFFFFFFFF000,
    .invalidateIotlbPages 1 0 1 false 0xFFFFFFFFFFFFF000, .invalidateInterruptTable 0].all Instr.wellFormed = true := by decide
theorem witness_EncodeOfDecode : (leBytes 16 0x50000000000000A0).length = 16 ∧
    decode (leBytes 16 0x50000000000000A0) = .instr (.invalidateInterruptTable 0xA0) := by decide
theorem witness_RangeOfInvalidation_first : (∀ j, 12 ≤ j → j < 12 → (0x12344000#64).getLsbD j = true) ∧
    (0x12344000#64).getLsbD 12 = false := ⟨fun j _ _ => by omega, by decide⟩
theorem witness_RangeOfInvalidation_last : (∀ j, 12 ≤ j → j < 63 → (0x7FFFFFFFFFFFF000#64).getLsbD j = true) ∧
    (0x7FFFFFFFFFFFF000#64).getLsbD 63 = false := ⟨fun j _ _ => by interval_cases j <;> rfl, by decide⟩
theorem witness_RangeOfInvalidation_none : ∀ j, 12 ≤ j → j < 64 → (0xFFFFFFFFFFFFF000#64).getLsbD j = true :=
  fun j _ _ => by interval_cases j <;> rfl
theorem witness_RangeOfInvalidation_meets : (PageRange.mk 0x40000000 22).base.toNat % 2 ^ 22 = 0 ∧ (0x40200000#64).toNat % 2 ^ 21 = 0 ∧
    (PageRange.mk 0 64).base.toNat % 2 ^ 64 = 0 ∧ (PageRange.mk 0x40000000 22).holds 0x403FFFFF = true ∧
    (PageRange.mk 0x40000000 22).holds 0x40400000 = false := by decide

theorem witness_StepRunsDecodedCommand : (withCommand 0x50000000000000A0).agenda = [] ∧
    (withCommand 0x50000000000000A0).canFetch = true ∧ (withCommand 0x50000000000000A0).prefetchedAt 0 = none ∧
    (withCommand 0x50000000000000A0).entryReadable ∧
    decode (withCommand 0x50000000000000A0).entryBytes = .instr (.invalidateInterruptTable 0xA0) := by decide
theorem witness_StepRunsDecodedCommand_copy : { running with prefetched := [⟨0, 0x50000000000000A0⟩] }.agenda = [] ∧
    { running with prefetched := [⟨0, 0x50000000000000A0⟩] }.canFetch = true ∧
    { running with prefetched := [⟨0, 0x50000000000000A0⟩] }.prefetchedAt running.headIndex = some 0x50000000000000A0#128 ∧
    decodeEntry 0x50000000000000A0 = .instr (.invalidateInterruptTable 0xA0) := by decide
theorem witness_StepRunsDecodedCommand_fetch : running.iotlbSup = true ∧ { running with cmdTail := 0 }.canFetch = false ∧
    decode (withCommand (words 0x01000001 0x40000001 0x00001000 0)).entryBytes = .instr (.invalidateIotlbPages 1 1 1 false 0x1000) := by
  decide
theorem witness_StepRunsDecodedCommand_ahead : running.canFetch = true ∧
    0 < (running.tailIndex + running.cmdEntries - running.headIndex) % running.cmdEntries ∧ running.prefetchedAt 0 = none ∧
    (0x900000#64).toNat = (running.cmdBase.extractLsb' 12 40).toNat * 4096 + 16 * 0 ∧ (0x900000#64).toNat < 2 ^ running.paSize ∧
    running.readAnswer (0x900000#64).toNat 16 = none := by decide
theorem witness_StepRunsDecodedCommand_agenda : { running with agenda := [.fetch, .classRead] }.agenda = .fetch :: [.classRead] := rfl
theorem witness_CommandErrorsHalt_illegal : running.agenda = [] ∧ running.canFetch = true ∧ running.prefetchedAt running.headIndex = none ∧
    running.entryReadable ∧ decode running.entryBytes = .illegal .unsupportedOpcode := by decide
theorem witness_CommandErrorsHalt_unsupported :
    { withCommand (words 0x01000001 0x40000001 0x00001000 0) with capHeader := 0x000B000F }.iotlbSup = false ∧
    { withCommand (words 0x01000001 0x40000001 0x00001000 0) with capHeader := 0x000B000F }.canFetch = true ∧
    decode (withCommand (words 0x01000001 0x40000001 0x00001000 0)).entryBytes = .instr (.invalidateIotlbPages 1 1 1 false 0x1000) ∧
    { running with prefetched := [⟨0, 0⟩] }.prefetchedAt running.headIndex = some 0 ∧
    decodeEntry 0 = .illegal .unsupportedOpcode := by decide
theorem witness_CommandErrorsHalt_unreadable : { running with holes := [⟨0x900000, 16, .dataError⟩] }.agenda = [] ∧
    { running with holes := [⟨0x900000, 16, .dataError⟩] }.canFetch = true ∧
    { running with holes := [⟨0x900000, 16, .dataError⟩] }.prefetchedAt running.headIndex = none ∧
    running.headAddr.toNat < 2 ^ running.paSize ∧
    { running with holes := [⟨0x900000, 16, .dataError⟩] }.readAnswer running.headAddr.toNat 16 = some .dataError := by decide
theorem witness_HeadAdvancesOncePerCommand : running.offers storing ∧
    running.offers (.invalidateIotlbPages 1 1 1 false 0x1000) ∧ (∃ t, exec storing running = .next t) ∧
    ∃ t, (behind [waiting storing]).act (.run 0) = .next t :=
  ⟨trivial, ⟨by decide, by decide⟩, ⟨_, rfl⟩, ⟨_, rfl⟩⟩

/-- The running IOMMU with INVALIDATE_DEVTAB_ENTRY in the last entry of its ring. -/
def lastEntry : State := put { running with cmdHead := 0xFF0, cmdTail := 0x10 } 0x900FF0 16 (words 0x0108 0x20000000 0 0).toNat

theorem witness_HeadAdvancesOncePerCommand_fetch : lastEntry.canFetch = true ∧ lastEntry.prefetchedAt lastEntry.headIndex = none ∧
    lastEntry.entryReadable ∧ decode lastEntry.entryBytes = .instr (.invalidateDevtabEntry 0x0108) ∧
    okAnd (lastEntry.act .fetch) (fun t => decide (t.headIndex = 0 ∧ t.cmdHead = 0)) := by decide
theorem witness_CompletionWaitCompletes : running.fetched = [] ∧ running.commandEventPending = false ∧ running.memoryCanonical ∧
    running.ownMemory 0xB00000 8 ∧ running.ownMemory (2 ^ 52 - 8) 8 ∧ running.comWaitIntEn = true ∧
    noSourceSet running.status = true := by decide
theorem witness_CompletionWaitCompletes_wide : 2 ^ { running with capMisc := 0x00203000 }.paSize ≤ (0x1000000B00000#64).toNat ∧
    ∃ t, exec (.completionWait true false false 0x1000000B00000 1) { running with capMisc := 0x00203000 } = .next t := by
  refine ⟨by decide, ?_⟩
  show ∃ t, execCompletionWait true false false 0x1000000B00000 1 { running with capMisc := 0x00203000 } = .next t
  have h : State.storeRefused { running with capMisc := 0x00203000 }.advanceHead 0x1000000B00000 = false := by
    unfold State.storeRefused State.tableTarget
    rw [if_neg (by decide)]
    split
    · rename_i hx
      split at hx
      · cases hx; decide
      · cases hx
    · rfl
  unfold execCompletionWait startCompletionWait
  rw [h]
  exact ⟨_, rfl⟩
theorem witness_CompletionWaitWaitsForOlder_behind : (behind [waiting fence]).fetched ≠ [] := by decide
theorem witness_CompletionWaitWaitsForOlder_event : { running with pendingEvents := [timeoutEvent] }.commandEventPending = true := by
  decide
theorem witness_CompletionWaitWaitsForOlder_fetched : (behind [waiting fence, waiting storing]).fetched[1]? = some (waiting storing) ∧
    (waiting storing).phase = .waiting := by decide
theorem witness_CompletionWaitWaitsForOlder_last : (behind [waiting storing]).fetched = [waiting storing] ∧
    (behind [waiting storing]).commandEventPending = false ∧ (behind [waiting storing]).ownMemory 0xB00000 8 ∧
    (behind [waiting storing]).memoryCanonical ∧ (behind [waiting storing]).comWaitIntEn = true ∧
    noSourceSet (behind [waiting storing]).status = true := by decide
theorem witness_CompletionWaitWaitsForOlder_wide : 2 ^ { running with capMisc := 0x00203000 }.paSize ≤ (0x1000000B00000#64).toNat ∧
    ∃ t, { running with capMisc := 0x00203000, fetched := [waiting (.completionWait false true false 0x1000000B00000 1)] }.act (.run 0) =
      .next t := ⟨by decide, _, rfl⟩
theorem test_a_late_completion_wait_stores_and_signals :
    okAnd ((behind [waiting (.completionWait true true false 0xB00000 1), waiting fence]).act (.run 0)) (fun t => decide
      (t.mem.readBytes 0xB00000 8 = [1, 0, 0, 0, 0, 0, 0, 0] ∧ t.status = 0x1C ∧ t.intDue = 1 ∧ t.fetched = [waiting fence] ∧
        t.cmdHead = running.cmdHead)) := by decide

/-- A command fetched between two others, of which the first holds nothing back. -/
def between (i : Instr) : State :=
  { behind [waiting storing, waiting i, waiting fence] with dteCache := [⟨0x0108, false, 1, false⟩, ⟨0x0109, false, 1, false⟩] }

theorem witness_begins_late (i : Instr) : (between i).fetched = [waiting storing] ++ ⟨i, 0x900000, .waiting⟩ :: [waiting fence] ∧
    fenced [waiting storing] = false ∧ devtabPending [waiting storing] = false ∧ pagesPending [waiting storing] = false ∧
    (between i).pendingFor 1 < (1#8).toNat := ⟨rfl, by decide, by decide, by decide, Nat.zero_lt_one⟩
theorem test_a_held_command_begins_in_its_place :
    okAnd ((between (.invalidateDevtabEntry 0x0108)).act (.run 1)) (fun t => decide
      (t.dteCache = [⟨0x0109, false, 1, false⟩] ∧ t.fetched = [waiting storing, waiting fence] ∧ t.cmdHead = running.cmdHead)) ∧
    okAnd ((between (.invalidateIotlbPages 1 1 1 false 0x1000)).act (.run 1)) (fun t => decide
      (t.outputs = [.iotlbRequest 1 1 ⟨0x1000, 12⟩] ∧ t.outstanding = [⟨0, 1, 1, 0x900000, ⟨0x1000, 12⟩, 0⟩] ∧
        t.fetched = [waiting storing, ⟨.invalidateIotlbPages 1 1 1 false 0x1000, 0x900000, .requested 0⟩, waiting fence])) := by decide
theorem witness_InvalidateDevtabEntryCompletes : fenced running.fetched = false ∧
    fenced (behind [waiting storing]).fetched = false ∧
    (lowRead false).inFlight.map (InFlight.halfRead 0x0108) = [true] ∧ (busyWith (fresh .read 0)).inFlight.map (InFlight.halfRead 0x0108) =
      [false] := by decide
theorem witness_InvalidateIommuPagesCompletes : fenced running.fetched = false ∧ devtabPending running.fetched = false ∧
    invRange true 0x7FFFFFFFFFFFF000 = some ⟨0, 64⟩ ∧ invRange false 0 = some ⟨0, 12⟩ := by decide
theorem witness_InvalidateIommuPagesCompletes_undefined : fenced running.fetched = false ∧ devtabPending running.fetched = false ∧
    invRange true 0xFFFFFFFFFFFFF000 = none := by decide
theorem witness_InvalidateIotlbPagesSendsRequest : running.iotlbSup = true ∧
    iotlbAddressUndefined 0xFFFFFFFEFFFFF000 = false ∧ invRange true 0x7FFFFFFFFFFFF000 = some ⟨0, 64⟩ ∧
    iotlbAddressUndefined 0x7FFFFFFFFFFFF000 = false ∧ fenced running.fetched = false ∧ devtabPending running.fetched = false ∧
    pagesPending running.fetched = false ∧ running.pendingFor 1 < (1#8).toNat := by decide
theorem witness_InvalidateInterruptTableCompletes : fenced running.fetched = false ∧ devtabPending running.fetched = false := by decide
theorem witness_FenceHoldsYounger : (behind [waiting fence]).offers (.invalidateDevtabEntry 1) ∧
    fenced (behind [waiting fence]).fetched = true := ⟨trivial, by decide⟩
theorem witness_FenceHoldsYounger_fetched :
    (behind [waiting fence, waiting (.invalidateDevtabEntry 1)]).fetched[1]? = some (waiting (.invalidateDevtabEntry 1)) ∧
    (waiting (.invalidateDevtabEntry 1)).phase = .waiting ∧
    (behind [waiting fence, waiting (.invalidateDevtabEntry 1)]).offers (waiting (.invalidateDevtabEntry 1)).instr ∧
    fenced ((behind [waiting fence, waiting (.invalidateDevtabEntry 1)]).fetched.take 1) = true :=
  ⟨by decide, by decide, trivial, by decide⟩
theorem witness_DevtabInvalidationComesFirst : devtabPending (behind [waiting (.invalidateDevtabEntry 1)]).fetched = true := by decide
theorem witness_DevtabInvalidationComesFirst_fetched :
    (behind [waiting (.invalidateDevtabEntry 1), waiting (.invalidateInterruptTable 1)]).fetched[1]? =
      some (waiting (.invalidateInterruptTable 1)) ∧ (waiting (.invalidateInterruptTable 1)).phase = .waiting ∧
    (waiting (.invalidateInterruptTable 1)).instr = .invalidateInterruptTable 1 ∧
    devtabPending ((behind [waiting (.invalidateDevtabEntry 1), waiting (.invalidateInterruptTable 1)]).fetched.take 1) = true := by
  decide
theorem witness_IotlbRequestWaits : (behind [waiting (.invalidateDevtabEntry 1)]).offers (.invalidateIotlbPages 1 0 1 false 0) ∧
    devtabPending (behind [waiting (.invalidateDevtabEntry 1)]).fetched = true ∧
    pagesPending (behind [waiting (.invalidateIommuPages 1 false false 0)]).fetched = true ∧
    (0#8).toNat ≤ running.pendingFor 1 := ⟨⟨by decide, by decide⟩, by decide⟩
theorem witness_IotlbRequestWaits_fetched : (behind [waiting (.invalidateIotlbPages 1 0 1 false 0)]).fetched[0]? =
      some (waiting (.invalidateIotlbPages 1 0 1 false 0)) ∧ (waiting (.invalidateIotlbPages 1 0 1 false 0)).phase = .waiting ∧
    (behind [waiting (.invalidateIotlbPages 1 0 1 false 0)]).offers (.invalidateIotlbPages 1 0 1 false 0) ∧
    (0#8).toNat ≤ (behind [waiting (.invalidateIotlbPages 1 0 1 false 0)]).pendingFor 1 :=
  ⟨by decide, by decide, ⟨by decide, by decide⟩, by decide⟩
theorem witness_UnsupportedIotlbIsIllegal : { running with capHeader := 0x000B000F }.iotlbSup = false := by decide
theorem witness_UndefinedOperandsStop : running.iotlbSup = true ∧ (0xFFFFFFFFFFFF9#64).toNat < 2 ^ running.paSize ∧ (0xFFFFFFFF00000000#64).extractLsb' 32 32 = 0xFFFFFFFF#32 ∧
    running.fetched = [] ∧ running.commandEventPending = false ∧ running.isMemory (0xFEB80000#64).toNat 8 = false ∧
    running.isMemory (0xFFFFFFFFFFFF9#64).toNat 8 = false := by decide
theorem witness_UndefinedOperandsStop_late :
    (between (.invalidateIotlbPages 1 1 1 false 0xFFFFFFFF00000000)).fetched[1]? =
      some ⟨.invalidateIotlbPages 1 1 1 false 0xFFFFFFFF00000000, 0x900000, .waiting⟩ ∧
    (behind [waiting (.completionWait true false false 0xFEB80000 1)]).fetched =
      ⟨.completionWait true false false 0xFEB80000 1, 0x900000, .waiting⟩ :: [] ∧
    (behind [waiting (.completionWait true false false 0xFEB80000 1)]).commandEventPending = false ∧
    (behind [waiting (.completionWait true false false 0xFEB80000 1)]).isMemory (0xFEB80000#64).toNat 8 = false := by decide
theorem witness_DrainingEndsWhenTrafficHasGone :
    (behind [⟨.invalidateDevtabEntry 0x0108, 0x900000, .draining [0]⟩]).fetched[0]? =
      some ⟨.invalidateDevtabEntry 0x0108, 0x900000, .draining [0]⟩ ∧
    (∀ id ∈ [0], (∀ u ∈ running.inFlight, u.id ≠ id) ∧ (∀ f ∈ running.upReads, f.id ≠ id) ∧ (∀ f ∈ running.upWrites, f.id ≠ id)) ∧
    (∃ id ∈ [0], ∃ u ∈ (busyWith (fresh .read 0)).inFlight, u.id = id) := by decide
theorem witness_IotlbRequestEnds :
    { running with outstanding := [⟨0, 1, 1, 0x900000, ⟨0, 64⟩, 1⟩] }.outstanding[0]? = some ⟨0, 1, 1, 0x900000, ⟨0, 64⟩, 1⟩ ∧
    (1#3) ≠ 0 ∧ { running with outstanding := [⟨0, 1, 1, 0x900000, ⟨0, 64⟩, 0⟩] }.outstanding[0]? =
      some ⟨0, 1, 1, 0x900000, ⟨0, 64⟩, 0⟩ := by decide

theorem witness_ReportWritesTheEntry : withEvent.pendingEvents[0]? = some ⟨.illegalCommandError 0x900010, none, .logging⟩ ∧
    withEvent.firstFaultSeen none = false ∧ withEvent.eventLogRun = true ∧ withEvent.evtHalted = false ∧
    withEvent.iommuEn = true ∧ withEvent.eventOverflow = false ∧ withEvent.logFull = false ∧ withEvent.memoryCanonical ∧
    withEvent.ownMemory withEvent.evtTailAddr.toNat 16 ∧ withEvent.eventIntEn = true ∧ noSourceSet withEvent.status = true ∧
    { withEvent with control := 0x1415 }.eventIntEn = false := by decide
theorem witness_LostEvents_full : { withEvent with evtTail := 0xFF0 }.pendingEvents[0]? = some ⟨.illegalCommandError 0x900010, none, .logging⟩ ∧
    withEvent.firstFaultSeen none = false ∧ { withEvent with evtTail := 0xFF0 }.logFull = true ∧ withEvent.eventLogRun = true ∧
    withEvent.evtHalted = false ∧ withEvent.iommuEn = true ∧ withEvent.eventOverflow = false ∧ withEvent.eventIntEn = true ∧ noSourceSet withEvent.status = true := by decide
theorem witness_LostEvents_overflowed : { withEvent with status := 9 }.eventLogRun = true ∧
    { withEvent with status := 9 }.eventOverflow = true ∧ 0 < withEvent.pendingEvents.length := by decide

/-- What an event waiting first must be for its discard to be the implementation's. -/
abbrev discarded (s : State) : Prop :=
  s.pendingEvents[0]? = some ⟨.illegalCommandError 0x900010, none, .logging⟩ ∧ s.firstFaultSeen none = false ∧
    (s.eventLogRun = false ∨ s.eventOverflow = false ∧ (s.evtHalted = true ∨ s.iommuEn = false)) ∧ s.eventIntEn = true ∧
    noSourceSet s.status = true

theorem witness_LostEvents_discarded : discarded { withEvent with status := 0 } ∧ discarded { withEvent with evtHalted := true } ∧
    discarded { withEvent with control := 0x141C } ∧ { withEvent with evtHalted := true }.eventLogRun = true := by decide
theorem witness_LostEvents_late : { withEvent with pendingEvents := [⟨.illegalCommandError 0, none, .stopped⟩] }.pendingEvents[0]? =
      some ⟨.illegalCommandError 0, none, .stopped⟩ ∧
    { withEvent with pendingEvents := [⟨.illegalCommandError 0, none, .disabled⟩] }.pendingEvents[0]? =
      some ⟨.illegalCommandError 0, none, .disabled⟩ ∧ withEvent.logRuns = true := by decide

/-- The running IOMMU with a page fault of device 1 to report under `SE`, its entry cached or not. -/
def underSe (cached : List DteCacheEntry) (seen : List DeviceId) : State :=
  { running with
    pendingEvents := [⟨.illegalCommandError 0, some 1, .logging⟩]
    dteCache := cached
    faultLogged := seen }

theorem witness_FirstFaultOnly_later : (underSe [⟨1, false, 1, false⟩] [1]).pendingEvents[0]? =
      some ⟨.illegalCommandError 0, some 1, .logging⟩ ∧ (underSe [⟨1, false, 1, false⟩] [1]).dteCached 1 = true ∧
    1 ∈ (underSe [⟨1, false, 1, false⟩] [1]).faultLogged ∧ (underSe [] [1]).dteCached 1 = false := by decide
theorem witness_FirstFaultOnly_first : (underSe [⟨1, true, 1, false⟩] []).dteCached 1 = true ∧ 1 ∉ (underSe [⟨1, true, 1, false⟩] []).faultLogged ∧
    ∃ t, (underSe [⟨1, true, 1, false⟩] []).act (.report 0) = .next t ∧ t.evtTail ≠ running.evtTail :=
  ⟨by decide, by decide, _, rfl, by decide⟩
theorem witness_FirstFaultOnly_drop : (underSe [⟨1, false, 1, false⟩, ⟨1, true, 1, false⟩] [1, 2]).dteCache[1]? = some ⟨1, true, 1, false⟩ ∧
    (underSe [] [1]).dteCache[0]? = none := by decide
theorem test_the_first_fault_state_goes_with_the_last_half : [(0, false), (0, true)].map (fun w =>
      [[(⟨1, false, 1, false⟩ : DteCacheEntry), ⟨1, true, 1, false⟩], [⟨1, false, 1, false⟩, ⟨3, true, 1, false⟩]].map fun cached =>
        ((underSe cached [1, 2]).dropDte w.1 w.2).faultLogged) = [[[1, 2], [2]], [[2], [2]]] := by decide
theorem witness_InterruptCheckAndSend : running.intEnabled .comWaitInt = true ∧ running.comWaitInt = false ∧
    running.eventLogInt = false ∧ running.eventOverflow = false ∧ { running with control := 0x1405 }.intEnabled .eventLogInt = false ∧
    { running with intDue := 1 }.intDue ≠ 0 ∧ running.intDue = 0 := by decide
theorem witness_InterruptCheckAndSend_level : { running with status := 0x1C }.intxAsserted = true ∧ running.intxAsserted = false := by
  decide

theorem witness_StatusIsWriteOneToClear : running.locked = true ∧ laneAllowed 0 [4] ∧ laneAllowed 7 [4] ∧ laneAllowed 4 [0, 0, 0, 0] := by
  decide
theorem witness_ControlWriteTakesEffect : running.locked = true ∧ running.reservedClear ∧ laneAllowed 0 (leBytes 8 0x1FFF) ∧
    takesBytes running.control 0xFFFFFFFFFFFFE000 0 (leBytes 8 0x1FFF) 0x1FFF ∧ laneAllowed 1 [0xFF] ∧
    takesBytes running.control 0xFFFFFFFFFFFFE000 1 [0xFF] 0x1F1D :=
  ⟨by decide, running_reservedClear, by decide, by decide, by decide, by decide⟩
theorem witness_ControlWriteTakesEffect_bytes : laneAllowed 0 [0] ∧ takesBytes running.control 0xFFFFFFFFFFFFE000 0 [0] 0x1400 ∧
    laneAllowed 1 [0] ∧ takesBytes running.control 0xFFFFFFFFFFFFE000 1 [0] 0x1D ∧ laneAllowed 7 [0] ∧
    takesBytes running.control 0xFFFFFFFFFFFFE000 7 [0] 0x141D ∧ (0x1400#64).getLsbD 2 = false ∧ (0x1D#64).getLsbD 12 = false := by
  decide
theorem witness_ControlWriteTakesEffect_interrupt : { running with control := 0x1405, status := 0x1F }.comWaitIntEn = false ∧
    { running with control := 0x1405 }.eventIntEn = false ∧ (0x141D#64).getLsbD 4 = true ∧ (0x141D#64).getLsbD 3 = true ∧
    { running with status := 0x1F }.comWaitInt = true ∧ { running with status := 0x1F }.eventLogInt = true ∧
    { running with status := 0x1F }.eventOverflow = true ∧ running.comWaitIntEn = true := by decide
theorem witness_ControlWriteTakesEffect_fall : { running with control := 0 }.fetching = false ∧ { running with control := 0 }.fetched = [] ∧
    { running with control := 0 }.logging = false ∧ { running with control := 0 }.cmdBufRun = true ∧
    { running with control := 0 }.eventLogRun = true := by decide
theorem witness_BaseWritesResetPointers : running.locked = true ∧ running.reservedClear ∧ laneAllowed 7 [0x0F] ∧
    takesBytes running.cmdBase 0xF0F0000000000FFF 7 [0x0F] 0x0F00000000900000 ∧
    takesBytes running.evtBase 0xF0F0000000000FFF 7 [0x07] 0x0700000000A00000 ∧ 8 ≤ fieldOf (0x0F00000000900000#64) 56 4 ∧
    fieldOf (0x0700000000A00000#64) 56 4 < 8 ∧ { running with status := 0x10 }.eventLogRun = false ∧ running.eventLogRun = true :=
  ⟨by decide, running_reservedClear, by decide, by decide, by decide, by decide⟩
theorem witness_BaseWritesResetPointers_byte0 : laneAllowed 0 [0xFF] ∧ takesBytes running.evtBase 0xF0F0000000000FFF 0 [0xFF] 0x0800000000A00000 ∧
    laneAllowed 1 [0] ∧ ¬(1 = 0 ∧ [(0 : Byte)].length = 1) := by decide
theorem test_reserved_byte_of_the_event_base_clears_the_pointers :
    okAnd ({ running with evtHead := 0x20, evtTail := 0x40 }.act (.cpuWrite (running.registerAddr 0x10) [0xFF] false))
      (fun t => decide (t.evtBase = running.evtBase ∧ t.evtHead = 0 ∧ t.evtTail = 0 ∧ t.eventLogRun = true)) ∧
    refusedWith (running.act (.cpuWrite (running.registerAddr 0x11) [0] false)) .eventBaseWhileRunning := by decide
theorem witness_TableRegistersReadBack : running.locked = true ∧ running.reservedClear := ⟨by decide, running_reservedClear⟩
theorem witness_TableRegistersReadBack_narrow : mmioRegAt 0x28 = some .exclLimit ∧ [0xFF, 0xFF].length ∈ [1, 2, 4, 8] ∧
    6 % [0xFF, 0xFF].length = 0 ∧ 6 < 8 ∧ mmioRegAt 0x2020 = some .status ∧ 7 % 1 = 0 := by decide
theorem witness_TableRegistersReadBack_stops : 0x3FFF < 0x4000 ∧ ([0, 0] : List Byte) ≠ [] ∧
    ¬([0, 0].length ∈ [1, 2, 4, 8] ∧ 0x3FFF % [0, 0].length = 0) := by decide
theorem witness_TableRegistersReadBack_none : 0x3FFF < 0x4000 ∧ [0].length ∈ [1, 2, 4, 8] ∧ 0x3FFF % [0].length = 0 ∧
    mmioRegAt (0x3FFF - 0x3FFF % 8) = none := by decide
theorem witness_PointerWrites : running.locked = true ∧ running.reservedClear ∧ laneAllowed 0 (leBytes 4 0x7FFF0) ∧
    takesBytes running.cmdTail 0xFFFFFFFFFFF8000F 0 (leBytes 4 0x7FFF0) 0x7FFF0 ∧ laneAllowed 2 [7] ∧
    takesBytes running.evtHead 0xFFFFFFFFFFF8000F 2 [7] 0x70000 :=
  ⟨by decide, running_reservedClear, by decide, by decide, by decide, by decide⟩
theorem witness_CapabilityLockHolds_write : running.locked = true ∧ running.act (.cfgWrite 4 [0, 0, 0, 0]) = .next running :=
  ⟨by decide, rfl⟩
theorem witness_CapabilityLockHolds_step : running.locked = true ∧ (∃ t, step running = .next t) ∧
    running.agenda.head? ≠ some .reset := ⟨by decide, ⟨_, rfl⟩, by decide⟩
theorem witness_CapabilityLockHolds_unlocked : State.reset.locked = false ∧
    ∃ t, State.reset.act (.cpuWrite 0 [1] false) = .next t := ⟨by decide, _, rfl⟩
theorem witness_CapabilityLockHolds_unlocked_read : ∃ t, State.reset.act (.cpuRead 0xFEB82020 8) = .next t ∧ t.outputs ≠ [] :=
  ⟨_, rfl, by decide⟩

theorem witness_CapabilityLockHolds_config : State.reset.locked = false ∧ running.locked = true ∧
    ([0xAA] : List Byte).length ∈ [1, 2, 4] ∧ 19 % ([0xAA] : List Byte).length = 0 ∧ 19 < 20 ∧
    ¬(([0xAA, 0] : List Byte).length ∈ [1, 2, 4] ∧ 19 % ([0xAA, 0] : List Byte).length = 0) := by decide
theorem test_a_configuration_access_covers_its_bytes : okAnd (State.reset.act (.cfgWrite 0x12 [0xFF]))
      (fun t => decide (t.capMisc = State.reset.capMisc ||| 0x00400000 ∧ t.capRange = State.reset.capRange)) ∧
    okAnd (running.act (.cfgRead 6 2)) (fun t => decide (t.outputs = [.cpuData [0xB8, 0xFE]])) ∧
    refusedWith (running.act (.cfgWrite 20 [0])) .configOutsideBlock ∧
    refusedWith (running.act (.cfgRead 3 2)) .registerAccessSize := by decide

/-- The running IOMMU on a platform with a hole, and with memory that gives a data error. -/
def holed : State := { running with holes := [⟨0x5000, 16, .targetAbort⟩, ⟨0x6000, 16, .dataError⟩] }

theorem witness_CapabilityLockHolds_memory : [(0xFFFFFFFFFFFF8, 8), (0xFFFFFFFFFFFF8, 9), (0xFEB7FFFF, 1), (0xFEB7FFFF, 2), (0xFEB83FFF, 1),
      (0xFEB84000, 1), (0x4FFF, 1), (0x4FFF, 2), (0x500F, 1), (0x5010, 1), (0x6000, 16)].map (fun w => holed.isMemory w.1 w.2) =
    [true, false, true, false, false, true, true, false, false, true, true] ∧ holed.memoryCanonical := by decide
theorem witness_CapabilityLockHolds_no_memory : ([1, 2] : List Byte) ≠ [] ∧ 2 ^ 52 < (0xFFFFFFFFFFFFF#64).toNat + 2 ∧
    holed.clearOfRegisters (0xFFFFFFFFFFFFF#64).toNat 2 ∧ holed.clearOfRegisters (0x4FFF#64).toNat 2 ∧ holed.locked = true ∧
    (0xFEB7FFFF#64).toNat < holed.mmioBase ∧ holed.mmioBase < (0xFEB7FFFF#64).toNat + 2 := by decide
theorem test_processor_writes_and_write_back : okAnd (running.act (.cpuWrite 0x3000 [1, 2] true)) (fun t =>
      decide (t.mem.readBytes 0x3000 2 = [1, 2] ∧ t.dram = []) &&
        okAnd (t.act (.writeBack 0x3001 2)) fun u => decide (u.mem = t.mem ∧ u.dram.readBytes 0x3000 3 = [0, 2, 0])) ∧
    okAnd (running.act (.cpuWrite 0x3000 [1, 2] false)) (fun t => decide (t.mem = t.dram ∧ t.dram.readBytes 0x3000 2 = [1, 2])) ∧
    refusedWith (holed.act (.cpuWrite 0x4FFF [1, 2] false)) .foreignWindow ∧
    refusedWith (holed.act (.cpuWrite 0xFEB7FFFF [1, 2] false)) .registerAccessSize := by decide

theorem witness_ArrivalFollowsTheEnableBits_tunnel : { txOf .read 0 with tunnel := true }.tunnel = true ∧
    { running with capHeader := 0x030B000F }.htTunnel = true ∧ { running with capHeader := 0x030B000F }.htTunEn = false ∧
    { running with capHeader := 0x030B000F }.iommuEn = true := by decide
theorem witness_ArrivalFollowsTheEnableBits : (txOf .read 0xFFC).inPage = true ∧ (txOf .read 0xFFC).kind.isLinkCommand = false ∧
    (txOf .read 0xFFC).tunnel = false ∧ State.reset.iommuEn = false ∧ (txOf .transReq 0).inPage = true ∧
    (txOf .transReq 0).kind.isLinkCommand = false ∧ { running with capHeader := 0x000B000F }.iotlbSup = false := by decide
theorem witness_ArrivalFollowsTheEnableBits_accepted : running.iommuEn = true ∧ running.htTunEn = false ∧ running.iotlbSup = true ∧
    (txOf .transReq 0xFFC).inPage = true ∧ (txOf .transReq 0xFFC).tunnel = false ∧ { running with control := 0x141F }.htTunEn = true ∧
    rangeOf (txOf .transReq 0xFFC).addr = .ordinary := by decide
theorem witness_LinkTrafficPassesUnaltered : (txOf .response 0).kind.isLinkCommand = true ∧ (txOf .fence 0).kind.isLinkCommand = true ∧
    (txOf .flush 0).kind.isLinkCommand = true := by decide
theorem witness_InvalidEntryIsTransparent : (fresh .read 0xFDFB000000).tx.untranslated ∧ (dteOf 0xFFFFFFFFFFFFFFFE 0 0 0).v = false ∧
    rangeOf 0xFDFB000000 = .addressTranslation ∧ running.htAtsResv = false ∧
    { running with capMisc := 0x00603400 }.htAtsResv = true := by decide
theorem witness_UnmappedInterruptPasses : rangeOf (fresh .writePosted 0xFDF8FFFFFC).tx.addr = .interruptEoi ∧
    (dteOf 0 0 0 0).iv = false := by decide
theorem witness_InterruptsFollowTheirClass : rangeOf (fresh .writePosted 0xFDF8001000).tx.addr = .interruptEoi ∧
    (dteOf 1 7 0x240000000012348D 0).iv = true ∧ (dteOf 1 7 0x240000000012348D 0).checkHigh = none := by decide

/-- An interrupt whose table entry is to be read. -/
def remapAt : InFlight := ⟨0, txOf .writePosted 0xFDF8001000, .readIrte (dteOf 1 7 0x200000000012348D 0) 0x25, false, false⟩

theorem witness_InterruptsFollowTheirClass_read : remapAt.tx.kind = .writePosted ∧ (busyWith remapAt).inFlight[0]? = some remapAt ∧
    (dteOf 1 7 0x200000000012348D 0).irtRoot.getLsbD 6 = false ∧
    (dteOf 1 7 0x200000000012348D 0).irtRoot + BitVec.ofNat 64 (4 * 0x25) = 0x123514 ∧
    (0x123514#64).toNat < 2 ^ (busyWith remapAt).paSize ∧ (busyWith remapAt).readAnswer 0x123514 4 = none ∧
    { busyWith remapAt with holes := [⟨0x123514, 4, .targetAbort⟩] }.readAnswer 0x123514 4 = some .targetAbort := by decide
theorem witness_InterruptsFollowTheirClass_misses (e : IrtCacheEntry) :
    ¬(busyWith remapAt).usesIrte defaultChoice.useIrte 0x0108 0x25 e := fun h => nomatch h.1

/-- The interrupt with two cached copies of its entry. -/
def irteTwice : State := { busyWith remapAt with irtCache := [⟨0x0108, 0x25, 0x00410301⟩, ⟨0x0108, 0x25, 0x00420301⟩] }

theorem witness_InterruptsFollowTheirClass_cached :
    irteTwice.inFlight[0]? = some remapAt ∧
    irteTwice.usesIrte (some 0) 0x0108 0x25 ⟨0x0108, 0x25, 0x00410301⟩ ∧
    irteTwice.usesIrte (some 1) 0x0108 0x25 ⟨0x0108, 0x25, 0x00420301⟩ := by decide
theorem witness_BeyondTheTable : { busyWith (fresh .read 0x1000) with devTabBase := 0x800000 }.inTable 0x0108 = false ∧
    (busyWith (fresh .read 0x1000)).inFlight[0]? = some (fresh .read 0x1000) ∧ (fresh .read 0x1000).phase = .needDte ∧
    (fresh .read 0x1000).tx.untranslated ∧ running.uncontrolled (fresh .read 0x1000).tx ∧ running.inExclusionRange 0x1000 = false := by decide
theorem witness_BeyondTheTable_io : { busyWith (fresh .read 0xFDFC000000) with devTabBase := 0x800000 }.inTable 0x0108 = false ∧
    (busyWith (fresh .read 0xFDFC000000)).inFlight[0]? = some (fresh .read 0xFDFC000000) ∧
    (fresh .read 0xFDFC000000).phase = .needDte ∧ (fresh .read 0xFDFC000000).tx.untranslated ∧
    rangeOf (fresh .read 0xFDFC000000).tx.addr = .ioSpace := by decide
theorem witness_BeyondTheTable_request : { busyWith (fresh .transReq 0x1000) with devTabBase := 0x800000 }.inTable 0x0108 = false ∧
    (busyWith (fresh .transReq 0x1000)).inFlight[0]? = some (fresh .transReq 0x1000) ∧
    (fresh .transReq 0x1000).phase = .needDte ∧ (fresh .transReq 0x1000).tx.kind = .transReq ∧
    rangeOf (fresh .transReq 0x1000).tx.addr = .ordinary := by decide
theorem witness_BeyondTheTable_allowed : (fresh .read 0x1000).tx.untranslated ∧ running.uncontrolled (fresh .read 0x1000).tx ∧
    { running with exclBase := 3 }.inExclusionRange 0xFFF = true ∧ { running with exclBase := 3 }.exclAllow = true ∧
    { running with exclBase := 1 }.exclAllow = false := by decide
theorem witness_BeyondTheTable_pretranslated : { fresh .read 0x1000 with tx := { txOf .read 0x1000 with preTranslated := true } }.tx.preTranslated = true ∧
    rangeOf 0x1000 ≠ .reservedInterrupt ∧ rangeOf 0x1000 ≠ .interruptEoi := by decide
theorem witness_LookupReadsTheDeviceTable : (busyWith (fresh .read 0x1000)).inFlight[0]? = some (fresh .read 0x1000) ∧
    (fresh .read 0x1000).phase = .needDte ∧ (busyWith (fresh .read 0x1000)).inTable 0x0108 = true ∧
    defaultChoice.wide = true ∧ defaultChoice.torn = false ∧ defaultChoice.highFirst = false ∧
    (running.dteAddr 0x0108).toNat + 32 ≤ 2 ^ running.paSize ∧
    (busyWith (fresh .read 0x1000)).readAnswer (running.dteAddr 0x0108).toNat 16 = none ∧
    (busyWith (fresh .read 0x1000)).readAnswer ((running.dteAddr 0x0108).toNat + 16) 16 = none := by decide
theorem witness_LookupReadsTheDeviceTable_second : (busyWith ⟨0, txOf .read 0x1000, .haveLow 1 ⟨0x802110, none⟩, false, false⟩).inFlight[0]? =
      some ⟨0, txOf .read 0x1000, .haveLow 1 ⟨0x802110, none⟩, false, false⟩ ∧ (0x802110#64).toNat < 2 ^ running.paSize ∧
    (busyWith ⟨0, txOf .read 0x1000, .haveLow 1 ⟨0x802110, none⟩, false, false⟩).readAnswer (0x802110#64).toNat 16 = none := by decide
theorem witness_LookupReadsTheDeviceTable_kept : ({ defaultChoice with keepDte := true }.keepDte = true) ∧
    (fresh .read 0x1000).staleDte = false ∧ (dteOf 0 0 1 0).iv = true ∧ ((some true : Option Bool) ≠ none) := by decide
theorem test_a_half_read_is_cached_for_its_device :
    okAnd ({ busyWith (fresh .read 0x1000) with capHeader := 0x070B000F, dteCache := [⟨0x0109, false, 1, false⟩] }.act
      (.advance 0 { defaultChoice with wide := false, keepDte := true }))
      (fun t => decide (t.dteCache = [⟨0x0108, false, 0, false⟩, ⟨0x0109, false, 1, false⟩])) := by decide
theorem witness_LookupReadsTheDeviceTable_fails :
    { busyWith (fresh .read 0x1000) with holes := [⟨0x802100, 1, .masterAbort⟩] }.inFlight[0]? = some (fresh .read 0x1000) ∧
    (fresh .read 0x1000).phase = .needDte ∧ (busyWith (fresh .read 0x1000)).inTable 0x0108 = true ∧
    defaultChoice.wide = true ∧ (running.dteAddr 0x0108).toNat + 32 ≤ 2 ^ running.paSize ∧
    { busyWith (fresh .read 0x1000) with holes := [⟨0x802100, 1, .masterAbort⟩] }.readAnswer (running.dteAddr 0x0108).toNat 16 =
      some .masterAbort := by decide
theorem witness_LookupReadsTheDeviceTable_high_half_fails :
    { busyWith (fresh .read 0x1000) with holes := [⟨0x802110, 1, .masterAbort⟩] }.readAnswer 0x802100 16 = none ∧
    { busyWith (fresh .read 0x1000) with holes := [⟨0x802110, 1, .masterAbort⟩] }.readAnswer 0x802110 16 = some .masterAbort ∧
    { defaultChoice with wide := false, highFirst := true }.highFirst = true ∧ { defaultChoice with torn := true }.torn = true ∧
    (running.dteAddr 0x0108).toNat = 0x802100 ∧ (running.dteAddr 0x0108 + 16).toNat = 0x802110 := by decide
theorem witness_LookupReadsTheDeviceTable_high_first :
    (busyWith ⟨0, txOf .read 0x1000, .haveHigh 1 ⟨0x802100, some true⟩, false, false⟩).inFlight[0]? =
      some ⟨0, txOf .read 0x1000, .haveHigh 1 ⟨0x802100, some true⟩, false, false⟩ ∧ (0x802100#64).toNat < 2 ^ running.paSize := by decide

/-- The lookup with two cached copies of the low half and one of the high half of its entry, and another device's. -/
def dteTwice : State :=
  { busyWith (fresh .read 0x1000) with
    dteCache := [⟨0x0108, false, 1, false⟩, ⟨0x0108, false, 0x2000000000000003, false⟩, ⟨0x0108, true, 1, false⟩, ⟨0x0109, false, 1, false⟩] }

theorem witness_LookupReadsTheDeviceTable_misses : dteTwice.usesNoHalf none 0x0108 true ∧ dteTwice.usesNoHalf (some 3) 0x0108 false ∧
    dteTwice.usesNoHalf (some 2) 0x0108 false ∧ dteTwice.usesNoHalf (some 4) 0x0108 true :=
  ⟨(fun _ h => nomatch h), (fun _ h hd => by cases h; cases hd), (fun _ h _ hh => by cases h; cases hh), (fun _ h => nomatch h)⟩
theorem witness_LookupReadsTheDeviceTable_cached : dteTwice.inFlight[0]? = some (fresh .read 0x1000) ∧
    (fresh .read 0x1000).phase = .needDte ∧ dteTwice.inTable 0x0108 = true ∧ dteTwice.usesHalf (some 0) 0x0108 false 1 ∧
    dteTwice.usesHalf (some 1) 0x0108 false 0x2000000000000003 ∧ dteTwice.usesHalf (some 2) 0x0108 true 1 :=
  ⟨by decide, by decide, by decide, ⟨_, rfl, rfl, rfl, rfl⟩, ⟨_, rfl, rfl, rfl, rfl⟩, ⟨_, rfl, rfl, rfl, rfl⟩⟩
theorem test_an_older_half_may_hit : okAnd (dteTwice.act (.advance 0 { defaultChoice with useLo := some 0, useHi := some 2 }))
      (fun t => decide (t.outputs = [.aborted (txOf .read 0x1000) .targetAbort])) ∧
    okAnd (dteTwice.act (.advance 0 { defaultChoice with useLo := some 1, useHi := some 2 }))
      (fun t => decide (outcome t = ([.forwarded (txOf .read 0x1000)], []))) := by decide
theorem witness_IllegalDeviceTableEntry : (fresh .read 0).tx.untranslated ∧ (dteOf 0x0E03 0 0 0).v = true ∧
    (dteOf 0x0E03 0 0 0).checkLow = some false ∧ rangeOf (fresh .read 0).tx.addr = .ordinary ∧
    (dteOf 0x0E03 0x100000000 0 0).iotlb = true ∧ (dteOf 0x0E03 0x100000000 0 0).checkLow = some false ∧ running.iotlbSup = true ∧
    { txOf .read 0 with preTranslated := true }.preTranslated = true ∧ (fresh .transReq 0).tx.kind = .transReq := by decide
theorem witness_IllegalDeviceTableEntry_high : (fresh .writePosted 0xFDF8001000).tx.kind = .writePosted ∧
    rangeOf (fresh .writePosted 0xFDF8001000).tx.addr = .interruptEoi ∧ (dteOf 0 0 0x3000000000000001 0).iv = true ∧
    (dteOf 0 0 0x3000000000000001 0).checkHigh = some true := by decide
theorem witness_ExclusionRangeIsNotTranslated : (fresh .read 0xC0000FFF).tx.untranslated ∧ running.uncontrolled (fresh .read 0xC0000FFF).tx ∧
    (dteOf 1 0x8000000000 0 0).v = true ∧ (dteOf 1 0x8000000000 0 0).checkLow = none ∧ (dteOf 1 0x8000000000 0 0).ex = true ∧
    { running with exclBase := 0xC0000001, exclLimit := 0xC0000000 }.inExclusionRange 0xC0000FFF = true := by decide
theorem witness_PreTranslatedRequests : rangeOf 0x12345000 ≠ .reservedInterrupt ∧ rangeOf 0x12345000 ≠ .interruptEoi ∧
    running.iotlbSup = true ∧ (dteOf 1 0x100000000 0 0).v = true ∧ (dteOf 1 0x100000000 0 0).iotlb = true ∧
    (dteOf 1 0x100000000 0 0).checkLow = none ∧ (dteOf 1 0 0 0).iotlb = false ∧
    { txOf .read 0x12345000 with preTranslated := true }.preTranslated = true ∧ TxKind.read ≠ .transReq := by decide
theorem witness_ControlledRanges : (fresh .writePosted 0xFDF91FFFFF).tx.untranslated ∧ rangeOf 0xFDF91FFFFF = .systemManagement ∧
    (dteOf 1 0 0 0).v = true ∧ (dteOf 1 0 0 0).checkLow = none ∧ (dteOf 1 0 0 0).sysMgt ≠ 3 ∧
    (dteOf 0x603 0x0000030000000000 0 0).sysMgt = 3 ∧ (dteOf 0x603 0x0000030000000000 0 0).tv = true ∧
    (dteOf 0x603 0x0000030000000000 0 0).checkLow = none ∧ running.excluded (dteOf 0x603 0x0000030000000000 0 0) 0xFDF91FFFFF = false ∧
    (dteOf 1 0x0000030000000000 0 0).tv = false ∧
    { running with exclBase := 0xFDF9100003, exclLimit := 0xFDF91FF000 }.excluded (dteOf 1 0x0000030000000000 0 0) 0xFDF91FFFFF = true := by
  decide
theorem witness_ControlledRanges_interrupts : rangeOf (fresh .transReq 0xFD00000000).tx.addr = .reservedInterrupt ∧
    rangeOf (fresh .read 0xFDF8FFFFFF).tx.addr = .interruptEoi ∧ rangeOf (fresh .writePosted 0xFD00000000).tx.addr = .reservedInterrupt ∧
    TxKind.read ≠ .transReq ∧ TxKind.read ≠ .writePosted := by decide
theorem witness_ControlledRanges_io : (fresh .read 0xFDFC000000).tx.untranslated ∧ rangeOf 0xFDFC000000 = .ioSpace ∧
    (dteOf 1 0 0 0).ioCtl = 0 ∧ (dteOf 1 0x0000000800000000 0 0).ioCtl = 1 ∧ (dteOf 0x603 0x0000001000000000 0 0).ioCtl = 2 ∧
    (dteOf 0x603 0x0000001000000000 0 0).tv = true ∧ (dteOf 0x603 0x0000001000000000 0 0).checkLow = none ∧
    running.excluded (dteOf 0x603 0x0000001000000000 0 0) 0xFDFC000000 = false := by decide
theorem witness_ControlledRanges_ats : (fresh .read 0xFDFBFFFFFF).tx.untranslated ∧ rangeOf 0xFDFBFFFFFF = .addressTranslation ∧
    { running with capMisc := 0x00603400 }.htAtsResv = true ∧ running.htAtsResv = false ∧
    { running with exclBase := 0xFDFB000003, exclLimit := 0xFDFBFFF000 }.excluded (dteOf 1 0 0 0) 0xFDFBFFFFFF = true ∧
    running.excluded (dteOf 1 0 0 0) 0xFDFBFFFFFF = false ∧ (dteOf 1 0 0 0).tv = false ∧ (dteOf 0x603 0 0 0).tv = true := by decide
theorem witness_TranslationRequestAnswers : rangeOf (fresh .transReq 0x1000).tx.addr = .ordinary ∧ running.iotlbSup = true ∧
    (dteOf 0x603 0x0000000100000000 0 0).v = true ∧ (dteOf 0x603 0x0000000100000000 0 0).iotlb = true ∧
    (dteOf 0x603 0x0000000100000000 0 0).tv = true ∧ (dteOf 0x603 0x0000000100000000 0 0).checkLow = none ∧
    running.excluded (dteOf 0x603 0x0000000100000000 0 0) 0x1000 = false ∧ (dteOf 1 0x0000000100000000 0 0).tv = false ∧
    (dteOf 3 0x0000000100000000 0 0).mode = 0 ∧ (txOf .transReq 0x1000).npages ≤ 1 ∧ (dteOf 1 0 0 0).iotlb = false ∧
    { running with exclBase := 3 }.excluded (dteOf 1 0x0000000100000000 0 0) 0xFFF = true := by decide
theorem witness_TranslationRequestAnswers_refused : rangeOf (fresh .transReq 0xFDFC000000).tx.addr = .ioSpace ∧
    running.rangeRefusesTranslation (dteOf 1 0x0000000100000000 0 0) (rangeOf 0xFDFC000000) = true ∧
    running.rangeRefusesTranslation (dteOf 1 0x0000000100000000 0 0) (rangeOf 0x1000) = false := by decide
theorem witness_PermissionCheck : TxKind.permitted true false .read = true ∧ TxKind.permitted true false .writePosted = false ∧
    rangeOf (fresh .writePosted 0x1000).tx.addr ≠ .interruptEoi := by decide
theorem witness_PermissionCheck_memory : (fresh .read 0x1000).tx.untranslated ∧ running.uncontrolled (fresh .read 0x1000).tx ∧ (dteOf 1 7 0 0).v = true ∧
    (dteOf 1 7 0 0).checkLow = none ∧ (dteOf 1 7 0 0).tv = false ∧ running.excluded (dteOf 1 7 0 0) 0x1000 = false ∧
    (dteOf 0x2000000000000003 0 0 0).tv = true ∧ (dteOf 0x2000000000000003 0 0 0).mode = 0 ∧
    (dteOf 0x2000000000000003 0 0 0).checkLow = none ∧ running.excluded (dteOf 0x2000000000000003 0 0 0) 0x1000 = false := by decide
theorem witness_PermissionCheck_range : running.uncontrolled (txOf .read 0xFDFB000000) ∧
    rangeOf (txOf .read 0xFDFB000000).addr = .addressTranslation ∧ rangeOf (txOf .read 0xFDFB000000).addr ≠ .interruptEoi ∧
    ¬{ running with capMisc := 0x00603400 }.uncontrolled (txOf .read 0xFDFB000000) := by decide
theorem witness_PermissionCheck_zero_byte : (fresh .zeroByteRead 0).tx.kind = .zeroByteRead ∧
    { running with upReads := [⟨0, txOf .zeroByteRead 0, txOf .zeroByteRead 0, none, true⟩] }.upReads[0]? =
      some ⟨0, txOf .zeroByteRead 0, txOf .zeroByteRead 0, none, true⟩ := by decide
theorem witness_InterruptRemapping : (0x00410305#32).getLsbD 0 = true ∧ (0x00410305#32).extractLsb' 24 8 = 0 ∧
    (0x00410305#32).getLsbD 7 = false ∧ ((0x00410305#32).extractLsb' 2 3).toNat < 2 ∧ (0x00410300#32).getLsbD 0 = false ∧
    2 ≤ ((0x00410309#32).extractLsb' 2 3).toNat ∧ (0x01410301#32).extractLsb' 24 8 ≠ 0 ∧ (0x00410381#32).getLsbD 7 = true ∧
    (dteOf 1 7 0 0).v = true := by decide
theorem witness_WalkEntryIsLegal : enterPte 0x6000000000101401 3 false = .next 0x101000 2 ∧
    enterPte 0x680000005000BE01 1 false = .page 0x50008000 15 ∧ enterPte 0x6000000000000001 6 true = .page 0 57 ∧
    enterPte 0 1 false = .fault false false ∧ enterPte 0x6080000000001001 1 false = .fault true true := by decide
theorem witness_WalkEntryIsLegal_sizes : (0x680000005000BE01#64).getLsbD 0 = true ∧ (0x680000005000BE01#64).extractLsb' 52 7 = 0 ∧
    (0x680000005000BE01#64).extractLsb' 9 3 = 7 ∧ (0x680000005000BE01#64).getLsbD 12 = true ∧ (0x680000005000BE01#64).getLsbD 13 = true ∧
    (0x680000005000BE01#64).getLsbD 14 = false ∧ 9 * 1 + 3 < 14 + 1 ∧ (0x6000000060001001#64).extractLsb' 9 3 = 0 ∧
    ((0x6000000060001001#64).extractLsb' 12 40).toNat * 4096 % 2 ^ (9 * 1 + 3) = 0 := by decide
theorem witness_WalkEntryIsLegal_descent : ∀ i, i < 5 → ∃ table,
    enterPte ([0x6000000000000A01, 0x6000000000000801, 0x6000000000000601, 0x6000000000000401, 0x6000000000000201].getD i 0) (6 - i) false =
      .next table (6 - (i + 1)) := by
  intro i hi
  interval_cases i <;> exact ⟨_, rfl⟩

/-- A walk about to read its last table. -/
def lastLevel : State := put (busyWith (walkAt 0x40203ABC 0x102000 1 .read)) 0x102018 8 0x3000000089ABC001
/-- A walk about to read its first table. -/
def firstLevel : State := put (busyWith (walkAt 0x40203ABC 0x100000 3 .read)) 0x100008 8 0x6000000000101401

theorem witness_WalkStepFollowsTheTable_page : lastLevel.inFlight[0]? = some (walkAt 0x40203ABC 0x102000 1 .read) ∧
    (walkAt 0x40203ABC 0x102000 1 .read).phase = .walking (dteOf 0x6000000000000003 7 0 0)
      ⟨0x40203ABC, 0x102000, 1, 21, true, true, true, true, false⟩ ∧
    skippedBits 0x40203ABC 21 1 = false ∧ (0x102000#64) + BitVec.ofNat 64 (8 * levelIndex 1 0x40203ABC) = 0x102018 ∧
    (0x102018#64).toNat < 2 ^ lastLevel.paSize ∧ lastLevel.readAnswer 0x102018 8 = none ∧
    wordOf 64 (lastLevel.mem.readBytes 0x102018 8) = 0x3000000089ABC001 ∧ (0x3000000089ABC001#64).getLsbD 0 = true ∧
    pteReserved 0x3000000089ABC001 = false ∧ (∀ l6, enterPte 0x3000000089ABC001 1 l6 = .page 0x89ABC000 12) ∧
    (0x89ABC000#64).toNat + 2 ^ 12 ≤ 2 ^ lastLevel.paSize ∧ (walkAt 0x40203ABC 0x102000 1 .read).tx.kind ≠ .transReq ∧
    TxKind.permitted true false .read = true := by decide
theorem witness_WalkStepFollowsTheTable_next : firstLevel.inFlight[0]? = some (walkAt 0x40203ABC 0x100000 3 .read) ∧
    skippedBits 0x40203ABC (levelTop 3) 3 = false ∧ (0x100000#64) + BitVec.ofNat 64 (8 * levelIndex 3 0x40203ABC) = 0x100008 ∧
    firstLevel.readAnswer 0x100008 8 = none ∧ wordOf 64 (firstLevel.mem.readBytes 0x100008 8) = 0x6000000000101401 ∧
    pteReserved 0x6000000000101401 = false ∧ enterPte 0x6000000000101401 3 false = .next 0x101000 2 := by decide
/-- A walk about to start, with two entries of its domain in the device table. -/
def walkStarted (q0 : Nat) : State :=
  put (put (busyWith ⟨0, txOf .read 0x1000, .walking (dteOf 0x603 7 0 0) (Walk.start (dteOf 0x603 7 0 0) 0x1000), false, false⟩)
    0x802100 16 0x70000000000000603) 0x802120 16 (0x70000000000000000 + q0)

theorem witness_WalkStepFollowsTheTable_fresh : (Walk.start (dteOf 0x603 7 0 0) 0x1000).fresh = true ∧
    (walkStarted 0x603).tablesDisagree 7 = false ∧ skippedBits 0x1000 64 3 = false := by decide
theorem witness_WalkStepFollowsTheTable_misses :
    (∀ e, ¬(walkStarted 0x603).usesTlb defaultChoice.useTlb 7 0x1000 e) ∧ ∀ e, ¬(walkStarted 0x603).usesPdc (some 0) 7 0x1000 e :=
  ⟨fun _ h => (nomatch h.1), fun _ h => (nomatch h.1)⟩
theorem witness_WalkStepFollowsTheTable_begins : (dteOf 0x203 7 0 0).mode = 1 ∧ (dteOf 0xC03 7 0 0).mode = 6 ∧
    (fresh .read 0x1000).tx.addr.toNat < 2 ^ running.vaSize ∧ { running with capMisc := 0x00103400 }.vaSize = 32 ∧
    2 ^ 32 ≤ (0x100000000#64).toNat := by decide
theorem witness_WalkStepFollowsTheTable_indexes : levelIndex 6 0xFE00000000000000 = 0x7F ∧ levelIndex 1 0x40203ABC = 3 ∧
    skippedBits 0x323456 39 1 = true ∧ skippedBits 0xFFFFFFFFFFFFFFFF 64 6 = false ∧ (9 * 1 + 12 ≤ 21 ∧ 21 < 39) ∧
    (0x323456#64).getLsbD 21 = true := by decide

/-- A cached directory entry of domain 7 for the 2M around 1000h: the table at 102000h. -/
def cachedDirectory : PdcEntry := ⟨7, 0x0108, 0, 21, 0x102000, 1, true, false, true, true⟩
/-- One filled by another device of the domain, for the 1G around 1000h: the table at 103000h. -/
def olderDirectory : PdcEntry := ⟨7, 0x0109, 0, 30, 0x103000, 2, true, true, false, true⟩

theorem witness_WalkStepFollowsTheTable_directory : (walkStarted 0x603).inFlight[0]? =
      some ⟨0, txOf .read 0x1000, .walking (dteOf 0x603 7 0 0) (Walk.start (dteOf 0x603 7 0 0) 0x1000), false, false⟩ ∧
    (Walk.start (dteOf 0x603 7 0 0) 0x1000).fresh = true ∧ (walkStarted 0x603).tablesDisagree 7 = false ∧
    { walkStarted 0x603 with pdc := [cachedDirectory, olderDirectory] }.usesPdc (some 0) 7 0x1000 cachedDirectory ∧
    { walkStarted 0x603 with pdc := [cachedDirectory, olderDirectory] }.usesPdc (some 1) 7 0x1000 olderDirectory := by decide
theorem witness_WalkStepFollowsTheTable_kept : { defaultChoice with keepTlb := [0x40203000] }.keepTlb ≠ [] ∧
    (0x40203000#64).toNat / 2 ^ 12 = (0x40203ABC#64).toNat / 2 ^ 12 ∧
    { defaultChoice with keepPdc := true }.keepPdc = true ∧ (walkAt 0x40203ABC 0x102000 1 .transReq).stale = false := by decide
theorem test_a_large_page_is_kept_as_several_pieces : okAnd ((put (busyWith (walkAt 0x1234 0x300000 2 .read)) 0x300000 8 0x6000000000000001).act
      (.advance 0 { defaultChoice with keepTlb := [0x1234, 0x1FF000, 0x200000], split4k := true }))
    (fun t => decide (t.tlb.map (fun e => (e.base, e.bits)) = [(0x1000, 12), (0x1FF000, 12)])) := by decide
/-- A walk of level 1 whose address has a bit set that the entry before it has skipped. -/
def skipping : InFlight :=
  ⟨0, txOf .read 0x323456, .walking (dteOf 0x6000000000000003 7 0 0) ⟨0x323456, 0x102000, 1, 39, true, true, true, true, false⟩, false, false⟩

theorem witness_WalkEndsOtherwise_skipped : (busyWith skipping).inFlight[0]? = some skipping ∧ skippedBits 0x323456 39 1 = true ∧
    skipping.tx.kind ≠ .transReq ∧ rangeOf skipping.tx.addr ≠ .interruptEoi := by decide
theorem witness_WalkEndsOtherwise_request : { skipping with tx := txOf .transReq 0x323456 }.tx.kind = .transReq ∧
    rangeOf (txOf .transReq 0x323456).addr ≠ .interruptEoi ∧ (txOf .transReq 0x323456).npages = 1 ∧
    (walkAt 0x40203ABC 0x102000 1 .transReq).tx.kind = .transReq := by decide
theorem witness_WalkEndsOtherwise_fails : rangeOf (walkAt 0x40203ABC 0x102000 1 .transReq).tx.addr ≠ .interruptEoi ∧
    (0x102000#64) + BitVec.ofNat 64 (8 * levelIndex 1 0x40203ABC) = 0x102018 ∧ (0x102018#64).toNat < 2 ^ running.paSize ∧
    skippedBits 0x40203ABC (levelTop 1) 1 = false ∧
    { busyWith (walkAt 0x40203ABC 0x102000 1 .transReq) with holes := [⟨0x102018, 8, .dataError⟩] }.readAnswer 0x102018 8 =
      some .dataError := by decide
theorem witness_WalkEndsOtherwise_faults : lastLevel.readAnswer (0x102018#64).toNat 8 = none ∧
    (∀ l6, enterPte 0 1 l6 = .fault false false) ∧ (∀ l6, enterPte 0x6080000000001001 1 l6 = .fault true true) ∧
    ∀ l6, enterPte 0x6000000000001201 1 l6 = .fault true false := by decide

/-- A cached page of 4K of domain 7 and a cached fault. -/
def cachedPage : TlbEntry := ⟨7, 0x0108, 0x1000, 12, .page 0x89ABC000 12 true false false false, true, true⟩
def cachedFault : TlbEntry := ⟨7, 0x0108, 0x1000, 12, .fault true false true true, true, true⟩

theorem witness_WalkEndsOtherwise_cached : (Walk.start (dteOf 0x603 7 0 0) 0x1000).fresh = true ∧ (walkStarted 0x603).tablesDisagree 7 = false ∧
    { walkStarted 0x603 with tlb := [cachedPage, cachedFault] }.usesTlb (some 0) 7 0x1000 cachedPage ∧
    { walkStarted 0x603 with tlb := [cachedPage, cachedFault] }.usesTlb (some 1) 7 0x1000 cachedFault ∧ (0x89ABC000#64).toNat % 2 ^ 12 = 0 ∧
    (0x89ABC000#64).toNat + 2 ^ 12 ≤ 2 ^ (walkStarted 0x603).paSize ∧ TxKind.permitted true false .writePosted = false := by decide
theorem witness_TransactionsGoOnAndWriteNothing : ∃ t, lastLevel.act (.advance 0 defaultChoice) = .next t ∧ t.outputs.length = 2 ∧
    t.inFlight = [] := ⟨_, rfl, by decide⟩
theorem witness_TransactionsGoOnAndWriteNothing_stop : (walkStarted 0xA03).tablesDisagree (dteOf 0x603 7 0 0).domain = true ∧
    (Walk.start (dteOf 0x603 7 0 0) 0x1000).fresh = true ∧ (walkStarted 0xA03).inFlight.length = 1 := by decide

/-- A write of four bytes that has been forwarded. -/
def forwardedWrite : Forwarded := ⟨0, txOf .writePosted 0x3000, { txOf .writePosted 0x3000 with data := [1, 2, 3, 4] }, none, false⟩

theorem witness_ForwardedWriteLands : { running with upWrites := [forwardedWrite] }.upWrites[0]? = some forwardedWrite ∧
    forwardedWrite.sent.kind = .writePosted ∧ running.memoryCanonical ∧ rangeOf forwardedWrite.sent.addr = .ordinary ∧
    forwardedWrite.sent.data.take forwardedWrite.sent.len = [1, 2, 3, 4] ∧ running.isMemory forwardedWrite.sent.addr.toNat 4 = true := by
  decide
/-- A read, and an atomic operation of four bytes, that have been forwarded. -/
def forwardedRead : Forwarded := ⟨0, txOf .read 0x3000, txOf .read 0x3000, none, false⟩
def forwardedAtomic : Forwarded := ⟨1, txOf .atomic 0x3000, txOf .atomic 0x3000, none, false⟩

theorem test_answers_go_back_unaltered : okAnd ({ running with upReads := [forwardedRead, forwardedAtomic] }.act
      (.hostAnswers 0 ⟨.ok, [7, 8], []⟩))
    (fun t => decide (t.outputs = [.completed forwardedRead.orig ⟨.ok, [7, 8], []⟩] ∧ t.upReads = [forwardedAtomic] ∧ t.mem = [])) ∧
    okAnd ({ running with upReads := [forwardedRead, forwardedAtomic] }.act (.hostAnswers 1 ⟨.ok, [7], [1, 2, 3, 4]⟩))
    (fun t => decide (t.upReads = [forwardedRead] ∧ t.mem.readBytes 0x3000 4 = [1, 2, 3, 4])) := by decide
theorem witness_ForwardedWriteLands_answers : { running with upReads := [forwardedRead, forwardedAtomic] }.upReads[1]? = some forwardedAtomic ∧
    forwardedRead.obscure = false ∧ forwardedRead.sent.kind = .read ∧ forwardedAtomic.sent.kind = .atomic ∧
    rangeOf forwardedAtomic.sent.addr = .ordinary ∧ ([1, 2, 3, 4] : List Byte).take forwardedAtomic.sent.len = [1, 2, 3, 4] ∧
    running.isMemory forwardedAtomic.sent.addr.toNat 4 = true ∧ running.memoryCanonical := by decide
theorem witness_CachesGrowOnlyByTransactions : ∃ t, { running with tlb := [⟨7, 1, 0, 12, .page 0 12 true true false false, true, true⟩] }.act
    (.dropTlb 0) = .next t ∧ t.tlb = [] := ⟨_, rfl, rfl⟩

theorem witness_IommuWritesOnlyLogAndSemaphore_store : ∃ t,
    step (withCommand (words 0x23456789 0x10000001 0x89ABCDEF 0x01234567)) = .next t ∧
      t.mem.read 0x123456788 ≠ (withCommand (words 0x23456789 0x10000001 0x89ABCDEF 0x01234567)).mem.read 0x123456788 :=
  ⟨_, rfl, by decide⟩
theorem witness_IommuWritesOnlyLogAndSemaphore_log : ∃ t, step withEvent = .next t ∧
    t.mem.read 0xA00007 ≠ withEvent.mem.read 0xA00007 := ⟨_, rfl, by decide⟩
theorem witness_IommuWritesOnlyLogAndSemaphore_own : ∃ t, step { withEvent with agenda := [.report 0] } = .next t ∧
    (Action.report 0).own = true ∧ t.mem.read 0xA00007 ≠ withEvent.mem.read 0xA00007 := ⟨_, rfl, by decide⟩
theorem witness_QuiescentStaysQuiescent : { running with cmdTail := 0 }.agenda = [] ∧ { running with cmdTail := 0 }.ended ∧
    { running with cmdTail := 0 }.upWrites = [] ∧ { running with cmdTail := 0 }.intDue = 0 ∧ running.canFetch = true := by decide
theorem witness_QuiescentStaysQuiescent_stuck : { running with halted := true }.stuck ∧
    (∀ a data cached, { running with halted := true }.agenda.head? ≠ some (.cpuWrite a data cached)) ∧
    { running with halted := true }.agenda.head? ≠ some .reset ∧ ∃ t, step { running with halted := true } = .next t :=
  ⟨by decide, fun _ _ _ => by simp [running, State.reset], by decide, _, rfl⟩
theorem witness_StepKeepsMemoryCanonical : withEvent.memoryCanonical ∧ ∃ t, step withEvent = .next t ∧ t.mem ≠ withEvent.mem :=
  ⟨by decide, _, rfl, by decide⟩
theorem witness_StepKeepsRegistersFormed : running.reservedClear ∧ running.ringsFormed ∧ ∃ t, step (withCommand 0x50000000000000A0) = .next t ∧
    t.cmdHead ≠ running.cmdHead := ⟨running_reservedClear, by decide, _, rfl, by decide⟩
theorem witness_StepKeepsRunBitsShown : running.runBitsShown ∧ ∃ t, step running = .next t ∧ t.fetching = false :=
  ⟨by decide, _, rfl, by decide⟩

/-- A cache with one translation that is present. -/
def oneCached : State := { lastLevel with cmdTail := 0, tlb := [⟨7, 1, 0, 12, .page 0 12 true true false false, true, true⟩] }

theorem witness_StepKeepsOnlyPresentCached_faults : (underSe [⟨1, false, 1, false⟩] []).faultsWithCache ∧
    okAnd (step { underSe [⟨1, false, 1, false⟩] [] with cmdTail := 0 }) (fun t => decide (t.faultLogged = [1])) :=
  ⟨fun _ h => absurd h (List.not_mem_nil), by decide⟩
theorem witness_StepKeepsOnlyPresentCached : oneCached.npCache = false ∧ oneCached.onlyPresentCached ∧
    ∃ t, { oneCached with agenda := [.advance 0 { defaultChoice with keepTlb := [0x40203ABC] }] }.cycle = .next t ∧ t.tlb.length = 2 :=
  ⟨by decide, by decide, _, rfl, by decide⟩

end Sys2Proof.Tests
end

section
/-! PROOFS. Traffic that passes the IOMMU unaltered (spec/20_memory.md R114). -/

namespace Sys2Proof.Machine

/-- The bytes from upstream are sent on as they came (R114). -/
theorem State.act_fromUpstream (s : State) (data : List Byte) :
    s.act (.fromUpstream data) = .next (s.emit (.passedDown data)) := rfl

/-- A response, a fence or a flush is sent on before any enable bit, address range or length is looked at, so no
hypothesis on the state or on the rest of the transaction is needed (R114, R173 (c)). -/
theorem State.arrive_of_isLinkCommand (s : State) {tx : Transaction} (h : tx.kind.isLinkCommand = true) :
    s.arrive tx = .next (s.emit (.forwarded tx)) := if_pos h

/-- Settles O35: each direction is one sending, and sending adds to the outputs alone. -/
theorem linkTrafficPassesUnaltered : Obligations.LinkTrafficPassesUnaltered := by
  refine ⟨fun s data => ?_, fun s tx hlink => ?_⟩
  · exact s.act_fromUpstream data
  · exact s.arrive_of_isLinkCommand hlink

end Sys2Proof.Machine
end

section
/-! PROOFS. Interrupt messages of a device whose entry has `IV` = 0 (spec/43_interrupt_remapping.md R302). -/

namespace Sys2Proof.Machine

/-- A transaction that ends by going upstream, in whatever form it is sent (R176). -/
theorem State.forwards_retire_sendUp (s : State) (t : InFlight) (sent : Transaction) (used : Option PageUse)
    (obscure : Bool) (ho : obscure = true → t.tx.kind = .zeroByteRead ∧ used ≠ none) :
    s.forwards ((s.retire t).sendUp ⟨t.id, t.tx, sent, used, obscure⟩) t sent used :=
  ⟨State.sendUp_inFlight _ _, State.sendUp_outputs _ _, State.sendUp_pendingEvents _ _,
    State.sendUp_underWay (v := s.retire t) ⟨t.id, t.tx, sent, used, obscure⟩ rfl rfl ho⟩

theorem State.forwards_passOn (s : State) (t : InFlight) : s.forwards (s.passOn t) t t.tx none :=
  s.forwards_retire_sendUp t t.tx none false nofun

theorem State.forwards_judged_of_judge_eq_pass {s : State} {t : InFlight} {d : Dte} (h : s.judge t.tx d = .pass) :
    s.forwards (s.judged t d) t t.tx none := by
  have hpass : s.judged t d = s.passOn t := by simp only [State.judged, h, State.carryOut]
  rw [hpass]
  exact s.forwards_passOn t

/-- A posted write to the Interrupt/EOI range is an interrupt message: neither `V`, nor the `PreTranslated` mark, nor the
exclusion range has a say in it (R175, R182, R183). -/
theorem State.judge_interruptMessage (s : State) {tx : Transaction} (d : Dte) (hkind : tx.kind = .writePosted)
    (hrange : rangeOf tx.addr = .interruptEoi) : s.judge tx d = s.judgeInterrupt tx d := by
  have hposted : tx.kind.posted = true := by rw [hkind]; rfl
  have hreq : tx.isTransReq = false := by simp [Transaction.isTransReq, hkind]
  simp [State.judge, State.judgeInterruptRange, hrange, hreq, hposted]

/-- `IV` is looked at before the entry is checked and before the message is decoded, so no other field of the entry
matters (R302). -/
theorem State.judgeInterrupt_of_iv_eq_false (s : State) (tx : Transaction) {d : Dte} (hiv : d.iv = false) :
    s.judgeInterrupt tx d = .pass := by
  simp [State.judgeInterrupt, hiv]

/-- Settles O37: the message is judged by `IV` alone, and a transaction that passes is sent as it came. -/
theorem unmappedInterruptPasses : Obligations.UnmappedInterruptPasses := by
  intro s t d hkind hrange hiv
  have hpass : s.judge t.tx d = .pass := by
    rw [s.judge_interruptMessage d hkind hrange, s.judgeInterrupt_of_iv_eq_false t.tx hiv]
  exact State.forwards_judged_of_judge_eq_pass hpass

end Sys2Proof.Machine
end

section
/-! PROOFS. The head pointer moves by one entry for each command fetched and found legal, and never when a fetched
command goes on (spec/44_commands.md R335). -/

namespace Sys2Proof.Machine

/-- What a command does when it takes effect is no move of the head pointer: that belongs to its fetch (R335). -/
theorem Effect.cmdHead {i : Instr} {s t : State} (h : Effect i s t) : t.cmdHead = s.cmdHead := by
  rcases h with ⟨store, int, -, a, d, -, rfl, -⟩ | ⟨dev, -, rfl⟩ | ⟨m, -, pde, -, -, rfl⟩ |
    ⟨dev, -, q, -, -, addr, r, -, rfl⟩ | ⟨dev, -, rfl⟩
  · rw [State.waitFlag_cmdHead, State.waitStore_cmdHead]
  · exact s.forgetDte_cmdHead dev
  · exact s.forgetPages_cmdHead m pde _
  · exact s.sendIotlb_cmdHead dev q addr r
  · exact s.forgetIrt_cmdHead dev

theorem State.runCommand_cmdHead {s t : State} {k : Nat} (h : s.runCommand k = .next t) : t.cmdHead = s.cmdHead := by
  rcases State.runCommand_cases h with rfl | rfl | ⟨c, u, -, heffect, rfl | ⟨p, rfl⟩⟩
  · rfl
  · exact s.completeAt_cmdHead k
  · exact (u.completeAt_cmdHead k).trans heffect.cmdHead
  · exact (u.setPhase_cmdHead k c p).trans heffect.cmdHead

/-- A command to which the specification gives an effect moves the head pointer once, whether it is held back, completes
at once or stays among the fetched ones. -/
theorem exec_cmdHead {i : Instr} {s t : State} (hoffers : s.offers i) (h : exec i s = .next t) :
    t.cmdHead = s.nextHead := by
  rcases exec_cases h with ⟨⟨dev, x, q, size, address, rfl⟩, hunsupported, -⟩ | rfl | ⟨u, heffect, hplace⟩
  · have hsupported : s.iotlbSup = true := hoffers.1
    rw [hunsupported] at hsupported
    cases hsupported
  · rfl
  · have hu : u.cmdHead = s.nextHead := heffect.cmdHead
    rcases hplace with rfl | ⟨p, rfl⟩
    · exact hu
    · exact hu

/-- A command that `IotlbSup` = 0 does not make illegal (R152 (b)) is held, with the head pointer past it. -/
theorem holdCommand_eq_held {i : Instr} {s : State}
    (hlegal : ∀ dev x q size address, i = .invalidateIotlbPages dev x q size address → s.iotlbSup = true) :
    holdCommand i s = .next (s.held i) := by
  cases i with
  | invalidateIotlbPages dev x q size address => exact if_pos (hlegal dev x q size address rfl)
  | _ => rfl

theorem State.fetchThen_instr {s u : State} {w : Entry} {i : Instr} (hfetch : s.fetchEntry = .ok (u, w))
    (hdecode : decodeEntry w = .instr i) (run : Instr → State → Result) : s.fetchThen run = run i u := by
  simp only [State.fetchThen, hfetch, hdecode]

/-- The fetch of an entry, by a read or from a copy, changes neither the ring pointer nor the ring nor `IotlbSup`. -/
theorem State.fetchEntry_keeps {s u : State} {w : Entry} (hfetch : s.fetchEntry = .ok (u, w)) :
    u.nextHead = s.nextHead ∧ u.iotlbSup = s.iotlbSup := by
  rcases State.fetchEntry_cases hfetch with rfl | rfl
  · exact ⟨rfl, rfl⟩
  · exact ⟨rfl, rfl⟩

theorem State.act_fetch_cmdHead {s u : State} {w : Entry} {i : Instr} (hcan : s.canFetch = true)
    (hlegal : ∀ dev x q size address, i = .invalidateIotlbPages dev x q size address → s.iotlbSup = true)
    (hfetch : s.fetchEntry = .ok (u, w)) (hdecode : decodeEntry w = .instr i) :
    ∃ t, s.act .fetch = .next t ∧ t.cmdHead = s.nextHead := by
  obtain ⟨hnext, hsup⟩ := State.fetchEntry_keeps hfetch
  have hheld : s.act .fetch = .next (u.held i) :=
    calc s.act .fetch = s.fetchThen holdCommand := if_pos hcan
      _ = holdCommand i u := State.fetchThen_instr hfetch hdecode holdCommand
      _ = .next (u.held i) := holdCommand_eq_held (by rwa [hsup])
  exact ⟨u.held i, hheld, hnext⟩

/-- The next head pointer is that of the next entry, modulo the ring, with no reserved bit set (R335, R40). -/
theorem State.headIndex_of_cmdHead_eq_nextHead {s t : State} (h : t.cmdHead = s.nextHead) :
    t.headIndex = (s.headIndex + 1) % s.cmdEntries ∧ t.cmdHead &&& MmioReg.cmdHead.reserved = 0 := by
  rw [State.headIndex, h]
  exact ⟨pointerIndex_mod s.cmdBase (s.headIndex + 1), pointerOf_reserved _⟩

/-- Settles O8: a fetch puts the head pointer at the next entry, both where it begins the command and where it only
holds it, and what a fetched command does later is an effect or a change of its place, neither of which moves it. -/
theorem headAdvancesOncePerCommand : Obligations.HeadAdvancesOncePerCommand := by
  refine ⟨fun i s t hoffers hexec => ?begun, fun s i hcan hlegal hentry => ?fetched, fun s t k hrun => ?later⟩
  case begun => exact State.headIndex_of_cmdHead_eq_nextHead (exec_cmdHead hoffers hexec)
  case fetched =>
    have hfetch : ∃ u w, s.fetchEntry = .ok (u, w) ∧ decodeEntry w = .instr i := by
      rcases hentry with ⟨hnone, hread, hdecode⟩ | ⟨w, hcopy, hdecode⟩
      · exact ⟨_, _, State.fetchEntry_memory hnone hread, s.decode_entryBytes ▸ hdecode⟩
      · exact ⟨_, w, State.fetchEntry_copy hcopy, hdecode⟩
    obtain ⟨u, w, hfetch, hdecode⟩ := hfetch
    obtain ⟨t, hact, hhead⟩ := State.act_fetch_cmdHead hcan hlegal hfetch hdecode
    exact ⟨t, hact, State.headIndex_of_cmdHead_eq_nextHead hhead⟩
  case later => exact State.runCommand_cmdHead hrun

end Sys2Proof.Machine
end

section
/-! PROOFS. Page and interrupt table invalidations wait for every older INVALIDATE_DEVTAB_ENTRY
(spec/44_commands.md R360). -/

namespace Sys2Proof.Machine

theorem startInvalidateIommuPages_eq_wait {older : List Command} (hpending : devtabPending older = true) (m : DomainId)
    (size pde : Bool) (address : Addr) (s : State) :
    startInvalidateIommuPages older m size pde address s = .wait :=
  if_pos (by rw [hpending, Bool.or_true])

theorem startInvalidateInterruptTable_eq_wait {older : List Command} (hpending : devtabPending older = true)
    (dev : DeviceId) (s : State) : startInvalidateInterruptTable older dev s = .wait :=
  if_pos (by rw [hpending, Bool.or_true])

/-- Neither command begins behind an INVALIDATE_DEVTAB_ENTRY without effect so far (R360). -/
theorem Command.start_eq_wait_of_devtabPending {c : Command} {older : List Command}
    (hinstr : (∃ m size pde address, c.instr = .invalidateIommuPages m size pde address) ∨
      ∃ dev, c.instr = .invalidateInterruptTable dev)
    (hpending : devtabPending older = true) (s : State) : c.start older s = .wait := by
  rcases hinstr with ⟨m, size, pde, address, hi⟩ | ⟨dev, hi⟩
  · simp only [Command.start, hi, startInvalidateIommuPages_eq_wait hpending]
  · simp only [Command.start, hi, startInvalidateInterruptTable_eq_wait hpending]

/-- A command that does not begin at its fetch is held: fetched, and nothing of it done (R336). -/
theorem exec_of_start_eq_wait {i : Instr} {s : State}
    (hlegal : (∀ dev x q size address, i ≠ .invalidateIotlbPages dev x q size address) ∨ s.iotlbSup = true)
    (hwait : (Command.mk i s.headAddr .waiting).start s.fetched s.advanceHead = .wait) : exec i s = .next (s.held i) := by
  rw [exec_start i s hlegal, hwait]
  rfl

/-- A fetched command that does not begin changes nothing (R336). -/
theorem State.act_run_of_start_eq_wait {s : State} {k : Nat} {c : Command} (hc : s.fetched[k]? = some c)
    (hphase : c.phase = .waiting) (hwait : c.start (s.fetched.take k) s = .wait) : s.act (.run k) = .next s := by
  have hrun : s.act (.run k) = (c.start (s.fetched.take k) s).settle k c s := by
    simp only [State.act, State.runCommand, hc, hphase]
  rw [hrun, hwait, Started.settle]

/-- Settles O16: neither command begins while the older one is pending; at its fetch it is then held, and later it stays
as it is. -/
theorem devtabInvalidationComesFirst : Obligations.DevtabInvalidationComesFirst := by
  refine ⟨fun s m size pde address hpending => ?pages, fun s dev hpending => ?interrupts,
    fun s k c hc hphase hinstr hpending => ?later⟩
  case pages =>
    exact exec_of_start_eq_wait (.inl nofun)
      (Command.start_eq_wait_of_devtabPending (.inl ⟨m, size, pde, address, rfl⟩) hpending s.advanceHead)
  case interrupts =>
    exact exec_of_start_eq_wait (.inl nofun)
      (Command.start_eq_wait_of_devtabPending (.inr ⟨dev, rfl⟩) hpending s.advanceHead)
  case later =>
    exact State.act_run_of_start_eq_wait hc hphase (Command.start_eq_wait_of_devtabPending hinstr hpending s)

end Sys2Proof.Machine
end

section
/-! PROOFS. INVALIDATE_IOTLB_PAGES where `IotlbSup` = 0 (spec/44_commands.md R356). -/

namespace Sys2Proof.Machine

/-- Where the head pointer freezes: at the entry in error or after it (D16). -/
theorem State.halt_cmdHead_cases (s : State) : s.halt.cmdHead = s.cmdHead ∨ s.halt.cmdHead = s.nextHead := by
  rw [State.halt_cmdHead]
  split
  · exact .inr rfl
  · exact .inl rfl

/-- Once command processing has halted, nothing more is fetched (R333, R338). -/
theorem State.fetching_of_halted {s : State} (h : s.halted = true) : s.fetching = false := by
  rw [State.fetching, h, Bool.not_true, Bool.and_false]

theorem exec_invalidateIotlbPages_unsupported {s : State} (hunsupported : s.iotlbSup = false) (dev : DeviceId)
    (maxpend : BitVec 8) (queue : BitVec 16) (size : Bool) (address : Addr) :
    exec (.invalidateIotlbPages dev maxpend queue size address) s = .next s.illegalCommand :=
  if_pos (by rw [hunsupported, Bool.not_false])

/-- Settles O18: the command is answered as an illegal one, by an event and the halt, before any operand is looked at. -/
theorem unsupportedIotlbIsIllegal : Obligations.UnsupportedIotlbIsIllegal := by
  intro s dev maxpend queue size address hunsupported
  have hexec := exec_invalidateIotlbPages_unsupported hunsupported dev maxpend queue size address
  have hhead := (s.raise (.illegalCommandError s.headAddr)).halt_cmdHead_cases
  exact ⟨s.illegalCommand, hexec, rfl, State.fetching_of_halted rfl, rfl, hhead, rfl⟩

end Sys2Proof.Machine
end


section
/-! PROOFS. The binary form of the commands: fields read back from where they are placed, and a word is the sum of its
fields (spec/30_encoding.md R140 to R155). -/

namespace Sys2Proof

/-! ### Fields of a 128-bit word -/

/-- A field reads back from its own place. -/
theorem extract_placed {n : Nat} (v : BitVec n) (lo : Nat) (h : lo + n ≤ 128) : (placed v lo).extractLsb' lo n = v := by
  apply BitVec.eq_of_getLsbD_eq
  intro i hi
  rw [BitVec.getLsbD_extractLsb', getLsbD_placed _ _ _ (by omega)]
  simp [hi]

/-- Nothing of a field stands outside its place. -/
theorem extract_placed_apart {n : Nat} (v : BitVec n) (lo lo' n' : Nat) (h : lo' + n' ≤ lo ∨ lo + n ≤ lo') :
    (placed v lo).extractLsb' lo' n' = 0#n' := by
  apply BitVec.eq_of_getLsbD_eq
  intro i hi
  rw [BitVec.getLsbD_extractLsb', BitVec.getLsbD_zero]
  by_cases hb : lo' + i < 128
  · rw [getLsbD_placed _ _ _ hb]
    rcases h with h | h
    · have : ¬lo ≤ lo' + i := by omega
      simp [this]
    · rw [BitVec.getLsbD_of_ge v _ (by omega), Bool.and_false, Bool.and_false]
  · rw [BitVec.getLsbD_of_ge _ _ (by omega), Bool.and_false]

/-- One bit of a word as a field. -/
theorem extract_one {w : Nat} (v : BitVec w) (i : Nat) : v.extractLsb' i 1 = BitVec.ofBool (v.getLsbD i) := by
  apply BitVec.eq_of_getLsbD_eq
  intro j hj
  obtain rfl : j = 0 := by omega
  simp

/-- Two words agree on consecutive fields of these sizes, from bit `lo` up. -/
def agreeOn (a b : Entry) (lo : Nat) : List Nat → Prop
  | [] => True
  | n :: ns => a.extractLsb' lo n = b.extractLsb' lo n ∧ agreeOn a b (lo + n) ns

theorem agreeOn.getLsbD {a b : Entry} {ns : List Nat} {lo : Nat} (h : agreeOn a b lo ns) {i : Nat} (hlo : lo ≤ i)
    (hi : i < lo + ns.sum) : a.getLsbD i = b.getLsbD i := by
  induction ns generalizing lo with
  | nil => simp at hi; omega
  | cons n ns ih =>
    obtain ⟨hfirst, hrest⟩ := h
    rw [List.sum_cons] at hi
    by_cases hn : i < lo + n
    · have hbit := congrArg (fun v => BitVec.getLsbD v (i - lo)) hfirst
      simpa [show i - lo < n by omega, show lo + (i - lo) = i by omega] using hbit
    · exact ih hrest (by omega) (by omega)

/-- Words that agree on fields that make up all 128 bits are equal. -/
theorem eq_of_agreeOn {a b : Entry} (ns : List Nat) (h : agreeOn a b 0 ns) (hns : ns.sum = 128) : a = b :=
  BitVec.eq_of_getLsbD_eq fun i hi => h.getLsbD (Nat.zero_le i) (by omega)

/-- No bit of a place is set exactly where the field there is zero. -/
theorem and_placed_eq_zero_iff (w : Entry) (n lo : Nat) (h : lo + n ≤ 128) :
    w &&& placed (BitVec.allOnes n) lo = 0 ↔ w.extractLsb' lo n = 0#n := by
  constructor
  · intro hw
    apply BitVec.eq_of_getLsbD_eq
    intro i hi
    have hbit := congrArg (fun v => BitVec.getLsbD v (lo + i)) hw
    simpa [getLsbD_placed _ _ _ (show lo + i < 128 by omega), hi] using hbit
  · intro hw
    apply BitVec.eq_of_getLsbD_eq
    intro i hi
    rw [BitVec.getLsbD_and, getLsbD_placed _ _ _ hi]
    by_cases hin : lo ≤ i ∧ i - lo < n
    · have hbit := congrArg (fun v => BitVec.getLsbD v (i - lo)) hw
      have : w.getLsbD i = false := by simpa [hin.2, show lo + (i - lo) = i by omega] using hbit
      simp [this]
    · have hout : (decide (lo ≤ i) && (BitVec.allOnes n).getLsbD (i - lo)) = false := by simp; omega
      rw [hout, Bool.and_false]; exact BitVec.getLsbD_zero.symm

/-- A place made of two is clear exactly where both are. -/
theorem and_or_eq_zero_iff {w : Nat} (v a b : BitVec w) : v &&& (a ||| b) = 0 ↔ v &&& a = 0 ∧ v &&& b = 0 := by
  rw [BitVec.and_or_distrib_left]
  exact BitVec.or_eq_zero_iff

/-! ### Reserved bits (R151) -/

/-- The reserved bits of COMPLETION_WAIT are one field. -/
theorem reserved_completionWait (w : Entry) : w &&& reservedMask 1 = 0 ↔ w.extractLsb' 52 8 = 0#8 := by
  rw [show reservedMask 1 = placed (BitVec.allOnes 8) 52 by decide, and_placed_eq_zero_iff _ _ _ (by decide)]

/-- The reserved bits of the two commands with a DeviceID alone are all between it and the opcode, and the upper half. -/
theorem reserved_device (w : Entry) {op : BitVec 4} (h : op = 2 ∨ op = 5) :
    w &&& reservedMask op = 0 ↔ w.extractLsb' 16 44 = 0#44 ∧ w.extractLsb' 64 64 = 0#64 := by
  have hmask : reservedMask op = placed (BitVec.allOnes 44) 16 ||| placed (BitVec.allOnes 64) 64 := by
    rcases h with rfl | rfl <;> decide
  rw [hmask, and_or_eq_zero_iff, and_placed_eq_zero_iff _ _ _ (by decide), and_placed_eq_zero_iff _ _ _ (by decide)]

/-- The reserved bits of INVALIDATE_IOMMU_PAGES are three fields. -/
theorem reserved_invalidateIommuPages (w : Entry) : w &&& reservedMask 3 = 0 ↔
    (w.extractLsb' 0 32 = 0#32 ∧ w.extractLsb' 48 12 = 0#12) ∧ w.extractLsb' 66 10 = 0#10 := by
  rw [show reservedMask 3 =
      placed (BitVec.allOnes 32) 0 ||| placed (BitVec.allOnes 12) 48 ||| placed (BitVec.allOnes 10) 66 by decide,
    and_or_eq_zero_iff, and_or_eq_zero_iff, and_placed_eq_zero_iff _ _ _ (by decide),
    and_placed_eq_zero_iff _ _ _ (by decide), and_placed_eq_zero_iff _ _ _ (by decide)]

/-- The reserved bits of INVALIDATE_IOTLB_PAGES are three fields. -/
theorem reserved_invalidateIotlbPages (w : Entry) : w &&& reservedMask 4 = 0 ↔
    (w.extractLsb' 16 8 = 0#8 ∧ w.extractLsb' 48 12 = 0#12) ∧ w.extractLsb' 65 11 = 0#11 := by
  rw [show reservedMask 4 =
      placed (BitVec.allOnes 8) 16 ||| placed (BitVec.allOnes 12) 48 ||| placed (BitVec.allOnes 11) 65 by decide,
    and_or_eq_zero_iff, and_or_eq_zero_iff, and_placed_eq_zero_iff _ _ _ (by decide),
    and_placed_eq_zero_iff _ _ _ (by decide), and_placed_eq_zero_iff _ _ _ (by decide)]

/-! ### Address operands -/

/-- A store address is made again from the bits that the command carries of it (R145). -/
theorem storeAddress_of_carried {a : Addr} (h : wfStoreAddress a = true) :
    (a.extractLsb' 3 49).setWidth 64 <<< 3 = a := by
  simp only [wfStoreAddress, Bool.and_eq_true, beq_iff_eq] at h
  obtain ⟨hlow, hhigh⟩ := h
  have hlow := congrArg BitVec.toNat hlow
  have hhigh := congrArg BitVec.toNat hhigh
  have ha := a.isLt
  apply BitVec.eq_of_toNat_eq
  simp only [BitVec.extractLsb'_toNat, Nat.shiftRight_eq_div_pow, BitVec.toNat_shiftLeft, BitVec.toNat_setWidth,
    Nat.shiftLeft_eq, BitVec.ofNat_eq_ofNat, BitVec.toNat_ofNat] at *
  omega

/-- An Address operand is made again from the bits that the command carries of it (R147). -/
theorem pageAddress_of_carried {a : Addr} (h : wfPageAddress a = true) : (a.extractLsb' 12 52).setWidth 64 <<< 12 = a := by
  simp only [wfPageAddress, beq_iff_eq] at h
  have h := congrArg BitVec.toNat h
  have ha := a.isLt
  apply BitVec.eq_of_toNat_eq
  simp only [BitVec.extractLsb'_toNat, Nat.shiftRight_eq_div_pow, BitVec.toNat_shiftLeft, BitVec.toNat_setWidth,
    Nat.shiftLeft_eq, BitVec.ofNat_eq_ofNat, BitVec.toNat_ofNat] at *
  omega

theorem storeAddressOf_wf (w : Entry) :
    wfStoreAddress (storeAddressOf w) = true ∧ (storeAddressOf w).extractLsb' 3 49 = w.extractLsb' 3 49 := by
  have h := (w.extractLsb' 3 49).isLt
  generalize hv : w.extractLsb' 3 49 = v at h
  simp only [wfStoreAddress, storeAddressOf, hv, Bool.and_eq_true, beq_iff_eq, ← BitVec.toNat_inj, BitVec.extractLsb'_toNat,
    Nat.shiftRight_eq_div_pow, BitVec.toNat_shiftLeft, BitVec.toNat_setWidth, Nat.shiftLeft_eq, BitVec.ofNat_eq_ofNat, BitVec.toNat_ofNat]
  omega

theorem pageAddressOf_wf (w : Entry) :
    wfPageAddress (pageAddressOf w) = true ∧ (pageAddressOf w).extractLsb' 12 52 = w.extractLsb' 76 52 := by
  have h := (w.extractLsb' 76 52).isLt
  generalize hv : w.extractLsb' 76 52 = v at h
  simp only [wfPageAddress, pageAddressOf, hv, beq_iff_eq, ← BitVec.toNat_inj, BitVec.extractLsb'_toNat,
    Nat.shiftRight_eq_div_pow, BitVec.toNat_shiftLeft, BitVec.toNat_setWidth, Nat.shiftLeft_eq, BitVec.ofNat_eq_ofNat, BitVec.toNat_ofNat]
  omega

/-! ### Decoding what was encoded -/

/-- A word decodes to the command of its opcode, with its fields, where no reserved bit is set (R155). -/
theorem decodeEntry_eq_instr_iff (w : Entry) (i : Instr) : decodeEntry w = .instr i ↔
    fieldsOf (opcodeOf w) w = some i ∧ w &&& reservedMask (opcodeOf w) = 0 := by
  unfold decodeEntry
  cases hf : fieldsOf (opcodeOf w) w with
  | none => simp
  | some j =>
    dsimp only
    split
    · rename_i hm; simpa using fun _ => hm
    · rename_i hm; simpa using fun _ => hm

/-- Every command's encoding is 16 bytes long and carries its own opcode. -/
theorem encoded (i : Instr) : Laws.Encoded.Statement i := by
  cases i with
  | completionWait store int fence a d => exact Laws.Encoded.completionWait store int fence a d
  | invalidateDevtabEntry dev => exact Laws.Encoded.invalidateDevtabEntry dev
  | invalidateIommuPages m size pde a => exact Laws.Encoded.invalidateIommuPages m size pde a
  | invalidateIotlbPages dev x q size a => exact Laws.Encoded.invalidateIotlbPages dev x q size a
  | invalidateInterruptTable dev => exact Laws.Encoded.invalidateInterruptTable dev

/-- The fields of a command's encoding are its operands (R143 to R150). -/
theorem fieldsOf_encodeEntry {i : Instr} (h : i.wellFormed = true) :
    fieldsOf (Laws.opcodeFor i) (encodeEntry i) = some i := by
  cases i with
  | completionWait store int fence a d =>
    simp [fieldsOf, Laws.opcodeFor, encodeEntry, storeAddressOf, Laws.getElem_placed,
      BitVec.extractLsb'_or, extract_placed, extract_placed_apart, placedBit, storeAddress_of_carried h]
  | invalidateDevtabEntry dev =>
    simp [fieldsOf, Laws.opcodeFor, encodeEntry, BitVec.extractLsb'_or, extract_placed, extract_placed_apart]
  | invalidateIommuPages m size pde a =>
    simp [fieldsOf, Laws.opcodeFor, encodeEntry, pageAddressOf, Laws.getElem_placed,
      BitVec.extractLsb'_or, extract_placed, extract_placed_apart, placedBit, pageAddress_of_carried h]
  | invalidateIotlbPages dev x q size a =>
    simp [fieldsOf, Laws.opcodeFor, encodeEntry, pageAddressOf, Laws.getElem_placed,
      BitVec.extractLsb'_or, extract_placed, extract_placed_apart, placedBit, pageAddress_of_carried h]
  | invalidateInterruptTable dev =>
    simp [fieldsOf, Laws.opcodeFor, encodeEntry, BitVec.extractLsb'_or, extract_placed, extract_placed_apart]

/-- No reserved bit of a command's encoding is set (R151). -/
theorem encodeEntry_unreserved (i : Instr) : encodeEntry i &&& reservedMask (Laws.opcodeFor i) = 0 := by
  cases i with
  | completionWait store int fence a d =>
    rw [Laws.opcodeFor, reserved_completionWait]
    simp [encodeEntry, BitVec.extractLsb'_or, extract_placed_apart, placedBit]
  | invalidateDevtabEntry dev =>
    rw [Laws.opcodeFor, reserved_device _ (.inl rfl)]
    simp [encodeEntry, BitVec.extractLsb'_or, extract_placed_apart]
  | invalidateIommuPages m size pde a =>
    rw [Laws.opcodeFor, reserved_invalidateIommuPages]
    simp [encodeEntry, BitVec.extractLsb'_or, extract_placed_apart, placedBit]
  | invalidateIotlbPages dev x q size a =>
    rw [Laws.opcodeFor, reserved_invalidateIotlbPages]
    simp [encodeEntry, BitVec.extractLsb'_or, extract_placed_apart, placedBit]
  | invalidateInterruptTable dev =>
    rw [Laws.opcodeFor, reserved_device _ (.inr rfl)]
    simp [encodeEntry, BitVec.extractLsb'_or, extract_placed_apart]

theorem decodeEntry_encodeEntry {i : Instr} (h : i.wellFormed = true) : decodeEntry (encodeEntry i) = .instr i := by
  rw [decodeEntry_eq_instr_iff, (encoded i).2]
  exact ⟨fieldsOf_encodeEntry h, encodeEntry_unreserved i⟩

/-- Sixteen bytes decode as the word they spell. -/
theorem decode_eq_decodeEntry {bytes : List Byte} (h : bytes.length = 16) :
    decode bytes = decodeEntry (BitVec.ofNat 128 (leNat bytes)) := by
  rw [decode, if_neg (by omega), List.take_of_length_le (by omega)]

/-- The bytes of a word spell it. -/
theorem ofNat_leNat_leBytes (w : Entry) : BitVec.ofNat 128 (leNat (leBytes 16 w.toNat)) = w :=
  Machine.wordOf_leBytes 16 w

/-- Settles O1: the fields of the encoding are the operands, none of its reserved bits is set, and its bytes spell it. -/
theorem decodeOfEncode : Obligations.DecodeOfEncode := by
  intro i hwf
  have hlength : (encode i).length = 16 := (encoded i).1
  have hentry := decodeEntry_encodeEntry hwf
  refine ⟨?_, hentry, hlength⟩
  rw [decode_eq_decodeEntry hlength, encode, ofNat_leNat_leBytes, hentry]

/-! ### Encoding what was decoded -/

/-- The opcode of a word that has a command, by the command. -/
theorem opcodeFor_of_fieldsOf {op : BitVec 4} {w : Entry} {i : Instr} (h : fieldsOf op w = some i) :
    op = Laws.opcodeFor i := by
  unfold fieldsOf at h
  split at h
  · cases h; assumption
  split at h
  · cases h; assumption
  split at h
  · cases h; assumption
  split at h
  · cases h; assumption
  split at h
  · cases h; assumption
  · cases h

/-- A word is the encoding of the command whose fields it has: field by field, reserved ones included. -/
theorem encodeEntry_of_fieldsOf {w : Entry} {i : Instr} (hfields : fieldsOf (opcodeOf w) w = some i)
    (hclear : w &&& reservedMask (opcodeOf w) = 0) : i.wellFormed = true ∧ encodeEntry i = w := by
  have hop := opcodeFor_of_fieldsOf hfields
  have hplace : w.extractLsb' 60 4 = Laws.opcodeFor i := hop
  rw [hop] at hfields hclear
  cases i with
  | completionWait store int fence a d =>
    simp only [fieldsOf, Laws.opcodeFor, if_true, Option.some.injEq, Instr.completionWait.injEq] at hfields
    obtain ⟨rfl, rfl, rfl, rfl, rfl⟩ := hfields
    rw [Laws.opcodeFor, reserved_completionWait] at hclear
    obtain ⟨hwf, hcarried⟩ := storeAddressOf_wf w
    refine ⟨hwf, eq_of_agreeOn [1, 1, 1, 49, 8, 4, 64] ?_ rfl⟩
    simp [agreeOn, encodeEntry, BitVec.extractLsb'_or, extract_placed, extract_placed_apart, placedBit, hclear, hplace,
      hcarried, extract_one, Laws.opcodeFor]
  | invalidateDevtabEntry dev =>
    obtain rfl : w.extractLsb' 0 16 = dev := by simpa [fieldsOf, Laws.opcodeFor] using hfields
    rw [Laws.opcodeFor, reserved_device _ (.inl rfl)] at hclear
    refine ⟨rfl, eq_of_agreeOn [16, 44, 4, 64] ?_ rfl⟩
    simp [agreeOn, encodeEntry, BitVec.extractLsb'_or, extract_placed, extract_placed_apart, hclear, hplace, Laws.opcodeFor]
  | invalidateIommuPages m size pde a =>
    obtain ⟨rfl, rfl, rfl, rfl⟩ :
        w.extractLsb' 32 16 = m ∧ w.getLsbD 64 = size ∧ w.getLsbD 65 = pde ∧ pageAddressOf w = a := by
      simpa [fieldsOf, Laws.opcodeFor] using hfields
    rw [Laws.opcodeFor, reserved_invalidateIommuPages] at hclear
    obtain ⟨hwf, hcarried⟩ := pageAddressOf_wf w
    refine ⟨hwf, eq_of_agreeOn [32, 16, 12, 4, 1, 1, 10, 52] ?_ rfl⟩
    simp [agreeOn, encodeEntry, BitVec.extractLsb'_or, extract_placed, extract_placed_apart, placedBit, hclear, hplace,
      hcarried, extract_one, Laws.opcodeFor]
  | invalidateIotlbPages dev x q size a =>
    obtain ⟨rfl, rfl, rfl, rfl, rfl⟩ : w.extractLsb' 0 16 = dev ∧ w.extractLsb' 24 8 = x ∧ w.extractLsb' 32 16 = q ∧
        w.getLsbD 64 = size ∧ pageAddressOf w = a := by
      simpa [fieldsOf, Laws.opcodeFor] using hfields
    rw [Laws.opcodeFor, reserved_invalidateIotlbPages] at hclear
    obtain ⟨hwf, hcarried⟩ := pageAddressOf_wf w
    refine ⟨hwf, eq_of_agreeOn [16, 8, 8, 16, 12, 4, 1, 11, 52] ?_ rfl⟩
    simp [agreeOn, encodeEntry, BitVec.extractLsb'_or, extract_placed, extract_placed_apart, placedBit, hclear, hplace,
      hcarried, extract_one, Laws.opcodeFor]
  | invalidateInterruptTable dev =>
    obtain rfl : w.extractLsb' 0 16 = dev := by simpa [fieldsOf, Laws.opcodeFor] using hfields
    rw [Laws.opcodeFor, reserved_device _ (.inr rfl)] at hclear
    refine ⟨rfl, eq_of_agreeOn [16, 44, 4, 64] ?_ rfl⟩
    simp [agreeOn, encodeEntry, BitVec.extractLsb'_or, extract_placed, extract_placed_apart, hclear, hplace, Laws.opcodeFor]

/-- Settles O2: the fields of the word, reserved ones included, are those of the encoding, and bytes are those of the
word they spell. -/
theorem encodeOfDecode : Obligations.EncodeOfDecode := by
  intro bytes i hlength hdecode
  rw [decode_eq_decodeEntry hlength, decodeEntry_eq_instr_iff] at hdecode
  obtain ⟨hwf, hentry⟩ := encodeEntry_of_fieldsOf hdecode.1 hdecode.2
  have hspelt : (BitVec.ofNat 128 (leNat bytes)).toNat = leNat bytes := by
    have hlt := leNat_lt bytes
    rw [hlength] at hlt
    exact BitVec.toNat_ofNat .. ▸ Nat.mod_eq_of_lt hlt
  refine ⟨hwf, ?_⟩
  rw [encode, hentry, hspelt, ← hlength, leBytes_leNat]

end Sys2Proof
end


section
/-! PROOFS. Which words are refused (spec/30_encoding.md R151, R152), and one word of each command. -/

namespace Sys2Proof

/-- An opcode that names no command. -/
def unsupported (op : BitVec 4) : Prop := op = 0 ∨ 5 < op.toNat

theorem opcode_cases (op : BitVec 4) : op = 1 ∨ op = 2 ∨ op = 3 ∨ op = 4 ∨ op = 5 ∨ unsupported op := by
  unfold unsupported
  revert op
  decide

theorem unsupported.ne {op : BitVec 4} (h : unsupported op) : op ≠ 1#4 ∧ op ≠ 2#4 ∧ op ≠ 3#4 ∧ op ≠ 4#4 ∧ op ≠ 5#4 := by
  unfold unsupported at h
  revert h op
  decide

/-- A word is refused for its opcode exactly where that has no fields. -/
theorem decodeEntry_eq_unsupported_iff (w : Entry) :
    decodeEntry w = .illegal .unsupportedOpcode ↔ fieldsOf (opcodeOf w) w = none := by
  unfold decodeEntry
  cases fieldsOf (opcodeOf w) w with
  | none => simp
  | some i => dsimp only; split <;> simp

/-- A word is refused for a reserved bit exactly where its opcode has fields and a bit of its mask is set. -/
theorem decodeEntry_eq_reserved_iff (w : Entry) : decodeEntry w = .illegal .reservedBits ↔
    fieldsOf (opcodeOf w) w ≠ none ∧ w &&& reservedMask (opcodeOf w) ≠ 0 := by
  unfold decodeEntry
  cases fieldsOf (opcodeOf w) w with
  | none => simp
  | some i =>
    dsimp only
    split
    · rename_i hm; simpa using hm
    · rename_i hm; simpa using hm

theorem decodeEntry_ne_truncated (w : Entry) : decodeEntry w ≠ .illegal .truncated := by
  unfold decodeEntry
  cases fieldsOf (opcodeOf w) w with
  | none => simp
  | some i => dsimp only; split <;> simp

/-- An opcode has no fields exactly where it names no command. -/
theorem fieldsOf_eq_none_iff (op : BitVec 4) (w : Entry) : fieldsOf op w = none ↔ unsupported op := by
  rcases opcode_cases op with rfl | rfl | rfl | rfl | rfl | h
  case inr.inr.inr.inr.inr =>
    obtain ⟨h1, h2, h3, h4, h5⟩ := h.ne
    simp [fieldsOf, h1, h2, h3, h4, h5, h]
  all_goals simp [fieldsOf, unsupported]

/-- Settles O3: the opcode decides first, and then the mask of its command. -/
theorem refusedWords : Obligations.RefusedWords := by
  intro w
  refine ⟨(decodeEntry_eq_unsupported_iff w).trans (fieldsOf_eq_none_iff _ w), ?_, decodeEntry_ne_truncated w⟩
  rw [decodeEntry_eq_reserved_iff, ne_eq, fieldsOf_eq_none_iff]
  show _ ↔ opcodeOf w = 1 ∧ _ ∨ opcodeOf w = 2 ∧ _ ∨ opcodeOf w = 3 ∧ _ ∨ opcodeOf w = 4 ∧ _ ∨ opcodeOf w = 5 ∧ _
  generalize opcodeOf w = op
  rcases opcode_cases op with rfl | rfl | rfl | rfl | rfl | h
  case inr.inr.inr.inr.inr =>
    obtain ⟨h1, h2, h3, h4, h5⟩ := h.ne
    simp [h, h1, h2, h3, h4, h5]
  all_goals simp [reservedMask, unsupported]

/-- Settles O4. -/
theorem sampleWordsDecode : Obligations.SampleWordsDecode := by
  unfold Obligations.SampleWordsDecode
  decide

end Sys2Proof
end

section
/-! PROOFS. The layout of the log entries (spec/60_exceptions.md R422, R435 to R451). -/

namespace Sys2Proof.Machine

/-- A word is itself placed at bit 0. -/
theorem eq_placed (w : Entry) : w = placed w 0 := by simp [placed]

/-- Fields side by side are placed one above the other. -/
theorem placed_append {n m : Nat} (x : BitVec n) (y : BitVec m) (lo : Nat) :
    placed (x ++ y) lo = placed x (m + lo) ||| placed y lo := by
  apply BitVec.eq_of_getLsbD_eq
  intro i hi
  rw [BitVec.getLsbD_or, getLsbD_placed _ _ _ hi, getLsbD_placed _ _ _ hi, getLsbD_placed _ _ _ hi, BitVec.getLsbD_append]
  by_cases hlo : lo ≤ i
  · by_cases hm : i - lo < m
    · simp [hlo, hm, show ¬m + lo ≤ i by omega]
    · simp [hlo, hm, show m + lo ≤ i by omega, show i - lo - m = i - (m + lo) by omega, BitVec.getLsbD_of_ge y (i - lo) (by omega)]
  · simp [hlo, show ¬m + lo ≤ i by omega]

theorem placed_zero (n lo : Nat) : placed 0#n lo = 0#128 := by simp [placed]

theorem or_left_comm (a b c : Entry) : a ||| (b ||| c) = b ||| (a ||| c) := by ac_rfl

/-- The code of an event stands in bits 63:60 of its entry, clear of every other field. -/
theorem Event.code_of_entry (e : Event) : e.entry.extractLsb' 60 4 = e.code := by
  cases e <;>
    simp [Event.entry, Event.fields, addressField4, placedBit, BitVec.extractLsb'_or, extract_placed, extract_placed_apart]

/-- Settles O24: each concatenation is the sum of its parts, placed where the entry has them. -/
theorem eventEntryLayout : Obligations.EventEntryLayout := by
  refine ⟨Event.code_of_entry, fun d tr rz rw i a => ?_, fun d tr rz pe rw pr i m a => ?_, fun d t tr rw i a => ?_,
    fun d t tr rw i m a => ?_, fun a => ?_, fun t a => ?_, fun d t a => ?_, fun d t tr a => ?_⟩
  all_goals
    refine Eq.trans ?_ (eq_placed _).symm
    repeat rw [placed_append]
    simp [Event.entry, Event.fields, Event.code, addressField4, placedBit, placed_zero, BitVec.or_comm, or_left_comm,
      BitVec.or_assoc]

end Sys2Proof.Machine
end

section
/-! PROOFS. The size encoding of a range and of a page, and naturally aligned ranges against each other
(spec/30_encoding.md R148, spec/42_page_tables.md R276). -/

namespace Sys2Proof.Machine

/-- The first zero bit is the one below which all are 1. -/
theorem firstZero_eq_some_iff {w : Nat} (v : BitVec w) (j fuel k : Nat) : firstZero v j fuel = some k ↔
    j ≤ k ∧ k < j + fuel ∧ v.getLsbD k = false ∧ ∀ i, j ≤ i → i < k → v.getLsbD i = true := by
  induction fuel generalizing j with
  | zero => simp [firstZero]; omega
  | succ fuel ih =>
    unfold firstZero
    split
    · rename_i hj
      rw [ih (j + 1)]
      constructor
      · rintro ⟨h1, h2, h3, h4⟩
        refine ⟨by omega, by omega, h3, fun i hi hk => ?_⟩
        rcases Nat.eq_or_lt_of_le hi with rfl | hi
        · exact hj
        · exact h4 i hi hk
      · rintro ⟨h1, h2, h3, h4⟩
        have hjk : j ≠ k := by rintro rfl; rw [hj] at h3; cases h3
        exact ⟨by omega, by omega, h3, fun i hi hk => h4 i (by omega) hk⟩
    · rename_i hj
      rw [Option.some.injEq]
      constructor
      · rintro rfl
        exact ⟨Nat.le_refl j, by omega, by simpa using hj, fun i hi hk => by omega⟩
      · rintro ⟨h1, h2, h3, h4⟩
        by_contra hjk
        exact hj (h4 j (Nat.le_refl j) (by omega))

/-- There is no zero bit exactly where all bits looked at are 1. -/
theorem firstZero_eq_none_iff {w : Nat} (v : BitVec w) (j fuel : Nat) : firstZero v j fuel = none ↔
    ∀ i, j ≤ i → i < j + fuel → v.getLsbD i = true := by
  induction fuel generalizing j with
  | zero => simp [firstZero]; omega
  | succ fuel ih =>
    unfold firstZero
    split
    · rename_i hj
      rw [ih (j + 1)]
      constructor
      · intro h i hi hk
        rcases Nat.eq_or_lt_of_le hi with rfl | hi
        · exact hj
        · exact h i hi (by omega)
      · exact fun h i hi hk => h i (by omega) (by omega)
    · rename_i hj
      simp only [reduceCtorEq, false_iff]
      exact fun h => hj (h j (Nat.le_refl j) (by omega))

/-- The value of an aligned address. -/
theorem alignDown_toNat (a : Addr) (bits : Nat) : (alignDown a bits).toNat = a.toNat / 2 ^ bits * 2 ^ bits := by
  rw [alignDown, BitVec.toNat_ofNat]
  exact Nat.mod_eq_of_lt (lt_of_le_of_lt (Nat.div_mul_le_self _ _) a.isLt)

/-- A number lies in a naturally aligned block exactly where it has the block's number. -/
theorem mem_block_iff {b n : Nat} (h : b % 2 ^ n = 0) (x : Nat) : (b ≤ x ∧ x < b + 2 ^ n) ↔ x / 2 ^ n = b / 2 ^ n := by
  have hpos : 0 < 2 ^ n := Nat.two_pow_pos n
  have hb : b / 2 ^ n * 2 ^ n = b := Nat.div_mul_cancel (Nat.dvd_of_mod_eq_zero h)
  rw [Nat.div_eq_iff hpos, hb]
  omega

/-- Numbers of one block are of one larger block. -/
theorem block_mono {x y n m : Nat} (hnm : n ≤ m) (h : x / 2 ^ n = y / 2 ^ n) : x / 2 ^ m = y / 2 ^ m := by
  obtain ⟨k, rfl⟩ := Nat.exists_eq_add_of_le hnm
  rw [Nat.pow_add, ← Nat.div_div_eq_div_mul, ← Nat.div_div_eq_div_mul, h]

/-- Of two aligned blocks, a number is in both exactly where it is in the smaller one and that is inside the larger. -/
theorem blocks_share_iff {a b n m : Nat} (hnm : n ≤ m) (ha : a % 2 ^ n = 0) (hb : b % 2 ^ m = 0) :
    (∃ x, (a ≤ x ∧ x < a + 2 ^ n) ∧ b ≤ x ∧ x < b + 2 ^ m) ↔ a / 2 ^ m = b / 2 ^ m := by
  simp only [mem_block_iff ha, mem_block_iff hb]
  constructor
  · rintro ⟨x, hxa, hxb⟩
    exact (block_mono hnm hxa).symm.trans hxb
  · exact fun h => ⟨a, rfl, h⟩

/-- Two aligned ranges meet exactly where they share an address (R350). -/
theorem rangesMeet_iff {b₁ b₂ : Addr} {n₁ n₂ : Nat} (h₁ : b₁.toNat % 2 ^ n₁ = 0) (h₂ : b₂.toNat % 2 ^ n₂ = 0) :
    rangesMeet b₁ n₁ b₂ n₂ = true ↔ ∃ x : Nat, (b₁.toNat ≤ x ∧ x < b₁.toNat + 2 ^ n₁) ∧
      b₂.toNat ≤ x ∧ x < b₂.toNat + 2 ^ n₂ := by
  rw [rangesMeet, decide_eq_true_eq]
  rcases Nat.le_total n₁ n₂ with h | h
  · rw [Nat.max_eq_right h, blocks_share_iff h h₁ h₂]
  · rw [Nat.max_eq_left h, eq_comm, ← blocks_share_iff h h₂ h₁]
    simp only [and_comm]

/-- An aligned range is covered by another exactly where it lies inside (R350). -/
theorem PageRange.covers_iff {r : PageRange} {base : Addr} {bits : Nat} (hr : r.base.toNat % 2 ^ r.bits = 0)
    (hb : base.toNat % 2 ^ bits = 0) : r.covers base bits = true ↔
      r.base.toNat ≤ base.toNat ∧ base.toNat + 2 ^ bits ≤ r.base.toNat + 2 ^ r.bits := by
  rw [PageRange.covers, Bool.and_eq_true, decide_eq_true_eq, rangesMeet_iff hr hb]
  constructor
  · rintro ⟨hle, hshare⟩
    have hin : base.toNat / 2 ^ r.bits = r.base.toNat / 2 ^ r.bits := by
      rw [← blocks_share_iff hle hb hr]
      simpa only [and_comm] using hshare
    have hlast : (base.toNat + (2 ^ bits - 1)) / 2 ^ r.bits = r.base.toNat / 2 ^ r.bits := by
      rw [← hin]
      exact block_mono hle ((mem_block_iff hb _).mp ⟨by omega, by have := Nat.two_pow_pos bits; omega⟩)
    have h1 := (mem_block_iff hr _).mpr hin
    have h2 := (mem_block_iff hr _).mpr hlast
    omega
  · rintro ⟨hlow, hhigh⟩
    have hpow : 2 ^ bits ≤ 2 ^ r.bits := by omega
    have hpos := Nat.two_pow_pos bits
    exact ⟨(Nat.pow_le_pow_iff_right (by decide)).mp hpow, base.toNat, by omega, by omega⟩

/-- Settles O5: the first zero bit gives the size, and aligned blocks meet, cover and hold by their numbers. -/
theorem rangeOfInvalidation : Obligations.RangeOfInvalidation := by
  refine ⟨fun a => rfl, fun a k hk hk' hones hzero => ?_, fun a hones => ?_, fun r base bits _ _ hr hb => ⟨?_, ?_⟩,
    fun r x _ hr => ?_⟩
  case refine_1 =>
    have hfirst := (firstZero_eq_some_iff a 12 52 k).mpr ⟨hk, by omega, hzero, hones⟩
    exact ⟨⟨alignDown a (k + 1), k + 1⟩, by simp [invRange, hfirst], rfl, alignDown_toNat a (k + 1)⟩
  case refine_2 =>
    have hnone := (firstZero_eq_none_iff a 12 52).mpr hones
    simp [invRange, hnone]
  case refine_3 =>
    rw [PageRange.meets, rangesMeet_iff hr hb]
    simp only [and_assoc]
  case refine_4 => exact PageRange.covers_iff hr hb
  case refine_5 =>
    rw [PageRange.holds, rangesMeet_iff hr (by simp [Nat.mod_one])]
    constructor
    · rintro ⟨y, hy⟩; omega
    · intro h; exact ⟨x.toNat, by omega⟩

end Sys2Proof.Machine
end


section
/-! PROOFS. What a step is made of, and what the IOMMU by itself does to its registers (spec/10_state.md R28 to R46):
the inversion lemmas from which every invariant of a step follows. -/

namespace Sys2Proof.Machine

/-! ### The step -/

/-- With an empty agenda the IOMMU acts by itself (log entry 7). -/
theorem step_of_nil {s : State} (h : s.agenda = []) : step s = s.tick.autonomous := by
  rw [step, State.cycle, h]

/-- Otherwise the first action of the agenda is taken (log entry 7). -/
theorem step_of_cons {s : State} {a : Action} {rest : List Action} (h : s.agenda = a :: rest) :
    step s = (s.tick.setAgenda rest).act a := by
  rw [step, State.cycle, h]

/-- What the IOMMU does by itself: it fetches and executes, it takes an action of its own, a posted write reaches the
host bridge, or the run bits fall. -/
theorem State.autonomous_cases (s : State) :
    (s.canFetch = true ∧ s.autonomous = s.fetchThen exec) ∨
    (∃ a : Action, (a.own = true ∨ a = .hostTakesWrite 0 ∧ s.upWrites ≠ []) ∧ s.autonomous = s.act a) ∨
    s.autonomous = .next s.settleCmdRun.settleEvtRun := by
  unfold State.autonomous
  split
  · rename_i h; exact .inl ⟨h, rfl⟩
  right
  split
  · exact .inl ⟨.report 0, .inl rfl, rfl⟩
  split
  · rename_i k _; exact .inl ⟨.run k, .inl rfl, rfl⟩
  split
  · exact .inl ⟨.advance 0 defaultChoice, .inl rfl, rfl⟩
  split
  · rename_i h; exact .inl ⟨.hostTakesWrite 0, .inr ⟨rfl, by simpa using h⟩, rfl⟩
  split
  · exact .inl ⟨.sendInterrupt, .inl rfl, rfl⟩
  · exact .inr rfl

/-- A predicate that neither the draw counter nor the agenda matters to is kept by every step if every action and the
fetch that executes keep it. -/
theorem step_keeps {P : State → Prop} (htick : ∀ s : State, P s → P s.tick)
    (hagenda : ∀ (s : State) (rest : List Action), P s → P (s.setAgenda rest))
    (hact : ∀ (s t : State) (a : Action), P s → s.act a = .next t → P t)
    (hexec : ∀ s t : State, P s → s.fetchThen exec = .next t → P t) {s t : State} (hs : P s) (h : step s = .next t) :
    P t := by
  have hs' := htick s hs
  cases hl : s.agenda with
  | cons a rest =>
    rw [step_of_cons hl] at h
    exact hact _ t a (hagenda _ rest hs') h
  | nil =>
    rw [step_of_nil hl] at h
    rcases s.tick.autonomous_cases with ⟨-, e⟩ | ⟨a, -, e⟩ | e <;> rw [e] at h
    · exact hexec _ t hs' h
    · exact hact _ t a hs' h
    · cases h
      exact hact _ _ .settleEvtRun (hact _ _ .settleCmdRun hs' rfl) rfl

/-! ### The fetch -/

/-- The two ways in which a fetched command is taken: begun, or held. -/
def takesCommand (run : Instr → State → Result) : Prop := run = exec ∨ run = holdCommand

/-- What a command just fetched and found legal can lead to. -/
def Taken (i : Instr) (u t : State) : Prop :=
  t = u.illegalCommand ∨ t = u.held i ∨
    ∃ v, Effect i u.advanceHead v ∧ (t = v ∨ ∃ p, t = v.enqueue ⟨i, u.headAddr, p⟩)

theorem takesCommand.taken {run : Instr → State → Result} (hrun : takesCommand run) {i : Instr} {u t : State}
    (h : run i u = .next t) : Taken i u t := by
  rcases hrun with rfl | rfl
  · rcases exec_cases h with ⟨-, -, rfl⟩ | rfl | hv
    · exact .inl rfl
    · exact .inr (.inl rfl)
    · exact .inr (.inr hv)
  · rcases holdCommand_cases i u with e | e <;> rw [e] at h <;> cases h
    · exact .inl rfl
    · exact .inr (.inl rfl)

/-- All that a fetch can lead to: a failed read, an illegal entry, or what the command leads to. -/
theorem State.fetchThen_next {run : Instr → State → Result} (hrun : takesCommand run) {s t : State}
    (h : s.fetchThen run = .next t) :
    (∃ f, t = (s.sawRead s.headAddr 16 ringAttrs).commandError f) ∨
      ∃ u w, s.fetchEntry = .ok (u, w) ∧ (t = u.illegalCommand ∨ ∃ i, decodeEntry w = .instr i ∧ Taken i u t) := by
  rcases s.fetchThen_cases run with ⟨f, e⟩ | ⟨u, w, x, hu, -, e⟩ | ⟨u, w, i, hu, hi, e⟩ <;> rw [e] at h
  · cases h; exact .inl ⟨f, rfl⟩
  · cases h; exact .inr ⟨u, w, hu, .inl rfl⟩
  · exact .inr ⟨u, w, hu, .inr ⟨i, hi, hrun.taken h⟩⟩

/-! ### What the IOMMU by itself does to its registers -/

/-- The registers after something the IOMMU does by itself: those that only software writes are as they were, a pointer
of its own has stayed or moved by one entry, of the status register at most the three interrupt sources have changed,
and a halt has not ended. -/
structure RegistersMove (s t : State) : Prop where
  capHeader : t.capHeader = s.capHeader
  capBaseLow : t.capBaseLow = s.capBaseLow
  capBaseHigh : t.capBaseHigh = s.capBaseHigh
  devTabBase : t.devTabBase = s.devTabBase
  cmdBase : t.cmdBase = s.cmdBase
  evtBase : t.evtBase = s.evtBase
  control : t.control = s.control
  exclBase : t.exclBase = s.exclBase
  exclLimit : t.exclLimit = s.exclLimit
  cmdTail : t.cmdTail = s.cmdTail
  evtHead : t.evtHead = s.evtHead
  cmdHead : t.cmdHead = s.cmdHead ∨ t.cmdHead = s.nextHead
  evtTail : t.evtTail = s.evtTail ∨ t.evtTail = s.nextEvtTail
  status : ∀ n, 3 ≤ n → t.status.getLsbD n = s.status.getLsbD n
  halted : s.halted = true → t.halted = true
  evtHalted : s.evtHalted = true → t.evtHalted = true

/-- A state whose registers, and halts, are those of another. -/
structure SameRegisters (s t : State) : Prop where
  capHeader : t.capHeader = s.capHeader
  capBaseLow : t.capBaseLow = s.capBaseLow
  capBaseHigh : t.capBaseHigh = s.capBaseHigh
  devTabBase : t.devTabBase = s.devTabBase
  cmdBase : t.cmdBase = s.cmdBase
  evtBase : t.evtBase = s.evtBase
  control : t.control = s.control
  exclBase : t.exclBase = s.exclBase
  exclLimit : t.exclLimit = s.exclLimit
  cmdTail : t.cmdTail = s.cmdTail
  evtHead : t.evtHead = s.evtHead
  cmdHead : t.cmdHead = s.cmdHead
  evtTail : t.evtTail = s.evtTail
  status : t.status = s.status
  halted : t.halted = s.halted
  evtHalted : t.evtHalted = s.evtHalted

theorem SameRegisters.move {s t : State} (h : SameRegisters s t) : RegistersMove s t where
  capHeader := h.capHeader
  capBaseLow := h.capBaseLow
  capBaseHigh := h.capBaseHigh
  devTabBase := h.devTabBase
  cmdBase := h.cmdBase
  evtBase := h.evtBase
  control := h.control
  exclBase := h.exclBase
  exclLimit := h.exclLimit
  cmdTail := h.cmdTail
  evtHead := h.evtHead
  cmdHead := .inl h.cmdHead
  evtTail := .inl h.evtTail
  status _ _ := by rw [h.status]
  halted := by rw [h.halted]; exact id
  evtHalted := by rw [h.evtHalted]; exact id

/-- What has the registers of a moved state is moved, and so is what moves a state with the same registers. -/
theorem RegistersMove.congr {s s' t t' : State} (hs : SameRegisters s s') (h : RegistersMove s' t)
    (ht : SameRegisters t t') : RegistersMove s t' where
  capHeader := ht.capHeader.trans (h.capHeader.trans hs.capHeader)
  capBaseLow := ht.capBaseLow.trans (h.capBaseLow.trans hs.capBaseLow)
  capBaseHigh := ht.capBaseHigh.trans (h.capBaseHigh.trans hs.capBaseHigh)
  devTabBase := ht.devTabBase.trans (h.devTabBase.trans hs.devTabBase)
  cmdBase := ht.cmdBase.trans (h.cmdBase.trans hs.cmdBase)
  evtBase := ht.evtBase.trans (h.evtBase.trans hs.evtBase)
  control := ht.control.trans (h.control.trans hs.control)
  exclBase := ht.exclBase.trans (h.exclBase.trans hs.exclBase)
  exclLimit := ht.exclLimit.trans (h.exclLimit.trans hs.exclLimit)
  cmdTail := ht.cmdTail.trans (h.cmdTail.trans hs.cmdTail)
  evtHead := ht.evtHead.trans (h.evtHead.trans hs.evtHead)
  cmdHead := by
    have hnext : s'.nextHead = s.nextHead := by
      simp only [State.nextHead, State.headIndex, State.cmdEntries, hs.cmdHead, hs.cmdBase]
    rw [ht.cmdHead, ← hs.cmdHead, ← hnext]
    exact h.cmdHead
  evtTail := by
    have hnext : s'.nextEvtTail = s.nextEvtTail := by
      simp only [State.nextEvtTail, State.evtTailIndex, State.evtEntries, hs.evtTail, hs.evtBase]
    rw [ht.evtTail, ← hs.evtTail, ← hnext]
    exact h.evtTail
  status n hn := by rw [ht.status, h.status n hn, hs.status]
  halted := by rw [ht.halted, ← hs.halted]; exact h.halted
  evtHalted := by rw [ht.evtHalted, ← hs.evtHalted]; exact h.evtHalted

theorem SameRegisters.refl (s : State) : SameRegisters s s := by constructor <;> rfl

/-- Nothing of the transaction engine is a register. -/
theorem EngineFrame.sameRegisters {s t : State} (h : EngineFrame s t) : SameRegisters s t := by
  unfold EngineFrame at h
  rw [h]
  constructor <;> rfl

/-- A status bit that is an interrupt source is one of the lowest three. -/
theorem State.raiseFlag_status_high (s : State) (b : StatusBit) {n : Nat} (hn : 3 ≤ n) :
    (s.raiseFlag b).status.getLsbD n = s.status.getLsbD n := by
  have hb : b.place < 3 := by cases b <;> decide
  rw [State.raiseFlag, getLsbD_withBit _ _ _ _ (by omega), if_neg (by omega)]

/-- Setting a status bit moves the registers. -/
theorem State.raiseFlag_moves (s : State) (b : StatusBit) : RegistersMove s (s.raiseFlag b) := by
  constructor
  case status => exact fun n hn => s.raiseFlag_status_high b hn
  all_goals simp

theorem State.ownWrite_sameRegisters (s : State) (a : Addr) (d : List Byte) (x : Attrs) :
    SameRegisters s (s.ownWrite a d x) := by
  constructor <;> simp

/-- The effect of a command sets at most ComWaitInt. -/
theorem Effect.registersMove {i : Instr} {s t : State} (h : Effect i s t) : RegistersMove s t := by
  rcases h with ⟨store, int, -, a, d, -, rfl, -⟩ | ⟨dev, -, rfl⟩ | ⟨m, -, pde, -, -, rfl⟩ |
    ⟨dev, -, q, -, -, addr, r, -, rfl⟩ | ⟨dev, -, rfl⟩
  · have hstore : SameRegisters s (s.waitStore store a d) := by
      cases store
      · exact .refl s
      · exact s.ownWrite_sameRegisters _ _ _
    cases int
    · exact hstore.move
    · exact .congr hstore (State.raiseFlag_moves _ _) (.refl _)
  all_goals exact SameRegisters.move (by constructor <;> simp)

/-- A halt puts the head pointer at the entry in error or after it. -/
theorem State.halt_moves (s : State) : RegistersMove s s.halt := by
  constructor
  case cmdHead => exact s.halt_cmdHead_cases
  all_goals simp

theorem State.raise_sameRegisters (s : State) (e : Event) : SameRegisters s (s.raise e) := by
  constructor <;> rfl

theorem State.illegalCommand_moves (s : State) : RegistersMove s s.illegalCommand :=
  .congr (s.raise_sameRegisters _) (State.halt_moves _) (.refl _)

theorem State.commandError_moves (s : State) (f : ReadFailure) : RegistersMove s (s.commandError f) :=
  .congr (s.raise_sameRegisters _) (State.halt_moves _) (.refl _)

theorem State.enqueue_sameRegisters (s : State) (c : Command) : SameRegisters s (s.enqueue c) := by constructor <;> rfl

/-- The effect of a command begun at its fetch, with the head pointer moved. -/
theorem Effect.registersMove_advanceHead {i : Instr} {s t : State} (h : Effect i s.advanceHead t) : RegistersMove s t := by
  have hm := h.registersMove
  have hhead : t.cmdHead = s.nextHead := h.cmdHead
  exact { hm with cmdHead := .inr hhead }

theorem Taken.registersMove {i : Instr} {u t : State} (h : Taken i u t) : RegistersMove u t := by
  rcases h with rfl | rfl | ⟨v, hv, rfl | ⟨p, rfl⟩⟩
  · exact u.illegalCommand_moves
  · exact { (SameRegisters.refl u).move with cmdHead := .inr rfl }
  · exact hv.registersMove_advanceHead
  · exact .congr (.refl u) hv.registersMove_advanceHead (State.enqueue_sameRegisters _ _)

theorem State.fetchEntry_sameRegisters {s u : State} {w : Entry} (h : s.fetchEntry = .ok (u, w)) : SameRegisters s u := by
  rcases State.fetchEntry_cases h with rfl | rfl <;> constructor <;> rfl

/-- A fetch moves the head pointer or halts command processing, and may have the effect of a command. -/
theorem State.fetchThen_moves {run : Instr → State → Result} (hrun : takesCommand run) {s t : State}
    (h : s.fetchThen run = .next t) : RegistersMove s t := by
  rcases State.fetchThen_next hrun h with ⟨f, rfl⟩ | ⟨u, w, hu, rfl | ⟨i, -, hi⟩⟩
  · exact .congr (s.sawRead_frame _ _ _).sameRegisters (State.commandError_moves _ f) (.refl _)
  · exact .congr (State.fetchEntry_sameRegisters hu) u.illegalCommand_moves (.refl _)
  · exact .congr (State.fetchEntry_sameRegisters hu) hi.registersMove (.refl _)

theorem State.runCommand_moves {s t : State} {k : Nat} (h : s.runCommand k = .next t) : RegistersMove s t := by
  rcases State.runCommand_cases h with rfl | rfl | ⟨c, u, -, hu, rfl | ⟨p, rfl⟩⟩
  · exact (SameRegisters.refl _).move
  · exact SameRegisters.move (by constructor <;> rfl)
  · exact .congr (.refl s) hu.registersMove (by constructor <;> rfl)
  · exact .congr (.refl s) hu.registersMove (by constructor <;> rfl)

/-- A report moves the event tail pointer, halts logging or sets a status bit. -/
theorem State.report_moves (s : State) (p : PendingEvent) : RegistersMove s (s.report p) := by
  rcases s.report_cases p with e | ⟨-, e⟩ | ⟨-, -, e⟩ | ⟨-, -, -, -, -, e⟩ <;> rw [e]
  · exact (SameRegisters.refl s).move
  · exact s.raiseFlag_moves _
  · exact { s.raiseFlag_moves .eventOverflow with evtHalted := fun _ => rfl }
  · constructor
    case status => intro n hn; rw [State.logEntry_status, getLsbD_withBit _ _ _ _ (by decide), if_neg (by omega)]
    all_goals simp

theorem State.reportAt_moves (s : State) (k : Nat) : RegistersMove s (s.reportAt k) := by
  unfold State.reportAt
  split
  · exact (SameRegisters.refl s).move
  · exact .congr (s' := s.dropEvent k) (by constructor <;> rfl) (State.report_moves _ _) (.refl _)

/-- All that letting a transaction go on can lead to: one step of it in its phase. -/
theorem State.advance_cases {s t : State} {k : Nat} {c : TxChoice} (h : s.advance k c = .next t) :
    t = s ∨ ∃ x, s.inFlight[k]? = some x ∧ s.advanceTx x c = .next t := by
  unfold State.advance at h
  split at h
  · cases h; exact .inl rfl
  · exact .inr ⟨_, ‹_›, h⟩

theorem State.advanceTx_frame {s t : State} {x : InFlight} {c : TxChoice} (h : s.advanceTx x c = .next t) :
    EngineFrame s t := by
  unfold State.advanceTx at h
  split at h
  · cases h; exact s.lookupDte_frame x c
  · cases h; exact s.finishHigh_frame x c _ _
  · cases h; exact s.finishLow_frame x c _ _
  · exact State.walkStep_frame h
  · cases h; exact s.remapStep_frame x _ _ c

theorem State.advance_frame {s t : State} {k : Nat} {c : TxChoice} (h : s.advance k c = .next t) : EngineFrame s t := by
  rcases State.advance_cases h with rfl | ⟨x, -, hx⟩
  · exact .refl _
  · exact State.advanceTx_frame hx

/-! ### What software does to the registers -/

/-- A control register after a write of some bytes of it (R28, R29). -/
def State.written (s : State) (r : MmioReg) (lane : Nat) (data : List Byte) : Reg := merge (s.mmioReg r) r.writable lane data

/-- What a write of a control register that is not refused leads to, register by register (R30 to R46). -/
inductive RegisterWritten (s : State) (lane : Nat) (data : List Byte) : MmioReg → State → Prop
  | devTabBase : RegisterWritten s lane data .devTabBase { s with devTabBase := s.written .devTabBase lane data }
  | cmdBase (h : 8 ≤ fieldOf (s.written .cmdBase lane data) 56 4) : RegisterWritten s lane data .cmdBase
      { s with cmdBase := s.written .cmdBase lane data, cmdHead := 0, cmdTail := 0, prefetched := [] }
  | evtBase (h : 8 ≤ fieldOf (s.written .evtBase lane data) 56 4) : RegisterWritten s lane data .evtBase
      { s with evtBase := s.written .evtBase lane data, evtHead := 0, evtTail := 0 }
  | control : RegisterWritten s lane data .control
      (s.writeControl (laneMask 64 lane data.length) (s.written .control lane data))
  | exclBase : RegisterWritten s lane data .exclBase { s with exclBase := s.written .exclBase lane data }
  | exclLimit : RegisterWritten s lane data .exclLimit { s with exclLimit := s.written .exclLimit lane data }
  | cmdHead (h : pointerIndex (s.written .cmdHead lane data) < s.cmdEntries) : RegisterWritten s lane data .cmdHead
      { s with cmdHead := s.written .cmdHead lane data, prefetched := [] }
  | cmdTail (h : pointerIndex (s.written .cmdTail lane data) < s.cmdEntries) : RegisterWritten s lane data .cmdTail
      { s with cmdTail := s.written .cmdTail lane data }
  | evtHead (h : pointerIndex (s.written .evtHead lane data) < s.evtEntries) : RegisterWritten s lane data .evtHead
      { s with evtHead := s.written .evtHead lane data }
  | evtTail (h : pointerIndex (s.written .evtTail lane data) < s.evtEntries) : RegisterWritten s lane data .evtTail
      { s with evtTail := s.written .evtTail lane data }
  | status : RegisterWritten s lane data .status { s with status := clearByOnes s.status (laneData 64 lane data) }

theorem State.writeMmioReg_written {s t : State} {r : MmioReg} {lane : Nat} {data : List Byte}
    (h : s.writeMmioReg r lane data = .next t) : RegisterWritten s lane data r t := by
  cases r with
  | devTabBase => cases h; exact .devTabBase
  | control => cases h; exact .control
  | exclBase => cases h; exact .exclBase
  | exclLimit => cases h; exact .exclLimit
  | status => cases h; exact .status
  | cmdBase =>
    change s.writeCmdBase _ = _ at h
    unfold State.writeCmdBase at h
    split at h
    · cases h
    · rename_i hlen; cases h; exact .cmdBase (Nat.le_of_not_lt hlen)
  | evtBase =>
    change s.writeEvtBase _ _ = _ at h
    unfold State.writeEvtBase at h
    split at h
    · cases h
    split at h
    · cases h
    · rename_i hlen; cases h; exact .evtBase (Nat.le_of_not_lt hlen)
  | cmdHead =>
    change s.writeCmdHead _ = _ at h
    unfold State.writeCmdHead at h
    split at h
    · cases h
    split at h
    · cases h
    · rename_i hin; cases h; exact .cmdHead (Nat.lt_of_not_le hin)
  | cmdTail =>
    change s.writeCmdTail _ = _ at h
    unfold State.writeCmdTail at h
    dsimp only at h
    split at h
    · cases h
    rename_i hin
    split at h
    · cases h
    · cases h; exact .cmdTail (Nat.lt_of_not_le hin)
  | evtHead =>
    change s.writeEvtHead _ = _ at h
    unfold State.writeEvtHead at h
    dsimp only at h
    split at h
    · cases h
    rename_i hin
    split at h
    · cases h
    · cases h; exact .evtHead (Nat.lt_of_not_le hin)
  | evtTail =>
    change s.writeEvtTail _ = _ at h
    unfold State.writeEvtTail at h
    split at h
    · cases h
    split at h
    · cases h
    · rename_i hin; cases h; exact .evtTail (Nat.lt_of_not_le hin)

/-- All that a write at an offset of the register region can lead to: nothing, or one register is written. -/
theorem State.writeMmio_cases {s t : State} {offset : Nat} {data : List Byte} (h : s.writeMmio offset data = .next t) :
    t = s ∨ ∃ r, RegisterWritten s (offset % 8) data r t := by
  unfold State.writeMmio at h
  split at h
  · cases h
  split at h
  · exact .inr ⟨_, State.writeMmioReg_written h⟩
  · cases h; exact .inl rfl

/-- All that a processor's write can lead to: nothing, a register written, or memory written (R22, R26, R108). -/
theorem State.cpuWrite_cases {s t : State} {a : Addr} {data : List Byte} {cached : Bool}
    (h : s.cpuWrite a data cached = .next t) :
    t = s ∨ (s.locked = true ∧ ∃ r lane, RegisterWritten s lane data r t) ∨
      t = { s with mem := s.mem.writeBytes a.toNat data } ∨ t = s.store a.toNat data := by
  unfold State.cpuWrite at h
  split at h
  · rename_i ht
    have hlocked : s.locked = true := by
      simp only [State.touchesRegisters, Bool.and_eq_true] at ht
      exact ht.1
    split at h
    · cases h
    · rcases State.writeMmio_cases h with e | ⟨r, hr⟩
      · exact .inl e
      · exact .inr (.inl ⟨hlocked, r, _, hr⟩)
  split at h
  · cases h
  split at h
  · cases h
  split at h
  · cases h; exact .inr (.inr (.inl rfl))
  · cases h; exact .inr (.inr (.inr rfl))

/-- All that a processor's read can lead to: data is returned. -/
theorem State.cpuRead_cases {s t : State} {a : Addr} {len : Nat} (h : s.cpuRead a len = .next t) :
    ∃ data, t = s.emit (.cpuData data) := by
  unfold State.cpuRead at h
  split at h
  · split at h
    · cases h
    unfold State.readMmio at h
    split at h
    · cases h
    split at h <;> cases h <;> exact ⟨_, rfl⟩
  split at h
  · cases h
  split at h
  · cases h
  · cases h; exact ⟨_, rfl⟩

theorem State.writeBack_cases {s t : State} {a : Addr} {len : Nat} (h : s.writeBack a len = .next t) :
    t = { s with dram := s.dram.writeBytes a.toNat (s.mem.readBytes a.toNat len) } := by
  unfold State.writeBack at h
  split at h
  · cases h
  split at h
  · cases h
  · cases h; rfl

theorem State.cfgWrite_cases {s t : State} {offset : Nat} {data : List Byte} (h : s.cfgWrite offset data = .next t) :
    t = s.writeCap offset data := by
  unfold State.cfgWrite at h
  split at h
  · cases h
  split at h
  · cases h
  · cases h; rfl

theorem State.cfgRead_cases {s t : State} {offset len : Nat} (h : s.cfgRead offset len = .next t) :
    ∃ data, t = s.emit (.cpuData data) := by
  unfold State.cfgRead at h
  split at h
  · cases h
  split at h
  · cases h
  · cases h; exact ⟨_, rfl⟩

/-- All that the arrival of a transaction can lead to: nothing, something sent, or a transaction accepted. -/
theorem State.arrive_cases {s t : State} {tx : Transaction} (h : s.arrive tx = .next t) :
    t = s ∨ (∃ o, t = s.emit o) ∨ t = s.bypass tx ∨ t = s.accept tx := by
  unfold State.arrive at h
  split at h
  · cases h; exact .inr (.inl ⟨_, rfl⟩)
  split at h
  · cases h; exact .inl rfl
  split at h
  · cases h
  split at h
  · cases h
  split at h
  · cases h; exact .inr (.inl ⟨_, rfl⟩)
  split at h
  · cases h; exact .inr (.inr (.inl rfl))
  · cases h; exact .inr (.inr (.inr rfl))

/-- All that the host bridge can do with the bytes of a forwarded transaction. -/
theorem State.hostStore_cases {s t : State} {a : Addr} {data : List Byte} (h : s.hostStore a data = .ok t) :
    t = s ∨ t = s.store a.toNat data := by
  unfold State.hostStore at h
  split at h
  · cases h; exact .inl rfl
  split at h
  · cases h; exact .inl rfl
  split at h
  · cases h
  split at h
  · cases h; exact .inr rfl
  · cases h; exact .inl rfl

theorem State.hostTakesWrite_cases {s t : State} {k : Nat} (h : s.hostTakesWrite k = .next t) :
    t = s ∨ ∃ f, s.upWrites[k]? = some f ∧
      (t = s.dropUpWrite k ∨ t = (s.dropUpWrite k).store f.sent.addr.toNat (f.stores ⟨HostStatus.ok, [], []⟩)) := by
  unfold State.hostTakesWrite at h
  split at h
  · cases h; exact .inl rfl
  rename_i f hf
  split at h
  · cases h
  · rename_i u hu
    cases h
    exact .inr ⟨f, hf, State.hostStore_cases hu⟩

theorem State.hostAnswers_cases {s t : State} {k : Nat} {a : HostAnswer} (h : s.hostAnswers k a = .next t) :
    t = s ∨ ∃ f u, s.upReads[k]? = some f ∧ t = u.emit (.completed f.orig (s.seen f a)) ∧
      (u = s.dropUpRead k ∨ ∃ data, u = (s.dropUpRead k).store f.sent.addr.toNat data) := by
  unfold State.hostAnswers at h
  split at h
  · cases h; exact .inl rfl
  rename_i f hf
  split at h
  · cases h
  · rename_i u hu
    cases h
    exact .inr ⟨f, u, hf, rfl, (State.hostStore_cases hu).imp id fun e => ⟨_, e⟩⟩

theorem State.deviceAnswers_cases (s : State) (k : Nat) :
    s.deviceAnswers k = s ∨ ∃ r, s.outstanding[k]? = some r ∧ s.deviceAnswers k = s.endRequest k r := by
  unfold State.deviceAnswers
  split
  · exact .inl rfl
  · exact .inr ⟨_, ‹_›, rfl⟩

theorem State.timeout_cases (s : State) (k : Nat) :
    s.timeout k = s ∨ ∃ r e, s.outstanding[k]? = some r ∧ s.timeout k = (s.expireRequest k r).raise e := by
  unfold State.timeout
  split
  · exact .inl rfl
  split
  · exact .inl rfl
  · exact .inr ⟨_, _, ‹_›, rfl⟩

theorem State.prefetch_cases (s : State) (n : Nat) :
    s.prefetch n = s ∨ ∃ o copies, s.prefetch n = { s.emit o with prefetched := copies } := by
  unfold State.prefetch
  dsimp only
  split
  · split
    · exact .inl rfl
    · exact .inr ⟨_, _, rfl⟩
  · exact .inl rfl

theorem State.reportAt_cases (s : State) (k : Nat) :
    s.reportAt k = s ∨ ∃ p, s.pendingEvents[k]? = some p ∧ s.reportAt k = (s.dropEvent k).report p := by
  unfold State.reportAt
  split
  · exact .inl rfl
  · exact .inr ⟨_, ‹_›, rfl⟩

/-- The actions by which software changes registers, and the falls of the run bits. Every other action moves the
registers as the IOMMU does by itself. -/
theorem State.act_registers {s t : State} {a : Action} (h : s.act a = .next t) :
    RegistersMove s t ∨
    (s.locked = true ∧ (∃ addr data cached, a = .cpuWrite addr data cached) ∧ ∃ r lane data, RegisterWritten s lane data r t) ∨
    (∃ offset data, a = .cfgWrite offset data ∧ t = s.writeCap offset data) ∨ (a = .reset ∧ t = s.systemReset) ∨
    (a = .settleCmdRun ∧ t = s.settleCmdRun) ∨ (a = .settleEvtRun ∧ t = s.settleEvtRun) := by
  cases a with
  | cpuWrite addr data cached =>
    rcases State.cpuWrite_cases h with rfl | ⟨hl, r, lane, hr⟩ | rfl | rfl
    · exact .inl (SameRegisters.refl _).move
    · exact .inr (.inl ⟨hl, ⟨_, _, _, rfl⟩, r, lane, data, hr⟩)
    · exact .inl (SameRegisters.move (by constructor <;> rfl))
    · exact .inl (SameRegisters.move (by constructor <;> rfl))
  | cfgWrite offset data => exact .inr (.inr (.inl ⟨offset, data, rfl, State.cfgWrite_cases h⟩))
  | reset => cases h; exact .inr (.inr (.inr (.inl ⟨rfl, rfl⟩)))
  | settleCmdRun => cases h; exact .inr (.inr (.inr (.inr (.inl ⟨rfl, rfl⟩))))
  | settleEvtRun => cases h; exact .inr (.inr (.inr (.inr (.inr ⟨rfl, rfl⟩))))
  | advance k c => exact .inl (State.advance_frame h).sameRegisters.move
  | run k => exact .inl (State.runCommand_moves h)
  | fetch =>
    change (if s.canFetch then s.fetchThen holdCommand else .next s) = .next t at h
    split at h
    · exact .inl (State.fetchThen_moves (.inr rfl) h)
    · cases h; exact .inl (SameRegisters.refl _).move
  | report k => cases h; exact .inl (s.reportAt_moves k)
  | cpuRead addr len =>
    obtain ⟨data, rfl⟩ := State.cpuRead_cases h
    exact .inl (s.emit_frame _).sameRegisters.move
  | cfgRead offset len =>
    obtain ⟨data, rfl⟩ := State.cfgRead_cases h
    exact .inl (s.emit_frame _).sameRegisters.move
  | writeBack addr len => obtain rfl := State.writeBack_cases h; exact .inl (SameRegisters.move (by constructor <;> rfl))
  | arrive tx =>
    rcases State.arrive_cases h with rfl | ⟨o, rfl⟩ | rfl | rfl
    · exact .inl (SameRegisters.refl _).move
    · exact .inl (s.emit_frame o).sameRegisters.move
    · exact .inl (SameRegisters.move (by constructor <;> simp [State.bypass]))
    · exact .inl (SameRegisters.move (by constructor <;> rfl))
  | hostTakesWrite k =>
    rcases State.hostTakesWrite_cases h with rfl | ⟨f, -, rfl | rfl⟩ <;>
      exact .inl (SameRegisters.move (by constructor <;> rfl))
  | hostAnswers k x =>
    rcases State.hostAnswers_cases h with rfl | ⟨f, u, -, rfl, rfl | ⟨d, rfl⟩⟩ <;>
      exact .inl (SameRegisters.move (by constructor <;> rfl))
  | deviceAnswers k =>
    cases h
    rcases s.deviceAnswers_cases k with e | ⟨r, -, e⟩ <;> rw [e] <;>
      exact .inl (SameRegisters.move (by constructor <;> rfl))
  | timeout k =>
    cases h
    rcases s.timeout_cases k with e | ⟨r, e', -, e⟩ <;> rw [e] <;>
      exact .inl (SameRegisters.move (by constructor <;> rfl))
  | prefetch n =>
    cases h
    rcases s.prefetch_cases n with e | ⟨o, l, e⟩ <;> rw [e] <;>
      exact .inl (SameRegisters.move (by constructor <;> rfl))
  | dropDte k forget =>
    cases h
    rcases s.dropDte_cases k forget with e | ⟨x, -, e⟩ <;> rw [e] <;>
      exact .inl (SameRegisters.move (by constructor <;> rfl))
  | sendInterrupt => cases h; exact .inl (SameRegisters.move (by constructor <;> simp))
  | classRead | fromUpstream | platform | dropTlb | dropPdc | dropIrte =>
    cases h; exact .inl (SameRegisters.move (by constructor <;> rfl))

end Sys2Proof.Machine
end


section
/-! PROOFS. Every step keeps the reserved register bits at 0 and the pointers inside their rings (spec/10_state.md R29 to
R46), and the run bits above the conditions they show (spec/44_commands.md R333, spec/60_exceptions.md R428). -/

namespace Sys2Proof.Machine

/-! ### Reserved bits and rings -/

/-- No writable bit of a control register is a reserved one. -/
theorem MmioReg.writable_and_reserved (r : MmioReg) : r.writable &&& r.reserved = 0 := by cases r <;> decide

/-- A write of a register leaves its reserved bits 0. -/
theorem State.written_reserved {s : State} (h : s.reservedClear) (r : MmioReg) (lane : Nat) (data : List Byte) :
    s.written r lane data &&& r.reserved = 0 := by
  rw [State.written, merge_unwritable _ _ _ _ _ r.writable_and_reserved, h r]

/-- The reserved bits of the status register are those from bit 5 up. -/
theorem status_reserved_iff (r : Reg) : r &&& MmioReg.status.reserved = 0 ↔ ∀ n, 5 ≤ n → r.getLsbD n = false := by
  have hbit : ∀ n, n < 64 → MmioReg.status.reserved.getLsbD n = decide (5 ≤ n) := by decide
  constructor
  · intro h n hn
    by_cases hlt : n < 64
    · have := congrArg (fun v => BitVec.getLsbD v n) h
      simpa [hbit n hlt, hn] using this
    · exact BitVec.getLsbD_of_ge _ _ (by omega)
  · intro h
    apply BitVec.eq_of_getLsbD_eq
    intro n hn
    rw [BitVec.getLsbD_and, hbit n hn]
    by_cases h5 : 5 ≤ n
    · simp [h n h5]
    · simp [h5]

/-- The reserved bits are those of eleven registers. -/
theorem State.reservedClear_iff (s : State) : s.reservedClear ↔
    (s.devTabBase &&& MmioReg.devTabBase.reserved = 0 ∧ s.cmdBase &&& MmioReg.cmdBase.reserved = 0 ∧
      s.evtBase &&& MmioReg.evtBase.reserved = 0 ∧ s.control &&& MmioReg.control.reserved = 0 ∧
      s.exclBase &&& MmioReg.exclBase.reserved = 0 ∧ s.exclLimit &&& MmioReg.exclLimit.reserved = 0) ∧
    (s.cmdHead &&& MmioReg.cmdHead.reserved = 0 ∧ s.cmdTail &&& MmioReg.cmdTail.reserved = 0 ∧
      s.evtHead &&& MmioReg.evtHead.reserved = 0 ∧ s.evtTail &&& MmioReg.evtTail.reserved = 0 ∧
      s.status &&& MmioReg.status.reserved = 0) := by
  constructor
  · exact fun h => ⟨⟨h .devTabBase, h .cmdBase, h .evtBase, h .control, h .exclBase, h .exclLimit⟩, h .cmdHead, h .cmdTail,
      h .evtHead, h .evtTail, h .status⟩
  · rintro ⟨⟨h1, h2, h3, h4, h5, h6⟩, h7, h8, h9, h10, h11⟩ r
    cases r <;> assumption

/-- The registers are formed: reserved bits 0, ring lengths unreserved, pointers inside their rings. -/
def State.formed (s : State) : Prop := s.reservedClear ∧ s.ringsFormed

theorem RegistersMove.headIndex_lt {s t : State} (h : RegistersMove s t) (hs : s.headIndex < s.cmdEntries) :
    t.headIndex < s.cmdEntries := by
  rcases h.cmdHead with e | e <;> rw [State.headIndex, e]
  · exact hs
  · exact (pointerIndex_mod s.cmdBase (s.headIndex + 1)).trans_lt (Nat.mod_lt _ (ringEntries_pos _))

theorem RegistersMove.evtTailIndex_lt {s t : State} (h : RegistersMove s t) (hs : s.evtTailIndex < s.evtEntries) :
    t.evtTailIndex < s.evtEntries := by
  rcases h.evtTail with e | e <;> rw [State.evtTailIndex, e]
  · exact hs
  · exact (pointerIndex_mod s.evtBase (s.evtTailIndex + 1)).trans_lt (Nat.mod_lt _ (ringEntries_pos _))

/-- What the IOMMU does by itself keeps the registers formed: its pointers move modulo their rings (R335, R430). -/
theorem RegistersMove.formed {s t : State} (h : RegistersMove s t) (hs : s.formed) : t.formed := by
  obtain ⟨hclear, hcmd, hevt, hhead, htail, hehead, hetail⟩ := hs
  obtain ⟨⟨r1, r2, r3, r4, r5, r6⟩, r7, r8, r9, r10, r11⟩ := s.reservedClear_iff.mp hclear
  have hentries : t.cmdEntries = s.cmdEntries ∧ t.evtEntries = s.evtEntries := by
    simp only [State.cmdEntries, State.evtEntries, h.cmdBase, h.evtBase, and_self]
  refine ⟨t.reservedClear_iff.mpr ⟨⟨?_, ?_, ?_, ?_, ?_, ?_⟩, ?cmdHead, ?_, ?_, ?evtTail, ?status⟩, ?_, ?_, ?_, ?_, ?_, ?_⟩
  case cmdHead =>
    rcases h.cmdHead with e | e <;> rw [e]
    · exact r7
    · exact pointerOf_reserved _
  case evtTail =>
    rcases h.evtTail with e | e <;> rw [e]
    · exact r10
    · exact pointerOf_reserved _
  case status =>
    rw [status_reserved_iff] at r11 ⊢
    exact fun n hn => (h.status n (by omega)).trans (r11 n hn)
  case refine_9 => rw [h.cmdBase]; exact hcmd
  case refine_10 => rw [h.evtBase]; exact hevt
  case refine_11 => rw [hentries.1]; exact h.headIndex_lt hhead
  case refine_12 => rw [hentries.1, State.tailIndex, h.cmdTail]; exact htail
  case refine_13 => rw [hentries.2, State.evtHeadIndex, h.evtHead]; exact hehead
  case refine_14 => rw [hentries.2]; exact h.evtTailIndex_lt hetail
  all_goals simp only [h.devTabBase, h.cmdBase, h.evtBase, h.control, h.exclBase, h.exclLimit, h.cmdTail, h.evtHead]
  all_goals assumption

/-- A bit of the status register after a write of the control register: the run bits can rise, EventOverflow can be
cleared, and no other bit changes. -/
theorem getLsbD_riseStatus (fetching before after : Bool) (status : Reg) (n : Nat) :
    (riseEvtRun before after (riseCmdRun fetching status)).getLsbD n =
      if n = 0 then status.getLsbD 0 && !(after && !before)
      else if n = 3 then status.getLsbD 3 || (after && !before)
      else if n = 4 then status.getLsbD 4 || fetching
      else status.getLsbD n := by
  have hcmd : ∀ k, (riseCmdRun fetching status).getLsbD k = if k = 4 then status.getLsbD 4 || fetching else status.getLsbD k := by
    intro k
    cases fetching
    · by_cases hk : k = 4
      · simp [riseCmdRun, hk]
      · simp [riseCmdRun, hk]
    · rw [riseCmdRun, if_pos rfl, getLsbD_withBit _ _ _ _ (by decide)]
      simp
  unfold riseEvtRun
  cases hr : after && !before
  · rw [if_neg (by decide), hcmd]
    by_cases h0 : n = 0
    · simp [h0]
    · by_cases h3 : n = 3 <;> simp [h0, h3]
  · rw [if_pos rfl, getLsbD_withBit _ _ _ _ (by decide), getLsbD_withBit _ _ _ _ (by decide), hcmd]
    by_cases h0 : n = 0
    · simp [h0]
    · by_cases h3 : n = 3 <;> simp [h0, h3]

theorem clearByOnes_high (status written : Reg) {n : Nat} (hn : 3 ≤ n) :
    (clearByOnes status written).getLsbD n = status.getLsbD n := by
  have h7 : (7 : Reg).getLsbD n = false := by
    by_cases hlt : n < 64
    · have : ∀ k, k < 64 → 3 ≤ k → (7 : Reg).getLsbD k = false := by decide
      exact this n hlt hn
    · exact BitVec.getLsbD_of_ge _ _ (by omega)
  rw [clearByOnes, BitVec.getLsbD_and, BitVec.getLsbD_not, BitVec.getLsbD_and, h7, Bool.and_false]
  by_cases hlt : n < 64
  · simp only [hlt, decide_true, Bool.not_false, Bool.and_true]
  · rw [BitVec.getLsbD_of_ge _ _ (by omega), Bool.false_and]

/-- A write of a control register that is not refused keeps the registers formed: a base write resets the pointers of its
ring, and a pointer is taken only inside it (R31, R32, R40 to R43). -/
theorem RegisterWritten.formed {s t : State} {r : MmioReg} {lane : Nat} {data : List Byte}
    (h : RegisterWritten s lane data r t) (hs : s.formed) : t.formed := by
  obtain ⟨hclear, hcmd, hevt, hhead, htail, hehead, hetail⟩ := hs
  have hnew : s.written r lane data &&& r.reserved = 0 := State.written_reserved hclear r lane data
  obtain ⟨⟨r1, r2, r3, r4, r5, r6⟩, r7, r8, r9, r10, r11⟩ := s.reservedClear_iff.mp hclear
  have zero_lt : ∀ base : Reg, pointerIndex 0 < ringEntries base := ringEntries_pos
  have zero_clear : ∀ q : MmioReg, 0 &&& q.reserved = 0 := fun q => BitVec.zero_and
  have hstatus := (status_reserved_iff _).mp r11
  cases h with
  | devTabBase =>
    exact ⟨(State.reservedClear_iff _).mpr ⟨⟨hnew, r2, r3, r4, r5, r6⟩, r7, r8, r9, r10, r11⟩, hcmd, hevt, hhead, htail,
      hehead, hetail⟩
  | exclBase =>
    exact ⟨(State.reservedClear_iff _).mpr ⟨⟨r1, r2, r3, r4, hnew, r6⟩, r7, r8, r9, r10, r11⟩, hcmd, hevt, hhead, htail,
      hehead, hetail⟩
  | exclLimit =>
    exact ⟨(State.reservedClear_iff _).mpr ⟨⟨r1, r2, r3, r4, r5, hnew⟩, r7, r8, r9, r10, r11⟩, hcmd, hevt, hhead, htail,
      hehead, hetail⟩
  | cmdBase hlen =>
    exact ⟨(State.reservedClear_iff _).mpr ⟨⟨r1, hnew, r3, r4, r5, r6⟩, zero_clear _, zero_clear _, r9, r10, r11⟩, hlen, hevt,
      zero_lt _, zero_lt _, hehead, hetail⟩
  | evtBase hlen =>
    exact ⟨(State.reservedClear_iff _).mpr ⟨⟨r1, r2, hnew, r4, r5, r6⟩, r7, r8, zero_clear _, zero_clear _, r11⟩, hcmd, hlen,
      hhead, htail, zero_lt _, zero_lt _⟩
  | control =>
    refine ⟨(State.reservedClear_iff _).mpr ⟨⟨r1, r2, r3, hnew, r5, r6⟩, r7, r8, r9, r10, ?_⟩, hcmd, hevt, hhead, htail,
      hehead, hetail⟩
    refine (status_reserved_iff _).mpr fun n hn => (getLsbD_riseStatus _ _ _ _ n).trans ?_
    rw [if_neg (by omega), if_neg (by omega), if_neg (by omega)]
    exact hstatus n hn
  | cmdHead hin =>
    exact ⟨(State.reservedClear_iff _).mpr ⟨⟨r1, r2, r3, r4, r5, r6⟩, hnew, r8, r9, r10, r11⟩, hcmd, hevt, hin, htail,
      hehead, hetail⟩
  | cmdTail hin =>
    exact ⟨(State.reservedClear_iff _).mpr ⟨⟨r1, r2, r3, r4, r5, r6⟩, r7, hnew, r9, r10, r11⟩, hcmd, hevt, hhead, hin,
      hehead, hetail⟩
  | evtHead hin =>
    exact ⟨(State.reservedClear_iff _).mpr ⟨⟨r1, r2, r3, r4, r5, r6⟩, r7, r8, hnew, r10, r11⟩, hcmd, hevt, hhead, htail,
      hin, hetail⟩
  | evtTail hin =>
    exact ⟨(State.reservedClear_iff _).mpr ⟨⟨r1, r2, r3, r4, r5, r6⟩, r7, r8, r9, hnew, r11⟩, hcmd, hevt, hhead, htail,
      hehead, hin⟩
  | status =>
    refine ⟨(State.reservedClear_iff _).mpr ⟨⟨r1, r2, r3, r4, r5, r6⟩, r7, r8, r9, r10, ?_⟩, hcmd, hevt, hhead, htail,
      hehead, hetail⟩
    exact (status_reserved_iff _).mpr fun n hn => (clearByOnes_high _ _ (by omega)).trans (hstatus n hn)

/-- A configuration write reaches the capability block alone. -/
theorem State.writeCap_frame (s : State) (offset : Nat) (data : List Byte) : s.writeCap offset data = { s with
    capBaseLow := (s.writeCap offset data).capBaseLow, capBaseHigh := (s.writeCap offset data).capBaseHigh,
    capRange := (s.writeCap offset data).capRange, capMisc := (s.writeCap offset data).capMisc } := by
  unfold State.writeCap
  dsimp only
  repeat' split
  all_goals rfl

/-- A change of status bits below bit 5 alone keeps the registers formed. -/
theorem State.formed_of_status {s : State} {status : Reg} (h : ∀ n, 5 ≤ n → status.getLsbD n = s.status.getLsbD n)
    (hs : s.formed) : State.formed { s with status := status } := by
  obtain ⟨hclear, hrings⟩ := hs
  obtain ⟨hbases, r7, r8, r9, r10, r11⟩ := s.reservedClear_iff.mp hclear
  have hnew := (status_reserved_iff status).mpr fun n hn => (h n hn).trans ((status_reserved_iff _).mp r11 n hn)
  exact ⟨(State.reservedClear_iff _).mpr ⟨hbases, r7, r8, r9, r10, hnew⟩, hrings⟩

theorem State.systemReset_formed (s : State) : s.systemReset.formed := by
  refine ⟨fun q => ?_, ?_⟩
  · show State.reset.mmioReg q &&& q.reserved = 0
    cases q <;> decide
  · show State.reset.ringsFormed
    decide

theorem State.act_formed {s t : State} {a : Action} (hs : s.formed) (h : s.act a = .next t) : t.formed := by
  rcases State.act_registers h with hm | ⟨-, -, r, lane, data, hr⟩ | ⟨offset, data, -, rfl⟩ | ⟨-, rfl⟩ | ⟨-, rfl⟩ | ⟨-, rfl⟩
  · exact hm.formed hs
  · exact hr.formed hs
  · rw [s.writeCap_frame]; exact hs
  · exact s.systemReset_formed
  · unfold State.settleCmdRun
    split
    · exact State.formed_of_status (fun n hn => by rw [getLsbD_withBit _ _ _ _ (by decide), if_neg (by omega)]) hs
    · exact hs
  · unfold State.settleEvtRun
    split
    · exact State.formed_of_status (fun n hn => by rw [getLsbD_withBit _ _ _ _ (by decide), if_neg (by omega)]) hs
    · exact hs

/-- Settles O57: what the IOMMU does by itself moves its pointers modulo their rings, software's writes are masked, and
those of a reserved length or of a pointer outside its ring are refused. -/
theorem stepKeepsRegistersFormed : Obligations.StepKeepsRegistersFormed := by
  intro s t hclear hrings h
  exact step_keeps (P := State.formed) (fun _ hs => hs) (fun _ _ hs => hs) (fun _ _ _ hs h => State.act_formed hs h)
    (fun _ _ hs h => (State.fetchThen_moves (.inl rfl) h).formed hs) ⟨hclear, hrings⟩ h

/-! ### The run bits -/

theorem RegistersMove.cmdBufRun {s t : State} (h : RegistersMove s t) : t.cmdBufRun = s.cmdBufRun :=
  h.status 4 (by decide)

theorem RegistersMove.eventLogRun {s t : State} (h : RegistersMove s t) : t.eventLogRun = s.eventLogRun :=
  h.status 3 (by decide)

/-- What the IOMMU does by itself can end fetching, and begin none. -/
theorem RegistersMove.fetching {s t : State} (h : RegistersMove s t) (hf : t.fetching = true) : s.fetching = true := by
  simp only [State.fetching, State.cmdBufEn, State.iommuEn, h.control, Bool.and_eq_true, Bool.not_eq_true'] at hf ⊢
  refine ⟨hf.1, ?_⟩
  by_contra hs
  rw [h.halted (by simpa using hs)] at hf
  exact absurd hf.2 (by decide)

/-- What the IOMMU does by itself can end logging, and begin none. -/
theorem RegistersMove.logging {s t : State} (h : RegistersMove s t) (hl : t.logging = true) : s.logging = true := by
  simp only [State.logging, State.eventLogEn, State.iommuEn, h.control, Bool.and_eq_true, Bool.not_eq_true'] at hl ⊢
  refine ⟨hl.1, ?_⟩
  by_contra hs
  rw [h.evtHalted (by simpa using hs)] at hl
  exact absurd hl.2 (by decide)

theorem RegistersMove.runBitsShown {s t : State} (h : RegistersMove s t) (hs : s.runBitsShown) : t.runBitsShown :=
  ⟨fun hf => h.cmdBufRun.trans (hs.1 (h.fetching hf)), fun hl => h.eventLogRun.trans (hs.2 (h.logging hl))⟩

/-- Of software's writes of a control register only one of the control register changes what the run bits show, and that
raises them (R333, R428). -/
theorem RegisterWritten.runBitsShown {s t : State} {r : MmioReg} {lane : Nat} {data : List Byte}
    (h : RegisterWritten s lane data r t) (hs : s.runBitsShown) : t.runBitsShown := by
  cases h with
  | control =>
    constructor
    · intro hf
      refine (getLsbD_riseStatus _ _ _ _ 4).trans ?_
      simp only [OfNat.ofNat_ne_zero, if_false, if_true, show ¬(4 = 3) by decide, Bool.or_eq_true]
      exact .inr hf
    · intro hl
      refine (getLsbD_riseStatus _ _ _ _ 3).trans ?_
      simp only [OfNat.ofNat_ne_zero, if_false, if_true, Bool.or_eq_true, Bool.and_eq_true, Bool.not_eq_true']
      cases hb : s.logging
      · exact .inr ⟨hl, rfl⟩
      · exact .inl (hs.2 hb)
  | status =>
    exact ⟨fun hf => (clearByOnes_high _ _ (by decide)).trans (hs.1 hf),
      fun hl => (clearByOnes_high _ _ (by decide)).trans (hs.2 hl)⟩
  | _ => exact hs

theorem State.act_runBitsShown {s t : State} {a : Action} (hs : s.runBitsShown) (h : s.act a = .next t) :
    t.runBitsShown := by
  rcases State.act_registers h with hm | ⟨-, -, r, lane, data, hr⟩ | ⟨offset, data, -, rfl⟩ | ⟨-, rfl⟩ | ⟨-, rfl⟩ | ⟨-, rfl⟩
  · exact hm.runBitsShown hs
  · exact hr.runBitsShown hs
  · rw [s.writeCap_frame]; exact hs
  · show State.reset.runBitsShown
    decide
  · unfold State.settleCmdRun
    split
    · rename_i hfalls
      simp only [State.cmdRunFalls, Bool.and_eq_true, Bool.not_eq_true'] at hfalls
      refine ⟨fun hf => ?_, fun hl => ?_⟩
      · exact Bool.noConfusion (hfalls.1.2.symm.trans hf)
      · exact (getLsbD_withBit _ _ _ _ (by decide)).trans (hs.2 hl)
    · exact hs
  · unfold State.settleEvtRun
    split
    · rename_i hfalls
      simp only [State.evtRunFalls, Bool.and_eq_true, Bool.not_eq_true'] at hfalls
      refine ⟨fun hf => ?_, fun hl => ?_⟩
      · exact (getLsbD_withBit _ _ _ _ (by decide)).trans (hs.1 hf)
      · exact Bool.noConfusion (hfalls.2.symm.trans hl)
    · exact hs

/-- Settles O58: fetching and logging begin only by a write of the control register, which raises the run bits, and a run
bit falls only where its condition is false. -/
theorem stepKeepsRunBitsShown : Obligations.StepKeepsRunBitsShown := by
  intro s t hs h
  exact step_keeps (P := State.runBitsShown) (fun _ hs => hs) (fun _ _ hs => hs)
    (fun _ _ _ hs h => State.act_runBitsShown hs h) (fun _ _ hs h => (State.fetchThen_moves (.inl rfl) h).runBitsShown hs) hs h

end Sys2Proof.Machine
end


section
/-! PROOFS. What a step does to system memory: the canonical form is kept, and the IOMMU by itself writes no more than
log entries and the stores of COMPLETION_WAIT (spec/20_memory.md R104). -/

namespace Sys2Proof.Machine

/-! ### Memory under what the IOMMU does by itself -/

/-- What the IOMMU by itself can do to memory: nothing, the store of a command that may run, or what a report writes. -/
def OwnMemory (s t : State) : Prop :=
  (t.mem = s.mem ∧ t.dram = s.dram) ∨ (∃ i, s.mayRun i ∧ Instr.stored i s t) ∨ ∃ k p, t = (s.dropEvent k).report p

theorem Taken.memory {i : Instr} {u t : State} (h : Taken i u t) :
    (t.mem = u.mem ∧ t.dram = u.dram) ∨ Instr.stored i u t := by
  rcases h with rfl | rfl | ⟨v, hv, rfl | ⟨p, rfl⟩⟩
  · exact .inl ⟨rfl, rfl⟩
  · exact .inl ⟨rfl, rfl⟩
  · exact hv.memory
  · exact hv.memory

theorem State.fetchThen_memory {run : Instr → State → Result} (hrun : takesCommand run) {s t : State}
    (h : s.fetchThen run = .next t) : OwnMemory s t := by
  rcases State.fetchThen_next hrun h with ⟨f, rfl⟩ | ⟨u, w, hu, ht⟩
  · exact .inl ⟨rfl, rfl⟩
  have hmem : u.mem = s.mem ∧ u.dram = s.dram := by
    rcases State.fetchEntry_cases hu with rfl | rfl <;> exact ⟨rfl, rfl⟩
  rcases ht with rfl | ⟨i, hi, htaken⟩
  · exact .inl hmem
  rcases htaken.memory with ⟨e1, e2⟩ | hstored
  · exact .inl ⟨e1.trans hmem.1, e2.trans hmem.2⟩
  · refine .inr (.inl ⟨i, .inr ⟨u, w, hu, hi⟩, ?_⟩)
    rcases State.fetchEntry_cases hu with rfl | rfl <;> exact hstored

theorem EngineFrame.memory {s t : State} (h : EngineFrame s t) : t.mem = s.mem ∧ t.dram = s.dram := by
  unfold EngineFrame at h
  rw [h]
  exact ⟨rfl, rfl⟩

/-- An action writes memory as the IOMMU by itself does, or it is the environment's and keeps the canonical form. -/
theorem State.act_memory {s t : State} {a : Action} (h : s.act a = .next t) :
    OwnMemory s t ∨ (a.own = false ∧ (s.memoryCanonical → t.memoryCanonical)) := by
  cases a with
  | cpuWrite addr data cached =>
    refine .inr ⟨rfl, fun hc => ?_⟩
    rcases State.cpuWrite_cases h with rfl | ⟨-, r, lane, hr⟩ | rfl | rfl
    · exact hc
    · cases hr <;> exact hc
    · exact ⟨Memory.wf_writeBytes _ _ _ hc.1, hc.2⟩
    · exact State.store_canonical _ _ hc
  | writeBack addr len =>
    obtain rfl := State.writeBack_cases h
    exact .inr ⟨rfl, fun hc => ⟨hc.1, Memory.wf_writeBytes _ _ _ hc.2⟩⟩
  | hostTakesWrite k =>
    rcases State.hostTakesWrite_cases h with rfl | ⟨f, -, rfl | rfl⟩
    · exact .inl (.inl ⟨rfl, rfl⟩)
    · exact .inl (.inl ⟨rfl, rfl⟩)
    · exact .inr ⟨rfl, fun hc => State.store_canonical _ _ hc⟩
  | hostAnswers k x =>
    rcases State.hostAnswers_cases h with rfl | ⟨f, u, -, rfl, rfl | ⟨d, rfl⟩⟩
    · exact .inl (.inl ⟨rfl, rfl⟩)
    · exact .inl (.inl ⟨rfl, rfl⟩)
    · exact .inr ⟨rfl, fun hc => State.store_canonical _ _ hc⟩
  | fetch =>
    change (if s.canFetch then s.fetchThen holdCommand else .next s) = .next t at h
    split at h
    · exact .inl (State.fetchThen_memory (.inr rfl) h)
    · cases h; exact .inl (.inl ⟨rfl, rfl⟩)
  | run k =>
    rcases State.runCommand_memory h with e | ⟨c, hc, hstored⟩
    · exact .inl (.inl e)
    · exact .inl (.inr (.inl ⟨c.instr, .inl ⟨c, hc, rfl⟩, hstored⟩))
  | report k =>
    cases h
    rcases s.reportAt_cases k with e | ⟨p, -, e⟩ <;> rw [e]
    · exact .inl (.inl ⟨rfl, rfl⟩)
    · exact .inl (.inr (.inr ⟨k, p, rfl⟩))
  | advance k c => exact .inl (.inl (State.advance_frame h).memory)
  | cpuRead addr len => obtain ⟨d, rfl⟩ := State.cpuRead_cases h; exact .inl (.inl ⟨rfl, rfl⟩)
  | cfgRead offset len => obtain ⟨d, rfl⟩ := State.cfgRead_cases h; exact .inl (.inl ⟨rfl, rfl⟩)
  | cfgWrite offset data =>
    obtain rfl := State.cfgWrite_cases h
    rw [s.writeCap_frame]
    exact .inl (.inl ⟨rfl, rfl⟩)
  | arrive tx =>
    rcases State.arrive_cases h with rfl | ⟨o, rfl⟩ | rfl | rfl
    · exact .inl (.inl ⟨rfl, rfl⟩)
    · exact .inl (.inl ⟨rfl, rfl⟩)
    · exact .inl (.inl (by simp [State.bypass]))
    · exact .inl (.inl ⟨rfl, rfl⟩)
  | deviceAnswers k => cases h; rcases s.deviceAnswers_cases k with e | ⟨r, -, e⟩ <;> rw [e] <;> exact .inl (.inl ⟨rfl, rfl⟩)
  | timeout k => cases h; rcases s.timeout_cases k with e | ⟨r, e', -, e⟩ <;> rw [e] <;> exact .inl (.inl ⟨rfl, rfl⟩)
  | prefetch n => cases h; rcases s.prefetch_cases n with e | ⟨o, l, e⟩ <;> rw [e] <;> exact .inl (.inl ⟨rfl, rfl⟩)
  | dropDte k forget => cases h; rcases s.dropDte_cases k forget with e | ⟨x, -, e⟩ <;> rw [e] <;> exact .inl (.inl ⟨rfl, rfl⟩)
  | sendInterrupt | settleCmdRun | settleEvtRun => cases h; exact .inl (.inl (by simp))
  | reset | classRead | fromUpstream | platform | dropTlb | dropPdc | dropIrte => cases h; exact .inl (.inl ⟨rfl, rfl⟩)

theorem OwnMemory.canonical {s t : State} (h : OwnMemory s t) (hc : s.memoryCanonical) : t.memoryCanonical := by
  rcases h with ⟨h1, h2⟩ | ⟨i, -, a, b, d, -, -, h1, h2⟩ | ⟨k, p, rfl⟩
  · exact ⟨by rw [h1]; exact hc.1, by rw [h2]; exact hc.2⟩
  · exact ⟨by rw [h1]; exact Memory.wf_writeBytes _ _ _ hc.1, by rw [h2]; exact Memory.wf_writeBytes _ _ _ hc.2⟩
  · exact State.report_canonical p hc

/-- Settles O56: memory is written by whole bytes through operations that keep the form. -/
theorem stepKeepsMemoryCanonical : Obligations.StepKeepsMemoryCanonical := by
  intro s t hs h
  refine step_keeps (P := State.memoryCanonical) (fun _ hs => hs) (fun _ _ hs => hs) (fun s t a hs h => ?_)
    (fun s t hs h => (State.fetchThen_memory (.inl rfl) h).canonical hs) hs h
  rcases State.act_memory h with hown | ⟨-, hkeeps⟩
  · exact hown.canonical hs
  · exact hkeeps hs

/-! ### What the IOMMU by itself writes -/

/-- The agenda does not matter to what may run. -/
theorem State.mayRun_of_setAgenda {s : State} {rest : List Action} {i : Instr} (h : (s.setAgenda rest).mayRun i) :
    s.mayRun i := by
  rcases h with hc | ⟨u, w, hu, hi⟩
  · exact .inl hc
  right
  unfold State.fetchEntry at hu
  cases hp : s.prefetchedAt s.headIndex with
  | some e =>
    rw [show (s.setAgenda rest).prefetchedAt (s.setAgenda rest).headIndex = some e from hp] at hu
    cases hu
    exact ⟨_, w, State.fetchEntry_copy hp, hi⟩
  | none =>
    rw [show (s.setAgenda rest).prefetchedAt (s.setAgenda rest).headIndex = none from hp] at hu
    cases hr : s.tableRead s.headAddr 16 true with
    | error f =>
      rw [show (s.setAgenda rest).tableRead (s.setAgenda rest).headAddr 16 true = .error f from hr] at hu
      cases hu
    | ok bytes =>
      rw [show (s.setAgenda rest).tableRead (s.setAgenda rest).headAddr 16 true = .ok bytes from hr] at hu
      cases hu
      exact ⟨s.sawRead s.headAddr 16 ringAttrs, _, by rw [State.fetchEntry, hp]; simp only [hr], hi⟩

/-- A byte that the IOMMU by itself changes lies in the log entry at the tail or in the store of a command that may run. -/
theorem OwnMemory.changed {s t : State} {b : Nat} (h : OwnMemory s t)
    (hb : t.mem.read b ≠ s.mem.read b ∨ t.dram.read b ≠ s.dram.read b) :
    (∃ x, s.tableTarget s.evtTailAddr.toNat = .ok x ∧ x ≤ b ∧ b < x + 16) ∨
      ∃ i a x, s.mayRun i ∧ storesAt a i ∧ s.tableTarget a.toNat = .ok x ∧ x ≤ b ∧ b < x + 8 := by
  have same : ∀ x n, s.sameMemoryOutside t x n → x ≤ b ∧ b < x + n := by
    intro x n hsame
    by_contra hout
    obtain ⟨e1, e2⟩ := hsame b (by omega)
    exact hb.elim (· e1) (· e2)
  rcases h with ⟨h1, h2⟩ | ⟨i, hi, a, x, d, ha, hx, h1, h2⟩ | ⟨k, p, rfl⟩
  · rw [h1, h2] at hb
    exact (hb.elim (· rfl) (· rfl)).elim
  · refine .inr ⟨i, a, x, hi, ha, hx, same x 8 ?_⟩
    have hout := s.store_outside x (leBytes 8 d)
    rw [leBytes_length] at hout
    intro c hc
    rw [h1, h2]
    exact hout c hc
  · cases hx : s.tableTarget s.evtTailAddr.toNat with
    | ok x => exact .inl ⟨x, rfl, same x 16 (State.report_outside (s := s.dropEvent k) p hx)⟩
    | error f =>
      obtain ⟨e1, e2⟩ := State.report_wide (s := s.dropEvent k) p hx b
      exact (hb.elim (· e1) (· e2)).elim

/-- Settles O54: of what the IOMMU does by itself only a report and the effect of a COMPLETION_WAIT write memory. -/
theorem iommuWritesOnlyLogAndSemaphore : Obligations.IommuWritesOnlyLogAndSemaphore := by
  intro s t b hown h hb
  rcases hown with ⟨hnil, hup⟩ | ⟨a, rest, hl, ha⟩
  · rw [step_of_nil hnil] at h
    have hmem : OwnMemory s.tick t := by
      rcases s.tick.autonomous_cases with ⟨-, e⟩ | ⟨a, ha | ⟨-, hne⟩, e⟩ | e <;> rw [e] at h
      · exact State.fetchThen_memory (.inl rfl) h
      · exact (State.act_memory h).resolve_right fun hf => by rw [hf.1] at ha; cases ha
      · exact absurd hup hne
      · cases h; exact .inl (by simp)
    exact hmem.changed hb
  · rw [step_of_cons hl] at h
    have hmem : OwnMemory (s.tick.setAgenda rest) t :=
      (State.act_memory h).resolve_right fun hf => by rw [hf.1] at ha; cases ha
    rcases hmem.changed hb with hlog | ⟨i, x, y, hi, hrest⟩
    · exact .inl hlog
    · exact .inr ⟨i, x, y, State.mayRun_of_setAgenda hi, hrest⟩

end Sys2Proof.Machine
end


section
/-! PROOFS. What a step of the transaction engine leads to, and what every step does to the caches (spec/20_memory.md
R105, R111, R124, spec/40_transactions.md R174). -/

namespace Sys2Proof.Machine

/-! ### The end of a transaction, or its next phase -/

/-- The four caches hold what they held. -/
structure SameCaches (s u : State) : Prop where
  dteCache : u.dteCache = s.dteCache
  tlb : u.tlb = s.tlb
  pdc : u.pdc = s.pdc
  irtCache : u.irtCache = s.irtCache

/-- The transactions in progress are as they were but for this one, which is no longer processed or has got to another
phase, one of which `Q` holds. -/
def Continues (s u : State) (t : InFlight) (Q : TxPhase → Prop) : Prop :=
  s.leaves u t ∨ ∃ p, Q p ∧ u.inFlight = (s.setTx t p).inFlight

/-- A part of the engine that fills no cache: the transaction ends or goes on in a phase of which `Q` holds. -/
structure Judged (s u : State) (t : InFlight) (Q : TxPhase → Prop) : Prop where
  caches : SameCaches s u
  continues : Continues s u t Q

/-- A part of the engine that fills no cache and ends the transaction. -/
structure Ended (s u : State) (t : InFlight) : Prop where
  caches : SameCaches s u
  leaves : s.leaves u t

theorem Ended.judged {s u : State} {t : InFlight} {Q : TxPhase → Prop} (h : Ended s u t) : Judged s u t Q :=
  ⟨h.caches, .inl h.leaves⟩

theorem Judged.mono {s u : State} {t : InFlight} {Q R : TxPhase → Prop} (h : Judged s u t Q) (hQ : ∀ p, Q p → R p) :
    Judged s u t R :=
  ⟨h.caches, h.continues.imp id fun ⟨p, hp, e⟩ => ⟨p, hQ p hp, e⟩⟩

theorem State.refuseTx_ended (s : State) (t : InFlight) (a : Abort) : Ended s (s.refuseTx t a) t := ⟨⟨rfl, rfl, rfl, rfl⟩, rfl⟩

theorem State.raise_refuseTx_ended (s : State) (e : Event) (t : InFlight) (a : Abort) :
    Ended s ((s.raise e).refuseTx t a) t := ⟨⟨rfl, rfl, rfl, rfl⟩, rfl⟩

theorem State.raiseUnless_refuseTx_ended (s : State) (b : Bool) (e : Event) (t : InFlight) (a : Abort) :
    Ended s ((s.raiseUnless b e).refuseTx t a) t := by
  cases b
  · exact s.raise_refuseTx_ended e t a
  · exact s.refuseTx_ended t a

theorem State.raisePageFault_refuseTx_ended (s : State) (d : Dte) (dev : DeviceId) (e : Event) (t : InFlight) (a : Abort) :
    Ended s ((s.raisePageFault d dev e).refuseTx t a) t := by
  constructor
  · constructor <;> simp
  · simp [State.leaves]

theorem State.sendUp_ended (s : State) (t : InFlight) (f : Forwarded) : Ended s ((s.retire t).sendUp f) t := by
  constructor
  · constructor <;> simp
  · simp [State.leaves]

theorem State.answerPages_ended (s : State) (t : InFlight) (p : Config.PageAnswer) : Ended s (s.answerPages t p) t :=
  ⟨⟨rfl, rfl, rfl, rfl⟩, rfl⟩

theorem State.answerDirect_ended (s : State) (t : InFlight) (p : Config.PageAnswer) : Ended s (s.answerDirect t p) t := by
  unfold State.answerDirect
  split
  · exact ⟨⟨rfl, rfl, rfl, rfl⟩, rfl⟩
  · exact s.answerPages_ended t p

theorem State.finishMemory_ended (s : State) (t : InFlight) (d : Dte) (use : PageUse) (spa : Addr) (ir iw fc : Bool) :
    Ended s (s.finishMemory t d use spa ir iw fc) t := by
  unfold State.finishMemory
  split
  · exact s.sendUp_ended t _
  · exact s.raisePageFault_refuseTx_ended d _ _ t _

theorem State.finishDirect_ended (s : State) (t : InFlight) (d : Dte) : Ended s (s.finishDirect t d) t := by
  unfold State.finishDirect
  split
  · exact s.answerDirect_ended t _
  · exact s.finishMemory_ended t d _ _ _ _ _

theorem State.finishPage_ended (s : State) (t : InFlight) (d : Dte) (use : PageUse) (spa : Addr) (bits : Nat)
    (ir iw fc u : Bool) : Ended s (s.finishPage t d use spa bits ir iw fc u) t := by
  unfold State.finishPage
  split
  · exact s.answerPages_ended t _
  · exact s.finishMemory_ended t d _ _ _ _ _

theorem State.finishFault_ended (s : State) (t : InFlight) (d : Dte) (pr rz ir iw : Bool) :
    Ended s (s.finishFault t d pr rz ir iw) t := by
  unfold State.finishFault
  split
  · exact s.answerPages_ended t _
  · exact s.raisePageFault_refuseTx_ended d _ _ t _

theorem State.finishWalk_ended (s : State) (t : InFlight) (d : Dte) (use : PageUse) (dva : Addr) (ir iw : Bool)
    (r : WalkResult) : Ended s (s.finishWalk t d use dva ir iw r) t := by
  cases r with
  | page base bits ir' iw' fc u => exact s.finishPage_ended t d use _ _ _ _ _ _
  | fault pr rz ir' iw' => exact s.finishFault_ended t d _ _ _ _

theorem State.finishRemap_ended (s : State) (t : InFlight) (d : Dte) (e : BitVec 32) : Ended s (s.finishRemap t d e) t := by
  unfold State.finishRemap
  split
  · exact s.raiseUnless_refuseTx_ended _ _ t _
  · exact s.sendUp_ended t _

theorem State.setTx_judged (s : State) (t : InFlight) (p : TxPhase) {Q : TxPhase → Prop} (h : Q p) :
    Judged s (s.setTx t p) t Q :=
  ⟨⟨rfl, rfl, rfl, rfl⟩, .inr ⟨p, h, rfl⟩⟩

theorem State.beginTranslate_judged (s : State) (t : InFlight) (d : Dte) :
    Judged s (s.beginTranslate t d) t fun p => 2 ≤ p.stage := by
  unfold State.beginTranslate
  split
  · exact (s.finishDirect_ended t d).judged
  split
  · exact (s.finishFault_ended t d _ _ _ _).judged
  · exact s.setTx_judged t _ (Nat.le_refl 2)

/-- A judged transaction ends, or its walk or its lookup of an interrupt table entry is to begin. -/
theorem State.judged_judged (s : State) (t : InFlight) (d : Dte) : Judged s (s.judged t d) t fun p => 2 ≤ p.stage := by
  unfold State.judged
  cases s.judge t.tx d with
  | pass => exact (s.sendUp_ended t _).judged
  | deny a e b => exact (s.raiseUnless_refuseTx_ended b e t a).judged
  | fault e => exact (s.raisePageFault_refuseTx_ended d _ e t _).judged
  | excluded => exact (s.answerDirect_ended t _).judged
  | translate => exact s.beginTranslate_judged t d
  | remap n => exact s.setTx_judged t _ (by decide : 2 ≤ 3)

/-! ### One step of a transaction -/

/-- What one step of a transaction can lead to: it ends or goes on in a phase of which `Q` holds, and what has been put
into the translation cache and the device table cache was present or valid, or `NpCache` = 1. -/
structure Advanced (s u : State) (t : InFlight) (Q : TxPhase → Prop) : Prop where
  continues : Continues s u t Q
  tlb : ∃ l, u.tlb = l ++ s.tlb ∧ ∀ e ∈ l, e.result.present = true ∨ s.npCache = true
  dteCache : ∃ l, u.dteCache = l ++ s.dteCache ∧ ∀ e ∈ l, e.valid = true ∨ s.npCache = true

theorem Judged.advanced {s u : State} {t : InFlight} {Q : TxPhase → Prop} (h : Judged s u t Q) : Advanced s u t Q :=
  ⟨h.continues, ⟨[], h.caches.tlb, by simp⟩, ⟨[], h.caches.dteCache, by simp⟩⟩

theorem Advanced.mono {s u : State} {t : InFlight} {Q R : TxPhase → Prop} (h : Advanced s u t Q) (hQ : ∀ p, Q p → R p) :
    Advanced s u t R :=
  ⟨h.continues.imp id fun ⟨p, hp, e⟩ => ⟨p, hQ p hp, e⟩, h.tlb, h.dteCache⟩

/-- A read that leaves a trace changes neither the transactions nor the caches. -/
theorem Advanced.of_sawRead {s u : State} {t : InFlight} {Q : TxPhase → Prop} {a : Addr} {n : Nat} {x : Attrs}
    (h : Advanced (s.sawRead a n x) u t Q) : Advanced s u t Q := ⟨h.continues, h.tlb, h.dteCache⟩

theorem Advanced.of_fillIrte {s u : State} {t : InFlight} {Q : TxPhase → Prop} {dev : DeviceId} {n : Nat} {e : BitVec 32}
    (h : Advanced (s.fillIrte dev n e) u t Q) : Advanced s u t Q := ⟨h.continues, h.tlb, h.dteCache⟩

theorem Judged.after_keepDte {s u : State} {t : InFlight} {c : TxChoice} {l : List DteCacheEntry} {Q : TxPhase → Prop}
    (h : Judged (s.keepDte t c l) u t Q) : Advanced s u t Q := by
  have htlb : (s.keepDte t c l).tlb = s.tlb := by simp
  have hin : (s.keepDte t c l).inFlight = s.inFlight := by simp
  refine ⟨?_, ⟨[], h.caches.tlb.trans htlb, by simp⟩, ?_⟩
  · rcases h.continues with hl | ⟨p, hp, e⟩
    · left; rw [State.leaves, hl, hin]
    · right; refine ⟨p, hp, e.trans ?_⟩; rw [State.setTx_inFlight, State.setTx_inFlight, hin]
  · rw [h.caches.dteCache]
    rcases s.keepDte_cases t c l with e | ⟨-, -, e⟩ <;> rw [e]
    · exact ⟨[], rfl, by simp⟩
    · exact ⟨_, rfl, fun e he => by simpa using (List.mem_filter.mp he).2⟩

theorem State.readHalf_advanced {s : State} {t : InFlight} {h : HalfRead} {k : State → BitVec 128 → State}
    {Q : TxPhase → Prop} (hk : ∀ u v, Advanced u (k u v) t Q) : Advanced s (s.readHalf t h k) t Q := by
  unfold State.readHalf
  dsimp only
  cases h.issued with
  | none =>
    refine Advanced.of_sawRead (a := h.addr) (n := 16) (x := s.devTabAttrs) ?_
    split
    · exact (State.raise_refuseTx_ended _ _ t _).judged.advanced
    · exact hk _ _
  | some x =>
    split
    · exact (State.raise_refuseTx_ended _ _ t _).judged.advanced
    · exact hk _ _

theorem State.finishHigh_advanced (s : State) (t : InFlight) (c : TxChoice) (rest : HalfRead) (lo : BitVec 128) :
    Advanced s (s.finishHigh t c rest lo) t fun p => 2 ≤ p.stage :=
  State.readHalf_advanced fun _ _ => Judged.after_keepDte (State.judged_judged _ t _)

theorem State.finishLow_advanced (s : State) (t : InFlight) (c : TxChoice) (rest : HalfRead) (hi : BitVec 128) :
    Advanced s (s.finishLow t c rest hi) t fun p => 2 ≤ p.stage :=
  State.readHalf_advanced fun _ _ => Judged.after_keepDte (State.judged_judged _ t _)

theorem State.beginHalf_advanced (s : State) (t : InFlight) (c : TxChoice) (lo hi : HalfRead) :
    Advanced s (s.beginHalf t c lo hi) t fun p => 1 ≤ p.stage := by
  unfold State.beginHalf
  split
  · exact State.readHalf_advanced fun _ _ => Judged.after_keepDte (State.setTx_judged _ t _ (by decide : 1 ≤ 1))
  · exact State.readHalf_advanced fun _ _ => Judged.after_keepDte (State.setTx_judged _ t _ (by decide : 1 ≤ 1))

theorem State.readWide_advanced {s : State} {t : InFlight} {k : State → Dte → State} {Q : TxPhase → Prop}
    (hk : ∀ u v, Advanced u (k u v) t Q) : Advanced s (s.readWide t k) t Q := by
  unfold State.readWide
  dsimp only
  refine Advanced.of_sawRead (a := s.dteAddr t.tx.dev) (n := 32) (x := s.devTabAttrs) ?_
  split
  · exact (State.raise_refuseTx_ended _ _ t _).judged.advanced
  split
  · exact (State.raise_refuseTx_ended _ _ t _).judged.advanced
  · exact hk _ _

theorem State.readDte_advanced (s : State) (t : InFlight) (c : TxChoice) :
    Advanced s (s.readDte t c) t fun p => 1 ≤ p.stage := by
  unfold State.readDte
  split
  · exact (State.beginHalf_advanced _ t c _ _).of_sawRead
  split
  · exact State.readWide_advanced fun u v =>
      (Judged.after_keepDte (State.judged_judged _ t v)).mono fun p hp => Nat.le_of_succ_le hp
  · exact s.beginHalf_advanced t c _ _

theorem State.lookupDte_advanced (s : State) (t : InFlight) (c : TxChoice) :
    Advanced s (s.lookupDte t c) t fun p => 1 ≤ p.stage := by
  have weaken : ∀ p : TxPhase, 2 ≤ p.stage → 1 ≤ p.stage := fun _ hp => Nat.le_of_succ_le hp
  unfold State.lookupDte
  split
  · exact (s.judged_judged t _).advanced.mono weaken
  split
  · exact (s.judged_judged t _).advanced.mono weaken
  · exact (s.finishHigh_advanced t c _ _).mono weaken
  · exact (s.finishLow_advanced t c _ _).mono weaken
  · exact s.readDte_advanced t c

theorem State.remapStep_advanced (s : State) (t : InFlight) (d : Dte) (n : Nat) (c : TxChoice) {Q : TxPhase → Prop} :
    Advanced s (s.remapStep t d n c) t Q := by
  unfold State.remapStep
  split
  · exact (s.finishRemap_ended t d _).judged.advanced
  refine Advanced.of_sawRead (a := s.irteAddr d n) (n := 4) (x := s.irtAttrs) ?_
  dsimp only
  split
  · exact (State.raise_refuseTx_ended _ _ t _).judged.advanced
  split
  · exact (State.finishRemap_ended _ t d _).judged.advanced.of_fillIrte
  · exact (State.finishRemap_ended _ t d _).judged.advanced

/-- The walk concluded: what is kept was present, or `NpCache` = 1. -/
theorem State.concludeWalk_advanced (s : State) (t : InFlight) (d : Dte) (w : Walk) (c : TxChoice) (bits : Nat)
    (present : Bool) (r : WalkResult) {Q : TxPhase → Prop} (h : present = true → r.present = true) :
    Advanced s (s.concludeWalk t d w c bits present r) t Q := by
  unfold State.concludeWalk
  split
  · rename_i hkeep
    simp only [Bool.and_eq_true, Bool.or_eq_true] at hkeep
    have hend := State.finishWalk_ended (s.fillTlb (walkEntries d t.tx.dev w c bits r)) t d
      ⟨d.domain, alignDown w.dva bits, bits⟩ w.dva w.dteIr w.dteIw r
    refine ⟨.inl hend.leaves, ⟨_, hend.caches.tlb, fun e he => ?_⟩, ⟨[], hend.caches.dteCache, by simp⟩⟩
    obtain ⟨a, -, rfl⟩ := List.mem_map.mp he
    exact hkeep.2.imp h id
  · exact (s.finishWalk_ended t d _ _ _ _ r).judged.advanced

/-- A walk goes on at a strictly lower level. -/
def stepsDown (d : Dte) (w : Walk) (p : TxPhase) : Prop := ∃ v, p = .walking d v ∧ v.fresh = false ∧ v.level < w.level

theorem enterPte_next_level {e : BitVec 64} {level : Nat} {level6 : Bool} {table : Addr} {next : Nat}
    (h : enterPte e level level6 = .next table next) : next < level := by
  unfold enterPte at h
  split at h
  · cases h
  split at h
  · cases h
  split at h
  · unfold enterSized at h
    split at h
    · cases h
    · split at h <;> cases h
  split at h
  · unfold enterDefault at h
    split at h
    · cases h
    · split at h <;> cases h
  split at h
  · cases h
  · rename_i hlt; cases h; exact Nat.lt_of_not_le hlt

/-- An entry that is not present is a fault of `PR` = 0, and every other fault is one of `PR` = 1. -/
theorem enterPte_fault_present {e : BitVec 64} {level : Nat} {level6 pr rz : Bool}
    (h : enterPte e level level6 = .fault pr rz) : pr = ptePresent e := by
  unfold enterPte at h
  split at h
  · rename_i hp; cases h; simpa using hp.symm
  rename_i hp
  have hp : ptePresent e = true := by simpa using hp
  rw [hp]
  split at h
  · cases h; rfl
  split at h
  · unfold enterSized at h
    split at h
    · cases h; rfl
    · split at h <;> cases h; rfl
  split at h
  · unfold enterDefault at h
    split at h
    · cases h; rfl
    · split at h <;> cases h; rfl
  split at h
  · cases h; rfl
  · cases h

theorem State.walkLevel_advanced (s : State) (t : InFlight) (d : Dte) (w : Walk) (c : TxChoice) :
    Advanced s (s.walkLevel t d w c) t (stepsDown d w) := by
  unfold State.walkLevel
  split
  · exact (s.finishWalk_ended t d _ _ _ _ _).judged.advanced
  refine Advanced.of_sawRead (a := entryAddr w.table w.level w.dva) (n := 8) (x := s.pageTabAttrs d.sd) ?_
  dsimp only
  split
  · exact (State.raise_refuseTx_ended _ _ t _).judged.advanced
  split
  · exact State.concludeWalk_advanced _ t d _ c _ _ _ fun _ => rfl
  · rename_i hfault
    exact State.concludeWalk_advanced _ t d _ c _ _ _ fun hp => (enterPte_fault_present hfault).trans hp
  · rename_i table next hnext
    have hcount : ∀ e, (w.count e).level = w.level := by intro e; unfold Walk.count; split <;> rfl
    have hdown : ∀ e, stepsDown d w (.walking d ((w.count e).descend table next)) := fun e =>
      ⟨_, rfl, rfl, enterPte_next_level hnext⟩
    unfold State.descendWalk
    split
    · exact ⟨.inr ⟨_, hdown _, rfl⟩, ⟨[], rfl, by simp⟩, ⟨[], rfl, by simp⟩⟩
    · exact (State.setTx_judged _ t _ (hdown _)).advanced

/-- One step of a walk that is not refused: a fresh walk is no longer fresh, another one goes down. -/
theorem State.walkOn_advanced (s : State) (t : InFlight) (d : Dte) (w : Walk) (c : TxChoice) :
    Advanced s (s.walkOn t d w c) t (TxPhase.further (.walking d w)) := by
  have hdown : ∀ p, stepsDown d { w with fresh := false } p → TxPhase.further (.walking d w) p := by
    rintro p ⟨v, rfl, hv, hlt⟩
    cases hf : w.fresh with
    | true => left; simp [TxPhase.stage, hf, hv]
    | false => right; exact ⟨d, w, v, rfl, rfl, hf, hv, hlt⟩
  unfold State.walkOn
  split
  · exact (s.finishWalk_ended t d _ _ _ _ _).judged.advanced
  split
  · rename_i p hp
    have hfresh : w.fresh = true := by
      by_contra hf
      simp [hf] at hp
    exact (s.setTx_judged t _ (.inl (by simp [TxPhase.stage, hfresh, Walk.resume]))).advanced
  · exact (s.walkLevel_advanced t d _ c).mono hdown

/-- One step of an accepted transaction: it ends or gets strictly further (R174). -/
theorem State.advanceTx_advanced {s u : State} {t : InFlight} {c : TxChoice} (h : s.advanceTx t c = .next u) :
    Advanced s u t t.phase.further := by
  unfold State.advanceTx at h
  split at h <;> rename_i hp <;> rw [hp]
  · cases h; exact (s.lookupDte_advanced t c).mono fun p hp => .inl hp
  · cases h; exact (s.finishHigh_advanced t c _ _).mono fun p hp => .inl hp
  · cases h; exact (s.finishLow_advanced t c _ _).mono fun p hp => .inl hp
  · obtain ⟨rfl, -⟩ := State.walkStep_next h
    exact s.walkOn_advanced t _ _ c
  · cases h; exact s.remapStep_advanced t _ _ c

theorem State.advance_of_place {s : State} {k : Nat} {t : InFlight} (h : s.inFlight[k]? = some t) (c : TxChoice) :
    s.act (.advance k c) = s.advanceTx t c := by
  show s.advance k c = _
  rw [State.advance, h]

/-- The one stop of an accepted transaction (R233, U26). -/
theorem State.advanceTx_total (s : State) (t : InFlight) (c : TxChoice)
    (h : ¬∃ d w, t.phase = .walking d w ∧ w.fresh = true ∧ s.tablesDisagree d.domain = true) :
    ∃ u, s.advanceTx t c = .next u := by
  unfold State.advanceTx
  split
  · exact ⟨_, rfl⟩
  · exact ⟨_, rfl⟩
  · exact ⟨_, rfl⟩
  · rename_i d w hp
    refine ⟨s.walkOn t d w c, if_neg fun hd => h ⟨d, w, hp, ?_⟩⟩
    simpa using hd
  · exact ⟨_, rfl⟩

theorem filter_map_phase (l : List InFlight) (t : InFlight) (p : TxPhase) :
    (l.map fun x => if x.id = t.id then { x with phase := p } else x).filter (fun x => decide (x.id ≠ t.id)) =
      l.filter fun x => decide (x.id ≠ t.id) := by
  induction l with
  | nil => rfl
  | cons x l ih =>
    by_cases hx : x.id = t.id
    · simpa [hx] using ih
    · simpa [hx] using ih

/-- The transaction ends or has got to one of the phases, and the others are as they were. -/
theorem Continues.others {s u : State} {t : InFlight} {Q : TxPhase → Prop} (h : Continues s u t Q) :
    (∀ x ∈ u.inFlight, x.id = t.id → Q x.phase) ∧
      u.inFlight.filter (fun x => decide (x.id ≠ t.id)) = s.inFlight.filter (fun x => decide (x.id ≠ t.id)) := by
  rcases h with hl | ⟨p, hp, e⟩
  · rw [State.leaves] at hl
    rw [hl]
    refine ⟨fun x hx hid => ?_, by simp⟩
    exact absurd hid (of_decide_eq_true (List.mem_filter.mp hx).2)
  · rw [e, State.setTx_inFlight]
    refine ⟨fun x hx hid => ?_, filter_map_phase _ t p⟩
    obtain ⟨y, -, rfl⟩ := List.mem_map.mp hx
    by_cases hy : y.id = t.id
    · simpa [hy] using hp
    · simp [hy] at hid

/-- Settles O51: each stage of the engine ends the transaction or leads to a later one, and the engine's frame says what
it leaves alone. -/
theorem transactionsGoOnAndWriteNothing : Obligations.TransactionsGoOnAndWriteNothing := by
  intro s k c t ht
  rw [State.advance_of_place ht]
  constructor
  · rintro ⟨d, w, hp, hf, hd⟩
    rw [State.advanceTx, hp]
    exact if_pos (by rw [hf, hd]; rfl)
  · intro h
    obtain ⟨u, hu⟩ := s.advanceTx_total t c h
    obtain ⟨hfurther, hothers⟩ := (State.advanceTx_advanced hu).continues.others
    exact ⟨u, hu, hfurther, hothers, State.advanceTx_frame hu⟩

/-! ### What every other action does to the caches -/

theorem State.cachesWithin_refl (s : State) : s.cachesWithin s := ⟨fun _ h => h, fun _ h => h, fun _ h => h, fun _ h => h⟩

theorem SameCaches.within {s u : State} (h : SameCaches s u) : s.cachesWithin u := by
  obtain ⟨h1, h2, h3, h4⟩ := h
  rw [State.cachesWithin, h1, h2, h3, h4]
  exact s.cachesWithin_refl

/-- The effect of a command takes entries out of caches. -/
theorem Effect.cachesWithin {i : Instr} {s t : State} (h : Effect i s t) : s.cachesWithin t := by
  rcases h with ⟨store, int, -, a, d, -, rfl, -⟩ | ⟨dev, -, rfl⟩ | ⟨m, size, pde, address, -, rfl⟩ |
    ⟨dev, -, q, -, -, addr, r, -, rfl⟩ | ⟨dev, -, rfl⟩
  · exact SameCaches.within (by constructor <;> simp)
  · exact ⟨fun e he => (List.mem_filter.mp he).1, fun _ h => h, fun _ h => h, fun _ h => h⟩
  · exact ⟨fun _ h => h, fun e he => (List.mem_filter.mp he).1, fun e he => (List.mem_filter.mp he).1, fun _ h => h⟩
  · exact State.cachesWithin_refl _
  · exact ⟨fun _ h => h, fun _ h => h, fun _ h => h, fun e he => (List.mem_filter.mp he).1⟩

theorem Taken.cachesWithin {i : Instr} {u t : State} (h : Taken i u t) : u.cachesWithin t := by
  rcases h with rfl | rfl | ⟨v, hv, rfl | ⟨p, rfl⟩⟩
  · exact State.cachesWithin_refl _
  · exact State.cachesWithin_refl _
  · exact hv.cachesWithin
  · exact hv.cachesWithin

theorem State.fetchThen_cachesWithin {run : Instr → State → Result} (hrun : takesCommand run) {s t : State}
    (h : s.fetchThen run = .next t) : s.cachesWithin t := by
  rcases State.fetchThen_next hrun h with ⟨f, rfl⟩ | ⟨u, w, hu, ht⟩
  · exact State.cachesWithin_refl _
  have hsame : s.cachesWithin = u.cachesWithin := by rcases State.fetchEntry_cases hu with rfl | rfl <;> rfl
  rw [hsame]
  rcases ht with rfl | ⟨i, -, htaken⟩
  · exact State.cachesWithin_refl _
  · exact htaken.cachesWithin

theorem State.runCommand_cachesWithin {s t : State} {k : Nat} (h : s.runCommand k = .next t) : s.cachesWithin t := by
  rcases State.runCommand_cases h with rfl | rfl | ⟨c, u, -, hu, rfl | ⟨p, rfl⟩⟩
  · exact State.cachesWithin_refl _
  · exact State.cachesWithin_refl _
  · exact hu.cachesWithin
  · exact hu.cachesWithin

theorem State.report_sameCaches (s : State) (p : PendingEvent) : SameCaches s (s.report p) := by
  rcases s.report_cases p with e | ⟨-, e⟩ | ⟨-, -, e⟩ | ⟨-, -, -, -, -, e⟩ <;> rw [e] <;> constructor <;> simp

/-- Settles O53: every action but the advance of a transaction leaves the caches alone or takes entries out of them. -/
theorem cachesGrowOnlyByTransactions : Obligations.CachesGrowOnlyByTransactions := by
  intro s t a hne h
  cases a with
  | advance k c => exact absurd rfl (hne k c)
  | run k => exact State.runCommand_cachesWithin h
  | fetch =>
    change (if s.canFetch then s.fetchThen holdCommand else .next s) = .next t at h
    split at h
    · exact State.fetchThen_cachesWithin (.inr rfl) h
    · cases h; exact State.cachesWithin_refl _
  | report k =>
    cases h
    rcases s.reportAt_cases k with e | ⟨p, -, e⟩ <;> rw [e]
    · exact State.cachesWithin_refl _
    · exact ((s.dropEvent k).report_sameCaches p).within
  | reset => cases h; exact ⟨nofun, nofun, nofun, nofun⟩
  | dropDte k forget =>
    cases h
    rcases s.dropDte_cases k forget with e | ⟨x, -, e⟩ <;> rw [e]
    · exact State.cachesWithin_refl _
    · exact ⟨fun _ => List.mem_of_mem_eraseIdx, fun _ h => h, fun _ h => h, fun _ h => h⟩
  | dropTlb k => cases h; exact ⟨fun _ h => h, fun _ => List.mem_of_mem_eraseIdx, fun _ h => h, fun _ h => h⟩
  | dropPdc k => cases h; exact ⟨fun _ h => h, fun _ h => h, fun _ => List.mem_of_mem_eraseIdx, fun _ h => h⟩
  | dropIrte k => cases h; exact ⟨fun _ h => h, fun _ h => h, fun _ h => h, fun _ => List.mem_of_mem_eraseIdx⟩
  | cpuWrite addr data cached =>
    rcases State.cpuWrite_cases h with rfl | ⟨-, r, lane, hr⟩ | rfl | rfl
    · exact State.cachesWithin_refl _
    · cases hr <;> exact State.cachesWithin_refl _
    · exact State.cachesWithin_refl _
    · exact State.cachesWithin_refl _
  | cpuRead addr len => obtain ⟨d, rfl⟩ := State.cpuRead_cases h; exact State.cachesWithin_refl _
  | writeBack addr len => obtain rfl := State.writeBack_cases h; exact State.cachesWithin_refl _
  | cfgRead offset len => obtain ⟨d, rfl⟩ := State.cfgRead_cases h; exact State.cachesWithin_refl _
  | cfgWrite offset data => obtain rfl := State.cfgWrite_cases h; rw [s.writeCap_frame]; exact State.cachesWithin_refl _
  | arrive tx =>
    rcases State.arrive_cases h with rfl | ⟨o, rfl⟩ | rfl | rfl
    · exact State.cachesWithin_refl _
    · exact State.cachesWithin_refl _
    · exact SameCaches.within (by constructor <;> simp [State.bypass])
    · exact State.cachesWithin_refl _
  | hostTakesWrite k => rcases State.hostTakesWrite_cases h with rfl | ⟨f, -, rfl | rfl⟩ <;> exact State.cachesWithin_refl _
  | hostAnswers k x =>
    rcases State.hostAnswers_cases h with rfl | ⟨f, u, -, rfl, rfl | ⟨d, rfl⟩⟩ <;> exact State.cachesWithin_refl _
  | deviceAnswers k => cases h; rcases s.deviceAnswers_cases k with e | ⟨r, -, e⟩ <;> rw [e] <;> exact State.cachesWithin_refl _
  | timeout k => cases h; rcases s.timeout_cases k with e | ⟨r, e', -, e⟩ <;> rw [e] <;> exact State.cachesWithin_refl _
  | prefetch n => cases h; rcases s.prefetch_cases n with e | ⟨o, l, e⟩ <;> rw [e] <;> exact State.cachesWithin_refl _
  | sendInterrupt | settleCmdRun | settleEvtRun => cases h; exact SameCaches.within (by constructor <;> simp)
  | classRead | fromUpstream | platform => cases h; exact State.cachesWithin_refl _

/-! ### The invariants of the caches -/

/-- The implementation's own word of the capability block never changes. -/
theorem State.act_capHeader {s t : State} {a : Action} (h : s.act a = .next t) : t.capHeader = s.capHeader := by
  rcases State.act_registers h with hm | ⟨-, -, r, lane, data, hr⟩ | ⟨offset, data, -, rfl⟩ | ⟨-, rfl⟩ | ⟨-, rfl⟩ | ⟨-, rfl⟩
  · exact hm.capHeader
  · cases hr <;> rfl
  · rw [s.writeCap_frame]
  · rfl
  · simp
  · simp

theorem State.onlyPresentCached_of_within {s t : State} (hs : s.onlyPresentCached) (hcap : t.capHeader = s.capHeader)
    (h : s.cachesWithin t) : t.onlyPresentCached := by
  intro hnp
  obtain ⟨htlb, hdte⟩ := hs (by rw [State.npCache, ← hcap]; exact hnp)
  exact ⟨fun e he => htlb e (h.2.1 e he), fun e he => hdte e (h.1 e he)⟩

theorem Advanced.onlyPresentCached {s u : State} {t : InFlight} {Q : TxPhase → Prop} (h : Advanced s u t Q)
    (hs : s.onlyPresentCached) (hcap : u.capHeader = s.capHeader) : u.onlyPresentCached := by
  intro hnp
  have hnp : s.npCache = false := by rw [State.npCache, ← hcap]; exact hnp
  obtain ⟨htlb, hdte⟩ := hs hnp
  obtain ⟨-, ⟨l, el, hl⟩, m, em, hm⟩ := h
  rw [el, em]
  refine ⟨fun e he => ?_, fun e he => ?_⟩
  · rcases List.mem_append.mp he with he | he
    · exact (hl e he).resolve_right (by rw [hnp]; decide)
    · exact htlb e he
  · rcases List.mem_append.mp he with he | he
    · exact (hm e he).resolve_right (by rw [hnp]; decide)
    · exact hdte e he

theorem State.act_onlyPresentCached {s t : State} {a : Action} (hs : s.onlyPresentCached) (h : s.act a = .next t) :
    t.onlyPresentCached := by
  have hcap := State.act_capHeader h
  by_cases ha : ∃ k c, a = .advance k c
  · obtain ⟨k, c, rfl⟩ := ha
    rcases State.advance_cases h with rfl | ⟨x, -, hx⟩
    · exact hs
    · exact (State.advanceTx_advanced hx).onlyPresentCached hs hcap
  · exact State.onlyPresentCached_of_within hs hcap (cachesGrowOnlyByTransactions s t a (fun k c e => ha ⟨k, c, e⟩) h)

theorem State.faultsWithCache_of_eq {s t : State} (hs : s.faultsWithCache) (hf : t.faultLogged = s.faultLogged)
    (hc : t.dteCache = s.dteCache) : t.faultsWithCache := by
  intro d hd
  rw [State.dteCached, hc]
  exact hs d (hf ▸ hd)

theorem State.forgetDte_faultsWithCache {s : State} (hs : s.faultsWithCache) (dev : DeviceId) :
    (s.forgetDte dev).faultsWithCache := by
  intro d hd
  obtain ⟨hmem, hne⟩ := List.mem_filter.mp hd
  obtain ⟨e, he, hdev⟩ := List.any_eq_true.mp (hs d hmem)
  have hdev : e.dev = d := of_decide_eq_true hdev
  refine List.any_eq_true.mpr ⟨e, List.mem_filter.mpr ⟨he, ?_⟩, decide_eq_true hdev⟩
  rw [hdev]
  exact hne

theorem State.loseDte_faultsWithCache {s : State} (hs : s.faultsWithCache) {k : Nat} {e : DteCacheEntry}
    (hk : s.dteCache[k]? = some e) (forget : Bool) : (s.loseDte k e forget).faultsWithCache := by
  intro d hd
  obtain ⟨hmem, hkept⟩ := List.mem_filter.mp hd
  simp only [Bool.or_eq_true, Bool.and_eq_true, decide_eq_true_eq] at hkept
  rcases hkept with hne | ⟨-, hleft⟩
  · obtain ⟨x, hx, hdev⟩ := List.any_eq_true.mp (hs d hmem)
    have hdev : x.dev = d := of_decide_eq_true hdev
    obtain ⟨j, hj⟩ := List.mem_iff_getElem?.mp hx
    have hjk : j ≠ k := by
      rintro rfl
      rw [hk] at hj
      cases hj
      exact hne hdev.symm
    exact List.any_eq_true.mpr ⟨x, List.mem_eraseIdx_iff_getElem?.mpr ⟨j, hjk, hj⟩, decide_eq_true hdev⟩
  · exact hleft

theorem State.noteFirstFault_faultsWithCache {s : State} (hs : s.faultsWithCache) (d : Option DeviceId) :
    (s.noteFirstFault d).faultsWithCache := by
  cases d with
  | none => exact hs
  | some dev =>
    unfold State.noteFirstFault
    dsimp only
    split
    · rename_i hc
      intro x hx
      rcases List.mem_cons.mp hx with rfl | hx
      · exact hc
      · exact hs x hx
    · exact hs

theorem Effect.faultsWithCache {i : Instr} {s t : State} (h : Effect i s t) (hs : s.faultsWithCache) :
    t.faultsWithCache := by
  rcases h with ⟨store, int, -, a, d, -, rfl, -⟩ | ⟨dev, -, rfl⟩ | ⟨m, size, pde, address, -, rfl⟩ |
    ⟨dev, -, q, -, -, addr, r, -, rfl⟩ | ⟨dev, -, rfl⟩
  · exact State.faultsWithCache_of_eq hs (by simp) (by simp)
  · exact State.forgetDte_faultsWithCache hs dev
  · exact hs
  · exact hs
  · exact hs

theorem State.fetchThen_faultsWithCache {run : Instr → State → Result} (hrun : takesCommand run) {s t : State}
    (hs : s.faultsWithCache) (h : s.fetchThen run = .next t) : t.faultsWithCache := by
  rcases State.fetchThen_next hrun h with ⟨f, rfl⟩ | ⟨u, w, hu, ht⟩
  · exact hs
  have hsu : u.faultsWithCache := by rcases State.fetchEntry_cases hu with rfl | rfl <;> exact hs
  rcases ht with rfl | ⟨i, -, rfl | rfl | ⟨v, hv, rfl | ⟨p, rfl⟩⟩⟩
  · exact hsu
  · exact hsu
  · exact hsu
  · exact hv.faultsWithCache hsu
  · exact hv.faultsWithCache hsu

theorem State.report_faultsWithCache {s : State} (hs : s.faultsWithCache) (p : PendingEvent) :
    (s.report p).faultsWithCache := by
  rcases s.report_cases p with e | ⟨-, e⟩ | ⟨-, -, e⟩ | ⟨-, -, -, -, -, e⟩ <;> rw [e]
  · exact hs
  · exact hs
  · exact hs
  · unfold State.logEntry
    exact State.noteFirstFault_faultsWithCache (State.faultsWithCache_of_eq hs (by simp) (by simp)) _

theorem State.act_faultsWithCache {s t : State} {a : Action} (hs : s.faultsWithCache) (h : s.act a = .next t) :
    t.faultsWithCache := by
  cases a with
  | advance k c =>
    rcases State.advance_cases h with rfl | ⟨x, -, hx⟩
    · exact hs
    obtain ⟨l, hl, -⟩ := (State.advanceTx_advanced hx).dteCache
    have hf : t.faultLogged = s.faultLogged := by rw [State.advanceTx_frame hx]
    intro d hd
    rw [State.dteCached, hl, List.any_append, Bool.or_eq_true]
    exact .inr (hs d (hf ▸ hd))
  | run k =>
    rcases State.runCommand_cases h with rfl | rfl | ⟨c, u, -, hu, rfl | ⟨p, rfl⟩⟩
    · exact hs
    · exact hs
    · exact hu.faultsWithCache hs
    · exact hu.faultsWithCache hs
  | fetch =>
    change (if s.canFetch then s.fetchThen holdCommand else .next s) = .next t at h
    split at h
    · exact State.fetchThen_faultsWithCache (.inr rfl) hs h
    · cases h; exact hs
  | report k =>
    cases h
    rcases s.reportAt_cases k with e | ⟨p, -, e⟩ <;> rw [e]
    · exact hs
    · exact State.report_faultsWithCache (s := s.dropEvent k) hs p
  | dropDte k forget =>
    cases h
    rcases s.dropDte_cases k forget with e | ⟨x, hx, e⟩ <;> rw [e]
    · exact hs
    · exact State.loseDte_faultsWithCache hs hx forget
  | reset => cases h; exact nofun
  | cpuWrite addr data cached =>
    rcases State.cpuWrite_cases h with rfl | ⟨-, r, lane, hr⟩ | rfl | rfl
    · exact hs
    · cases hr <;> exact hs
    · exact hs
    · exact hs
  | cpuRead addr len => obtain ⟨d, rfl⟩ := State.cpuRead_cases h; exact hs
  | writeBack addr len => obtain rfl := State.writeBack_cases h; exact hs
  | cfgRead offset len => obtain ⟨d, rfl⟩ := State.cfgRead_cases h; exact hs
  | cfgWrite offset data => obtain rfl := State.cfgWrite_cases h; rw [s.writeCap_frame]; exact hs
  | arrive tx =>
    rcases State.arrive_cases h with rfl | ⟨o, rfl⟩ | rfl | rfl
    · exact hs
    · exact hs
    · exact State.faultsWithCache_of_eq hs (by simp [State.bypass]) (by simp [State.bypass])
    · exact hs
  | hostTakesWrite k => rcases State.hostTakesWrite_cases h with rfl | ⟨f, -, rfl | rfl⟩ <;> exact hs
  | hostAnswers k x => rcases State.hostAnswers_cases h with rfl | ⟨f, u, -, rfl, rfl | ⟨d, rfl⟩⟩ <;> exact hs
  | deviceAnswers k => cases h; rcases s.deviceAnswers_cases k with e | ⟨r, -, e⟩ <;> rw [e] <;> exact hs
  | timeout k => cases h; rcases s.timeout_cases k with e | ⟨r, e', -, e⟩ <;> rw [e] <;> exact hs
  | prefetch n => cases h; rcases s.prefetch_cases n with e | ⟨o, l, e⟩ <;> rw [e] <;> exact hs
  | sendInterrupt | settleCmdRun | settleEvtRun =>
    cases h; exact State.faultsWithCache_of_eq hs (by simp) (by simp)
  | classRead | fromUpstream | platform | dropTlb | dropPdc | dropIrte => cases h; exact hs

/-- Settles O59: what a transaction puts into a cache was present or valid, everything else takes entries out; the
first-fault state is set where the entry is cached and goes with its last half. -/
theorem stepKeepsOnlyPresentCached : Obligations.StepKeepsOnlyPresentCached := by
  constructor
  · intro s t hs h
    exact step_keeps (P := State.onlyPresentCached) (fun _ hs => hs) (fun _ _ hs => hs)
      (fun _ _ _ hs h => State.act_onlyPresentCached hs h)
      (fun _ _ hs h => State.onlyPresentCached_of_within hs (State.fetchThen_moves (.inl rfl) h).capHeader
        (State.fetchThen_cachesWithin (.inl rfl) h)) hs h
  · intro s t hs h
    exact step_keeps (P := State.faultsWithCache) (fun _ hs => hs) (fun _ _ hs => hs)
      (fun _ _ _ hs h => State.act_faultsWithCache hs h)
      (fun _ _ hs h => State.fetchThen_faultsWithCache (.inl rfl) hs h) hs h

/-- Settles O60: after reset memory, the caches and the first-fault state are empty, and the registers hold their reset
values. -/
theorem resetMeetsInvariants : Obligations.ResetMeetsInvariants := by
  have hformed : State.reset.formed := State.systemReset_formed State.reset
  exact ⟨by decide, hformed.1, hformed.2, by decide, fun _ => ⟨nofun, nofun⟩, nofun⟩

end Sys2Proof.Machine
end


section
/-! PROOFS. The commands: how one begins, at its fetch or later, and what its effect is (spec/44_commands.md R342 to
R367). -/

namespace Sys2Proof.Machine

/-! ### How a command begins -/

/-- The fetched commands after one between `before` and `after` has taken effect and waits for the transactions `ids`. -/
def fetchedWith (before after : List Command) (i : Instr) (addr : Addr) (ids : List Nat) : List Command :=
  if ids = [] then before ++ after else before ++ ⟨i, addr, .draining ids⟩ :: after

theorem fetchedWith_cases (before after : List Command) (i : Instr) (addr : Addr) (ids : List Nat) :
    fetchedWith before after i addr ids = before ++ after ∨
      fetchedWith before after i addr ids = before ++ ⟨i, addr, .draining ids⟩ :: after := by
  unfold fetchedWith
  split
  · exact .inl rfl
  · exact .inr rfl

theorem fetchedWith_eq_iff (before after : List Command) (i : Instr) (addr : Addr) (ids : List Nat) :
    fetchedWith before after i addr ids = before ++ after ↔ ids = [] := by
  unfold fetchedWith
  split
  · rename_i h; exact ⟨fun _ => h, fun _ => rfl⟩
  · rename_i h
    refine ⟨fun e => ?_, fun e => absurd e h⟩
    have := congrArg List.length e
    simp only [List.length_append, List.length_cons] at this
    omega

/-- A command that takes effect in the step that fetches it. -/
theorem exec_of_took {i : Instr} {s u : State} {ids : List Nat}
    (hi : (∀ dev x q size address, i ≠ .invalidateIotlbPages dev x q size address) ∨ s.iotlbSup = true)
    (h : (Command.mk i s.headAddr .waiting).start s.fetched s.advanceHead = .took u (restOf ids))
    (hu : u.fetched = s.fetched) :
    exec i s = .next { u with fetched := fetchedWith s.fetched [] i s.headAddr ids } := by
  rw [exec_start i s hi, h, Started.place_restOf, fetchedWith, ← hu]
  split
  · rw [List.append_nil]
  · rfl

/-- A command that takes effect when it goes on. -/
theorem act_run_of_took {s u : State} {before after : List Command} {i : Instr} {addr : Addr} {ids : List Nat}
    (hs : s.fetched = before ++ ⟨i, addr, .waiting⟩ :: after)
    (h : (Command.mk i addr .waiting).start before s = .took u (restOf ids)) (hu : u.fetched = s.fetched) :
    s.act (.run before.length) = .next { u with fetched := fetchedWith before after i addr ids } := by
  rw [State.act_run_waiting hs rfl, h, Started.settle_restOf, fetchedWith]
  split
  · rw [State.completeAt, hu, hs, eraseIdx_between]
  · rw [State.setPhase, hu, hs, set_between]

/-! ### INVALIDATE_DEVTAB_ENTRY -/

theorem InFlight.halfRead_iff (dev : DeviceId) (u : InFlight) : u.halfRead dev = true ↔ (u.tx.dev = dev ∧
    ((∃ lo rest, u.phase = .haveLow lo rest) ∨ ∃ hi rest, u.phase = .haveHigh hi rest)) := by
  unfold InFlight.halfRead
  cases u.phase <;> simp

theorem InFlight.hasRead_iff (u : InFlight) : u.hasRead = true ↔ u.phase ≠ .needDte := decide_eq_true_iff

theorem InFlight.hasRead_eq_false (u : InFlight) : u.hasRead = false ↔ u.phase = .needDte := by simp [InFlight.hasRead]

theorem State.matchDevice_eq_nil (s : State) (dev : DeviceId) : s.matchDevice dev = [] ↔
    ((∀ f ∈ s.upReads ++ s.upWrites, f.orig.dev ≠ dev) ∧ ∀ u ∈ s.inFlight, u.tx.dev = dev → u.phase = .needDte) := by
  rw [State.matchDevice, State.matching_eq_nil, and_comm]
  simp only [Bool.and_eq_false_imp, decide_eq_true_eq, decide_eq_false_iff_not, InFlight.hasRead_eq_false, ne_eq]

/-- Whatever the head pointer and whichever commands are fetched then. -/
theorem State.forgetDte_devtabInvalidated (s : State) (dev : DeviceId) (before after : List Command) (addr : Addr)
    (head : Reg) :
    s.devtabInvalidated { { s with cmdHead := head }.forgetDte dev with
      fetched := fetchedWith before after (.invalidateDevtabEntry dev) addr (s.matchDevice dev) } dev before after addr head := by
  refine ⟨fun e => ?cache, ?gone, fun d => ?faults, ?marks, fetchedWith_cases _ _ _ _ _, ?waits, ?frame⟩
  case cache => simp [State.forgetDte]
  case gone => simp [State.dteCached, State.forgetDte]
  case faults => simp [State.forgetDte]
  case marks =>
    show s.inFlight.map (InFlight.spoilDte dev) = _
    exact List.map_congr_left fun u _ => u.spoilDte_eq dev
  case waits => rw [← s.matchDevice_eq_nil dev]; exact fetchedWith_eq_iff _ _ _ _ _
  case frame => rfl

/-- Settles O11: the effect is the same where the command begins at its fetch and where it begins later. -/
theorem invalidateDevtabEntryCompletes : Obligations.InvalidateDevtabEntryCompletes := by
  intro s dev
  have start : ∀ (older : List Command) (addr : Addr) (u : State), fenced older = false →
      (Command.mk (.invalidateDevtabEntry dev) addr .waiting).start older u =
        .took (u.forgetDte dev) (restOf (u.matchDevice dev)) := by
    intro older addr u hf
    simp [Command.start, startInvalidateDevtabEntry, hf]
  refine ⟨fun hf => ?_, fun before after addr hs hf => ?_, fun u => u.halfRead_iff dev, fun id => ?_⟩
  · exact ⟨_, exec_of_took (.inl nofun) (start _ _ _ hf) rfl, s.forgetDte_devtabInvalidated dev _ _ _ _⟩
  · exact ⟨_, act_run_of_took hs (start _ _ _ hf) rfl, s.forgetDte_devtabInvalidated dev _ _ _ s.cmdHead⟩
  · rw [State.matchDevice, State.mem_matching]
    simp only [Bool.and_eq_true, decide_eq_true_eq, InFlight.hasRead_iff]

/-! ### INVALIDATE_IOMMU_PAGES -/

theorem InFlight.underDomain_iff (m : DomainId) (u : InFlight) : u.underDomain m = true ↔
    ((∃ d w, u.phase = .walking d w ∧ d.domain = m) ∨ (∃ lo rest, u.phase = .haveLow lo rest ∧ (Dte.mk lo 0).domain = m) ∨
      (u.staleDte = true ∧ ∃ hi rest, u.phase = .haveHigh hi rest)) := by
  unfold InFlight.underDomain
  cases u.phase <;> simp

theorem State.translatesIn_iff (s : State) (m : DomainId) (r : PageRange) (u : InFlight) : s.translatesIn m r u = true ↔
    ((∃ d w, u.phase = .walking d w ∧ d.domain = m ∧ r.holds w.dva = true) ∨
      ∃ lo rest, u.phase = .haveLow lo rest ∧ (Dte.mk lo 0).domain = m ∧
        (r.holds u.tx.addr = true ∨ r.holds (BitVec.ofNat 64 (u.tx.addr.toNat % 2 ^ s.vaSize)) = true)) := by
  unfold State.translatesIn
  cases u.phase <;> simp [State.mayHold]

theorem Forwarded.usedIn_iff (f : Forwarded) (m : DomainId) (r : PageRange) : f.usedIn m r = true ↔
    ∃ p, f.used = some p ∧ p.domain = m ∧ r.meets p.base p.bits = true := by
  unfold Forwarded.usedIn
  cases f.used <;> simp

theorem Forwarded.usedIn_eq_false (f : Forwarded) (m : DomainId) (r : PageRange) : f.usedIn m r = false ↔
    ∀ p, f.used = some p → p.domain = m → r.meets p.base p.bits = false := by
  unfold Forwarded.usedIn
  cases f.used <;> simp

theorem State.matchDomain_eq_nil (s : State) (m : DomainId) (r : PageRange) : s.matchDomain m r = [] ↔
    ((∀ f ∈ s.upReads ++ s.upWrites, ∀ p, f.used = some p → p.domain = m → r.meets p.base p.bits = false) ∧
      ∀ u ∈ s.inFlight, s.translatesIn m r u = false) := by
  rw [State.matchDomain, State.matching_eq_nil, and_comm]
  simp only [Forwarded.usedIn_eq_false]

theorem State.keepsTlb_meets {s : State} {m : DomainId} {r : PageRange} {e : TlbEntry}
    (h : s.keepsTlb m (some r) e = true) : ¬(e.domain = m ∧ r.meets e.base e.bits = true) := by
  rintro ⟨hm, hmeets⟩
  simp [State.keepsTlb, inPages, hm, hmeets] at h

theorem State.keepsPdc_covers {s : State} {m : DomainId} {pde : Bool} {r : PageRange} {e : PdcEntry}
    (h : s.keepsPdc m pde (some r) e = true) : ¬(pde = true ∧ e.domain = m ∧ r.covers e.base e.bits = true) := by
  rintro ⟨rfl, hm, hcovers⟩
  simp [State.keepsPdc, inPages, hm, hcovers] at h

theorem State.forgetPages_inFlight_marks (s : State) (m : DomainId) (pde : Bool) (r : Option PageRange) :
    (s.forgetPages m pde r).inFlight = s.inFlight.map fun u => { u with stale := u.stale || u.underDomain m } := by
  rw [State.forgetPages_inFlight]
  exact List.map_congr_left fun u _ => u.spoil_eq m

/-- Whatever the head pointer and whichever commands are fetched then. -/
theorem State.forgetPages_pagesInvalidated (s : State) (m : DomainId) (size pde : Bool) (address : Addr) (r : PageRange)
    (before after : List Command) (addr : Addr) (head : Reg) :
    s.pagesInvalidated { { s with cmdHead := head }.forgetPages m pde (some r) with
      fetched := fetchedWith before after (.invalidateIommuPages m size pde address) addr (s.matchDomain m r) }
      m size pde address r before after addr head := by
  refine ⟨fun e he => ?tlb, fun e he => ?pdc, ?marks, fetchedWith_cases _ _ _ _ _, ?waits, ?frame⟩
  case tlb =>
    obtain ⟨hmem, hkept⟩ := List.mem_filter.mp he
    exact ⟨hmem, State.keepsTlb_meets hkept⟩
  case pdc =>
    obtain ⟨hmem, hkept⟩ := List.mem_filter.mp he
    exact ⟨hmem, State.keepsPdc_covers hkept⟩
  case marks => exact State.forgetPages_inFlight_marks _ m pde (some r)
  case waits => rw [← s.matchDomain_eq_nil m r]; exact fetchedWith_eq_iff _ _ _ _ _
  case frame => rfl

/-- The undefined range: nothing is waited for. -/
theorem State.forgetPages_openPagesInvalidated (s : State) (m : DomainId) (pde : Bool) (rest : List Command) (head : Reg) :
    s.openPagesInvalidated { { s with cmdHead := head }.forgetPages m pde none with fetched := rest } m rest head := by
  constructor
  · exact ⟨fun _ h => h, fun e he => (List.mem_filter.mp he).1, fun e he => (List.mem_filter.mp he).1, fun _ h => h⟩
  · rw [← State.forgetPages_inFlight_marks s m pde none]; rfl

theorem Command.start_invalidateIommuPages {older : List Command} {m : DomainId} {size pde : Bool} {address addr : Addr}
    {u : State} (hf : fenced older = false) (hd : devtabPending older = false) :
    (Command.mk (.invalidateIommuPages m size pde address) addr .waiting).start older u =
      .took (u.forgetPages m pde (invRange size address)) (restOf (u.matchPages m (invRange size address))) := by
  simp [Command.start, startInvalidateIommuPages, hf, hd]

/-- Settles O12: the effect is the same where the command begins at its fetch and where it begins later; the undefined
range names no transaction. -/
theorem invalidateIommuPagesCompletes : Obligations.InvalidateIommuPagesCompletes := by
  constructor
  · intro s m size pde address r hr
    refine ⟨fun hf hd => ?_, fun before after addr hs hf hd => ?_, fun u => u.underDomain_iff m, fun id => ?_,
      fun u => s.translatesIn_iff m r u⟩
    · have h := Command.start_invalidateIommuPages (m := m) (size := size) (pde := pde) (address := address)
        (addr := s.headAddr) (u := s.advanceHead) hf hd
      rw [hr] at h
      exact ⟨_, exec_of_took (.inl nofun) h rfl, s.forgetPages_pagesInvalidated m size pde address r _ _ _ _⟩
    · have h := Command.start_invalidateIommuPages (m := m) (size := size) (pde := pde) (address := address)
        (addr := addr) (u := s) hf hd
      rw [hr] at h
      exact ⟨_, act_run_of_took hs h rfl, s.forgetPages_pagesInvalidated m size pde address r _ _ _ s.cmdHead⟩
    · rw [State.matchDomain, State.mem_matching]
      simp only [Forwarded.usedIn_iff]
  · intro s m pde address hr
    refine ⟨fun hf hd => ?_, fun before after addr hs hf hd => ?_⟩
    · have h := Command.start_invalidateIommuPages (m := m) (size := true) (pde := pde) (address := address)
        (addr := s.headAddr) (u := s.advanceHead) hf hd
      rw [hr] at h
      refine ⟨_, exec_of_took (ids := []) (.inl nofun) h rfl, ?_⟩
      rw [fetchedWith, if_pos rfl, List.append_nil]
      exact s.forgetPages_openPagesInvalidated m pde _ _
    · have h := Command.start_invalidateIommuPages (m := m) (size := true) (pde := pde) (address := address)
        (addr := addr) (u := s) hf hd
      rw [hr] at h
      refine ⟨_, act_run_of_took (ids := []) hs h rfl, ?_⟩
      rw [fetchedWith, if_pos rfl]
      exact s.forgetPages_openPagesInvalidated m pde _ s.cmdHead

/-! ### INVALIDATE_INTERRUPT_TABLE -/

theorem InFlight.remapsFor_iff (dev : DeviceId) (u : InFlight) : u.remapsFor dev = true ↔ (u.tx.dev = dev ∧
    ((∃ d n, u.phase = .readIrte d n) ∨ (∃ hi rest, u.phase = .haveHigh hi rest) ∨
      (u.staleDte = true ∧ ∃ lo rest, u.phase = .haveLow lo rest))) := by
  unfold InFlight.remapsFor
  cases u.phase <;> simp

theorem Transaction.isInterrupt_iff (tx : Transaction) :
    tx.isInterrupt = true ↔ (rangeOf tx.addr = .interruptEoi ∧ tx.kind = .writePosted) := by
  simp [Transaction.isInterrupt]

theorem State.matchInterrupt_eq_nil (s : State) (dev : DeviceId) : s.matchInterrupt dev = [] ↔
    ((∀ f ∈ s.upReads ++ s.upWrites, ¬(f.orig.dev = dev ∧ f.orig.isInterrupt = true)) ∧
      ∀ u ∈ s.inFlight, u.tx.dev = dev → u.tx.isInterrupt = true → u.phase = .needDte) := by
  rw [State.matchInterrupt, State.matching_eq_nil, and_comm]
  simp only [Bool.and_eq_false_imp, Bool.and_eq_true, decide_eq_true_eq, InFlight.hasRead_eq_false, not_and,
    Bool.not_eq_true, and_imp]

/-- Whatever the head pointer and whichever commands are fetched then. -/
theorem State.forgetIrt_irtInvalidated (s : State) (dev : DeviceId) (before after : List Command) (addr : Addr) (head : Reg) :
    s.irtInvalidated { { s with cmdHead := head }.forgetIrt dev with
      fetched := fetchedWith before after (.invalidateInterruptTable dev) addr (s.matchInterrupt dev) } dev before after addr
      head := by
  refine ⟨fun e => ?cache, fun place n => ?gone, ?marks, fetchedWith_cases _ _ _ _ _, ?waits, ?frame⟩
  case cache => simp [State.forgetIrt]
  case gone =>
    rw [Option.eq_none_iff_forall_ne_some]
    intro w hw
    obtain ⟨e, ⟨hstands, hdev, -⟩, -⟩ := State.hitIrte_eq_some.mp hw
    obtain ⟨k, -, hk⟩ := Option.bind_eq_some_iff.mp hstands
    have hmem := (List.mem_filter.mp (List.mem_of_getElem? hk)).2
    exact of_decide_eq_true hmem hdev
  case marks =>
    show s.inFlight.map (InFlight.spoilIrt dev) = _
    exact List.map_congr_left fun u _ => u.spoilIrt_eq dev
  case waits => rw [← s.matchInterrupt_eq_nil dev]; exact fetchedWith_eq_iff _ _ _ _ _
  case frame => rfl

/-- Settles O14: the effect is the same where the command begins at its fetch and where it begins later. -/
theorem invalidateInterruptTableCompletes : Obligations.InvalidateInterruptTableCompletes := by
  intro s dev
  have start : ∀ (older : List Command) (addr : Addr) (u : State), fenced older = false → devtabPending older = false →
      (Command.mk (.invalidateInterruptTable dev) addr .waiting).start older u =
        .took (u.forgetIrt dev) (restOf (u.matchInterrupt dev)) := by
    intro older addr u hf hd
    simp [Command.start, startInvalidateInterruptTable, hf, hd]
  refine ⟨fun hf hd => ?_, fun before after addr hs hf hd => ?_, fun u => u.remapsFor_iff dev, fun id => ?_,
    Transaction.isInterrupt_iff⟩
  · exact ⟨_, exec_of_took (.inl nofun) (start _ _ _ hf hd) rfl, s.forgetIrt_irtInvalidated dev _ _ _ _⟩
  · exact ⟨_, act_run_of_took hs (start _ _ _ hf hd) rfl, s.forgetIrt_irtInvalidated dev _ _ _ s.cmdHead⟩
  · rw [State.matchInterrupt, State.mem_matching]
    simp only [Bool.and_eq_true, decide_eq_true_eq, InFlight.hasRead_iff, and_assoc]

/-! ### INVALIDATE_IOTLB_PAGES -/

/-- Where bits 63:32 of the address are not all ones there is a range (R153). -/
theorem invRange_isSome {address : Addr} (h : iotlbAddressUndefined address = false) (size : Bool) :
    ∃ r, invRange size address = some r := by
  cases size with
  | false => exact ⟨_, rfl⟩
  | true =>
    cases hz : firstZero address 12 52 with
    | some k => exact ⟨⟨alignDown address (k + 1), k + 1⟩, by simp only [invRange, if_true, hz]⟩
    | none =>
      have hones := (firstZero_eq_none_iff address 12 52).mp hz
      refine absurd ?_ (of_decide_eq_false h)
      apply BitVec.eq_of_getLsbD_eq
      intro n hn
      have hall : ∀ m, m < 32 → (0xFFFFFFFF#32).getLsbD m = true := by decide
      rw [hall n hn, BitVec.getLsbD_extractLsb', hones (32 + n) (by omega) (by omega)]
      simp [hn]

/-- Settles O13: the request is sent, and the command waits for its answer, at its fetch or later. -/
theorem invalidateIotlbPagesSendsRequest : Obligations.InvalidateIotlbPagesSendsRequest := by
  intro s dev maxpend queue size address r ha hr hroom
  have start : ∀ (older : List Command) (addr : Addr) (u : State), fenced older = false → devtabPending older = false →
      pagesPending older = false → u.pendingFor queue = s.pendingFor queue →
      (Command.mk (.invalidateIotlbPages dev maxpend queue size address) addr .waiting).start older u =
        .took (u.sendIotlb dev queue addr r) (some (.requested u.nextId)) := by
    intro older addr u hf hd hp hu
    simp [Command.start, startInvalidateIotlbPages, ha, hr, hf, hd, hp, hu, hroom]
  refine ⟨fun hsup hf hd hp => ?_, fun before after addr hs hf hd hp => ?_⟩
  · rw [exec_start _ s (.inr hsup), start s.fetched s.headAddr s.advanceHead hf hd hp rfl]
    rfl
  · rw [State.act_run_waiting hs rfl, start _ _ _ hf hd hp rfl]
    simp only [Started.settle, State.setPhase, State.sendIotlb_fetched, hs, set_between]
    rfl

/-! ### What holds a command back -/

theorem isEmpty_eq_false_of_fenced {older : List Command} (h : fenced older = true) : older.isEmpty = false := by
  cases older with
  | nil => cases h
  | cons c rest => rfl

/-- Behind a fence no command begins (R343). -/
theorem Command.start_of_fenced {s u : State} {c : Command} {older : List Command} (ho : s.offers c.instr)
    (h : fenced older = true) : c.start older u = .wait := by
  unfold Command.start
  split <;> rename_i hi
  · simp [startCompletionWait, isEmpty_eq_false_of_fenced h]
  · simp [startInvalidateDevtabEntry, h]
  · simp [startInvalidateIommuPages, h]
  · rw [hi] at ho
    obtain ⟨-, hdefined⟩ := ho
    rename_i size address
    obtain ⟨r, hr⟩ := invRange_isSome hdefined size
    simp [startInvalidateIotlbPages, hdefined, hr, h]
  · simp [startInvalidateInterruptTable, h]

theorem State.offers_supported {s : State} {i : Instr} (h : s.offers i) :
    (∀ dev x q size address, i ≠ .invalidateIotlbPages dev x q size address) ∨ s.iotlbSup = true := by
  cases i with
  | invalidateIotlbPages dev x q size address => exact .inr h.1
  | _ => exact .inl nofun

/-- Settles O15. -/
theorem fenceHoldsYounger : Obligations.FenceHoldsYounger := by
  refine ⟨fun s i ho hf => ?_, fun s k c hk hp ho hf => ?_⟩
  · exact exec_of_start_eq_wait (State.offers_supported ho) (Command.start_of_fenced (s := s) ho hf)
  · exact State.act_run_of_start_eq_wait hk hp (Command.start_of_fenced (s := s) ho hf)

/-- Settles O17. -/
theorem iotlbRequestWaits : Obligations.IotlbRequestWaits := by
  have start : ∀ (u s : State) (c : Command) (older : List Command) (dev : DeviceId) (maxpend : BitVec 8)
      (queue : BitVec 16) (size : Bool) (address : Addr), c.instr = .invalidateIotlbPages dev maxpend queue size address →
      iotlbAddressUndefined address = false → devtabPending older = true ∨ pagesPending older = true ∨
        maxpend.toNat ≤ u.pendingFor queue → c.start older u = .wait := by
    intro u s c older dev maxpend queue size address hi hdefined hwaits
    obtain ⟨r, hr⟩ := invRange_isSome hdefined size
    simp only [Command.start, hi, startInvalidateIotlbPages, hdefined, hr]
    rcases hwaits with h | h | h <;> simp [h]
  refine ⟨fun s dev maxpend queue size address ho hwaits => ?_,
    fun s k c dev maxpend queue size address hk hp hi ho hwaits => ?_⟩
  · exact exec_of_start_eq_wait (State.offers_supported ho) (start _ s _ _ dev maxpend queue size address rfl ho.2 hwaits)
  · rw [hi] at ho
    exact State.act_run_of_start_eq_wait hk hp (start _ s _ _ dev maxpend queue size address hi ho.2 hwaits)

end Sys2Proof.Machine
end


section
/-! PROOFS. Status flags, interrupts and the event log (spec/60_exceptions.md R421 to R459). -/

namespace Sys2Proof.Machine

/-! ### Status flags and their interrupts -/

theorem StatusBit.place_lt (b : StatusBit) : b.place < 64 := by cases b <;> decide

/-- Setting a status bit sets it and no other. -/
theorem State.raiseFlag_getLsbD (s : State) (b : StatusBit) (n : Nat) :
    (s.raiseFlag b).status.getLsbD n = (s.status.getLsbD n || decide (n = b.place)) := by
  rw [State.raiseFlag_status, getLsbD_withBit _ _ _ _ b.place_lt]
  by_cases h : n = b.place
  · rw [if_pos h, decide_eq_true h, Bool.or_true]
  · rw [if_neg h, decide_eq_false h, Bool.or_false]

theorem noSourceSet_iff (s : State) :
    noSourceSet s.status = true ↔ s.comWaitInt = false ∧ s.eventLogInt = false ∧ s.eventOverflow = false := by
  have hbit : ∀ i, i < 3 → (s.status.extractLsb' 0 3).getLsbD i = s.status.getLsbD i := by
    intro i hi
    simp [hi]
  rw [noSourceSet, decide_eq_true_iff]
  constructor
  · intro h
    rw [h] at hbit
    exact ⟨(hbit 2 (by decide)).symm, (hbit 1 (by decide)).symm, (hbit 0 (by decide)).symm⟩
  · rintro ⟨h2, h1, h0⟩
    apply BitVec.eq_of_getLsbD_eq
    intro i hi
    rw [hbit i hi]
    match i, hi with
    | 0, _ => exact h0
    | 1, _ => exact h1
    | 2, _ => exact h2

theorem State.interruptsFor_due {s : State} {b : StatusBit} (hen : s.intEnabled b = true)
    (hnone : noSourceSet s.status = true) : s.interruptsFor b = 1 := by
  rw [State.interruptsFor, if_pos hen, hnone, Bool.true_or, if_pos rfl]

theorem State.interruptsFor_disabled {s : State} {b : StatusBit} (h : s.intEnabled b = false) : s.interruptsFor b = 0 := by
  rw [State.interruptsFor, h]
  rfl

theorem State.interruptsFor_le_one (s : State) (b : StatusBit) : s.interruptsFor b ≤ 1 := by
  unfold State.interruptsFor
  split
  · split <;> omega
  · omega

/-- Settles O26. -/
theorem interruptCheckAndSend : Obligations.InterruptCheckAndSend := by
  refine ⟨fun s b => ⟨s.raiseFlag_getLsbD b, fun hen h1 h2 h3 => ?_, fun hdis => ?_, ?_, ?_⟩, fun s h => ?_, fun s h => ?_,
    fun s => ?_⟩
  · rw [State.raiseFlag_intDue, State.interruptsFor_due hen ((noSourceSet_iff s).mpr ⟨h1, h2, h3⟩)]
  · rw [State.raiseFlag_intDue, State.interruptsFor_disabled hdis, Nat.add_zero]
  · exact Nat.le_add_right _ _
  · exact Nat.add_le_add_left (s.interruptsFor_le_one b) _
  · show Host.Outcome.next s.sendInterrupt = _
    rw [State.sendInterrupt, if_neg h]
    rfl
  · show Host.Outcome.next s.sendInterrupt = _
    rw [State.sendInterrupt, if_pos h]
  · simp only [State.intxAsserted, Bool.or_eq_true, Bool.and_eq_true]
    constructor
    · rintro (⟨h, hen⟩ | ⟨h | h, hen⟩)
      · exact ⟨.comWaitInt, h, hen⟩
      · exact ⟨.eventLogInt, h, hen⟩
      · exact ⟨.eventOverflow, h, hen⟩
    · rintro ⟨b, h, hen⟩
      cases b with
      | comWaitInt => exact .inl ⟨h, hen⟩
      | eventLogInt => exact .inr ⟨.inl h, hen⟩
      | eventOverflow => exact .inr ⟨.inr h, hen⟩

/-! ### Reports -/

theorem State.act_report {s : State} {k : Nat} {p : PendingEvent} (h : s.pendingEvents[k]? = some p) :
    s.act (.report k) = .next ((s.dropEvent k).report p) := by
  show Host.Outcome.next (s.reportAt k) = _
  rw [State.reportAt, h]

theorem State.noteFirstFault_eq (s : State) (d : Option DeviceId) :
    s.noteFirstFault d = { s with faultLogged := (d.filter s.dteCached).toList ++ s.faultLogged } := by
  cases d with
  | none => rfl
  | some d =>
    by_cases h : s.dteCached d = true
    · simp [State.noteFirstFault, Option.filter, h]
    · simp [State.noteFirstFault, Option.filter, h]

/-- The report of an event that is to be logged. -/
theorem State.report_eq_logEntry {s : State} {p : PendingEvent} (hd : p.detected = .logging)
    (hf : s.firstFaultSeen p.seDevice = false) (hr : s.logRuns = true) (ho : s.eventOverflow = false)
    (hfull : s.logFull = false) : s.report p = s.logEntry p := by
  have hrun := ((State.logRuns_iff s).mp hr).1
  simp [State.report, hd, hf, hr, ho, hfull, hrun]

/-- The report of an event that finds the log full (R431). -/
theorem State.report_eq_overflowLog {s : State} {p : PendingEvent} (hd : p.detected = .logging)
    (hf : s.firstFaultSeen p.seDevice = false) (hr : s.logRuns = true) (ho : s.eventOverflow = false)
    (hfull : s.logFull = true) : s.report p = s.overflowLog := by
  have hrun := ((State.logRuns_iff s).mp hr).1
  simp [State.report, hd, hf, hr, ho, hfull, hrun]

/-- The report of an event while events are not logged (R431, R434). -/
theorem State.report_eq_discardEvent {s : State} {p : PendingEvent} (hd : p.detected ≠ .disabled)
    (hf : s.firstFaultSeen p.seDevice = false)
    (h : s.eventLogRun = false ∨ s.eventOverflow = false ∧ s.logRuns = false) : s.report p = s.discardEvent := by
  by_cases hrun : s.eventLogRun = true
  · obtain ⟨ho, hr⟩ := h.resolve_left (by rw [hrun]; decide)
    simp [State.report, hd, hf, hrun, ho, hr]
  · simp [State.report, hd, hf, hrun]

/-- The state after the bytes of an entry have been logged, for a device that has `SE` = 1 or none (R421, R429, R430).
That the bytes are no particular ones here keeps a comparison of states from computing the memory. -/
def State.entryLogged (s : State) (bytes : List Byte) (dev : Option DeviceId) : State :=
  { s with
    mem := s.mem.writeBytes s.evtTailAddr.toNat bytes
    dram := s.dram.writeBytes s.evtTailAddr.toNat bytes
    evtTail := s.nextEvtTail
    status := withBit s.status 1 true
    intDue := s.intDue + s.interruptsFor .eventLogInt
    outputs := s.outputs ++ [.ownWrite s.evtTailAddr bytes ringAttrs]
    faultLogged := (dev.filter s.dteCached).toList ++ s.faultLogged }

theorem Event.bytes_length (e : Event) : e.bytes.length = 16 := leBytes_length _ _

theorem State.interruptsFor_congr {s t : State} (hcontrol : t.control = s.control) (hstatus : t.status = s.status)
    (hdraws : t.draws = s.draws) (b : StatusBit) : t.interruptsFor b = s.interruptsFor b := by
  have hen : t.intEnabled b = s.intEnabled b := by
    cases b <;> simp only [State.intEnabled, State.comWaitIntEn, State.eventIntEn, hcontrol]
  rw [State.interruptsFor, State.interruptsFor, State.freeBit, State.freeBit, hen, hstatus, hdraws]

theorem State.dteCached_congr {s t : State} (h : t.dteCache = s.dteCache) : t.dteCached = s.dteCached := by
  funext d
  rw [State.dteCached, State.dteCached, h]

theorem State.entryLogged_eq (s : State) (bytes : List Byte) (dev : Option DeviceId) :
    (State.raiseFlag { (s.store s.evtTailAddr.toNat bytes).emit (.ownWrite s.evtTailAddr bytes ringAttrs) with
      evtTail := s.nextEvtTail } .eventLogInt).noteFirstFault dev = s.entryLogged bytes dev := by
  have hdue : State.interruptsFor { (s.store s.evtTailAddr.toNat bytes).emit (.ownWrite s.evtTailAddr bytes ringAttrs) with
      evtTail := s.nextEvtTail } .eventLogInt = s.interruptsFor .eventLogInt := State.interruptsFor_congr rfl rfl rfl _
  have hcached : (State.raiseFlag { (s.store s.evtTailAddr.toNat bytes).emit (.ownWrite s.evtTailAddr bytes ringAttrs) with
      evtTail := s.nextEvtTail } .eventLogInt).dteCached = s.dteCached := State.dteCached_congr rfl
  rw [State.noteFirstFault_eq, hcached, State.raiseFlag, hdue]
  rfl

theorem State.logEntry_memory {s : State} (p : PendingEvent) (h : s.ownMemory s.evtTailAddr.toNat 16) :
    s.logEntry p = s.entryLogged p.event.bytes p.seDevice := by
  rw [← p.event.bytes_length] at h
  rw [State.logEntry, State.ownWrite_memory ringAttrs h, State.entryLogged_eq]

/-- Settles O22: the entry is stored at the tail by an access of the IOMMU's own, and the rest is bookkeeping. -/
theorem reportWritesTheEntry : Obligations.ReportWritesTheEntry := by
  intro s k p hk hd hf hrun hhalted hen ho hfull hc hm
  have hreport : (s.dropEvent k).report p = (s.dropEvent k).logEntry p :=
    State.report_eq_logEntry hd hf ((s.dropEvent k).logRuns_iff.mpr ⟨hrun, hhalted, hen⟩) ho hfull
  rw [State.logEntry_memory (s := s.dropEvent k) p hm] at hreport
  have hlen := p.event.bytes_length
  generalize p.event.bytes = bytes at hreport hlen ⊢
  refine ⟨(s.dropEvent k).entryLogged bytes p.seDevice, (State.act_report hk).trans (congrArg _ hreport), ?holds, ?outside, ?tail, ?status, ?due, ?notDue,
    ?atLeast, ?atMost, rfl, rfl, rfl, rfl⟩
  case holds => exact State.store_holds _ _ hc
  case outside =>
    have hout := s.store_outside s.evtTailAddr.toNat bytes
    rw [hlen] at hout
    exact hout
  case tail => exact pointerIndex_mod s.evtBase (s.evtTailIndex + 1)
  case status => exact s.raiseFlag_getLsbD .eventLogInt
  case due => exact fun hint hnone => congrArg (s.intDue + ·) (State.interruptsFor_due (b := .eventLogInt) hint hnone)
  case notDue => exact fun hint => congrArg (s.intDue + ·) (State.interruptsFor_disabled (b := .eventLogInt) hint)
  case atLeast => exact Nat.le_add_right _ _
  case atMost => exact Nat.add_le_add_left ((s.dropEvent k).interruptsFor_le_one .eventLogInt) s.intDue

theorem State.logRuns_eq_false {s : State} (h : s.evtHalted = true ∨ s.iommuEn = false) : s.logRuns = false := by
  unfold State.logRuns
  rcases h with h | h <;> simp [h]

/-- What a discarded event leaves: `EventOverflow` set or not, as the implementation does (R434). -/
theorem State.discardEvent_eq (s : State) :
    s.discardEvent = if Config.overflowWhenDisabled then s.raiseFlag .eventOverflow else s := rfl

theorem State.detected_logging_iff (s : State) :
    s.detected = .logging ↔ (s.eventLogRun = true ∧ s.evtHalted = false ∧ s.iommuEn = true) := by
  rw [← s.logRuns_iff]
  unfold State.detected
  split
  · rename_i h
    have : s.logRuns = false := State.logRuns_eq_false (.inr (by simpa using h))
    simp [this]
  · split
    · rename_i h; simp [h]
    · rename_i h; simp [h]

theorem State.detected_disabled_iff (s : State) : s.detected = .disabled ↔ s.iommuEn = false := by
  unfold State.detected
  split
  · rename_i h; simpa using h
  · rename_i h
    have : s.iommuEn = true := by simpa using h
    split <;> simp [this]

/-- Settles O23: each way in which a report writes no entry. -/
theorem lostEvents : Obligations.LostEvents := by
  refine ⟨fun s k p hk hd hf hrun hhalted hen ho hfull => ?full, fun s k hrun ho hk => ?overflowed, fun s lane data => ?cleared,
    fun s k p hk hd hf h => ?discarded, fun s k p hk h => ?lost, fun s e => ⟨rfl, s.detected_logging_iff, s.detected_disabled_iff⟩⟩
  case full =>
    have hreport : (s.dropEvent k).report p = (s.dropEvent k).overflowLog :=
      State.report_eq_overflowLog hd hf ((s.dropEvent k).logRuns_iff.mpr ⟨hrun, hhalted, hen⟩) ho hfull
    refine ⟨_, (State.act_report hk).trans (congrArg _ hreport), ?_, rfl, ?_, State.logRuns_eq_false (.inl rfl),
      fun hint hnone => congrArg (s.intDue + ·) (State.interruptsFor_due (b := .eventOverflow) hint hnone), rfl⟩
    · exact (s.raiseFlag_getLsbD .eventOverflow 0).trans (Bool.or_true _)
    · exact Bool.and_false _
  case overflowed =>
    rw [State.act_report (List.getElem?_eq_getElem hk)]
    have hrun' : (s.dropEvent k).eventLogRun = true := hrun
    have ho' : (s.dropEvent k).eventOverflow = true := ho
    have hkept : (s.dropEvent k).report s.pendingEvents[k] = s.dropEvent k := by simp [State.report, hrun', ho']
    rw [hkept]
    rfl
  case cleared => exact ⟨_, rfl, rfl, rfl⟩
  case discarded =>
    have hreport : (s.dropEvent k).report p = (s.dropEvent k).discardEvent :=
      State.report_eq_discardEvent hd hf (h.imp id fun ⟨ho, hl⟩ => ⟨ho, State.logRuns_eq_false (s := s.dropEvent k) hl⟩)
    refine ⟨_, (State.act_report hk).trans (congrArg _ hreport), ?_⟩
    rw [State.discardEvent_eq]
    cases Config.overflowWhenDisabled with
    | false =>
      exact ⟨fun n => by simp, fun _ => rfl, fun h => Bool.noConfusion h, Nat.le_succ _, rfl⟩
    | true =>
      refine ⟨fun n => ?_, fun hdis => ?_, fun _ hint hnone => ?_, Nat.add_le_add_left (State.interruptsFor_le_one _ _) _, rfl⟩
      · rw [Bool.true_and]; exact s.raiseFlag_getLsbD .eventOverflow n
      · exact congrArg (s.intDue + ·) (State.interruptsFor_disabled (b := .eventOverflow) (hdis.resolve_left nofun))
      · exact congrArg (s.intDue + ·) (State.interruptsFor_due (b := .eventOverflow) hint hnone)
  case lost =>
    rw [State.act_report hk]
    have hkept : (s.dropEvent k).report p = s.dropEvent k := by
      rcases h with hd | ⟨hd, hr⟩
      · rw [State.report, if_pos hd]
      · have hr' : (s.dropEvent k).logRuns = true := hr
        have hrun := ((s.dropEvent k).logRuns_iff.mp hr').1
        simp [State.report, hd, hr', hrun]
    rw [hkept]
    rfl

/-! ### The first fault of a device -/

theorem State.firstFaultSeen_some (s : State) (d : DeviceId) :
    s.firstFaultSeen (some d) = true ↔ s.dteCached d = true ∧ d ∈ s.faultLogged := by
  simp [State.firstFaultSeen]

theorem State.dteCached_iff (s : State) (d : DeviceId) : s.dteCached d = true ↔ ∃ e ∈ s.dteCache, e.dev = d := by
  simp [State.dteCached]

/-- Without a cached entry a fault is reported like one without `SE`. -/
theorem State.report_of_not_cached {s : State} {d : DeviceId} (h : s.dteCached d = false) (e : Event) (w : Detected) :
    s.report ⟨e, some d, w⟩ = s.report ⟨e, none, w⟩ := by
  have hseen : s.firstFaultSeen (some d) = s.firstFaultSeen none := by
    simp [State.firstFaultSeen, h]
  have hentry : s.logEntry ⟨e, some d, w⟩ = s.logEntry ⟨e, none, w⟩ := by
    unfold State.logEntry State.noteFirstFault
    exact if_neg (by simpa [State.dteCached] using h)
  unfold State.report
  simp only [hseen, hentry]

/-- Settles O25: the first-fault state is looked at, set by a written entry, and goes with the cached entry. -/
theorem firstFaultOnly : Obligations.FirstFaultOnly := by
  refine ⟨fun s k e d w hk => ⟨fun hc hd => ?later, fun hc => ?uncached⟩, fun s t k e d w hk hc hd h => ?first,
    State.dteCached_iff, fun s d dev e => ?raised, fun s dev => ⟨?forgotten, ?reset⟩, fun s k forget => ⟨fun hk => ?noPlace, fun x hk => ?lost⟩⟩
  case later =>
    have hseen : (s.dropEvent k).firstFaultSeen (some d) = true := (s.firstFaultSeen_some d).mpr ⟨hc, hd⟩
    have hkept : (s.dropEvent k).report ⟨e, some d, w⟩ = s.dropEvent k := by simp [State.report, hseen]
    rw [State.act_report hk, hkept]
    rfl
  case uncached =>
    have hlt : k < s.pendingEvents.length := (List.getElem?_eq_some_iff.mp hk).1
    rw [State.act_report hk, State.act_report (p := ⟨e, none, w⟩) (by simp [hlt]),
      State.report_of_not_cached (s := s.dropEvent k) hc]
    have hdrop : State.dropEvent { s with pendingEvents := s.pendingEvents.set k ⟨e, none, w⟩ } k = s.dropEvent k := by
      simp [State.dropEvent, List.eraseIdx_set_eq]
    rw [hdrop]
  case first =>
    rw [State.act_report hk] at h
    cases h
    have hnote : ((s.dropEvent k).logEntry ⟨e, some d, w⟩).faultLogged = d :: s.faultLogged := by
      unfold State.logEntry State.noteFirstFault
      dsimp only
      rw [if_pos (by simpa [State.dteCached] using hc)]
      simp
    rcases (s.dropEvent k).report_cases ⟨e, some d, w⟩ with e1 | ⟨-, e1⟩ | ⟨-, -, e1⟩ | ⟨h1, -, h2, h3, h4, e1⟩ <;> rw [e1]
    · exact ⟨fun hne => absurd rfl hne, fun _ => rfl⟩
    · exact ⟨fun hne => absurd rfl hne, fun _ => rfl⟩
    · exact ⟨fun hne => absurd rfl hne, fun _ => rfl⟩
    · refine ⟨fun _ => hnote, ?_⟩
      rintro (h | h | h | h)
      · exact absurd h1 h
      · exact Bool.noConfusion (h2.symm.trans h)
      · exact Bool.noConfusion (h3.symm.trans h)
      · exact Bool.noConfusion (h4.symm.trans h)
  case raised =>
    unfold State.raisePageFault
    split
    · rw [List.append_nil]
    split <;> rfl
  case forgotten => simp [State.forgetDte]
  case reset => exact List.not_mem_nil
  case noPlace =>
    show Host.Outcome.next (s.dropDte k forget) = _
    rw [State.dropDte, hk]
  case lost =>
    refine ⟨s.loseDte k x forget, ?_, rfl, fun d => ?_, rfl⟩
    · show Host.Outcome.next (s.dropDte k forget) = _
      rw [State.dropDte, hk]
    · by_cases hd : d = x.dev
      · simp [State.loseDte, hd]
      · simp [State.loseDte, hd]

end Sys2Proof.Machine
end


section
/-! PROOFS. COMPLETION_WAIT, the end of an invalidation, the fetch and what stops it (spec/44_commands.md R334 to R345,
R355 to R365). -/

namespace Sys2Proof.Machine

/-! ### COMPLETION_WAIT -/

/-- The state after a COMPLETION_WAIT has finished with these bytes to store, the head pointer and the fetched commands
being the given ones (R344, R345). That the bytes are no particular ones here keeps a comparison of states from computing
the memory. -/
def State.waited (s : State) (store int : Bool) (a : Addr) (bytes : List Byte) (head : Reg) (rest : List Command) : State :=
  { s with
    cmdHead := head
    fetched := rest
    mem := if store then s.mem.writeBytes a.toNat bytes else s.mem
    dram := if store then s.dram.writeBytes a.toNat bytes else s.dram
    status := if int then withBit s.status 2 true else s.status
    intDue := s.intDue + if int then s.interruptsFor .comWaitInt else 0
    outputs := s.outputs ++ if store then [.ownWrite a bytes waitStoreAttrs] else [] }

/-- The store and the flag make the state that has waited. -/
theorem State.waitFlag_waited {s : State} {store : Bool} {a : Addr} {bytes : List Byte}
    (hm : store = true → s.ownMemory a.toNat bytes.length) (int : Bool) (head : Reg) (rest : List Command) :
    { State.waitFlag (if store then State.ownWrite { s with cmdHead := head } a bytes waitStoreAttrs
        else { s with cmdHead := head }) int with fetched := rest } = s.waited store int a bytes head rest := by
  cases store with
  | false =>
    cases int
    · simp [State.waitFlag, State.waited]
    · simp only [State.waitFlag, State.waited, if_true, Bool.false_eq_true, if_false, List.append_nil, State.raiseFlag,
        State.interruptsFor_congr (s := s) (t := { s with cmdHead := head }) rfl rfl rfl]
      rfl
  | true =>
    rw [if_pos rfl, State.ownWrite_memory (s := { s with cmdHead := head }) waitStoreAttrs (hm rfl)]
    cases int
    · rfl
    · simp only [State.waitFlag, State.waited, if_true, State.raiseFlag,
        State.interruptsFor_congr (s := s) (t := (State.store { s with cmdHead := head } a.toNat bytes).emit
          (.ownWrite a bytes waitStoreAttrs)) rfl rfl rfl]
      rfl

theorem State.waited_finishesWait {s : State} (hc : s.memoryCanonical) (store int : Bool) (a : Addr) {d : BitVec 64}
    {bytes : List Byte} (hb : bytes = leBytes 8 d.toNat) (head : Reg) (rest : List Command) :
    s.finishesWait (s.waited store int a bytes head rest) store int a d head rest := by
  have hlen : bytes.length = 8 := by rw [hb]; exact leBytes_length _ _
  have hbyte : ∀ k, (hk : k < bytes.length) → bytes[k] = d.extractLsb' (8 * k) 8 := by
    intro k hk
    subst hb
    rw [getElem_leBytes]
    apply BitVec.eq_of_toNat_eq
    rw [BitVec.extractLsb'_toNat, BitVec.toNat_ofNat, Nat.shiftRight_eq_div_pow, Nat.pow_mul]
  refine ⟨?bytes, ?outside, ?same, ?status, ?due, ?notDue, Nat.le_add_right _ _, Nat.add_le_add_left ?atMost _, ?outputs, rfl⟩
  case bytes =>
    rintro rfl k hk
    rw [← hbyte k (by omega)]
    exact ⟨Memory.read_writeBytes_same _ _ _ _ hc.1 (by omega), Memory.read_writeBytes_same _ _ _ _ hc.2 (by omega)⟩
  case outside =>
    rintro rfl
    rw [← hlen]
    exact s.store_outside _ _
  case same => rintro rfl; exact fun _ => ⟨rfl, rfl⟩
  case status =>
    intro n
    cases int
    · simp [State.waited]
    · rw [Bool.true_and]; exact s.raiseFlag_getLsbD .comWaitInt n
  case due =>
    rintro rfl hen hnone
    exact congrArg (s.intDue + ·) (State.interruptsFor_due (b := .comWaitInt) hen hnone)
  case notDue =>
    intro h
    cases int
    · rfl
    · exact congrArg (s.intDue + ·) (State.interruptsFor_disabled (b := .comWaitInt) (h.resolve_left nofun))
  case atMost =>
    cases int
    · exact Nat.zero_le 1
    · exact s.interruptsFor_le_one _
  case outputs =>
    rw [← hb]
    rfl

theorem State.waitStore_eq (s : State) (store : Bool) (a : Addr) (d : BitVec 64) :
    s.waitStore store a d = if store then s.ownWrite a (leBytes 8 d.toNat) waitStoreAttrs else s := rfl

theorem State.storeRefused_of_ownMemory {s : State} {a : Addr} (h : s.ownMemory a.toNat 8) : s.storeRefused a = false := by
  rw [State.storeRefused, State.tableTarget_small h.1]
  simp only [h.2, Bool.not_true]

theorem startCompletionWait_nil {s : State} (hev : s.commandEventPending = false) (store int : Bool) (a : Addr)
    (d : BitVec 64) : startCompletionWait [] store int a d s =
      if store && s.storeRefused a then .refuse .storeOutsideMemory
      else .took ((s.waitStore store a d).waitFlag int) none := by
  simp [startCompletionWait, hev]

/-- A COMPLETION_WAIT with nothing older in progress, at its fetch. -/
theorem exec_completionWait {s : State} (hf : s.fetched = []) (hev : s.commandEventPending = false) (store int fence : Bool)
    (a : Addr) (d : BitVec 64) : exec (.completionWait store int fence a d) s =
      if store && s.advanceHead.storeRefused a then .refused .storeOutsideMemory
      else .next ((s.advanceHead.waitStore store a d).waitFlag int) := by
  show Started.place _ _ _ (startCompletionWait s.fetched store int a d s.advanceHead) = _
  rw [hf, startCompletionWait_nil (s := s.advanceHead) hev]
  split <;> rfl

/-- A COMPLETION_WAIT with nothing older in progress, when it goes on. -/
theorem act_run_completionWait {s : State} {c : Command} {rest : List Command} {store int fence : Bool} {a : Addr}
    {d : BitVec 64} (hf : s.fetched = c :: rest) (hi : c.instr = .completionWait store int fence a d)
    (hp : c.phase = .waiting) (hev : s.commandEventPending = false) : s.act (.run 0) =
      if store && s.storeRefused a then .refused .storeOutsideMemory
      else .next { (s.waitStore store a d).waitFlag int with fetched := rest } := by
  have hstart : c.start [] s = startCompletionWait [] store int a d s := by rw [Command.start, hi]
  refine (State.act_run_waiting (before := []) hf hp).trans ?_
  rw [hstart, startCompletionWait_nil hev]
  split
  · rfl
  · simp [Started.settle, State.completeAt, hf]

/-- An access wider than `PAsize` that is made loses the upper bits of its address (U31). -/
theorem State.tableTarget_wide {s : State} {a b : Nat} (ha : 2 ^ s.paSize ≤ a) (h : s.tableTarget a = .ok b) :
    b = a % 2 ^ s.paSize := by
  unfold State.tableTarget at h
  rw [if_neg (by omega)] at h
  split at h
  · cases h; rfl
  · cases h

/-- The store of a COMPLETION_WAIT at an address wider than `PAsize` changes at most 8 bytes. -/
theorem State.waitStore_wide {s : State} {a : Addr} (ha : 2 ^ s.paSize ≤ a.toNat) (store : Bool) (d : BitVec 64) :
    s.sameMemoryOutside (s.waitStore store a d) (a.toNat % 2 ^ s.paSize) 8 := by
  cases store with
  | false => exact fun _ _ => ⟨rfl, rfl⟩
  | true =>
    rw [State.waitStore_eq, if_pos rfl]
    cases ht : s.tableTarget a.toNat with
    | ok b =>
      have hout := State.ownWrite_outside (d := leBytes 8 d.toNat) waitStoreAttrs ht
      rw [leBytes_length, State.tableTarget_wide ha ht] at hout
      exact hout
    | error f =>
      rw [State.ownWrite_wide waitStoreAttrs ht]
      exact fun _ _ => ⟨rfl, rfl⟩

theorem State.waitFlag_comWaitInt (s : State) (int : Bool) : (s.waitFlag int).comWaitInt = (s.comWaitInt || int) := by
  cases int
  · rw [Bool.or_false]; rfl
  · exact s.raiseFlag_getLsbD .comWaitInt 2

theorem State.waitStore_comWaitInt (s : State) (store : Bool) (a : Addr) (d : BitVec 64) :
    (s.waitStore store a d).comWaitInt = s.comWaitInt := by
  rw [State.comWaitInt, State.waitStore_status]
  rfl

theorem State.sameMemoryOutside_waitFlag {s u : State} {a n : Nat} (h : s.sameMemoryOutside u a n) (int : Bool) :
    s.sameMemoryOutside (u.waitFlag int) a n := by
  cases int <;> exact h

theorem State.with_fetched {u : State} {rest : List Command} (h : u.fetched = rest) : { u with fetched := rest } = u := by
  subst h
  rfl

/-- Settles O9. -/
theorem completionWaitCompletes : Obligations.CompletionWaitCompletes := by
  intro s store int fence a d hf hev
  refine ⟨fun hc hm => ?_, fun ha t h => ?_⟩
  · refine ⟨_, ?_, State.waited_finishesWait hc store int a rfl s.nextHead []⟩
    have hnot : (store && s.advanceHead.storeRefused a) = false := by
      cases store
      · rfl
      · exact State.storeRefused_of_ownMemory (s := s.advanceHead) (hm rfl)
    rw [exec_completionWait hf hev, hnot, if_neg (by decide)]
    have hrest : ((s.advanceHead.waitStore store a d).waitFlag int).fetched = [] := by simp [hf]
    exact congrArg _ ((State.with_fetched hrest).symm.trans
      (State.waitFlag_waited (by rw [leBytes_length]; exact hm) int s.nextHead []))
  · rw [exec_completionWait hf hev] at h
    split at h
    · cases h
    · cases h
      refine ⟨State.sameMemoryOutside_waitFlag (State.waitStore_wide (s := s.advanceHead) ha true d) int, ?_, ?_, ?_⟩
      · rw [State.waitFlag_comWaitInt, State.waitStore_comWaitInt]; rfl
      · simp
      · simp [hf]

/-- Settles O10: an older command or an event of a command holds it back; otherwise it finishes as at its fetch. -/
theorem completionWaitWaitsForOlder : Obligations.CompletionWaitWaitsForOlder := by
  refine ⟨fun s store int fence a d hwaits => ?held, fun s k c store int fence a d hk hi hp hwaits => ?stays,
    fun s c rest store int fence a d hf hi hp hev => ⟨fun hc hm => ?finishes, fun hstore ha t h => ?wide⟩⟩
  case held =>
    refine exec_of_start_eq_wait (.inl nofun) (if_pos ?_)
    rcases hwaits with h | h
    · simp [h]
    · rw [show s.advanceHead.commandEventPending = true from h, Bool.or_true]
  case stays =>
    refine State.act_run_of_start_eq_wait hk hp ?_
    rw [Command.start, hi]
    refine if_pos ?_
    rcases hwaits with h | h
    · have hlt : k < s.fetched.length := (List.getElem?_eq_some_iff.mp hk).1
      have hne : s.fetched.take k ≠ [] := by
        intro e
        have := congrArg List.length e
        simp only [List.length_take, List.length_nil] at this
        omega
      simp [hne]
    · rw [h, Bool.or_true]
  case finishes =>
    refine ⟨_, ?_, State.waited_finishesWait hc store int a rfl s.cmdHead rest⟩
    have hnot : (store && s.storeRefused a) = false := by
      cases store
      · rfl
      · exact State.storeRefused_of_ownMemory (hm rfl)
    rw [act_run_completionWait hf hi hp hev, hnot, if_neg (by decide), State.waitStore_eq,
      ← State.waitFlag_waited (by rw [leBytes_length]; exact hm) int s.cmdHead rest]
  case wide =>
    rw [act_run_completionWait hf hi hp hev] at h
    split at h
    · cases h
    · cases h
      refine ⟨State.sameMemoryOutside_waitFlag (State.waitStore_wide ha store d) int, ?_, ?_, rfl⟩
      · exact (State.waitFlag_comWaitInt _ int).trans (by rw [State.waitStore_comWaitInt])
      · simp

theorem State.storeRefused_of_not_isMemory {s : State} {a : Addr} (ha : a.toNat < 2 ^ s.paSize)
    (hm : s.isMemory a.toNat 8 = false) : s.storeRefused a = true := by
  rw [State.storeRefused, State.tableTarget_small ha]
  simp only [hm, Bool.not_false]

/-- Settles O19. -/
theorem undefinedOperandsStop : Obligations.UndefinedOperandsStop := by
  refine ⟨fun s dev maxpend queue size address hsup ha => ?_, fun s int fence a d hf hev ha hm => ?_,
    fun s k addr dev maxpend queue size address ha hk => ?_, fun s rest addr int fence a d hf hev ha hm => ?_⟩
  · have hundefined : iotlbAddressUndefined address = true := decide_eq_true ha
    rw [exec_start _ s (.inr hsup), Command.start]
    simp only [startInvalidateIotlbPages, hundefined, if_true]
    rfl
  · rw [exec_completionWait hf hev, State.storeRefused_of_not_isMemory (s := s.advanceHead) ha hm]
    rfl
  · have hundefined : iotlbAddressUndefined address = true := decide_eq_true ha
    simp only [State.act, State.runCommand, hk, Command.start, startInvalidateIotlbPages, hundefined, if_true]
    rfl
  · rw [act_run_completionWait hf rfl rfl hev, State.storeRefused_of_not_isMemory ha hm]
    rfl

/-! ### The end of an invalidation -/

theorem State.busy_iff (s : State) (id : Nat) : s.busy id = true ↔
    ((∃ u ∈ s.inFlight, u.id = id) ∨ (∃ f ∈ s.upReads, f.id = id) ∨ ∃ f ∈ s.upWrites, f.id = id) := by
  simp [State.busy, or_assoc]

theorem State.drained_iff (s : State) (ids : List Nat) : s.drained ids = true ↔ ∀ id ∈ ids, s.busy id = false := by
  simp [State.drained]

theorem State.act_run_draining {s : State} {k : Nat} {c : Command} {ids : List Nat} (hk : s.fetched[k]? = some c)
    (hp : c.phase = .draining ids) : s.act (.run k) = if s.drained ids then .next (s.completeAt k) else .next s := by
  simp only [State.act, State.runCommand, hk, hp]

/-- Settles O20. -/
theorem drainingEndsWhenTrafficHasGone : Obligations.DrainingEndsWhenTrafficHasGone := by
  intro s k c ids hk hp
  rw [State.act_run_draining hk hp]
  refine ⟨fun hgone => ?_, fun ⟨id, hid, hbusy⟩ => ?_⟩
  · refine if_pos ((s.drained_iff ids).mpr fun id hid => ?_)
    obtain ⟨h1, h2, h3⟩ := hgone id hid
    by_contra hb
    rcases (s.busy_iff id).mp (by simpa using hb) with ⟨u, hu, e⟩ | ⟨f, hf, e⟩ | ⟨f, hf, e⟩
    · exact h1 u hu e
    · exact h2 f hf e
    · exact h3 f hf e
  · refine if_neg fun hd => ?_
    have := (s.drained_iff ids).mp hd id hid
    rw [(s.busy_iff id).mpr hbusy] at this
    cases this

/-- Settles O21. -/
theorem iotlbRequestEnds : Obligations.IotlbRequestEnds := by
  intro s k r hk
  refine ⟨?_, fun id => ?_, fun hperiod => ⟨(s.free .timeoutType).extractLsb' 0 2, ?_⟩, fun hperiod => ?_⟩
  · show Host.Outcome.next (s.deviceAnswers k) = _
    rw [State.deviceAnswers, hk]
    rfl
  · rw [State.matchIotlb, State.mem_matching]
    simp only [Bool.and_eq_true, Bool.or_eq_true, decide_eq_true_eq, InFlight.hasRead_iff]
  · show Host.Outcome.next (s.timeout k) = _
    have hfilter : (fun c : Command => !(c.waitsFor r.id)) = fun c => decide (c.phase ≠ .requested r.id) := by
      funext c
      simp [Command.waitsFor]
    simp only [State.timeout, hk, if_neg hperiod, State.expireRequest, hfilter]
    rfl
  · show Host.Outcome.next (s.timeout k) = _
    simp only [State.timeout, hk, if_pos hperiod]

/-! ### The fetch -/

/-- The trace of an access within `PAsize` bits carries the address itself. -/
theorem State.sawRead_small {s : State} {a : Addr} (h : a.toNat < 2 ^ s.paSize) (n : Nat) (x : Attrs) :
    s.sawRead a n x = s.emit (.ownRead a n x) := by
  rw [State.sawRead, State.onLink_small h]

/-- The system physical address of an entry of a ring, its index being below the largest length (R331). -/
theorem ringAddr_toNat (base : Reg) {n : Nat} (hn : n < 2 ^ 15) :
    (ringAddr base n).toNat = (base.extractLsb' 12 40).toNat * 4096 + 16 * n := by
  have hb := (base.extractLsb' 12 40).isLt
  have hbase : (ringBase base).toNat = (base.extractLsb' 12 40).toNat * 4096 := by
    rw [ringBase, BitVec.toNat_shiftLeft, BitVec.toNat_setWidth, Nat.shiftLeft_eq]
    omega
  rw [ringAddr, BitVec.toNat_add, BitVec.toNat_ofNat, hbase]
  omega

theorem pointerIndex_lt (r : Reg) : pointerIndex r < 2 ^ 15 := (r.extractLsb' 4 15).isLt

theorem State.step_of_canFetch {s : State} (ha : s.agenda = []) (hcan : s.canFetch = true) :
    step s = s.tick.fetchThen exec :=
  (step_of_nil ha).trans (if_pos hcan)

theorem State.act_fetch {s : State} (hcan : s.canFetch = true) : s.act .fetch = s.fetchThen holdCommand := if_pos hcan

/-- A fetch from memory of an entry that decodes. -/
theorem State.fetchThen_memory_instr {s : State} {i : Instr} (hnone : s.prefetchedAt s.headIndex = none)
    (hr : s.entryReadable) (hd : decode s.entryBytes = .instr i) (run : Instr → State → Result) :
    s.fetchThen run = run i (s.sawRead s.headAddr 16 ringAttrs) :=
  State.fetchThen_instr (State.fetchEntry_memory hnone hr) (s.decode_entryBytes ▸ hd) run

/-- A fetch from a copy read ahead that decodes. -/
theorem State.fetchThen_copy_instr {s : State} {i : Instr} {w : Entry} (hcopy : s.prefetchedAt s.headIndex = some w)
    (hd : decodeEntry w = .instr i) (run : Instr → State → Result) :
    s.fetchThen run = run i (s.dropPrefetched s.headIndex) :=
  State.fetchThen_instr (State.fetchEntry_copy hcopy) hd run

/-- Settles O6: the schedule of a step, the fetch and the read ahead. -/
theorem stepRunsDecodedCommand : Obligations.StepRunsDecodedCommand := by
  refine ⟨fun s i ha hcan => ⟨fun hnone hr hd => ?_, fun w hw hd => ?_⟩, fun s => ?head,
    fun s i hcan hlegal => ⟨fun hnone hr hd => ?_, fun w hw hd => ?_⟩, fun s hcan => ?_,
    fun s ahead index a hindex haddr ha => ?ahead, fun s a rest h => step_of_cons h⟩
  · rw [State.step_of_canFetch ha hcan]
    exact State.fetchThen_memory_instr (s := s.tick) hnone hr hd exec
  · rw [State.step_of_canFetch ha hcan]
    exact State.fetchThen_copy_instr (s := s.tick) hw hd exec
  case head => exact ringAddr_toNat s.cmdBase (pointerIndex_lt s.cmdHead)
  · rw [State.act_fetch hcan, State.fetchThen_memory_instr hnone hr hd]
    exact holdCommand_eq_held hlegal
  · rw [State.act_fetch hcan, State.fetchThen_copy_instr hw hd]
    exact holdCommand_eq_held hlegal
  · exact if_neg (by rw [hcan]; decide)
  case ahead =>
    have hlt : index < 2 ^ 15 := by
      rw [hindex]
      exact (Nat.mod_lt _ (ringEntries_pos _)).trans_le (ringEntries_le _)
    have haddr : ringAddr s.cmdBase index = a := BitVec.eq_of_toNat_eq ((ringAddr_toNat s.cmdBase hlt).trans haddr.symm)
    show Host.Outcome.next (s.prefetch ahead) = _
    simp only [State.prefetch, ← hindex, haddr, Bool.and_eq_true, decide_eq_true_eq, Option.isNone_iff_eq_none]
    by_cases hguard : (s.canFetch = true ∧ ahead < (s.tailIndex + s.cmdEntries - s.headIndex) % s.cmdEntries) ∧
        s.prefetchedAt index = none
    · obtain ⟨⟨h1, h2⟩, h3⟩ := hguard
      rw [if_pos ⟨⟨h1, h2⟩, h3⟩]
      cases hr : s.readAnswer a.toNat 16 with
      | none =>
        simp only [State.tableRead_ok true ha hr, State.sawRead_small ha, h1, h2, h3, and_self, if_true]
        rfl
      | some f =>
        simp only [State.tableRead_error true ha hr, reduceCtorEq, and_false, if_false]
    · rw [if_neg hguard, if_neg fun h => hguard ⟨⟨h.1, h.2.1⟩, h.2.2.1⟩]

/-! ### What stops the fetch -/

theorem State.commandError_cmdHead (s : State) (f : ReadFailure) :
    (s.commandError f).cmdHead = s.cmdHead ∨ (s.commandError f).cmdHead = s.nextHead :=
  State.halt_cmdHead_cases (s.raise (.commandHardwareError f.code s.headAddr))

/-- The state after some values have been drawn. -/
def State.drawn (s : State) (n : Nat) : State := { s with draws := s.draws + n }

/-- The two ways of fetching, where the command processor can fetch. -/
theorem State.fetches {s : State} {r : Result} {n : Nat} (hcan : s.canFetch = true)
    (h : s.agenda = [] ∧ r = step s ∧ n = 1 ∨ r = s.act .fetch ∧ n = 0) :
    ∃ run, takesCommand run ∧ r = (s.drawn n).fetchThen run := by
  rcases h with ⟨ha, rfl, rfl⟩ | ⟨rfl, rfl⟩
  · exact ⟨exec, .inl rfl, State.step_of_canFetch ha hcan⟩
  · exact ⟨holdCommand, .inr rfl, State.act_fetch hcan⟩

theorem State.drawn_fetchEntry_memory {s : State} (n : Nat) (hnone : s.prefetchedAt s.headIndex = none)
    (hread : s.entryReadable) : (s.drawn n).fetchEntry =
      .ok ((s.emit (.ownRead s.headAddr 16 ringAttrs)).drawn n, wordOf 128 s.entryBytes) := by
  have h := State.fetchEntry_memory (s := s.drawn n) hnone hread
  rw [State.sawRead_small (s := s.drawn n) (a := (s.drawn n).headAddr) hread.1] at h
  exact h

/-- A command that is not supported is illegal in both ways of fetching (R152, R356). -/
theorem takesCommand.unsupported {run : Instr → State → Result} (hrun : takesCommand run) {s : State}
    (h : s.iotlbSup = false) (dev : DeviceId) (maxpend : BitVec 8) (queue : BitVec 16) (size : Bool) (address : Addr) :
    run (.invalidateIotlbPages dev maxpend queue size address) s = .next s.illegalCommand := by
  rcases hrun with rfl | rfl
  · exact exec_invalidateIotlbPages_unsupported h dev maxpend queue size address
  · exact if_neg (by rw [h]; decide)

theorem State.fetchThen_illegal {s u : State} {w : Entry} {run : Instr → State → Result} (hrun : takesCommand run)
    (hfetch : s.fetchEntry = .ok (u, w)) (h : (∃ e, decodeEntry w = .illegal e) ∨ u.iotlbSup = false ∧
      ∃ dev maxpend queue size address, decodeEntry w = .instr (.invalidateIotlbPages dev maxpend queue size address)) :
    s.fetchThen run = .next u.illegalCommand := by
  rcases h with ⟨e, he⟩ | ⟨hsup, dev, maxpend, queue, size, address, hi⟩
  · simp only [State.fetchThen, hfetch, he]
  · rw [State.fetchThen_instr hfetch hi]
    exact hrun.unsupported hsup dev maxpend queue size address

/-- What the access of a fetch leaves as it was. -/
structure FetchKeeps (s u : State) : Prop where
  pendingEvents : u.pendingEvents = s.pendingEvents
  headAddr : u.headAddr = s.headAddr
  detected : u.detected = s.detected
  cmdHead : u.cmdHead = s.cmdHead
  nextHead : u.nextHead = s.nextHead
  draws : u.draws = s.draws

/-- The fetch of an entry that is illegal, from the state `u` after the access (R447). -/
theorem State.fetchThen_illegal_halts {s u : State} {w : Entry} {run : Instr → State → Result} {n : Nat}
    (hrun : takesCommand run) (hfetch : (s.drawn n).fetchEntry = .ok (u.drawn n, w)) (hu : FetchKeeps s u)
    (h : (∃ e, decodeEntry w = .illegal e) ∨ u.iotlbSup = false ∧
      ∃ dev maxpend queue size address, decodeEntry w = .instr (.invalidateIotlbPages dev maxpend queue size address)) :
    ∃ t, (s.drawn n).fetchThen run = .next t ∧ t.halted = true ∧ t.fetching = false ∧
      t.pendingEvents = s.pendingEvents ++ [⟨.illegalCommandError s.headAddr, none, s.detected⟩] ∧
      (t.cmdHead = s.cmdHead ∨ t.cmdHead = s.nextHead) ∧
      t = { u with
        halted := t.halted, cmdHead := t.cmdHead, pendingEvents := t.pendingEvents, draws := s.draws + n } := by
  rw [← hu.pendingEvents, ← hu.headAddr, ← hu.detected, ← hu.cmdHead, ← hu.nextHead, ← hu.draws]
  exact ⟨(u.drawn n).illegalCommand, State.fetchThen_illegal hrun hfetch h, rfl, State.fetching_of_halted rfl, rfl,
    State.halt_cmdHead_cases _, rfl⟩

/-- The fetch of an entry that cannot be read (R448). -/
theorem State.fetchThen_error_halts {s : State} {f : ReadFailure} (run : Instr → State → Result) (n : Nat)
    (hnone : s.prefetchedAt s.headIndex = none) (ha : s.headAddr.toNat < 2 ^ s.paSize)
    (hf : s.readAnswer s.headAddr.toNat 16 = some f) :
    (s.drawn n).fetchThen run = .next (((s.emit (.ownRead s.headAddr 16 ringAttrs)).drawn n).commandError f) := by
  have hfetch : (s.drawn n).fetchEntry = .error f := State.fetchEntry_error (s := s.drawn n) hnone ha hf
  have hsaw : (s.drawn n).sawRead (s.drawn n).headAddr 16 ringAttrs = (s.emit (.ownRead s.headAddr 16 ringAttrs)).drawn n :=
    State.sawRead_small (s := s.drawn n) (a := (s.drawn n).headAddr) ha 16 ringAttrs
  simp only [State.fetchThen, hfetch, hsaw]

theorem State.fetchKeeps_emit (s : State) (o : Output) : FetchKeeps s (s.emit o) := ⟨rfl, rfl, rfl, rfl, rfl, rfl⟩

theorem State.fetchKeeps_dropPrefetched (s : State) (n : Nat) : FetchKeeps s (s.dropPrefetched n) :=
  ⟨rfl, rfl, rfl, rfl, rfl, rfl⟩

theorem State.commandError_halts (s : State) (f : ReadFailure) : (s.commandError f).halted = true ∧
    (s.commandError f).fetching = false ∧
    (s.commandError f).pendingEvents = s.pendingEvents ++ [⟨.commandHardwareError f.code s.headAddr, none, s.detected⟩] ∧
    s.commandError f = { s with
      halted := (s.commandError f).halted, cmdHead := (s.commandError f).cmdHead,
      pendingEvents := (s.commandError f).pendingEvents } :=
  ⟨rfl, State.fetching_of_halted rfl, rfl, rfl⟩

/-- Settles O7: both errors raise their event and halt, in both ways of fetching. -/
theorem commandErrorsHalt : Obligations.CommandErrorsHalt := by
  intro s r n hcan hr
  obtain ⟨run, hrun, rfl⟩ := State.fetches hcan hr
  refine ⟨fun d u hd hu => ?illegal, fun f hnone ha hf => ?unreadable⟩
  case illegal =>
    rcases hu with ⟨hnone, hread, rfl, rfl⟩ | ⟨w, hw, rfl, rfl⟩
    · have hfetch := State.drawn_fetchEntry_memory n hnone hread
      rw [s.decode_entryBytes] at hd
      generalize wordOf 128 s.entryBytes = w at hd hfetch
      exact State.fetchThen_illegal_halts hrun hfetch (s.fetchKeeps_emit _) hd
    · exact State.fetchThen_illegal_halts hrun (State.fetchEntry_copy (s := s.drawn n) hw) (s.fetchKeeps_dropPrefetched _) hd
  case unreadable =>
    refine ⟨_, State.fetchThen_error_halts run n hnone ha hf, ?_⟩
    generalize hu : (s.emit (.ownRead s.headAddr 16 ringAttrs)).drawn n = u
    have hkeeps : u.pendingEvents = s.pendingEvents ∧ u.headAddr = s.headAddr ∧ u.detected = s.detected ∧
        u.cmdHead = s.cmdHead ∧ u.nextHead = s.nextHead := by
      rw [← hu]
      exact ⟨rfl, rfl, rfl, rfl, rfl⟩
    obtain ⟨hev, haddr, hdet, hhead, hnext⟩ := hkeeps
    obtain ⟨h1, h2, h3, h4⟩ := u.commandError_halts f
    refine ⟨h1, h2, ?_, ?_, ?_⟩
    · rw [h3, hev, haddr, hdet]
    · rw [← hhead, ← hnext]; exact u.commandError_cmdHead f
    · rw [h4, ← hu]; rfl

end Sys2Proof.Machine
end


section
/-! PROOFS. Software's accesses to the control registers (spec/10_state.md R27 to R46, R60). -/

namespace Sys2Proof.Machine

/-! ### The register region -/

/-- The region is aligned to its size and ends within the address space (R23). -/
theorem State.mmioBase_bound (s : State) : s.mmioBase + 16384 ≤ 2 ^ 64 := by
  have hhigh : s.capBaseHigh.toNat < 2 ^ 32 := s.capBaseHigh.isLt
  have hlow : fieldOf s.capBaseLow 14 18 < 2 ^ 18 := (s.capBaseLow.extractLsb' 14 18).isLt
  unfold State.mmioBase
  omega

theorem State.registerAddr_toNat (s : State) {offset : Nat} (h : offset < 0x4000) :
    (s.registerAddr offset).toNat = s.mmioBase + offset := by
  have hbound := s.mmioBase_bound
  rw [State.registerAddr, BitVec.toNat_ofNat]
  omega

theorem State.touchesRegisters_region {s : State} (hl : s.locked = true) {offset len : Nat} (h : offset < 0x4000)
    (hlen : len ≠ 0) : s.touchesRegisters (s.registerAddr offset).toNat len = true := by
  rw [s.registerAddr_toNat h]
  simp only [State.touchesRegisters, overlaps, hl, Bool.true_and, Bool.and_eq_true, decide_eq_true_eq]
  omega

/-- A processor's write in the enabled region is a register write (R22, R26). -/
theorem State.act_cpuWrite_region {s : State} (hl : s.locked = true) {offset : Nat} (h : offset < 0x4000) {data : List Byte}
    (hd : data ≠ []) (cached : Bool) : s.act (.cpuWrite (s.registerAddr offset) data cached) = s.writeMmio offset data := by
  show s.cpuWrite _ _ _ = _
  rw [State.cpuWrite, if_pos (State.touchesRegisters_region hl h (by simpa using hd)), s.registerAddr_toNat h,
    if_neg (by omega), Nat.add_sub_cancel_left]

/-- A processor's read in the enabled region is a register read. -/
theorem State.act_cpuRead_region {s : State} (hl : s.locked = true) {offset len : Nat} (h : offset < 0x4000)
    (hlen : len ≠ 0) : s.act (.cpuRead (s.registerAddr offset) len) = s.readMmio offset len := by
  show s.cpuRead _ _ = _
  rw [State.cpuRead, if_pos (State.touchesRegisters_region hl h hlen), s.registerAddr_toNat h, if_neg (by omega),
    Nat.add_sub_cancel_left]

theorem accessAllowed_iff (offset len : Nat) :
    accessAllowed offset len = true ↔ len ∈ [1, 2, 4, 8] ∧ offset % len = 0 := by
  simp only [accessAllowed, Bool.and_eq_true, List.contains_iff_mem, decide_eq_true_eq]

theorem accessAllowed_eq_false {offset len : Nat} (h : ¬(len ∈ [1, 2, 4, 8] ∧ offset % len = 0)) :
    accessAllowed offset len = false := by rwa [← accessAllowed_iff, Bool.not_eq_true] at h

/-- The registers stand at multiples of 8 bytes (R20). -/
theorem mmioRegAt_some {base : Nat} {r : MmioReg} (h : mmioRegAt base = some r) : base % 8 = 0 ∧ base < 0x3000 := by
  unfold mmioRegAt at h
  repeat' split at h
  all_goals cases h
  all_goals omega

theorem length_cases {len : Nat} (h : len ∈ [1, 2, 4, 8]) : len = 1 ∨ len = 2 ∨ len = 4 ∨ len = 8 := by simpa using h

/-- The bytes of a legal access lie within one register. -/
theorem lane_add_le {lane len : Nat} (hlen : len ∈ [1, 2, 4, 8]) (ha : lane % len = 0) (hl : lane < 8) : lane + len ≤ 8 := by
  rcases length_cases hlen with rfl | rfl | rfl | rfl <;> omega

theorem accessAllowed_register {base lane len : Nat} {r : MmioReg} (hr : mmioRegAt base = some r) (hlen : len ∈ [1, 2, 4, 8])
    (ha : lane % len = 0) : accessAllowed (base + lane) len = true := by
  obtain ⟨h8, -⟩ := mmioRegAt_some hr
  rw [accessAllowed_iff]
  refine ⟨hlen, ?_⟩
  rcases length_cases hlen with rfl | rfl | rfl | rfl <;> omega

/-- Where the bytes of a legal access lie. -/
theorem register_place {base lane : Nat} {r : MmioReg} (hr : mmioRegAt base = some r) (hl : lane < 8) :
    base + lane < 0x4000 ∧ base + lane - (base + lane) % 8 = base ∧ (base + lane) % 8 = lane := by
  obtain ⟨h8, hb⟩ := mmioRegAt_some hr
  omega

theorem laneAllowed_whole (v : BitVec 64) : laneAllowed 0 (leBytes 8 v.toNat) := by
  rw [laneAllowed, leBytes_length]
  decide

theorem ne_nil_of_length {data : List Byte} (h : data.length ∈ [1, 2, 4, 8]) : data ≠ [] := by
  rintro rfl
  simp at h

/-- A legal write of bytes of a register. -/
theorem State.act_cpuWrite_register {s : State} (hl : s.locked = true) {base lane : Nat} {r : MmioReg}
    (hr : mmioRegAt base = some r) {data : List Byte} (ha : laneAllowed lane data) (cached : Bool) :
    s.act (.cpuWrite (s.registerAddr (base + lane)) data cached) = s.writeMmioReg r lane data := by
  obtain ⟨hlen, hmod, hlane⟩ := ha
  obtain ⟨hin, hbase, hplace⟩ := register_place hr hlane
  rw [State.act_cpuWrite_region hl hin (ne_nil_of_length hlen), State.writeMmio, accessAllowed_register hr hlen hmod, hbase,
    hplace, hr]
  rfl

/-- A legal read of bytes of a register. -/
theorem State.act_cpuRead_register {s : State} (hl : s.locked = true) {base lane len : Nat} {r : MmioReg}
    (hr : mmioRegAt base = some r) (hlen : len ∈ [1, 2, 4, 8]) (hmod : lane % len = 0) (hlane : lane < 8) :
    s.act (.cpuRead (s.registerAddr (base + lane)) len) = .next (s.emit (.cpuData (laneBytes (s.mmioReg r) lane len))) := by
  obtain ⟨hin, hbase, hplace⟩ := register_place hr hlane
  rw [State.act_cpuRead_region hl hin (by rintro rfl; simp at hlen), State.readMmio, accessAllowed_register hr hlen hmod,
    hbase, hplace, hr]
  rfl

/-! ### What a write leaves in a register -/

/-- But for the status register, whose other bits are read-only, every bit is writable or reserved. -/
theorem MmioReg.writable_eq_not_reserved {r : MmioReg} (hr : r ≠ .status) :
    ∀ n, n < 64 → r.writable.getLsbD n = !r.reserved.getLsbD n := by
  cases r with
  | status => exact absurd rfl hr
  | _ => decide

/-- A register takes the bytes written, with its reserved bits 0. -/
theorem State.takesBytes_written {s : State} (hclear : s.reservedClear) {r : MmioReg} (hr : r ≠ .status) {lane : Nat}
    {data : List Byte} (ha : laneAllowed lane data) :
    takesBytes (s.mmioReg r) r.reserved lane data (s.written r lane data) := by
  obtain ⟨hlen, hmod, hlane⟩ := ha
  intro n hn
  have hle : 8 * (lane + data.length) ≤ 64 := by have := lane_add_le hlen hmod hlane; omega
  rw [State.written, getLsbD_merge _ _ _ _ _ hle, MmioReg.writable_eq_not_reserved hr n hn]
  by_cases hcovered : 8 * lane ≤ n ∧ n < 8 * (lane + data.length)
  · cases hres : r.reserved.getLsbD n with
    | false => simp [hcovered]
    | true =>
      have hbit := congrArg (fun v => BitVec.getLsbD v n) (hclear r)
      simp only [BitVec.getLsbD_and, hres, Bool.and_true] at hbit
      simp [hcovered, hbit]
  · simp [hcovered]

/-- The register that takes the bytes is the one that the write leaves. -/
theorem State.written_of_takesBytes {s : State} (hclear : s.reservedClear) {r : MmioReg} (hr : r ≠ .status) {lane : Nat}
    {data : List Byte} (ha : laneAllowed lane data) {new : Reg} (h : takesBytes (s.mmioReg r) r.reserved lane data new) :
    new = s.written r lane data :=
  BitVec.eq_of_getLsbD_eq fun n hn => (h n hn).trans (State.takesBytes_written hclear hr ha n hn).symm

/-- A write of the whole register takes the data but for the reserved bits. -/
theorem State.written_whole {s : State} (hclear : s.reservedClear) {r : MmioReg} (hr : r ≠ .status) (v : BitVec 64) :
    s.written r 0 (leBytes 8 v.toNat) = v &&& ~~~r.reserved := by
  rw [State.written, merge_whole]
  apply BitVec.eq_of_getLsbD_eq
  intro n hn
  have hbit := congrArg (fun u => BitVec.getLsbD u n) (hclear r)
  simp only [BitVec.getLsbD_and, BitVec.getLsbD_or, BitVec.getLsbD_not, MmioReg.writable_eq_not_reserved hr n hn, hn,
    decide_true, Bool.true_and] at hbit ⊢
  cases hres : r.reserved.getLsbD n
  · simp
  · rw [hres, Bool.and_true] at hbit
    simp [hbit]

/-! ### The status register -/

/-- Settles O27: of the bytes written byte 0 alone reaches the three bits. -/
theorem statusIsWriteOneToClear : Obligations.StatusIsWriteOneToClear := by
  intro s lane data cached hl ha
  refine ⟨_, State.act_cpuWrite_register hl (base := 0x2020) (r := .status) rfl ha cached, fun n => ?_, rfl⟩
  show (clearByOnes s.status (laneData 64 lane data)).getLsbD n = _
  rw [clearByOnes, BitVec.getLsbD_and, BitVec.getLsbD_not, BitVec.getLsbD_and]
  have hseven : (7 : Reg).getLsbD n = decide (n < 3) := by
    by_cases hn : n < 64
    · have : ∀ k, k < 64 → (7 : Reg).getLsbD k = decide (k < 3) := by decide
      exact this n hn
    · rw [BitVec.getLsbD_of_ge _ _ (by omega), decide_eq_false (by omega)]
  by_cases hn : n < 3
  · have hdata : (laneData 64 lane data).getLsbD n = (decide (lane = 0) && (data.getD 0 0).getLsbD n) := by
      rw [laneData, BitVec.getLsbD_shiftLeft, BitVec.getLsbD_ofNat, testBit_leNat]
      by_cases h0 : lane = 0
      · subst h0
        rw [show (n - 8 * 0) / 8 = 0 by omega, show (n - 8 * 0) % 8 = n by omega]
        simp [show n < 64 by omega]
      · rw [decide_eq_true (show n < 8 * lane by omega), decide_eq_false h0]
        simp
    rw [hseven, hdata, decide_eq_true hn, decide_eq_true (show n < 64 by omega)]
    simp [hn]
  · rw [hseven, decide_eq_false hn]
    by_cases h64 : n < 64
    · simp [h64, hn]
    · rw [BitVec.getLsbD_of_ge _ _ (by omega), Bool.false_and, Bool.false_and]

/-! ### The control register -/

theorem decide_laneMask {lane len n : Nat} (h : lane + len ≤ 8) :
    (laneMask 64 lane len).getLsbD n = decide (8 * lane ≤ n ∧ n < 8 * (lane + len)) := by
  rw [getLsbD_laneMask _ _ _ _ (by omega), Bool.decide_and]

theorem and_not_and_not (a b c : Bool) : (a && !(b && !c)) = (a && (c || !b)) := by cases a <;> cases b <;> cases c <;> rfl

theorem and_withBit_false (r : Reg) (n : Nat) (h : r.getLsbD n = false) : r &&& ~~~(1#64 <<< n) = r := by
  apply BitVec.eq_of_getLsbD_eq
  intro k hk
  by_cases hkn : k = n
  · subst hkn; simp [h]
  · have : (1#64 <<< n).getLsbD k = false := by
      rw [BitVec.getLsbD_shiftLeft]
      by_cases hlt : k < n
      · simp [hlt]
      · have : k - n ≠ 0 := by omega
        simp [this]
    rw [BitVec.getLsbD_and, BitVec.getLsbD_not, this]
    simp [hk]

/-- The interrupts that a write of the control register may send. -/
theorem State.enableInterrupts_le (s : State) (new : Reg) : s.enableInterrupts new ≤
    (if s.comWaitIntEn = false ∧ new.getLsbD 4 = true ∧ s.comWaitInt = true then 1 else 0) +
      (if s.eventIntEn = false ∧ new.getLsbD 3 = true ∧ s.eventLogInt = true then 1 else 0) +
      (if s.eventIntEn = false ∧ new.getLsbD 3 = true ∧ s.eventOverflow = true then 1 else 0) := by
  have single : ∀ en b bit f : Bool,
      (if (b && !en) && bit && f then 1 else 0) ≤ (if en = false ∧ b = true ∧ bit = true then 1 else 0) := by decide
  exact Nat.add_le_add (Nat.add_le_add (single _ _ _ _) (single _ _ _ _)) (single _ _ _ _)

/-- Settles O28. -/
theorem controlWriteTakesEffect : Obligations.ControlWriteTakesEffect := by
  refine ⟨fun s lane data new cached hl hclear ha hnew => ?written, fun s => ?cmdRun, fun s => ?evtRun⟩
  case written =>
    have hnew : new = s.written .control lane data := State.written_of_takesBytes hclear (by decide) ha hnew
    have hle := lane_add_le ha.1 ha.2.1 ha.2.2
    have hpos : data.length ≠ 0 := by intro h; exact ne_nil_of_length ha.1 (List.length_eq_zero_iff.mp h)
    refine ⟨s.writeControl (laneMask 64 lane data.length) new, ?act, rfl, ?halted, ?evtHalted, rfl, ?runs, ?logs, ?overflow,
      ?comWait, ?logInt, Nat.le_add_right _ _, ?due, rfl⟩
    case act =>
      rw [State.act_cpuWrite_register hl (base := 0x18) (r := .control) rfl ha cached, hnew]
      rfl
    case halted =>
      show (s.halted && !(_ && !_)) = _
      rw [and_not_and_not, decide_laneMask hle, ← decide_not]
      congr 2
      exact decide_eq_decide.mpr (by omega)
    case evtHalted =>
      show (s.evtHalted && !(_ && !_)) = _
      rw [and_not_and_not, decide_laneMask hle, ← decide_not]
      congr 2
      exact decide_eq_decide.mpr (by omega)
    case runs => exact getLsbD_riseStatus _ _ _ _ 4
    case logs => exact getLsbD_riseStatus _ _ _ _ 3
    case overflow => exact getLsbD_riseStatus _ _ _ _ 0
    case comWait => exact getLsbD_riseStatus _ _ _ _ 2
    case logInt => exact getLsbD_riseStatus _ _ _ _ 1
    case due =>
      rw [Nat.add_assoc, Nat.add_assoc, ← Nat.add_assoc (ite _ _ _)]
      exact Nat.add_le_add_left (s.enableInterrupts_le new) s.intDue
  case cmdRun =>
    refine congrArg Host.Outcome.next ?_
    by_cases hends : s.fetching = false ∧ s.fetched = []
    · rw [if_pos hends]
      cases hrun : s.cmdBufRun
      · have hmask : s.status &&& ~~~(0x10#64) = s.status := and_withBit_false s.status 4 hrun
        rw [hmask, State.settleCmdRun, if_neg (by simp [State.cmdRunFalls, hrun])]
      · rw [State.settleCmdRun, if_pos (by simp [State.cmdRunFalls, hrun, hends])]
        rfl
    · rw [if_neg hends, State.settleCmdRun, if_neg]
      simpa [State.cmdRunFalls, and_assoc] using fun _ => hends
  case evtRun =>
    refine congrArg Host.Outcome.next ?_
    cases hl : s.logging
    · cases hrun : s.eventLogRun
      · have hmask : s.status &&& ~~~(0x8#64) = s.status := and_withBit_false s.status 3 hrun
        rw [hmask, State.settleEvtRun, if_neg (by simp [State.evtRunFalls, hrun]), ite_self]
      · rw [State.settleEvtRun, if_pos (by simp [State.evtRunFalls, hrun, hl])]
        rfl
    · rw [State.settleEvtRun, if_neg (by simp [State.evtRunFalls, hl])]
      rfl

/-! ### The ring base registers -/

/-- Settles O29. -/
theorem baseWritesResetPointers : Obligations.BaseWritesResetPointers := by
  intro s lane data new cached hl hclear ha
  have hcovers := coversWritable_evtBase ha.1 ha.2.1 ha.2.2
  refine ⟨fun hnew => ?_, fun hnew hstopped => ?_, fun hrun hfields => ?_⟩
  · obtain rfl := State.written_of_takesBytes hclear (r := .cmdBase) (by decide) ha hnew
    exact State.act_cpuWrite_register hl (base := 0x8) (r := .cmdBase) rfl ha cached
  · obtain rfl := State.written_of_takesBytes hclear (r := .evtBase) (by decide) ha hnew
    have hopen : (MmioReg.evtBase.coversWritable lane data.length && s.eventLogRun) = false := by
      rcases hstopped with h | h
      · rw [h, Bool.and_false]
      · have : MmioReg.evtBase.coversWritable lane data.length = false := by simpa [h] using hcovers
        rw [this, Bool.false_and]
    refine (State.act_cpuWrite_register hl (base := 0x10) (r := .evtBase) rfl ha cached).trans ?_
    exact if_neg (by rw [hopen]; decide)
  · refine (State.act_cpuWrite_register hl (base := 0x10) (r := .evtBase) rfl ha cached).trans ?_
    exact if_pos (by rw [hcovers.mpr hfields, hrun]; rfl)

/-! ### The ring pointers -/

/-- Settles O31. -/
theorem pointerWrites : Obligations.PointerWrites := by
  intro s lane data new cached hl hclear ha
  refine ⟨fun hnew => ?_, fun hnew => ?_, fun hnew => ?_, fun hnew => ?_⟩
  · obtain rfl := State.written_of_takesBytes hclear (r := .cmdHead) (by decide) ha hnew
    exact State.act_cpuWrite_register hl (base := 0x2000) (r := .cmdHead) rfl ha cached
  · obtain rfl := State.written_of_takesBytes hclear (r := .cmdTail) (by decide) ha hnew
    refine (State.act_cpuWrite_register hl (base := 0x2008) (r := .cmdTail) rfl ha cached).trans ?_
    show s.writeCmdTail _ = _
    simp only [State.writeCmdTail, Bool.and_eq_true, decide_eq_true_eq]
    rfl
  · obtain rfl := State.written_of_takesBytes hclear (r := .evtHead) (by decide) ha hnew
    refine (State.act_cpuWrite_register hl (base := 0x2010) (r := .evtHead) rfl ha cached).trans ?_
    show s.writeEvtHead _ = _
    simp only [State.writeEvtHead, Bool.and_eq_true, decide_eq_true_eq]
    rfl
  · obtain rfl := State.written_of_takesBytes hclear (r := .evtTail) (by decide) ha hnew
    exact State.act_cpuWrite_register hl (base := 0x2018) (r := .evtTail) rfl ha cached

/-! ### Reading back -/

/-- The bytes of a word from one place on. -/
theorem leBytes_shiftRight (n lane len v : Nat) (h : lane + len ≤ n) :
    leBytes len (v >>> (8 * lane)) = ((leBytes n v).drop lane).take len := by
  apply List.ext_getElem
  · simp only [leBytes_length, List.length_take, List.length_drop]
    omega
  · intro k h1 h2
    rw [List.getElem_take, List.getElem_drop, getElem_leBytes, getElem_leBytes, Nat.shiftRight_eq_div_pow, Nat.pow_mul,
      Nat.div_div_eq_div_mul, Nat.pow_add]

theorem laneBytes_eq {w n lane len : Nat} (r : BitVec w) (h : lane + len ≤ n) :
    laneBytes r lane len = ((leBytes n r.toNat).drop lane).take len := by
  rw [laneBytes, BitVec.toNat_ushiftRight, leBytes_shiftRight n _ _ _ h]

/-- Settles O30. -/
theorem tableRegistersReadBack : Obligations.TableRegistersReadBack := by
  intro s cached hl hclear
  refine ⟨fun v => ⟨?tab, ?excl, ?limit⟩, fun r base lane data hb hr ha => ?write, fun r base lane len hb hlen hmod hlane => ?read,
    fun offset data hin hd hbad => ⟨?badWrite, ?badRead⟩, fun offset data hin hlen hmod hnone => ⟨?noneWrite, ?noneRead⟩⟩
  case tab =>
    refine (State.act_cpuWrite_register hl (base := 0) (r := .devTabBase) rfl (laneAllowed_whole v) cached).trans ?_
    rw [← State.written_whole hclear (r := .devTabBase) (by decide)]
    rfl
  case excl =>
    refine (State.act_cpuWrite_register hl (base := 0x20) (r := .exclBase) rfl (laneAllowed_whole v) cached).trans ?_
    rw [← State.written_whole hclear (r := .exclBase) (by decide)]
    rfl
  case limit =>
    refine (State.act_cpuWrite_register hl (base := 0x28) (r := .exclLimit) rfl (laneAllowed_whole v) cached).trans ?_
    rw [← State.written_whole hclear (r := .exclLimit) (by decide)]
    rfl
  case write =>
    have htakes := State.takesBytes_written hclear (r := r) (by rcases hr with rfl | rfl | rfl <;> decide) ha
    rcases hr with rfl | rfl | rfl
    · refine ⟨_, State.act_cpuWrite_register hl hb ha cached, htakes, fun q hq => ?_, rfl⟩
      cases q with
      | devTabBase => exact absurd rfl hq
      | _ => rfl
    · refine ⟨_, State.act_cpuWrite_register hl hb ha cached, htakes, fun q hq => ?_, rfl⟩
      cases q with
      | exclBase => exact absurd rfl hq
      | _ => rfl
    · refine ⟨_, State.act_cpuWrite_register hl hb ha cached, htakes, fun q hq => ?_, rfl⟩
      cases q with
      | exclLimit => exact absurd rfl hq
      | _ => rfl
  case read =>
    rw [State.act_cpuRead_register hl hb hlen hmod hlane, laneBytes_eq (n := 8) _ (lane_add_le hlen hmod hlane)]
    rfl
  case badWrite =>
    rw [State.act_cpuWrite_region hl hin hd, State.writeMmio, accessAllowed_eq_false hbad]
    rfl
  case badRead =>
    rw [State.act_cpuRead_region hl hin (by simpa using hd), State.readMmio, accessAllowed_eq_false hbad]
    rfl
  case noneWrite =>
    rw [State.act_cpuWrite_region hl hin (ne_nil_of_length hlen), State.writeMmio, (accessAllowed_iff _ _).mpr ⟨hlen, hmod⟩,
      hnone]
    rfl
  case noneRead =>
    rw [State.act_cpuRead_region hl hin (by rintro h; simp [h] at hlen), State.readMmio,
      (accessAllowed_iff _ _).mpr ⟨hlen, hmod⟩, hnone]
    rfl

/-- Settles O33. -/
theorem resetValues : Obligations.ResetValues := fun _ => rfl

end Sys2Proof.Machine
end


section
/-! PROOFS. The capability block, and software's accesses to system memory (spec/10_state.md R20 to R27,
spec/20_memory.md R107, R108). -/

namespace Sys2Proof.Machine

/-! ### What a configuration write leaves in a register -/

/-- The bytes of a legal configuration access lie within one register. -/
theorem cfg_lane_le {offset len : Nat} (h : len ∈ [1, 2, 4] ∧ offset % len = 0) : offset % 4 + len ≤ 4 := by
  obtain ⟨hlen, ha⟩ := h
  have hcases : len = 1 ∨ len = 2 ∨ len = 4 := by simpa using hlen
  rcases hcases with rfl | rfl | rfl <;> omega

/-- The word at `4 * q` after a write that may cover it or not. -/
theorem capTakes_word {offset : Nat} {data : List Byte} (h : offset % 4 + data.length ≤ 4) (q : Nat) (old w : CapReg) :
    capTakes (4 * q) old w offset data (if offset / 4 = q then merge old w (offset % 4) data else old) := by
  intro n hn
  by_cases hq : offset / 4 = q
  · rw [if_pos hq, getLsbD_merge _ _ _ _ _ (by omega)]
    have hplace : (n - 8 * (offset % 4)) / 8 = (8 * (4 * q) + n) / 8 - offset := by omega
    by_cases hin : 8 * (offset % 4) ≤ n ∧ n < 8 * (offset % 4 + data.length)
    · rw [hplace, show (n - 8 * (offset % 4)) % 8 = n % 8 by omega]
      refine if_congr ?_ rfl rfl
      rw [← and_assoc]
      exact and_congr_left' ⟨fun _ => by omega, fun _ => hin⟩
    · rw [if_neg (fun hc => hin hc.1), if_neg (fun hc => hin (by omega))]
  · rw [if_neg hq, if_neg (by omega)]

/-- A write of a whole word takes its writable bits. -/
theorem merge_whole_cap (old w v : CapReg) : merge old w 0 (leBytes 4 v.toNat) = (old &&& ~~~w) ||| (v &&& w) := by
  have hdata : laneData 32 0 (leBytes 4 v.toNat) = v := by
    have : BitVec.ofNat 32 (leNat (leBytes 4 v.toNat)) = v := wordOf_leBytes 4 v
    simp [laneData, this]
  rw [merge, leBytes_length, hdata, show laneMask 32 0 4 = BitVec.allOnes 32 by decide, BitVec.allOnes_and]

/-- While `Enable` is 0 a write takes it like any other writable bit (R22). -/
theorem merge_baseLowWritable {old : CapReg} (hl : old.getLsbD 0 = false) (lane : Nat) (data : List Byte) :
    merge old (baseLowWritable (laneData 32 lane data)) lane data =
      merge old (if Config.baseAddrRO then 1 else 0xFFFFC001) lane data := by
  have hfixed : (if Config.baseAddrRO then 1 else 0xFFFFC001 : CapReg) = (if Config.baseAddrRO then 0 else 0xFFFFC000) ||| 1 := by
    cases Config.baseAddrRO <;> decide
  rw [hfixed, baseLowWritable, merge, merge]
  apply BitVec.eq_of_getLsbD_eq
  intro n hn
  simp only [BitVec.getLsbD_or, BitVec.getLsbD_and, BitVec.getLsbD_not, hn, decide_true, Bool.true_and]
  by_cases h0 : n = 0
  · subst h0
    rw [hl]
    cases (laneData 32 lane data).getLsbD 0 <;> simp
  · have hone : (1 : CapReg).getLsbD n = false := by simp [h0]
    rw [hone, Bool.and_false]

/-- The bits of the Base Address Low Register that a write can change while `Enable` is 0 (R22, R23). -/
def openBaseLow : CapReg := if Config.baseAddrRO then 1 else 0xFFFFC001
/-- The bits of the Base Address High Register that a write can change (R23). -/
def openBaseHigh : CapReg := if Config.baseAddrRO then 0 else 0xFFFFFFFF

/-- A configuration write while the lock is open, register by register (R21 to R26). -/
theorem State.writeCap_open {s : State} (hl : s.locked = false) (offset : Nat) (data : List Byte) :
    s.writeCap offset data = { s with
      capBaseLow := if offset / 4 = 1 then merge s.capBaseLow openBaseLow (offset % 4) data else s.capBaseLow
      capBaseHigh := if offset / 4 = 2 then merge s.capBaseHigh openBaseHigh (offset % 4) data else s.capBaseHigh
      capRange := if offset / 4 = 3 then merge s.capRange rangeWritable (offset % 4) data else s.capRange
      capMisc := if offset / 4 = 4 then merge s.capMisc s.capMiscWritable (offset % 4) data else s.capMisc } := by
  unfold State.writeCap
  dsimp only
  rw [hl, merge_baseLowWritable hl, if_neg (by decide)]
  split
  · rename_i h
    simp [h, openBaseLow]
  split
  · rename_i h
    simp [h, openBaseHigh]
  split
  · rename_i h
    simp [h]
  split
  · simp
  · simp [*]

/-- While `Enable` is 1 a configuration write changes nothing (R26). -/
theorem State.writeCap_locked {s : State} (hl : s.locked = true) (offset : Nat) (data : List Byte) :
    s.writeCap offset data = s := by
  rw [State.writeCap, if_pos hl]

/-! ### Which configuration accesses there are -/

theorem cfgAllowed_iff (offset len : Nat) : cfgAllowed offset len = true ↔ len ∈ [1, 2, 4] ∧ offset % len = 0 := by
  simp only [cfgAllowed, Bool.and_eq_true, List.contains_iff_mem, decide_eq_true_eq]

theorem State.act_cfgWrite_allowed (s : State) {offset : Nat} {data : List Byte}
    (h : data.length ∈ [1, 2, 4] ∧ offset % data.length = 0) (ho : offset < 20) :
    s.act (.cfgWrite offset data) = .next (s.writeCap offset data) := by
  show s.cfgWrite _ _ = _
  rw [State.cfgWrite, (cfgAllowed_iff _ _).mpr h, if_neg (by decide), if_neg (by omega)]

theorem State.act_cfgRead_allowed (s : State) {offset len : Nat} (h : len ∈ [1, 2, 4] ∧ offset % len = 0) (ho : offset < 20) :
    s.act (.cfgRead offset len) = .next (s.emit (.cpuData (laneBytes (s.capReg offset) (offset % 4) len))) := by
  show s.cfgRead _ _ = _
  rw [State.cfgRead, (cfgAllowed_iff _ _).mpr h, if_neg (by decide), if_neg (by omega)]

theorem State.act_cfg_outside (s : State) {offset : Nat} {data : List Byte}
    (h : data.length ∈ [1, 2, 4] ∧ offset % data.length = 0) (ho : 20 ≤ offset) :
    s.act (.cfgWrite offset data) = .refused .configOutsideBlock ∧
      s.act (.cfgRead offset data.length) = .refused .configOutsideBlock := by
  show s.cfgWrite _ _ = _ ∧ s.cfgRead _ _ = _
  rw [State.cfgWrite, State.cfgRead, (cfgAllowed_iff _ _).mpr h, if_neg (by decide), if_pos ho, if_neg (by decide), if_pos ho]
  exact ⟨rfl, rfl⟩

theorem State.act_cfg_size (s : State) {offset : Nat} {data : List Byte}
    (h : ¬(data.length ∈ [1, 2, 4] ∧ offset % data.length = 0)) :
    s.act (.cfgWrite offset data) = .refused .registerAccessSize ∧
      s.act (.cfgRead offset data.length) = .refused .registerAccessSize := by
  have hfalse : cfgAllowed offset data.length = false := by rwa [← cfgAllowed_iff, Bool.not_eq_true] at h
  show s.cfgWrite _ _ = _ ∧ s.cfgRead _ _ = _
  rw [State.cfgWrite, State.cfgRead, hfalse]
  exact ⟨rfl, rfl⟩

/-- A write of a whole register of the block. -/
theorem State.act_cfgWrite_whole {s : State} (hl : s.locked = false) (q : Nat) (hq : q < 5) (v : CapReg) :
    s.act (.cfgWrite (4 * q) (leBytes 4 v.toNat)) = .next { s with
      capBaseLow := if q = 1 then (s.capBaseLow &&& ~~~openBaseLow) ||| (v &&& openBaseLow) else s.capBaseLow
      capBaseHigh := if q = 2 then (s.capBaseHigh &&& ~~~openBaseHigh) ||| (v &&& openBaseHigh) else s.capBaseHigh
      capRange := if q = 3 then (s.capRange &&& ~~~rangeWritable) ||| (v &&& rangeWritable) else s.capRange
      capMisc := if q = 4 then (s.capMisc &&& ~~~s.capMiscWritable) ||| (v &&& s.capMiscWritable) else s.capMisc } := by
  rw [s.act_cfgWrite_allowed (by rw [leBytes_length]; exact ⟨by decide, by omega⟩) (by omega), State.writeCap_open hl,
    show 4 * q / 4 = q by omega, show 4 * q % 4 = 0 by omega, merge_whole_cap, merge_whole_cap, merge_whole_cap, merge_whole_cap]

/-! ### Reads of the block -/

theorem drop_take_between {α : Type} {A B : List α} (C : List α) {m lane len : Nat} (hA : A.length = m)
    (h : lane + len ≤ B.length) : ((A ++ B ++ C).drop (m + lane)).take len = (B.drop lane).take len := by
  subst hA
  rw [List.append_assoc, List.drop_length_add_append, List.drop_append_of_le_length (by omega),
    List.take_append_of_le_length (by rw [List.length_drop]; omega)]

/-- The bytes of the register at an offset stand there in the block. -/
theorem State.capBytes_at (s : State) {q lane len : Nat} (hq : q < 5) (h : lane + len ≤ 4) :
    (s.capBytes.drop (4 * q + lane)).take len = ((leBytes 4 (s.capReg (4 * q)).toNat).drop lane).take len := by
  have hlen : ∀ v, lane + len ≤ (leBytes 4 v).length := fun v => by rw [leBytes_length]; exact h
  match q, hq with
  | 0, _ =>
    rw [State.capBytes, List.append_assoc, List.append_assoc, List.append_assoc]
    exact drop_take_between (A := []) _ rfl (hlen _)
  | 1, _ =>
    rw [State.capBytes, List.append_assoc, List.append_assoc]
    exact drop_take_between _ (by simp) (hlen _)
  | 2, _ =>
    rw [State.capBytes, List.append_assoc]
    exact drop_take_between _ (by simp) (hlen _)
  | 3, _ => exact drop_take_between _ (by simp) (hlen _)
  | 4, _ =>
    rw [State.capBytes, ← List.append_nil (_ ++ leBytes 4 s.capMisc.toNat)]
    exact drop_take_between _ (by simp) (hlen _)

/-- A legal read gives the bytes it covers. -/
theorem State.laneBytes_capReg (s : State) {offset len : Nat} (h : len ∈ [1, 2, 4] ∧ offset % len = 0) (ho : offset < 20) :
    laneBytes (s.capReg offset) (offset % 4) len = (s.capBytes.drop offset).take len := by
  have hle := cfg_lane_le h
  have hsame : s.capReg offset = s.capReg (4 * (offset / 4)) := by
    simp only [State.capReg, show 4 * (offset / 4) / 4 = offset / 4 by omega]
  rw [laneBytes_eq (n := 4) _ hle, hsame, ← s.capBytes_at (by omega) hle, show 4 * (offset / 4) + offset % 4 = offset by omega]

theorem laneBytes_whole_cap (v : CapReg) : laneBytes v 0 4 = leBytes 4 v.toNat := by
  rw [laneBytes_eq (n := 4) _ (by decide), List.drop_zero, List.take_of_length_le (by simp)]

/-! ### The lock is kept -/

/-- Nothing but a system reset changes `Enable` and the base address while `Enable` is 1 (R22, R26). -/
theorem State.act_keeps_base {s t : State} {a : Action} (hl : s.locked = true) (ha : a ≠ .reset) (h : s.act a = .next t) :
    t.capBaseLow = s.capBaseLow ∧ t.capBaseHigh = s.capBaseHigh := by
  rcases State.act_registers h with hm | ⟨-, -, r, lane, data, hr⟩ | ⟨offset, data, -, rfl⟩ | ⟨e, -⟩ | ⟨-, rfl⟩ | ⟨-, rfl⟩
  · exact ⟨hm.capBaseLow, hm.capBaseHigh⟩
  · cases hr <;> exact ⟨rfl, rfl⟩
  · rw [State.writeCap_locked hl]
    exact ⟨rfl, rfl⟩
  · exact absurd e ha
  · simp
  · simp

theorem step_keeps_base {s t : State} (hl : s.locked = true) (h : step s = .next t) (hr : s.agenda.head? ≠ some .reset) :
    t.capBaseLow = s.capBaseLow ∧ t.capBaseHigh = s.capBaseHigh := by
  cases hagenda : s.agenda with
  | cons a rest =>
    rw [step_of_cons hagenda] at h
    refine State.act_keeps_base (s := s.tick.setAgenda rest) hl (fun ha => hr ?_) h
    rw [hagenda, ha]
    rfl
  | nil =>
    rw [step_of_nil hagenda] at h
    rcases s.tick.autonomous_cases with ⟨-, e⟩ | ⟨a, hown, e⟩ | e <;> rw [e] at h
    · have hm := State.fetchThen_moves (.inl rfl) h
      exact ⟨hm.capBaseLow, hm.capBaseHigh⟩
    · refine State.act_keeps_base (s := s.tick) hl ?_ h
      rintro rfl
      rcases hown with hown | ⟨hown, -⟩ <;> cases hown
    · cases h
      simp

/-! ### Memory accesses of the processor -/

theorem State.touchesRegisters_eq_false {s : State} {a n : Nat} :
    s.touchesRegisters a n = false ↔ s.clearOfRegisters a n := by
  simp only [State.touchesRegisters, overlaps, Bool.and_eq_false_iff, decide_eq_false_iff_not, State.clearOfRegisters]
  cases s.locked
  · simp
  · simp only [Bool.true_eq_false, false_or, forall_const]
    omega

/-- What is system memory: everything below 2^52 but the enabled register region and the holes that answer no access
(R27, spec/20_memory.md R94). -/
theorem State.isMemory_iff (s : State) (a n : Nat) :
    s.isMemory a n = true ↔ (a + n ≤ 2 ^ 52 ∧ s.clearOfRegisters a n ∧
      ∀ h ∈ s.holes, h.answer = .dataError ∨ h.base + h.size ≤ a ∨ a + n ≤ h.base) := by
  rw [State.isMemory, Bool.and_eq_true, Bool.and_eq_true, decide_eq_true_eq, Bool.not_eq_true', State.touchesRegisters_eq_false,
    List.all_eq_true, and_assoc]
  refine and_congr_right' (and_congr_right' (forall₂_congr fun h _ => ?_))
  rw [overlaps, Bool.or_eq_true, Bool.not_eq_true', Bool.and_eq_false_iff, decide_eq_false_iff_not, decide_eq_false_iff_not,
    decide_eq_true_eq, Nat.not_lt, Nat.not_lt, or_comm]

/-- A processor's write that reaches memory (R107, R108). -/
theorem State.act_cpuWrite_memory {s : State} {a : Addr} {data : List Byte} (h : s.isMemory a.toNat data.length = true)
    (cached : Bool) : s.act (.cpuWrite a data cached) = .next { s with
      mem := s.mem.writeBytes a.toNat data
      dram := if cached then s.dram else s.dram.writeBytes a.toNat data } := by
  show s.cpuWrite _ _ _ = _
  rw [State.cpuWrite, State.isMemory_registers h, if_neg (by decide), if_neg (by have := State.isMemory_bound h; omega), h,
    if_neg (by decide)]
  cases cached <;> rfl

theorem State.act_cpuRead_memory {s : State} {a : Addr} {len : Nat} (h : s.isMemory a.toNat len = true) :
    s.act (.cpuRead a len) = .next (s.emit (.cpuData (s.mem.readBytes a.toNat len))) := by
  show s.cpuRead _ _ = _
  rw [State.cpuRead, State.isMemory_registers h, if_neg (by decide), if_neg (by have := State.isMemory_bound h; omega), h,
    if_neg (by decide)]

theorem State.act_writeBack_memory {s : State} {a : Addr} {len : Nat} (h : s.isMemory a.toNat len = true) :
    s.act (.writeBack a len) = .next { s with dram := s.dram.writeBytes a.toNat (s.mem.readBytes a.toNat len) } := by
  show s.writeBack _ _ = _
  rw [State.writeBack, if_neg (by have := State.isMemory_bound h; omega), h, if_neg (by decide)]

/-- Copying a range of one memory to another. -/
theorem Memory.read_writeBytes_readBytes (m d : Memory) (hd : d.wf = true) (a len b : Nat) :
    (d.writeBytes a (m.readBytes a len)).read b = if a ≤ b ∧ b < a + len then m.read b else d.read b := by
  by_cases hb : a ≤ b ∧ b < a + len
  · obtain ⟨k, rfl⟩ := Nat.exists_eq_add_of_le hb.1
    rw [if_pos hb, Memory.read_writeBytes_same _ _ _ _ hd (by simpa using hb.2), Memory.getElem_readBytes]
  · rw [if_neg hb, Memory.read_writeBytes_other _ _ _ _ (by rw [Memory.length_readBytes]; omega)]

theorem State.cpuWrite_registers_straddle {s : State} (hl : s.locked = true) {a : Addr} {len : Nat} (hbelow : a.toNat < s.mmioBase)
    (hinto : s.mmioBase < a.toNat + len) : s.touchesRegisters a.toNat len = true := by
  simp only [State.touchesRegisters, overlaps, hl, Bool.true_and, Bool.and_eq_true, decide_eq_true_eq]
  omega

/-! ### The obligation -/

/-- Settles O32. -/
theorem capabilityLockHolds : Obligations.CapabilityLockHolds := by
  refine ⟨fun s v hl => ⟨?header, ?low, ?high, fun fixed hfixed => ?range, ?misc⟩, fun s t offset data hl h => ?locked,
    fun s t hl h hr => ?steps, fun s t a data cached hl h => ?openWrite, fun s t a len hl h => ?openRead,
    fun s => ⟨?_, ?_, ?_, ?_, ?_, rfl⟩, fun s offset data => ⟨fun ha ho => ⟨fun hl => ?lockedBytes, fun hl fixed hfixed => ?bytes, ?read⟩,
      fun ha ho => s.act_cfg_outside ha ho, fun ha => s.act_cfg_size ha⟩, State.isMemory_iff,
    fun s a data cached hm => ⟨fun hc => ?write, State.act_cpuRead_memory hm, fun hc => ?writeBack⟩,
    fun s a data cached hd => ⟨fun hout => ?outside, fun hin hnot => ?foreign, fun hl hbelow hinto => ?straddle⟩⟩
  case header => exact State.act_cfgWrite_whole hl 0 (by decide) v
  case low =>
    refine (State.act_cfgWrite_whole hl 1 (by decide) v).trans ?_
    have hbit : s.capBaseLow &&& ~~~(1 : CapReg) = s.capBaseLow := by
      apply BitVec.eq_of_getLsbD_eq
      intro n hn
      by_cases h0 : n = 0
      · subst h0
        have : s.capBaseLow.getLsbD 0 = false := hl
        rw [BitVec.getLsbD_and, this, Bool.false_and]
      · have hone : (1 : CapReg).getLsbD n = false := by simp [h0]
        rw [BitVec.getLsbD_and, BitVec.getLsbD_not, hone, decide_eq_true hn, Bool.not_false, Bool.and_self, Bool.and_true]
    have hvalue : (s.capBaseLow &&& ~~~openBaseLow) ||| (v &&& openBaseLow) =
        if Config.baseAddrRO then s.capBaseLow ||| (v &&& 1) else (s.capBaseLow &&& 0x3FFE) ||| (v &&& 0xFFFFC001) := by
      unfold openBaseLow
      cases Config.baseAddrRO
      · rfl
      · rw [if_pos rfl, if_pos rfl, hbit]
    rw [← hvalue]
    rfl
  case high =>
    refine (State.act_cfgWrite_whole hl 2 (by decide) v).trans ?_
    have hvalue : (s.capBaseHigh &&& ~~~openBaseHigh) ||| (v &&& openBaseHigh) = if Config.baseAddrRO then s.capBaseHigh else v := by
      unfold openBaseHigh
      cases Config.baseAddrRO
      · show (s.capBaseHigh &&& 0#32) ||| (v &&& BitVec.allOnes 32) = v
        rw [BitVec.and_allOnes, BitVec.and_zero, BitVec.zero_or]
      · exact (congrArg (· ||| v &&& 0) BitVec.and_allOnes).trans (by simp)
    rw [← hvalue]
    rfl
  case range =>
    refine (State.act_cfgWrite_whole hl 3 (by decide) v).trans ?_
    have hvalue : (s.capRange &&& ~~~rangeWritable) ||| (v &&& rangeWritable) =
        (s.capRange &&& (0x60 ||| fixed)) ||| (v &&& 0xFFFFFF9F &&& ~~~fixed) := by
      rw [rangeWritable_eq, ← hfixed, BitVec.not_and, BitVec.not_not, BitVec.and_assoc]
      rfl
    rw [← hvalue]
    rfl
  case misc =>
    refine (State.act_cfgWrite_whole hl 4 (by decide) v).trans ?_
    have hvalue : (s.capMisc &&& ~~~s.capMiscWritable) ||| (v &&& s.capMiscWritable) =
        if s.iotlbSup = false ∧ Config.htAtsResvRO = true then s.capMisc
        else (s.capMisc &&& 0xFFBFFFFF) ||| (v &&& 0x00400000) := by
      unfold State.capMiscWritable
      cases s.iotlbSup
      · cases Config.htAtsResvRO
        · rfl
        · exact (congrArg (· ||| v &&& 0) BitVec.and_allOnes).trans (by simp)
      · rfl
    rw [← hvalue]
    rfl
  case locked =>
    rw [State.cfgWrite_cases h, State.writeCap_locked hl]
  case steps =>
    obtain ⟨hlow, hhigh⟩ := step_keeps_base hl h hr
    rw [State.locked, State.mmioBase, hlow, hhigh]
    exact ⟨hl, rfl⟩
  case openWrite =>
    rcases State.cpuWrite_cases h with rfl | ⟨hl', -⟩ | rfl | rfl
    · rfl
    · rw [hl] at hl'
      cases hl'
    · rfl
    · rfl
  case openRead =>
    have h : s.cpuRead a len = .next t := h
    rw [State.cpuRead, State.touchesRegisters, hl, Bool.false_and, if_neg (by decide)] at h
    split at h
    · cases h
    split at h
    · cases h
    · cases h
      rfl
  case lockedBytes => rw [s.act_cfgWrite_allowed ha ho, State.writeCap_locked hl]
  case bytes =>
    have hle := cfg_lane_le ha
    refine ⟨_, s.act_cfgWrite_allowed ha ho, ?_⟩
    rw [State.writeCap_open hl]
    have hmisc : (if s.iotlbSup = false ∧ Config.htAtsResvRO = true then 0 else 0x00400000) = s.capMiscWritable := by
      unfold State.capMiscWritable
      cases s.iotlbSup <;> cases Config.htAtsResvRO <;> rfl
    rw [hfixed, ← rangeWritable_eq, hmisc]
    exact ⟨capTakes_word hle 1 _ _, capTakes_word hle 2 _ _, capTakes_word hle 3 _ _, capTakes_word hle 4 _ _, rfl⟩
  case read =>
    rw [s.act_cfgRead_allowed ha ho, s.laneBytes_capReg ha ho]
    rfl
  case write =>
    obtain ⟨hmem, hdram⟩ := hc
    refine ⟨_, State.act_cpuWrite_memory hm cached, s.mem.readBytes_writeBytes _ _ hmem, fun b hb => ⟨?_, ?_⟩, ?_, ?_, rfl⟩
    · exact s.mem.read_writeBytes_other _ _ _ hb
    · cases cached
      · exact s.dram.read_writeBytes_other _ _ _ hb
      · rfl
    · rintro rfl
      exact s.dram.readBytes_writeBytes _ _ hdram
    · rintro rfl
      rfl
  case writeBack =>
    exact ⟨_, State.act_writeBack_memory hm, fun b => s.mem.read_writeBytes_readBytes s.dram hc.2 _ _ b, rfl⟩
  case outside =>
    refine ⟨if_pos hout, fun hclear => ?_⟩
    have hno := State.touchesRegisters_eq_false.mpr hclear
    show s.cpuWrite _ _ _ = _ ∧ s.cpuRead _ _ = _
    rw [State.cpuWrite, State.cpuRead, hno, if_neg (by decide), if_pos hout, if_neg (by decide), if_pos hout]
    exact ⟨rfl, rfl⟩
  case foreign =>
    have hle : ¬2 ^ 52 < a.toNat + data.length := by omega
    refine ⟨?_, fun hclear => ?_⟩
    · show s.writeBack _ _ = _
      rw [State.writeBack, if_neg hle, hnot]
      rfl
    · have hno := State.touchesRegisters_eq_false.mpr hclear
      show s.cpuWrite _ _ _ = _ ∧ s.cpuRead _ _ = _
      rw [State.cpuWrite, State.cpuRead, hno, hnot, if_neg (by decide), if_neg hle, if_neg (by decide : ¬false = true), if_neg hle]
      exact ⟨rfl, rfl⟩
  case straddle =>
    have hyes := State.cpuWrite_registers_straddle hl hbelow hinto
    show s.cpuWrite _ _ _ = _ ∧ s.cpuRead _ _ = _
    rw [State.cpuWrite, State.cpuRead, hyes, if_pos rfl, if_pos hbelow, if_pos rfl, if_pos hbelow]
    exact ⟨rfl, rfl⟩
  all_goals
    rw [s.act_cfgRead_allowed (by decide) (by decide)]
    exact congrArg (fun bytes => Host.Outcome.next (s.emit (.cpuData bytes))) (laneBytes_whole_cap _)

end Sys2Proof.Machine
end


section
/-! PROOFS. A run that has ended, and a ring that is stuck (spec/70_reset_and_hazards.md R504). -/

namespace Sys2Proof.Machine

/-! ### A run that has ended -/

theorem State.canFetch_of_quiescent {s : State} (h : s.commandsQuiescent) : s.canFetch = false := by
  obtain ⟨hempty | hoff, -⟩ := h
  · simp [State.canFetch, hempty]
  · simp [State.canFetch, hoff]

/-- With nothing to do the IOMMU shows at most that fetching or logging is off. -/
theorem State.autonomous_of_ended {s : State} (h : s.ended) (hup : s.upWrites = []) (hdue : s.intDue = 0) :
    s.autonomous = .next s.settleCmdRun.settleEvtRun := by
  obtain ⟨hcmd, hlog, hengine, -⟩ := h
  have hready : s.firstReady = none := by
    have hnone : s.fetched = [] := hcmd.2.1
    rw [State.firstReady, hnone]
    rfl
  have hlog : s.pendingEvents = [] := hlog
  have hengine : s.inFlight = [] := hengine
  rw [State.autonomous, State.canFetch_of_quiescent hcmd, hlog, hready, hengine, hup, hdue]
  rfl

theorem State.settleCmdRun_bit {s : State} (h : s.fetched = []) (n : Nat) :
    s.settleCmdRun.status.getLsbD n = (s.status.getLsbD n && !(decide (n = 4) && !s.fetching)) := by
  have hrun : s.status.getLsbD 4 = s.cmdBufRun := rfl
  unfold State.settleCmdRun State.cmdRunFalls
  rw [h]
  by_cases hn : n = 4
  · subst hn
    rw [hrun]
    split
    · rw [getLsbD_withBit _ _ _ _ (by decide), if_pos rfl]
      simp_all
    · simp_all
  · split <;> simp [getLsbD_withBit, hn]

theorem State.settleEvtRun_bit (s : State) (n : Nat) :
    s.settleEvtRun.status.getLsbD n = (s.status.getLsbD n && !(decide (n = 3) && !s.logging)) := by
  have hrun : s.status.getLsbD 3 = s.eventLogRun := rfl
  unfold State.settleEvtRun State.evtRunFalls
  by_cases hn : n = 3
  · subst hn
    rw [hrun]
    split
    · rw [getLsbD_withBit _ _ _ _ (by decide), if_pos rfl]
      simp_all
    · simp_all
  · split <;> simp [getLsbD_withBit, hn]

/-- The fall of a run bit changes nothing else. -/
theorem State.settleCmdRun_eq (s : State) : s.settleCmdRun = { s with status := s.settleCmdRun.status } := by
  unfold State.settleCmdRun
  split <;> rfl

theorem State.settleEvtRun_eq (s : State) : s.settleEvtRun = { s with status := s.settleEvtRun.status } := by
  unfold State.settleEvtRun
  split <;> rfl

theorem State.settle_eq (s : State) :
    s.settleCmdRun.settleEvtRun = { s with status := s.settleCmdRun.settleEvtRun.status } := by
  rw [State.settleEvtRun_eq, State.settleCmdRun_eq]

/-! ### A ring that is stuck -/

/-- The command processor's part of the state is the same. -/
structure SameCommands (s t : State) : Prop where
  cmdHead : t.cmdHead = s.cmdHead
  cmdTail : t.cmdTail = s.cmdTail
  halted : t.halted = s.halted
  fetched : t.fetched = s.fetched
  outstanding : t.outstanding = s.outstanding

theorem SameCommands.refl (s : State) : SameCommands s s := by constructor <;> rfl

theorem SameCommands.stuck {s t : State} (h : SameCommands s t) (hs : s.stuck) : t.stuck := by
  rw [State.stuck, h.halted, h.cmdHead, h.cmdTail, h.fetched, h.outstanding]
  exact hs

theorem EngineFrame.sameCommands {s t : State} (h : EngineFrame s t) : SameCommands s t := by
  constructor <;> rw [h]

theorem State.canFetch_of_stuck {s : State} (h : s.stuck) : s.canFetch = false := by
  simp [State.canFetch, State.fetching, h.1]

theorem State.report_sameCommands (s : State) (p : PendingEvent) : SameCommands s (s.report p) := by
  rcases s.report_cases p with e | ⟨-, e⟩ | ⟨-, -, e⟩ | ⟨-, -, -, -, -, e⟩ <;> rw [e]
  · exact .refl s
  · constructor <;> rfl
  · constructor <;> rfl
  · constructor <;> simp

/-- Nothing but a processor's write and a reset changes a ring that is stuck. -/
theorem State.act_sameCommands_of_stuck {s t : State} {a : Action} (hs : s.stuck)
    (hwrite : ∀ addr data cached, a ≠ .cpuWrite addr data cached) (hreset : a ≠ .reset) (h : s.act a = .next t) :
    SameCommands s t := by
  obtain ⟨-, -, hfetched, houtstanding⟩ := id hs
  cases a with
  | cpuWrite addr data cached => exact absurd rfl (hwrite addr data cached)
  | reset => exact absurd rfl hreset
  | cpuRead addr len =>
    obtain ⟨data, rfl⟩ := State.cpuRead_cases h
    exact (s.emit_frame _).sameCommands
  | cfgRead offset len =>
    obtain ⟨data, rfl⟩ := State.cfgRead_cases h
    exact (s.emit_frame _).sameCommands
  | writeBack addr len =>
    obtain rfl := State.writeBack_cases h
    constructor <;> rfl
  | cfgWrite offset data =>
    rw [State.cfgWrite_cases h, s.writeCap_frame]
    constructor <;> rfl
  | arrive tx =>
    rcases State.arrive_cases h with rfl | ⟨o, rfl⟩ | rfl | rfl
    · exact .refl _
    · exact (s.emit_frame o).sameCommands
    · constructor <;> simp [State.bypass]
    · constructor <;> rfl
  | advance k c => exact (State.advance_frame h).sameCommands
  | hostTakesWrite k => rcases State.hostTakesWrite_cases h with rfl | ⟨f, -, rfl | rfl⟩ <;> constructor <;> rfl
  | hostAnswers k x =>
    rcases State.hostAnswers_cases h with rfl | ⟨f, u, -, rfl, rfl | ⟨d, rfl⟩⟩ <;> constructor <;> rfl
  | deviceAnswers k =>
    cases h
    rw [State.deviceAnswers, houtstanding]
    exact .refl s
  | timeout k =>
    cases h
    rw [State.timeout, houtstanding]
    exact .refl s
  | run k =>
    have h : s.runCommand k = .next t := h
    rw [State.runCommand, hfetched] at h
    cases h
    exact .refl s
  | fetch =>
    change (if s.canFetch then s.fetchThen holdCommand else .next s) = .next t at h
    rw [State.canFetch_of_stuck hs] at h
    cases h
    exact .refl s
  | prefetch n =>
    cases h
    rcases s.prefetch_cases n with e | ⟨o, l, e⟩ <;> rw [e] <;> constructor <;> rfl
  | report k =>
    cases h
    rcases s.reportAt_cases k with e | ⟨p, -, e⟩ <;> rw [e]
    · exact .refl s
    · have h := (s.dropEvent k).report_sameCommands p
      exact ⟨h.cmdHead, h.cmdTail, h.halted, h.fetched, h.outstanding⟩
  | dropDte k forget =>
    cases h
    rcases s.dropDte_cases k forget with e | ⟨x, -, e⟩ <;> rw [e] <;> constructor <;> rfl
  | settleCmdRun | settleEvtRun | sendInterrupt => cases h; constructor <;> simp
  | classRead | fromUpstream | platform | dropTlb | dropPdc | dropIrte => cases h; constructor <;> rfl

theorem step_sameCommands_of_stuck {s t : State} (hs : s.stuck)
    (hwrite : ∀ addr data cached, s.agenda.head? ≠ some (.cpuWrite addr data cached)) (hreset : s.agenda.head? ≠ some .reset)
    (h : step s = .next t) : SameCommands s t := by
  cases hagenda : s.agenda with
  | cons a rest =>
    rw [step_of_cons hagenda] at h
    rw [hagenda] at hwrite hreset
    have hsame := State.act_sameCommands_of_stuck (s := s.tick.setAgenda rest) hs
      (fun addr data cached e => hwrite addr data cached (congrArg some e)) (fun e => hreset (congrArg some e)) h
    exact ⟨hsame.cmdHead, hsame.cmdTail, hsame.halted, hsame.fetched, hsame.outstanding⟩
  | nil =>
    rw [step_of_nil hagenda] at h
    have hticked : s.tick.stuck := hs
    have hsame : SameCommands s.tick t := by
      rcases s.tick.autonomous_cases with ⟨hfetch, -⟩ | ⟨a, hown, e⟩ | e
      · rw [State.canFetch_of_stuck hticked] at hfetch
        cases hfetch
      · rw [e] at h
        refine State.act_sameCommands_of_stuck hticked ?_ ?_ h
        · rintro addr data cached rfl
          rcases hown with hown | ⟨hown, -⟩ <;> cases hown
        · rintro rfl
          rcases hown with hown | ⟨hown, -⟩ <;> cases hown
      · rw [e] at h
        cases h
        constructor <;> simp
    exact ⟨hsame.cmdHead, hsame.cmdTail, hsame.halted, hsame.fetched, hsame.outstanding⟩

/-- Settles O55. -/
theorem quiescentStaysQuiescent : Obligations.QuiescentStaysQuiescent := by
  refine ⟨fun s hagenda hended hup hdue => ?ended, fun s t hs hwrite hreset h => ?stuck, fun s hfetch hquiet => ?fetch⟩
  case ended =>
    have hfetched : s.fetched = [] := hended.1.2.1
    refine ⟨s.tick.settleCmdRun.settleEvtRun, ?_, ?_, fun n => ?_, ?_⟩
    · rw [step_of_nil hagenda]
      exact State.autonomous_of_ended (s := s.tick) hended hup hdue
    · rw [State.settle_eq]
      exact hended
    · rw [State.settleEvtRun_bit, State.settleCmdRun_bit (s := s.tick) hfetched, State.settleCmdRun_eq]
      rfl
    · rw [State.settle_eq]
      rfl
  case stuck =>
    have hsame := step_sameCommands_of_stuck hs hwrite hreset h
    exact ⟨hsame.stuck hs, hsame.cmdHead, hsame.cmdTail, fun hended => hended.2.2.2 (hsame.stuck hs)⟩
  case fetch =>
    rw [State.canFetch_of_quiescent hquiet] at hfetch
    cases hfetch

end Sys2Proof.Machine
end


section
/-! PROOFS. How a transaction arrives and how it is judged (spec/40_transactions.md R171 to R209). -/

namespace Sys2Proof.Machine

/-! ### Arrival -/

/-- Settles O34. -/
theorem arrivalFollowsTheEnableBits : Obligations.ArrivalFollowsTheEnableBits := by
  intro s tx hpage hlink htunnel
  have hpresent : (tx.tunnel && !s.htTunnel) = false := by
    cases h : tx.tunnel
    · rfl
    · rw [htunnel h]
      rfl
  have harrive : tx.neverArrives = false → s.arrive tx =
      if tx.isTransReq && (!s.processes tx || !s.iotlbSup) then .next (s.emit (.aborted tx .masterAbort))
      else if !s.processes tx then .next (s.bypass tx)
      else .next (s.accept tx) := by
    intro hnever
    rw [State.arrive, hlink, hnever, hpresent, hpage]
    rfl
  have habsent : tx.neverArrives = true → s.arrive tx = .next s := by
    intro hnever
    rw [State.arrive, hlink, hnever]
    rfl
  have hoff : s.iommuEn = false ∨ tx.tunnel = true ∧ s.htTunEn = false → s.processes tx = false := by
    rintro (h | ⟨h, h'⟩)
    · rw [State.processes, h, Bool.false_and]
    · rw [State.processes, h, h', Bool.not_true, Bool.or_false, Bool.and_false]
  refine ⟨fun hdisabled hkind => ?passes, fun hdisabled hkind => ?refused, fun hen htun hats => ?accepted, fun hrange => ?arrives⟩
  case passes =>
    cases hnever : tx.neverArrives with
    | true => exact ⟨s, habsent hnever, rfl⟩
    | false =>
      have hreq : tx.isTransReq = false := decide_eq_false hkind
      refine ⟨s.bypass tx, ?_, ?_⟩
      · refine (harrive hnever).trans ?_
        rw [hreq, hoff hdisabled]
        rfl
      · refine ⟨State.sendUp_outputs _ _, ?_, ?_, ?_⟩
        · exact State.sendUp_underWay (v := { s with nextId := s.nextId + 1 }) ⟨s.nextId, tx, tx, none, false⟩ rfl rfl nofun
        · exact State.sendUp_nextId _ _
        · simp only [State.bypass, State.sendUp]
          split <;> rfl
  case refused =>
    have hreq : tx.isTransReq = true := decide_eq_true hkind
    cases hnever : tx.neverArrives with
    | true => exact habsent hnever
    | false =>
      have hrefused : (!s.processes tx || !s.iotlbSup) = true := by
        rcases hdisabled with h | h | h
        · rw [hoff (.inl h)]
          rfl
        · rw [hoff (.inr h)]
          rfl
        · rw [h, Bool.not_false, Bool.or_true]
      refine (harrive hnever).trans ?_
      rw [hreq, hrefused]
      rfl
  case accepted =>
    cases hnever : tx.neverArrives with
    | true => exact habsent hnever
    | false =>
      have hon : s.processes tx = true := by
        cases h : tx.tunnel with
        | false => rw [State.processes, hen, h]; rfl
        | true => rw [State.processes, hen, h, htun h]; rfl
      have hserved : (tx.isTransReq && !s.iotlbSup) = false := by
        cases h : tx.isTransReq with
        | false => rfl
        | true => rw [hats (of_decide_eq_true h)]; rfl
      refine (harrive hnever).trans ?_
      rw [hon, Bool.not_true, Bool.false_or, hserved]
      rfl
  case arrives => rw [Transaction.neverArrives, decide_eq_false hrange, Bool.false_and]

/-! ### How a refused transaction ends -/

theorem State.aborts_raise_refuseTx (s : State) (e : Event) (t : InFlight) (a : Abort) :
    s.aborts ((s.raise e).refuseTx t a) t a [⟨e, none, s.detected⟩] := ⟨rfl, rfl, rfl, rfl, rfl⟩

theorem State.aborts_raiseUnless_refuseTx (s : State) (suppressed : Bool) (e : Event) (t : InFlight) (a : Abort) :
    s.aborts ((s.raiseUnless suppressed e).refuseTx t a) t a (if suppressed then [] else [⟨e, none, s.detected⟩]) := by
  cases suppressed
  · exact s.aborts_raise_refuseTx e t a
  · exact ⟨rfl, rfl, (List.append_nil _).symm, rfl, rfl⟩

theorem State.aborts_raisePageFault_refuseTx (s : State) (t : InFlight) (d : Dte) (e : Event) (a : Abort) :
    s.aborts ((s.raisePageFault d t.tx.dev e).refuseTx t a) t a
      (if d.sa then [] else [⟨e, if d.se then some t.tx.dev else none, s.detected⟩]) := by
  unfold State.raisePageFault
  cases d.sa
  · cases d.se
    · exact s.aborts_raise_refuseTx e t a
    · exact ⟨rfl, rfl, rfl, rfl, rfl⟩
  · exact ⟨rfl, rfl, (List.append_nil _).symm, rfl, rfl⟩

theorem TxKind.rw_rwIs (k : TxKind) (b : Bool) : k.rwIs (if k = .transReq then b else k.rw b) := by
  cases k <;> cases b <;> decide

/-- `RW` of an event says whether the transaction is a read or a write, where it says anything (R436, R443). -/
theorem State.rwField_rwIs (s : State) {tx : Transaction} (h : rangeOf tx.addr ≠ .interruptEoi) : tx.kind.rwIs (s.rwField tx) := by
  have hrange : tx.inInterruptRange = false := decide_eq_false h
  rw [State.rwField, hrange, Bool.or_false, Transaction.isTransReq]
  simpa only [decide_eq_true_eq] using tx.kind.rw_rwIs (s.freeBit .event)

/-- A page fault of a memory access with `PR` = 1 (R443 to R445). -/
theorem State.aborts_pageFault (s : State) (t : InFlight) (d : Dte) (rz pe : Bool) (h : rangeOf t.tx.addr ≠ .interruptEoi)
    (hkind : t.tx.kind ≠ .transReq) :
    ∃ rw, t.tx.kind.rwIs rw ∧ s.aborts ((s.raisePageFault d t.tx.dev (s.pageFaultEvent t.tx d true rz pe)).refuseTx t .targetAbort)
      t .targetAbort (s.faultEvents t d rz pe rw true) := by
  refine ⟨s.rwField t.tx, s.rwField_rwIs h, ?_⟩
  have hreq : t.tx.isTransReq = false := decide_eq_false hkind
  have hevent : s.pageFaultEvent t.tx d true rz pe = .ioPageFault t.tx.dev false rz pe (s.rwField t.tx) true false d.domain t.tx.addr := by
    rw [State.pageFaultEvent, hreq]
    rfl
  rw [hevent]
  exact s.aborts_raisePageFault_refuseTx t d _ _

/-! ### Verdicts -/

theorem State.judged_eq_carryOut {s : State} {t : InFlight} {d : Dte} {v : Verdict} (h : s.judge t.tx d = v) :
    s.judged t d = s.carryOut t d v := by
  rw [State.judged, h]

theorem State.judged_of_translate {s : State} {t : InFlight} {d : Dte} (h : s.judge t.tx d = .translate) :
    s.judged t d = s.beginTranslate t d := State.judged_eq_carryOut h

theorem State.aborts_judged_of_deny {s : State} {t : InFlight} {d : Dte} {a : Abort} {e : Event} {suppressed : Bool}
    (h : s.judge t.tx d = .deny a e suppressed) :
    s.aborts (s.judged t d) t a (if suppressed then [] else [⟨e, none, s.detected⟩]) := by
  rw [State.judged_eq_carryOut h]
  exact s.aborts_raiseUnless_refuseTx suppressed e t a

theorem State.aborts_judged_of_denyRequest {s : State} {t : InFlight} {d : Dte} {type : BitVec 3}
    (h : s.judge t.tx d = denyRequest t.tx d type) : s.aborts (s.judged t d) t .targetAbort (s.requestEvents t d type) :=
  State.aborts_judged_of_deny h

theorem State.aborts_judged_of_denyTranslation {s : State} {t : InFlight} {d : Dte}
    (h : s.judge t.tx d = denyTranslation t.tx d) : s.aborts (s.judged t d) t .masterAbort (s.requestEvents t d 0) :=
  State.aborts_judged_of_deny h

theorem State.aborts_judged_of_denyEntry {s : State} {t : InFlight} {d : Dte} {rz : Bool}
    (h : s.judge t.tx d = s.denyEntry t.tx rz) :
    s.aborts (s.judged t d) t .targetAbort [⟨s.illegalEntryEvent t.tx rz, none, s.detected⟩] :=
  State.aborts_judged_of_deny h

theorem TxKind.posted_iff (k : TxKind) : k.posted = true ↔ k = .writePosted := by cases k <;> decide

theorem denyByKind_eq (tx : Transaction) (d : Dte) :
    denyByKind tx d = denyRequest tx d (if tx.kind = .writePosted then 3 else 4) := by
  rw [denyByKind]
  simp only [TxKind.posted_iff]

/-! ### The branches of `Process` (R175) -/

theorem Transaction.isTransReq_iff (tx : Transaction) : tx.isTransReq = true ↔ tx.kind = .transReq := decide_eq_true_iff

theorem State.judge_outside (s : State) {tx : Transaction} (d : Dte) (h : rangeOf tx.addr ≠ .reservedInterrupt)
    (h' : rangeOf tx.addr ≠ .interruptEoi) : s.judge tx d =
      if tx.isTransReq then s.judgeTransReq tx d (rangeOf tx.addr)
      else if tx.preTranslated then s.judgePreTranslated tx d
      else if !d.v then (if rangeOf tx.addr = .addressTranslation ∧ s.htAtsResv then denyByKind tx d else .pass)
      else s.judgeUntranslated tx d (rangeOf tx.addr) := by
  rw [State.judge]
  exact if_neg (by rintro (e | e); exacts [h e, h' e])

theorem State.judge_untranslated (s : State) {tx : Transaction} (d : Dte) (h : tx.untranslated) : s.judge tx d =
    if !d.v then (if rangeOf tx.addr = .addressTranslation ∧ s.htAtsResv then denyByKind tx d else .pass)
    else s.judgeUntranslated tx d (rangeOf tx.addr) := by
  obtain ⟨hkind, hpre, hreserved, heoi⟩ := h
  rw [s.judge_outside d hreserved heoi, Transaction.isTransReq, decide_eq_false hkind, hpre]
  rfl

theorem State.judge_transReq (s : State) {tx : Transaction} (d : Dte) (hkind : tx.kind = .transReq)
    (h : rangeOf tx.addr ≠ .reservedInterrupt) (h' : rangeOf tx.addr ≠ .interruptEoi) :
    s.judge tx d = s.judgeTransReq tx d (rangeOf tx.addr) := by
  rw [s.judge_outside d h h', Transaction.isTransReq, decide_eq_true hkind]
  rfl

theorem State.judge_preTranslated (s : State) {tx : Transaction} (d : Dte) (hpre : tx.preTranslated = true)
    (hkind : tx.kind ≠ .transReq) (h : rangeOf tx.addr ≠ .reservedInterrupt) (h' : rangeOf tx.addr ≠ .interruptEoi) :
    s.judge tx d = s.judgePreTranslated tx d := by
  rw [s.judge_outside d h h', Transaction.isTransReq, decide_eq_false hkind, hpre]
  rfl

theorem State.judge_interruptRange (s : State) {tx : Transaction} (d : Dte)
    (h : rangeOf tx.addr = .reservedInterrupt ∨ rangeOf tx.addr = .interruptEoi) :
    s.judge tx d = s.judgeInterruptRange tx d (rangeOf tx.addr) := by
  rw [State.judge]
  exact if_pos h

/-- An untranslated transaction under a legal entry with `V` = 1. -/
theorem State.judge_legal (s : State) {tx : Transaction} {d : Dte} (h : tx.untranslated) (hv : d.v = true)
    (hlow : d.checkLow = none) : s.judge tx d =
      if rangeOf tx.addr = .systemManagement ∧ d.sysMgt ≠ 3 then judgeSysMgt tx d
      else if rangeOf tx.addr = .ioSpace ∧ d.ioCtl ≠ 2 then judgeIo tx d
      else if rangeOf tx.addr = .addressTranslation ∧ s.htAtsResv then denyByKind tx d
      else s.judgeMemory tx d (rangeOf tx.addr) := by
  rw [s.judge_untranslated d h, hv, if_neg (by decide), State.judgeUntranslated, hlow]

/-- Where no field of the entry and no register refuses the range, the transaction is an ordinary one. -/
theorem State.judge_memory (s : State) {tx : Transaction} {d : Dte} (h : tx.untranslated) (hv : d.v = true)
    (hlow : d.checkLow = none) (hsys : rangeOf tx.addr = .systemManagement → d.sysMgt = 3)
    (hio : rangeOf tx.addr = .ioSpace → d.ioCtl = 2) (hats : rangeOf tx.addr = .addressTranslation → s.htAtsResv = false) :
    s.judge tx d = s.judgeMemory tx d (rangeOf tx.addr) := by
  rw [s.judge_legal h hv hlow, if_neg (fun e => e.2 (hsys e.1)), if_neg (fun e => e.2 (hio e.1)),
    if_neg (fun e => by rw [hats e.1] at e; cases e.2)]

theorem State.judge_uncontrolled (s : State) {tx : Transaction} {d : Dte} (h : tx.untranslated) (hc : s.uncontrolled tx)
    (hv : d.v = true) (hlow : d.checkLow = none) : s.judge tx d = s.judgeMemory tx d (rangeOf tx.addr) :=
  s.judge_memory h hv hlow (fun e => absurd e hc.1) (fun e => absurd e hc.2.1) hc.2.2

theorem State.judgeMemory_excluded {s : State} {tx : Transaction} {d : Dte} (h : s.excluded d tx.addr = true)
    (rng : SpecialRange) : s.judgeMemory tx d rng = .pass := by
  rw [State.judgeMemory, h]
  rfl

theorem State.judgeMemory_translate {s : State} {tx : Transaction} {d : Dte} (h : s.excluded d tx.addr = false)
    (htv : d.tv = true) (rng : SpecialRange) : s.judgeMemory tx d rng = .translate := by
  rw [State.judgeMemory, h, htv]
  rfl

theorem State.judgeMemory_untabled {s : State} {tx : Transaction} {d : Dte} (h : s.excluded d tx.addr = false)
    (htv : d.tv = false) (rng : SpecialRange) : s.judgeMemory tx d rng =
      if rng.controlled then denyRequest tx d 7 else .fault (s.pageFaultEvent tx d true false (s.openBit 2)) := by
  rw [State.judgeMemory, h, htv]
  rfl

theorem SpecialRange.controlled_iff (r : SpecialRange) : r.controlled = true ↔ r = .systemManagement ∨ r = .ioSpace := by
  cases r <;> decide

/-- With `TV` = 0 an ordinary transaction is a page fault (R202 (a)). -/
theorem State.aborts_judged_of_untabled {s : State} {t : InFlight} {d : Dte} (h : t.tx.untranslated)
    (hjudge : s.judge t.tx d = s.judgeMemory t.tx d (rangeOf t.tx.addr)) (hrange : (rangeOf t.tx.addr).controlled = false)
    (hex : s.excluded d t.tx.addr = false) (htv : d.tv = false) :
    ∃ pe rw, t.tx.kind.rwIs rw ∧ s.aborts (s.judged t d) t .targetAbort (s.faultEvents t d false pe rw true) := by
  obtain ⟨hkind, -, -, heoi⟩ := h
  obtain ⟨rw, hrw, habort⟩ := s.aborts_pageFault t d false (s.openBit 2) heoi hkind
  refine ⟨s.openBit 2, rw, hrw, ?_⟩
  rw [State.judged_eq_carryOut (hjudge.trans (State.judgeMemory_untabled hex htv _)), hrange]
  exact habort

/-! ### The obligations on the verdict -/

/-- Settles O36. -/
theorem invalidEntryIsTransparent : Obligations.InvalidEntryIsTransparent := by
  intro s t d htx hv
  have hjudge := s.judge_untranslated d htx
  rw [hv] at hjudge
  split
  · rename_i hats
    refine State.aborts_judged_of_denyRequest (hjudge.trans ?_)
    rw [← denyByKind_eq]
    exact if_pos hats
  · rename_i hats
    exact State.forwards_judged_of_judge_eq_pass (hjudge.trans (if_neg hats))

/-- Settles O42. -/
theorem exclusionRangeIsNotTranslated : Obligations.ExclusionRangeIsNotTranslated := by
  refine ⟨fun s a => ?range, fun s t d htx hc hv hlow hin hallow => ?forwarded⟩
  case range =>
    rw [State.inExclusionRange, Bool.and_eq_true, Bool.and_eq_true, decide_eq_true_eq, decide_eq_true_eq, and_assoc]
    rfl
  case forwarded =>
    have hex : s.excluded d t.tx.addr = true := by
      rw [State.excluded, hin, Bool.true_and, Bool.or_eq_true]
      exact hallow
    exact State.forwards_judged_of_judge_eq_pass ((s.judge_uncontrolled htx hc hv hlow).trans (State.judgeMemory_excluded hex _))

theorem State.trustsDevice_of_iotlbSup {s : State} (h : s.iotlbSup = true) (d : Dte) : s.trustsDevice d = d.iotlb := by
  rw [State.trustsDevice, h, Bool.true_or, Bool.and_true]

/-- Settles O43. -/
theorem preTranslatedRequests : Obligations.PreTranslatedRequests := by
  intro s t d hpre hkind hreserved heoi hsup
  have hjudge := s.judge_preTranslated d hpre hkind hreserved heoi
  rw [State.judgePreTranslated, State.trustsDevice_of_iotlbSup hsup] at hjudge
  refine ⟨fun hv hi hlow => ?_, fun hno => ?_⟩
  · rw [hv, hi, hlow] at hjudge
    exact State.forwards_judged_of_judge_eq_pass hjudge
  · have hdeny : (!d.v || !d.iotlb) = true := by
      rcases hno with h | h <;> simp [h]
    rw [hdeny] at hjudge
    have hreq : t.tx.isTransReq = false := decide_eq_false hkind
    have habort := State.aborts_judged_of_denyRequest (type := 1) hjudge
    rwa [State.requestEvents, hreq] at habort

/-- Settles O44. -/
theorem controlledRanges : Obligations.ControlledRanges := by
  refine ⟨fun s t d hrange => ?interrupt, fun s t d type htx hv hlow htype => ?fields⟩
  case interrupt =>
    have hjudge := s.judge_interruptRange d hrange
    rw [State.judgeInterruptRange] at hjudge
    refine ⟨fun hkind => ?_, fun hkind hposted => ?_, fun hkind hreserved => ?_⟩
    · rw [Transaction.isTransReq, decide_eq_true hkind] at hjudge
      exact State.aborts_judged_of_denyRequest hjudge
    · have hnot : t.tx.kind.posted = false := by rwa [← Bool.not_eq_true, TxKind.posted_iff]
      rw [Transaction.isTransReq, decide_eq_false hkind, hnot] at hjudge
      refine State.aborts_judged_of_denyRequest (hjudge.trans ?_)
      simp
    · rw [Transaction.isTransReq, decide_eq_false (by rw [hkind]; decide), hreserved, hkind] at hjudge
      exact State.aborts_judged_of_denyRequest hjudge
  case fields =>
    have hjudge := s.judge_legal htx hv hlow
    refine ⟨fun hrange => ⟨fun hctl => ?sysMgt, fun hctl htv hex => ?sysTranslated⟩,
      fun hrange => ⟨fun hctl => ?ioRefused, fun hctl => ?ioPasses, fun hctl htv hex => ?ioTranslated⟩,
      fun hfield => ?translated, fun hrange => ⟨fun hats => ?atsRefused, fun hats => ?ats⟩⟩
    case sysMgt =>
      rw [if_pos ⟨hrange, hctl⟩, judgeSysMgt, denyByKind_eq, ← htype] at hjudge
      split
      · rename_i hpass
        refine State.forwards_judged_of_judge_eq_pass (hjudge.trans (if_pos ?_))
        simpa only [Bool.and_eq_true, Bool.or_eq_true, decide_eq_true_eq, TxKind.posted_iff] using hpass
      · rename_i hpass
        refine State.aborts_judged_of_denyRequest (hjudge.trans (if_neg ?_))
        simpa only [Bool.and_eq_true, Bool.or_eq_true, decide_eq_true_eq, TxKind.posted_iff] using hpass
    case sysTranslated =>
      have hmem := s.judge_memory htx hv hlow (fun _ => hctl) (fun e => by rw [hrange] at e; cases e)
        (fun e => by rw [hrange] at e; cases e)
      exact State.judged_of_translate (hmem.trans (State.judgeMemory_translate hex htv _))
    case ioRefused =>
      rw [if_neg (by rw [hrange]; exact fun e => nomatch e.1), if_pos ⟨hrange, by rw [hctl]; decide⟩, judgeIo, hctl] at hjudge
      exact State.aborts_judged_of_denyRequest hjudge
    case ioPasses =>
      rw [if_neg (by rw [hrange]; exact fun e => nomatch e.1), if_pos ⟨hrange, by rw [hctl]; decide⟩, judgeIo, hctl] at hjudge
      exact State.forwards_judged_of_judge_eq_pass hjudge
    case ioTranslated =>
      have hmem := s.judge_memory htx hv hlow (fun e => by rw [hrange] at e; cases e) (fun _ => hctl)
        (fun e => by rw [hrange] at e; cases e)
      exact State.judged_of_translate (hmem.trans (State.judgeMemory_translate hex htv _))
    case translated =>
      have hmem : s.judge t.tx d = s.judgeMemory t.tx d (rangeOf t.tx.addr) := by
        rcases hfield with ⟨hrange, hctl⟩ | ⟨hrange, hctl⟩
        · exact s.judge_memory htx hv hlow (fun _ => hctl) (fun e => by rw [hrange] at e; cases e)
            (fun e => by rw [hrange] at e; cases e)
        · exact s.judge_memory htx hv hlow (fun e => by rw [hrange] at e; cases e) (fun _ => hctl)
            (fun e => by rw [hrange] at e; cases e)
      refine ⟨fun hex => ?_, fun hex htv => ?_⟩
      · exact State.forwards_judged_of_judge_eq_pass (hmem.trans (State.judgeMemory_excluded hex _))
      · have hcontrolled : (rangeOf t.tx.addr).controlled = true :=
          (SpecialRange.controlled_iff _).mpr (hfield.imp And.left And.left)
        refine State.aborts_judged_of_denyRequest (hmem.trans ((State.judgeMemory_untabled hex htv _).trans ?_))
        rw [hcontrolled]
        rfl
    case atsRefused =>
      rw [if_neg (by rw [hrange]; exact fun e => nomatch e.1), if_neg (by rw [hrange]; exact fun e => nomatch e.1),
        if_pos ⟨hrange, hats⟩, denyByKind_eq, ← htype] at hjudge
      exact State.aborts_judged_of_denyRequest hjudge
    case ats =>
      have hmem := s.judge_memory htx hv hlow (fun e => by rw [hrange] at e; cases e) (fun e => by rw [hrange] at e; cases e)
        (fun _ => hats)
      refine ⟨fun hex => ?_, fun hex htv => ?_, fun hex htv => ?_⟩
      · exact State.forwards_judged_of_judge_eq_pass (hmem.trans (State.judgeMemory_excluded hex _))
      · exact State.aborts_judged_of_untabled htx hmem (by rw [hrange]; rfl) hex htv
      · exact State.judged_of_translate (hmem.trans (State.judgeMemory_translate hex htv _))

end Sys2Proof.Machine
end


section
/-! PROOFS. The device table entry, the answers to translation requests, permissions, and interrupt remapping
(spec/40_transactions.md R197 to R209, spec/41_device_table.md R223, R247, spec/43_interrupt_remapping.md R301 to
R316). -/

namespace Sys2Proof.Machine

/-! ### Reserved bits -/

/-- No bit of a place is set exactly where the field there is zero, in a word of any width. -/
theorem and_field_eq_zero_iff {w : Nat} (v : BitVec w) (n lo : Nat) (h : lo + n ≤ w) :
    v &&& ((BitVec.allOnes n).setWidth w <<< lo) = 0 ↔ v.extractLsb' lo n = 0#n := by
  have hmask : ∀ i, i < w → ((BitVec.allOnes n).setWidth w <<< lo).getLsbD i = decide (lo ≤ i ∧ i < lo + n) := by
    intro i hi
    simp only [BitVec.getLsbD_shiftLeft, BitVec.getLsbD_setWidth, BitVec.getLsbD_allOnes, hi, decide_true, Bool.true_and]
    by_cases hlo : lo ≤ i
    · simp only [show ¬i < lo by omega, show i - lo < w by omega, hlo, decide_false, decide_true, Bool.not_false,
        Bool.true_and, true_and]
      exact decide_eq_decide.mpr (by omega)
    · simp [hlo]
  constructor
  · intro hv
    apply BitVec.eq_of_getLsbD_eq
    intro i hi
    have hbit := congrArg (fun u => BitVec.getLsbD u (lo + i)) hv
    simpa [hmask (lo + i) (by omega), hi] using hbit
  · intro hv
    apply BitVec.eq_of_getLsbD_eq
    intro i hi
    rw [BitVec.getLsbD_and, hmask i hi]
    by_cases hin : lo ≤ i ∧ i < lo + n
    · have hbit := congrArg (fun u => BitVec.getLsbD u (i - lo)) hv
      have hclear : v.getLsbD i = false := by simpa [show i - lo < n by omega, show lo + (i - lo) = i by omega] using hbit
      simp [hclear]
    · simp [hin]

theorem extract_one_eq_zero_iff {w : Nat} (v : BitVec w) (i : Nat) : v.extractLsb' i 1 = 0#1 ↔ v.getLsbD i = false := by
  rw [extract_one]
  cases v.getLsbD i <;> decide

/-- The reserved bits of the low half are five fields (R247). -/
theorem dteLowReserved_iff (lo : BitVec 128) : lo &&& dteLowReserved = 0 ↔
    lo.extractLsb' 2 7 = 0 ∧ lo.extractLsb' 52 9 = 0 ∧ lo.getLsbD 63 = false ∧ lo.extractLsb' 80 16 = 0 ∧
      lo.extractLsb' 106 22 = 0 := by
  have hmask : dteLowReserved = placed (BitVec.allOnes 7) 2 ||| (placed (BitVec.allOnes 9) 52 |||
      (placed (BitVec.allOnes 1) 63 ||| (placed (BitVec.allOnes 16) 80 ||| placed (BitVec.allOnes 22) 106))) := by decide
  rw [hmask]
  simp only [and_or_eq_zero_iff]
  rw [and_placed_eq_zero_iff _ _ _ (by decide), and_placed_eq_zero_iff _ _ _ (by decide),
    and_placed_eq_zero_iff _ _ _ (by decide), and_placed_eq_zero_iff _ _ _ (by decide),
    and_placed_eq_zero_iff _ _ _ (by decide), extract_one_eq_zero_iff]
  rfl

/-- The reserved bits of the high half are three fields (R247). -/
theorem dteHighReserved_iff (hi : BitVec 128) : hi &&& dteHighReserved = 0 ↔
    hi.extractLsb' 52 4 = 0 ∧ hi.getLsbD 59 = false ∧ hi.extractLsb' 64 64 = 0 := by
  have hmask : dteHighReserved = placed (BitVec.allOnes 4) 52 ||| (placed (BitVec.allOnes 1) 59 |||
      placed (BitVec.allOnes 64) 64) := by decide
  rw [hmask]
  simp only [and_or_eq_zero_iff]
  rw [and_placed_eq_zero_iff _ _ _ (by decide), and_placed_eq_zero_iff _ _ _ (by decide),
    and_placed_eq_zero_iff _ _ _ (by decide), extract_one_eq_zero_iff]
  rfl

/-- The tests on the low half, in their order (R247). -/
theorem Dte.checkLow_cases (d : Dte) :
    (¬(d.lo &&& dteLowReserved = 0 ∧ d.ioCtl ≠ 3) ∧ d.checkLow = some true) ∨
    ((d.lo &&& dteLowReserved = 0 ∧ d.ioCtl ≠ 3) ∧ (d.tv = true ∧ d.mode = 7) ∧ d.checkLow = some false) ∨
    ((d.lo &&& dteLowReserved = 0 ∧ d.ioCtl ≠ 3) ∧ ¬(d.tv = true ∧ d.mode = 7) ∧ d.checkLow = none) := by
  unfold Dte.checkLow
  by_cases hres : d.lo &&& dteLowReserved = 0
  · by_cases hio : d.ioCtl = 3
    · exact .inl ⟨fun h => h.2 hio, by rw [if_neg (not_not.mpr hres), if_pos hio]⟩
    · by_cases hmode : d.tv = true ∧ d.mode = 7
      · refine .inr (.inl ⟨⟨hres, hio⟩, hmode, ?_⟩)
        rw [if_neg (not_not.mpr hres), if_neg hio, hmode.1, hmode.2]
        rfl
      · refine .inr (.inr ⟨⟨hres, hio⟩, hmode, ?_⟩)
        have hoff : (d.tv && decide (d.mode = 7)) = false := by
          rwa [← Bool.not_eq_true, Bool.and_eq_true, decide_eq_true_eq]
        rw [if_neg (not_not.mpr hres), if_neg hio, hoff]
        rfl
  · exact .inl ⟨fun h => hres h.1, if_pos hres⟩

/-- The tests on the high half, in their order (R247). -/
theorem Dte.checkHigh_cases (d : Dte) :
    (¬(d.hi &&& dteHighReserved = 0 ∧ d.intCtl ≠ 3 ∧ ¬(d.intCtl = 2 ∧ 12 ≤ d.intTabLen)) ∧ d.checkHigh = some true) ∨
    ((d.hi &&& dteHighReserved = 0 ∧ d.intCtl ≠ 3 ∧ ¬(d.intCtl = 2 ∧ 12 ≤ d.intTabLen)) ∧ d.checkHigh = none) := by
  unfold Dte.checkHigh
  by_cases hres : d.hi &&& dteHighReserved = 0
  · by_cases hctl : d.intCtl = 3
    · exact .inl ⟨fun h => h.2.1 hctl, by rw [if_neg (not_not.mpr hres), if_pos hctl]⟩
    · by_cases hlen : d.intCtl = 2 ∧ 12 ≤ d.intTabLen
      · refine .inl ⟨fun h => h.2.2 hlen, ?_⟩
        rw [if_neg (not_not.mpr hres), if_neg hctl, hlen.1, decide_eq_true hlen.2]
        rfl
      · refine .inr ⟨⟨hres, hctl, hlen⟩, ?_⟩
        have hoff : (decide (d.intCtl = 2) && decide (12 ≤ d.intTabLen)) = false := by
          rwa [← Bool.not_eq_true, Bool.and_eq_true, decide_eq_true_eq, decide_eq_true_eq]
        rw [if_neg (not_not.mpr hres), if_neg hctl, hoff]
        rfl
  · exact .inl ⟨fun h => hres h.1, if_pos hres⟩

theorem Dte.checkLow_none_iff (d : Dte) :
    d.checkLow = none ↔ (d.lo &&& dteLowReserved = 0 ∧ d.ioCtl ≠ 3) ∧ ¬(d.tv = true ∧ d.mode = 7) := by
  rcases d.checkLow_cases with ⟨hno, h⟩ | ⟨hyes, hmode, h⟩ | ⟨hyes, hmode, h⟩ <;> rw [h]
  · exact ⟨nofun, fun e => absurd e.1 hno⟩
  · exact ⟨nofun, fun e => absurd hmode e.2⟩
  · exact ⟨fun _ => ⟨hyes, hmode⟩, fun _ => rfl⟩

theorem Dte.checkLow_false_iff (d : Dte) :
    d.checkLow = some false ↔ (d.lo &&& dteLowReserved = 0 ∧ d.ioCtl ≠ 3) ∧ d.tv = true ∧ d.mode = 7 := by
  rcases d.checkLow_cases with ⟨hno, h⟩ | ⟨hyes, hmode, h⟩ | ⟨hyes, hmode, h⟩ <;> rw [h]
  · exact ⟨nofun, fun e => absurd e.1 hno⟩
  · exact ⟨fun _ => ⟨hyes, hmode⟩, fun _ => rfl⟩
  · exact ⟨nofun, fun e => absurd e.2 hmode⟩

theorem Dte.checkHigh_none_iff (d : Dte) : d.checkHigh = none ↔
    d.hi &&& dteHighReserved = 0 ∧ d.intCtl ≠ 3 ∧ ¬(d.intCtl = 2 ∧ 12 ≤ d.intTabLen) := by
  rcases d.checkHigh_cases with ⟨hno, h⟩ | ⟨hyes, h⟩ <;> rw [h]
  · exact ⟨nofun, fun e => absurd e hno⟩
  · exact ⟨fun _ => hyes, fun _ => rfl⟩

/-! ### Translation requests and pre-translated ones -/

/-- Without the mark that the IOMMU trusts, a translation request is master aborted (R200). -/
theorem State.judgeTransReq_distrusted {s : State} {d : Dte} (h : d.v = false ∨ s.trustsDevice d = false) (tx : Transaction)
    (rng : SpecialRange) : s.judgeTransReq tx d rng = denyTranslation tx d := by
  rw [State.judgeTransReq, if_pos]
  rcases h with h | h <;> simp [h]

theorem State.judgePreTranslated_distrusted {s : State} {d : Dte} (h : d.v = false ∨ s.trustsDevice d = false) (tx : Transaction) :
    s.judgePreTranslated tx d = denyRequest tx d 1 := by
  rw [State.judgePreTranslated, if_pos]
  rcases h with h | h <;> simp [h]

/-- With it, the entry is checked, and then the range, the exclusion range and `TV` (R200). -/
theorem State.judgeTransReq_trusted {s : State} {d : Dte} (hv : d.v = true) (ht : s.trustsDevice d = true) (hlow : d.checkLow = none)
    (tx : Transaction) (rng : SpecialRange) : s.judgeTransReq tx d rng =
      if s.rangeRefusesTranslation d rng then denyRequest tx d 1
      else if s.excluded d tx.addr then .excluded
      else if !d.tv then (if rng.controlled then denyRequest tx d 1 else denyTranslation tx d)
      else .translate := by
  rw [State.judgeTransReq, hv, ht, hlow]
  rfl

/-! ### Illegal entries -/

theorem State.illegalEntryEvent_memory (s : State) {tx : Transaction} (h : rangeOf tx.addr ≠ .interruptEoi) (rz : Bool) :
    s.illegalEntryEvent tx rz = .illegalDevTableEntry tx.dev (decide (tx.kind = .transReq)) rz (s.rwField tx) false tx.addr := by
  have hrange : tx.inInterruptRange = false := decide_eq_false h
  rw [State.illegalEntryEvent, hrange]
  rfl

/-- Settles O41. -/
theorem illegalDeviceTableEntry : Obligations.IllegalDeviceTableEntry := by
  refine ⟨fun d => ?low, fun d => ?mode, fun d => ?high, fun s t d rz hv hlow hreserved heoi hkind => ?memory,
    fun s t d rz hkind hrange hiv hhigh => ?interrupt⟩
  case low =>
    rw [d.checkLow_none_iff, dteLowReserved_iff]
    simp only [and_assoc]
  case mode =>
    rw [d.checkLow_false_iff, dteLowReserved_iff]
    simp only [and_assoc]
  case high =>
    rw [d.checkHigh_none_iff, dteHighReserved_iff]
    simp only [and_assoc]
  case memory =>
    refine ⟨s.rwField t.tx, s.rwField_rwIs heoi, ?_⟩
    rw [← s.illegalEntryEvent_memory heoi]
    refine State.aborts_judged_of_denyEntry ?_
    rcases hkind with htx | ⟨hi, hsup, hkind⟩
    · rw [s.judge_untranslated d htx, hv, if_neg (by decide), State.judgeUntranslated, hlow]
    · have htrust : s.trustsDevice d = true := by rw [State.trustsDevice_of_iotlbSup hsup, hi]
      by_cases hreq : t.tx.kind = .transReq
      · rw [s.judge_transReq d hreq hreserved heoi, State.judgeTransReq, hv, htrust, hlow]
        rfl
      · rw [s.judge_preTranslated d (hkind.resolve_left hreq) hreq hreserved heoi, State.judgePreTranslated, hv, htrust, hlow]
        rfl
  case interrupt =>
    have hrz : rz = true := by
      rcases d.checkHigh_cases with ⟨-, h⟩ | ⟨-, h⟩ <;> rw [hhigh] at h <;> cases h
      rfl
    subst hrz
    have hjudge : s.judge t.tx d = s.denyEntry t.tx true := by
      rw [s.judge_interruptMessage d hkind hrange, State.judgeInterrupt, hiv, if_neg (by decide), hhigh]
    have hevent : s.illegalEntryEvent t.tx true = .illegalDevTableEntry t.tx.dev false true (s.rwField t.tx) true t.tx.addr := by
      have hin : t.tx.inInterruptRange = true := decide_eq_true hrange
      have hreq : t.tx.isTransReq = false := decide_eq_false (by rw [hkind]; decide)
      rw [State.illegalEntryEvent, hin, hreq]
    refine ⟨s.rwField t.tx, rfl, ?_⟩
    rw [← hevent]
    exact State.aborts_judged_of_denyEntry hjudge

/-! ### A DeviceID beyond the table -/

theorem substitute_faultEvents (s : State) (t : InFlight) (rz pe rw pr : Bool) :
    s.faultEvents t ⟨1, 1⟩ rz pe rw pr = [⟨.ioPageFault t.tx.dev false rz pe rw pr false 0 t.tx.addr, none, s.detected⟩] := by
  have hsa : Dte.sa ⟨1, 1⟩ = false := by decide
  have hse : Dte.se ⟨1, 1⟩ = false := by decide
  have hdomain : Dte.domain ⟨1, 1⟩ = 0 := by decide
  rw [State.faultEvents, hsa, hse, hdomain]
  rfl

theorem substitute_requestEvents (s : State) (t : InFlight) (type : BitVec 3) : s.requestEvents t ⟨1, 1⟩ type =
    [⟨.invalidDeviceRequest t.tx.dev type t.tx.isTransReq t.tx.addr, none, s.detected⟩] := by
  have hig : (Dte.iv ⟨1, 1⟩ && Dte.ig ⟨1, 1⟩) = false := by decide
  rw [State.requestEvents, hig]
  rfl

theorem substitute_excluded (s : State) (a : Addr) : s.excluded ⟨1, 1⟩ a = (s.inExclusionRange a && s.exclAllow) := by
  have hex : Dte.ex ⟨1, 1⟩ = false := by decide
  rw [State.excluded, hex, Bool.or_false]

theorem substitute_distrusted (s : State) : s.trustsDevice ⟨1, 1⟩ = false := by
  have hi : Dte.iotlb ⟨1, 1⟩ = false := by decide
  rw [State.trustsDevice, hi, Bool.false_and]

/-- Settles O39. -/
theorem beyondTheTable : Obligations.BeyondTheTable := by
  have hv : Dte.v ⟨1, 1⟩ = true := by decide
  have hlow : Dte.checkLow ⟨1, 1⟩ = none := by decide
  have htv : Dte.tv ⟨1, 1⟩ = false := by decide
  have hio : Dte.ioCtl ⟨1, 1⟩ = 0 := by decide
  refine ⟨fun s dev => ?bound, fun s k t c hk hphase hout => ⟨?lookup, fun htx hc hex => ?fault, fun htx hc hin hallow => ?excluded,
    fun htx hrange => ?io, fun hpre hkind hreserved heoi => ?pre, fun hkind hreserved heoi => ?request⟩⟩
  case bound =>
    rw [State.inTable, decide_eq_false_iff_not, Nat.not_lt]
    rfl
  case lookup =>
    rw [State.advance_of_place hk, State.advanceTx, hphase, State.lookupDte, hout]
    rfl
  case fault =>
    have hnot : s.excluded ⟨1, 1⟩ t.tx.addr = false := by
      rwa [substitute_excluded, ← Bool.not_eq_true, Bool.and_eq_true]
    have hcontrolled : (rangeOf t.tx.addr).controlled = false := by
      rw [← Bool.not_eq_true, SpecialRange.controlled_iff]
      rintro (e | e)
      exacts [hc.1 e, hc.2.1 e]
    obtain ⟨pe, rw', hrw, habort⟩ :=
      State.aborts_judged_of_untabled htx (s.judge_uncontrolled htx hc hv hlow) hcontrolled hnot htv
    refine ⟨pe, rw', hrw, ?_⟩
    rwa [substitute_faultEvents] at habort
  case excluded =>
    have hyes : s.excluded ⟨1, 1⟩ t.tx.addr = true := by rw [substitute_excluded, hin, hallow]; rfl
    exact State.forwards_judged_of_judge_eq_pass ((s.judge_uncontrolled htx hc hv hlow).trans (State.judgeMemory_excluded hyes _))
  case io =>
    have hjudge := s.judge_legal htx hv hlow
    rw [if_neg (by rw [hrange]; exact fun e => nomatch e.1), if_pos ⟨hrange, by rw [hio]; decide⟩, judgeIo, hio] at hjudge
    have habort := State.aborts_judged_of_denyRequest (type := 2) hjudge
    have hreq : t.tx.isTransReq = false := decide_eq_false htx.1
    rwa [substitute_requestEvents, hreq] at habort
  case pre =>
    have habort := State.aborts_judged_of_denyRequest ((s.judge_preTranslated ⟨1, 1⟩ hpre hkind hreserved heoi).trans
      (State.judgePreTranslated_distrusted (.inr (substitute_distrusted s)) _))
    have hreq : t.tx.isTransReq = false := decide_eq_false hkind
    rwa [substitute_requestEvents, hreq] at habort
  case request =>
    have habort := State.aborts_judged_of_denyTranslation ((s.judge_transReq ⟨1, 1⟩ hkind hreserved heoi).trans
      (State.judgeTransReq_distrusted (.inr (substitute_distrusted s)) _ _))
    have hreq : t.tx.isTransReq = true := decide_eq_true hkind
    rwa [substitute_requestEvents, hreq] at habort

/-! ### Answers to translation requests (R207 to R209) -/

theorem State.answers_answerPages (s : State) (t : InFlight) (first : Config.PageAnswer) :
    ∃ rest, s.answers (s.answerPages t first) t (first :: rest) ∧ rest.length = t.tx.npages - 1 :=
  ⟨_, ⟨rfl, rfl, rfl, rfl, rfl⟩, by simp⟩

/-- A request for one page is answered with it, one for several without an entry as the implementation likes (R209). -/
theorem State.answers_answerDirect (s : State) (t : InFlight) (page : Config.PageAnswer) :
    ∃ pages, s.answers (s.answerDirect t page) t pages ∧ (t.tx.npages ≤ 1 → pages = [page]) := by
  unfold State.answerDirect
  split
  · exact ⟨_, ⟨rfl, rfl, rfl, rfl, rfl⟩, fun h => by omega⟩
  · obtain ⟨rest, hanswer, hrest⟩ := s.answers_answerPages t page
    refine ⟨_, hanswer, fun h => ?_⟩
    rw [List.eq_nil_of_length_eq_zero (hrest.trans (by omega))]

theorem State.finishFault_transReq (s : State) {t : InFlight} (h : t.tx.kind = .transReq) (d : Dte) (pr rz ir iw : Bool) :
    s.finishFault t d pr rz ir iw = s.answerPages t { s.openAnswer with r := false, w := false } :=
  if_pos (decide_eq_true h)

theorem State.finishPage_transReq (s : State) {t : InFlight} (h : t.tx.kind = .transReq) (d : Dte) (use : PageUse) (spa : Addr)
    (bits : Nat) (ir iw fc u : Bool) :
    s.finishPage t d use spa bits ir iw fc u = s.answerPages t ⟨alignDown spa 12, ir, iw, fc, u, bits⟩ :=
  if_pos (decide_eq_true h)

theorem State.finishPage_memory (s : State) {t : InFlight} (h : t.tx.kind ≠ .transReq) (d : Dte) (use : PageUse) (spa : Addr)
    (bits : Nat) (ir iw fc u : Bool) : s.finishPage t d use spa bits ir iw fc u = s.finishMemory t d use spa ir iw fc :=
  if_neg (by rwa [Transaction.isTransReq_iff])

theorem State.rangeRefusesTranslation_iff (s : State) (d : Dte) (r : SpecialRange) : s.rangeRefusesTranslation d r = true ↔
    (r = .systemManagement ∧ d.sysMgt ≠ 3 ∨ r = .ioSpace ∧ d.ioCtl ≠ 2 ∨ r = .addressTranslation ∧ s.htAtsResv = true) := by
  cases r <;> simp [State.rangeRefusesTranslation]

theorem State.beginTranslate_direct (s : State) (t : InFlight) {d : Dte} (h : d.mode = 0) :
    s.beginTranslate t d = s.finishDirect t d := if_pos h

/-- Settles O45. -/
theorem translationRequestAnswers : Obligations.TranslationRequestAnswers := by
  intro s t d hkind hreserved heoi hsup
  have hjudge := s.judge_transReq d hkind hreserved heoi
  have htrust := State.trustsDevice_of_iotlbSup hsup d
  refine ⟨fun hno => ?distrusted, fun hv hi hlow => ?trusted, s.rangeRefusesTranslation_iff d _, fun hmode => ?direct,
    fun use spa bits ir iw fc u => ?page, fun pr rz ir iw => ?fault⟩
  case distrusted =>
    rw [← htrust] at hno
    exact State.aborts_judged_of_denyTranslation (hjudge.trans (State.judgeTransReq_distrusted hno _ _))
  case trusted =>
    rw [State.judgeTransReq_trusted hv (htrust.trans hi) hlow] at hjudge
    refine ⟨fun hrefused => State.aborts_judged_of_denyRequest (hjudge.trans (if_pos hrefused)), fun hopen => ?_⟩
    rw [hopen, if_neg (by decide)] at hjudge
    refine ⟨fun hex => ?_, fun hex htv => ?_, fun hex htv => ?_⟩
    · obtain ⟨pages, hanswer, hone⟩ := s.answers_answerDirect t { s.openAnswer with addr := t.tx.addr, r := true, w := true }
      rw [hex] at hjudge
      rw [State.judged_eq_carryOut hjudge]
      exact ⟨pages, hanswer, fun hn => ⟨_, hone hn, rfl, rfl, rfl⟩⟩
    · rw [hex, htv] at hjudge
      split
      · rename_i hrange
        rw [(SpecialRange.controlled_iff _).mpr hrange] at hjudge
        exact State.aborts_judged_of_denyRequest hjudge
      · rename_i hrange
        have hcontrolled : (rangeOf t.tx.addr).controlled = false := by
          rwa [← Bool.not_eq_true, SpecialRange.controlled_iff]
        rw [hcontrolled] at hjudge
        exact State.aborts_judged_of_denyTranslation hjudge
    · rw [hex, htv] at hjudge
      exact State.judged_of_translate hjudge
  case direct =>
    obtain ⟨pages, hanswer, hone⟩ :=
      s.answers_answerDirect t { s.openAnswer with addr := t.tx.addr, r := d.ir, w := d.iw, fc := false }
    have hdirect : s.beginTranslate t d =
        s.answerDirect t { s.openAnswer with addr := t.tx.addr, r := d.ir, w := d.iw, fc := false } :=
      (s.beginTranslate_direct t hmode).trans (if_pos (decide_eq_true hkind))
    rw [hdirect]
    exact ⟨pages, hanswer, fun hn => ⟨_, hone hn, rfl, rfl, rfl⟩⟩
  case page =>
    rw [s.finishPage_transReq hkind]
    exact s.answers_answerPages t _
  case fault =>
    rw [s.finishFault_transReq hkind]
    obtain ⟨rest, hanswer, hrest⟩ := s.answers_answerPages t { s.openAnswer with r := false, w := false }
    exact ⟨_, rest, hanswer, rfl, rfl, hrest⟩

/-! ### Permissions (R204 to R206) -/

theorem State.obscures_kind {s : State} {tx : Transaction} {ir : Bool} (h : s.obscures tx ir = true) : tx.kind = .zeroByteRead := by
  simp only [State.obscures, Bool.and_eq_true, decide_eq_true_eq] at h
  exact h.1

/-- A permitted transaction goes upstream at the translated address. -/
theorem State.forwards_finishMemory {s : State} {t : InFlight} {ir iw : Bool} (h : t.tx.kind.permitted ir iw = true) (d : Dte)
    (use : PageUse) (spa : Addr) (fc : Bool) :
    s.forwards (s.finishMemory t d use spa ir iw fc) t { t.tx with addr := spa, coherent := fc || t.tx.coherent } (some use) := by
  rw [State.finishMemory, if_pos h]
  exact s.forwards_retire_sendUp t _ (some use) _ fun ho => ⟨State.obscures_kind ho, nofun⟩

/-- A refused one is a page fault (R443). -/
theorem State.aborts_finishMemory {s : State} {t : InFlight} {ir iw : Bool} (h : t.tx.kind.permitted ir iw = false)
    (hrange : rangeOf t.tx.addr ≠ .interruptEoi) (d : Dte) (use : PageUse) (spa : Addr) (fc : Bool) :
    ∃ rw, t.tx.kind.rwIs rw ∧
      s.aborts (s.finishMemory t d use spa ir iw fc) t .targetAbort (s.faultEvents t d false true rw true) := by
  have hkind : t.tx.kind ≠ .transReq := by
    intro e
    rw [e] at h
    cases h
  rw [State.finishMemory, if_neg (by rw [h]; decide)]
  exact s.aborts_pageFault t d false true hrange hkind

/-- A transaction that stores nothing does not touch memory. -/
theorem State.hostStore_nil (s : State) (a : Addr) : s.hostStore a [] = .ok s := rfl

/-- Settles O46. -/
theorem permissionCheck : Obligations.PermissionCheck := by
  refine ⟨fun s t d use spa ir iw fc => ⟨fun h => State.forwards_finishMemory h d use spa fc,
      fun h hrange => State.aborts_finishMemory h hrange d use spa fc, rfl, rfl, rfl, rfl, rfl⟩,
    fun s t d htx hc hv hlow hex => ?ordinary, fun s t d hkind hrange hmode => ?direct,
    fun s t d use spa bits ir iw fc u hkind => s.finishPage_memory hkind d use spa bits ir iw fc u,
    fun s t d use spa fc hkind => ?zeroByte, fun s k f a b hk hobscure hkind hstatus hlen hstored => ?obscured⟩
  case ordinary =>
    have hjudge := s.judge_uncontrolled htx hc hv hlow
    have hcontrolled : (rangeOf t.tx.addr).controlled = false := by
      rw [← Bool.not_eq_true, SpecialRange.controlled_iff]
      rintro (e | e)
      exacts [hc.1 e, hc.2.1 e]
    exact ⟨fun htv => State.aborts_judged_of_untabled htx hjudge hcontrolled hex htv,
      fun htv => State.judged_of_translate (hjudge.trans (State.judgeMemory_translate hex htv _))⟩
  case direct =>
    have hfinish : s.beginTranslate t d = s.finishMemory t d ⟨d.domain, alignDown t.tx.addr 12, 12⟩ t.tx.addr d.ir d.iw false :=
      (s.beginTranslate_direct t hmode).trans (if_neg (by rwa [Transaction.isTransReq_iff]))
    rw [hfinish]
    split
    · rename_i h
      exact State.forwards_finishMemory h d _ _ false
    · rename_i h
      exact State.aborts_finishMemory (by rwa [Bool.not_eq_true] at h) hrange d _ _ false
  case zeroByte =>
    have hpermitted : t.tx.kind.permitted false true = true := by rw [hkind]; rfl
    have hobscure : s.obscures t.tx false = true := by rw [State.obscures, hkind]; rfl
    rw [State.finishMemory, if_pos hpermitted, hobscure, State.sendUp, hkind]
    exact ⟨_, rfl, rfl, rfl, rfl, rfl⟩
  case obscured =>
    have hnothing : ∀ x : HostAnswer, s.act (.hostAnswers k x) =
        .next ((s.dropUpRead k).emit (.completed f.orig { x with data := Config.zeroByteReadData s.draws f.orig.addr x.data.length })) := by
      intro x
      show s.hostAnswers k x = _
      have hstores : f.stores x = [] := by rw [Forwarded.stores, hkind]
      rw [State.hostAnswers, hk]
      dsimp only
      rw [hstores, ite_self, State.hostStore_nil, State.seen, hobscure]
      rfl
    rw [hnothing, hnothing, hstatus, hlen, hstored]

end Sys2Proof.Machine
end


section
/-! PROOFS. Interrupt messages, and their remapping (spec/43_interrupt_remapping.md R301 to R316). -/

namespace Sys2Proof.Machine

/-! ### Remapping entries -/

/-- The reserved bits of a remapping entry (R310). -/
theorem irteReserved_iff (e : BitVec 32) : irteReserved e = true ↔ e.extractLsb' 24 8 ≠ 0 ∨ e.getLsbD 7 = true := by
  have hmask : (0xFF000080#32) = (BitVec.allOnes 8).setWidth 32 <<< 24 ||| (BitVec.allOnes 1).setWidth 32 <<< 7 := by decide
  rw [irteReserved, decide_eq_true_eq, hmask, ne_eq, and_or_eq_zero_iff, and_field_eq_zero_iff _ _ _ (by decide),
    and_field_eq_zero_iff _ _ _ (by decide), extract_one_eq_zero_iff, not_and_or, Bool.not_eq_false]
  rfl

/-- What the three tests on an entry, in their order, find (R310). -/
theorem irteFault_cases (e : BitVec 32) :
    (e.getLsbD 0 = false ∧ irteFault e = some (false, false)) ∨
    (e.getLsbD 0 = true ∧ irteReserved e = true ∧ irteFault e = some (true, true)) ∨
    (e.getLsbD 0 = true ∧ irteReserved e = false ∧ (e.extractLsb' 2 3).toNat < 2 ∧ irteFault e = none) ∨
    (e.getLsbD 0 = true ∧ irteReserved e = false ∧ 2 ≤ (e.extractLsb' 2 3).toNat ∧ irteFault e = some (true, false)) := by
  unfold irteFault irteRemapEn irteIntType
  cases hen : e.getLsbD 0 with
  | false => exact .inl ⟨rfl, rfl⟩
  | true =>
    cases hres : irteReserved e with
    | true => exact .inr (.inl ⟨rfl, rfl, rfl⟩)
    | false =>
      by_cases htype : (e.extractLsb' 2 3).toNat < 2
      · have hult : (e.extractLsb' 2 3).ult 2 = true := decide_eq_true htype
        rw [hult]
        exact .inr (.inr (.inl ⟨rfl, rfl, htype, rfl⟩))
      · have hult : (e.extractLsb' 2 3).ult 2 = false := decide_eq_false htype
        rw [hult]
        exact .inr (.inr (.inr ⟨rfl, rfl, Nat.le_of_not_lt htype, rfl⟩))

/-- The new address, bit by bit (R314). -/
theorem getLsbD_remappedAddr (addr : Addr) (e : BitVec 32) (n : Nat) : (remappedAddr addr e).getLsbD n =
    if n < 2 then addr.getLsbD n else if n < 24 then e.getLsbD n else (0xFDF8000000#64).getLsbD n := by
  by_cases hn : n < 64
  · have hlow : ∀ k, k < 64 → (3#64).getLsbD k = decide (k < 2) := by decide
    have hfield : ∀ k, k < 64 → ((0x00FFFFFC#32).setWidth 64).getLsbD k = decide (2 ≤ k ∧ k < 24) := by decide
    have hbase : ∀ k, k < 24 → (0xFDF8000000#64).getLsbD k = false := by decide
    have hand : ((e &&& 0x00FFFFFC#32).setWidth 64).getLsbD n = (e.getLsbD n && decide (2 ≤ n ∧ n < 24)) := by
      rw [BitVec.getLsbD_setWidth, BitVec.getLsbD_and, ← hfield n hn, BitVec.getLsbD_setWidth, Bool.and_left_comm]
    rw [remappedAddr, BitVec.getLsbD_or, BitVec.getLsbD_and, BitVec.getLsbD_or, BitVec.getLsbD_not, BitVec.getLsbD_and, hand,
      hlow n hn, decide_eq_true hn]
    by_cases h2 : n < 2
    · simp [h2]
    · by_cases h24 : n < 24
      · simp [h2, h24, hbase n h24, Nat.le_of_not_lt h2]
      · simp [h2, h24]
  · rw [BitVec.getLsbD_of_ge (remappedAddr addr e) _ (by omega), if_neg (by omega), if_neg (by omega),
      BitVec.getLsbD_of_ge _ _ (by omega)]

theorem State.eventDomain_of_v {s : State} {d : Dte} (h : d.v = true) : s.eventDomain d = d.domain := if_pos h

/-- An entry at fault aborts the message (R315). -/
theorem State.aborts_finishRemap {s : State} {t : InFlight} {d : Dte} {e : BitVec 32} {pr rz : Bool}
    (h : irteFault e = some (pr, rz)) : s.aborts (s.finishRemap t d e) t .targetAbort
      (if d.ig || e.getLsbD 1 then [] else [⟨s.interruptFaultEvent t.tx d pr rz, none, s.detected⟩]) := by
  rw [State.finishRemap, h]
  exact s.aborts_raiseUnless_refuseTx _ _ t _

/-- Settles O47. -/
theorem interruptRemapping : Obligations.InterruptRemapping := by
  intro s t d e
  refine ⟨getLsbD_remappedAddr t.tx.addr e, fun hen hhigh hbit htype => ?valid, fun hbad => ?invalid⟩
  case valid =>
    have hunreserved : irteReserved e = false := by
      rw [← Bool.not_eq_true, irteReserved_iff]
      rintro (h | h)
      · exact h hhigh
      · rw [hbit] at h
        cases h
    have hnone : irteFault e = none := by
      rcases irteFault_cases e with ⟨h, -⟩ | ⟨-, h, -⟩ | ⟨-, -, -, h⟩ | ⟨-, -, h, -⟩
      · rw [hen] at h
        cases h
      · rw [hunreserved] at h
        cases h
      · exact h
      · omega
    rw [State.finishRemap, hnone]
    exact s.forwards_retire_sendUp t _ none false nofun
  case invalid =>
    rcases irteFault_cases e with ⟨hoff, h⟩ | ⟨hon, hres, h⟩ | ⟨hon, hres, htype, -⟩ | ⟨hon, hres, htype, h⟩
    · refine ⟨s.openBit 1, s.openBit 2, s.freeBit .event, s.eventDomain d, State.eventDomain_of_v, fun hon => ?_, ?_⟩
      · rw [hoff] at hon
        cases hon
      · rw [hoff]
        exact State.aborts_finishRemap h
    · refine ⟨true, s.openBit 2, s.freeBit .event, s.eventDomain d, State.eventDomain_of_v, fun _ => ⟨fun _ => (irteReserved_iff e).mp hres, fun _ => rfl⟩, ?_⟩
      rw [hon]
      exact State.aborts_finishRemap h
    · exfalso
      have hunreserved : ¬(e.extractLsb' 24 8 ≠ 0 ∨ e.getLsbD 7 = true) := by
        rw [← irteReserved_iff, hres]
        decide
      rcases hbad with hbad | hbad | hbad | hbad
      · rw [hon] at hbad
        cases hbad
      · exact hunreserved (.inl hbad)
      · exact hunreserved (.inr hbad)
      · omega
    · refine ⟨false, s.openBit 2, s.freeBit .event, s.eventDomain d, State.eventDomain_of_v, fun _ => ⟨nofun, fun hbits => ?_⟩, ?_⟩
      · rw [(irteReserved_iff e).mpr hbits] at hres
        cases hres
      · rw [hon]
        exact State.aborts_finishRemap h

/-! ### The class of a message (R304 to R308) -/

theorem State.blocksInterrupt_of_judge {s : State} {t : InFlight} {d : Dte} (h : s.judge t.tx d = s.denyInterrupt t.tx d) :
    s.blocksInterrupt (s.judged t d) t d :=
  ⟨_, _, _, _, State.eventDomain_of_v, State.aborts_judged_of_deny h⟩

/-- The messages that the remapping table governs (R304, R305). -/
def remappable (m : Config.IntMsg) : Prop := m.dm = true ∨ m.mt = 0 ∨ m.mt = 1

/-- The messages that the entry lets pass whatever the table holds (R306, R307). -/
def passesByClass (d : Dte) (m : Config.IntMsg) : Prop :=
  m.mt = 2 ∨ (m.mt = 3 ∧ d.nmiPass = true) ∨ (m.mt = 4 ∧ d.initPass = true) ∨ (m.mt = 6 ∧ d.eIntPass = true) ∨
    (m.mt = 11 ∧ d.lint1Pass = true) ∨ (m.mt = 14 ∧ d.lint0Pass = true)

theorem intClass_of_remappable {m : Config.IntMsg} (h : remappable m) (d : Dte) : intClass d m = .remappable := by
  unfold intClass
  rcases h with h | h | h
  · rw [if_pos h]
  · rw [if_pos h, ite_self]
  · rw [if_pos h, ite_self, ite_self]

/-- The verdict that the class of a message gives under a legal entry with `IV` = 1 (R301). -/
def State.classVerdict (s : State) (tx : Transaction) (d : Dte) (offset : Nat) : IntClass → Verdict
  | .smi => .pass
  | .passControlled pass => if pass then .pass else s.denyInterrupt tx d
  | .aborted => s.denyInterrupt tx d
  | .remappable =>
    if d.intCtl = 0 then denyRequest tx d 5
    else if d.intCtl = 1 then .pass
    else if 2 ^ d.intTabLen ≤ offset then s.denyInterrupt tx d
    else .remap offset

theorem State.judgeInterrupt_legal {s : State} {tx : Transaction} {d : Dte} {m : Config.IntMsg}
    (hm : m = Config.intMsgDecode tx.addr tx.data) (hiv : d.iv = true) (hhigh : d.checkHigh = none) :
    s.judgeInterrupt tx d = s.classVerdict tx d m.offset.toNat (intClass d m) := by
  subst hm
  rw [State.judgeInterrupt, hiv, if_neg (by decide), hhigh]
  dsimp only
  cases intClass d (Config.intMsgDecode tx.addr tx.data) <;> rfl

/-- The type of a message that is not remappable and has a pass bit, or none (R306 to R308). -/
theorem intClass_of_not_remappable {m : Config.IntMsg} (h : ¬remappable m) (d : Dte) :
    (intClass d m = .smi ∧ passesByClass d m) ∨
    (∃ pass, intClass d m = .passControlled pass ∧ (pass = true ↔ passesByClass d m)) ∨
    (intClass d m = .aborted ∧ ¬passesByClass d m) := by
  obtain ⟨hdm, h0, h1⟩ : ¬m.dm = true ∧ m.mt ≠ 0 ∧ m.mt ≠ 1 := by simpa [remappable] using h
  unfold intClass
  rw [if_neg hdm, if_neg h0, if_neg h1]
  by_cases h2 : m.mt = 2
  · exact .inl ⟨if_pos h2, .inl h2⟩
  right
  rw [if_neg h2]
  by_cases h3 : m.mt = 3
  · exact .inl ⟨_, if_pos h3, by simp [passesByClass, h3]⟩
  rw [if_neg h3]
  by_cases h4 : m.mt = 4
  · exact .inl ⟨_, if_pos h4, by simp [passesByClass, h4]⟩
  rw [if_neg h4]
  by_cases h6 : m.mt = 6
  · exact .inl ⟨_, if_pos h6, by simp [passesByClass, h6]⟩
  rw [if_neg h6]
  by_cases h11 : m.mt = 11
  · exact .inl ⟨_, if_pos h11, by simp [passesByClass, h11]⟩
  rw [if_neg h11]
  by_cases h14 : m.mt = 14
  · exact .inl ⟨_, if_pos h14, by simp [passesByClass, h14]⟩
  refine .inr ⟨if_neg h14, ?_⟩
  rintro (h | ⟨h, -⟩ | ⟨h, -⟩ | ⟨h, -⟩ | ⟨h, -⟩ | ⟨h, -⟩)
  exacts [h2 h, h3 h, h4 h, h6 h, h11 h, h14 h]

theorem State.classVerdict_pass (s : State) (tx : Transaction) {d : Dte} {m : Config.IntMsg} (h : ¬remappable m)
    (hpass : passesByClass d m) (offset : Nat) : s.classVerdict tx d offset (intClass d m) = .pass := by
  rcases intClass_of_not_remappable h d with ⟨e, -⟩ | ⟨pass, e, hiff⟩ | ⟨e, hno⟩ <;> rw [e]
  · rfl
  · exact if_pos (hiff.mpr hpass)
  · exact absurd hpass hno

theorem State.classVerdict_deny (s : State) (tx : Transaction) {d : Dte} {m : Config.IntMsg} (h : ¬remappable m)
    (hpass : ¬passesByClass d m) (offset : Nat) : s.classVerdict tx d offset (intClass d m) = s.denyInterrupt tx d := by
  rcases intClass_of_not_remappable h d with ⟨e, hyes⟩ | ⟨pass, e, hiff⟩ | ⟨e, -⟩ <;> rw [e]
  · exact absurd hyes hpass
  · exact if_neg (fun hp => hpass (hiff.mp hp))
  · rfl

/-! ### The lookup of a message in the table -/

theorem State.hitIrte_eq_none {s : State} {place : Option Nat} {dev : DeviceId} {n : Nat} (h : ∀ e, ¬s.usesIrte place dev n e) :
    s.hitIrte place dev n = none := by
  rw [Option.eq_none_iff_forall_ne_some]
  intro w hw
  obtain ⟨e, he, -⟩ := State.hitIrte_eq_some.mp hw
  exact h e he

theorem State.remapStep_hit {s : State} {t : InFlight} {n : Nat} {c : TxChoice} {e : IrtCacheEntry}
    (h : s.usesIrte c.useIrte t.tx.dev n e) (d : Dte) : s.remapStep t d n c = s.finishRemap t d e.entry := by
  rw [State.remapStep, State.hitIrte_eq_some.mpr ⟨e, h, rfl⟩]

/-- The read of the entry (R310, R311). -/
theorem State.remapStep_read {s : State} {t : InFlight} {d : Dte} {n : Nat} {c : TxChoice} {a : Addr}
    (hmiss : ∀ e, ¬s.usesIrte c.useIrte t.tx.dev n e) (ha : s.irteAddr d n = a) (hsmall : a.toNat < 2 ^ s.paSize)
    (hok : s.readAnswer a.toNat 4 = none) (e : BitVec 32) (he : wordOf 32 (s.mem.readBytes a.toNat 4) = e) :
    s.remapStep t d n c = State.finishRemap { s with
      outputs := s.outputs ++ [.ownRead a 4 ⟨true, s.isoc, none, none⟩]
      irtCache := if c.keepIrte = true ∧ t.stale = false then ⟨t.tx.dev, n, e⟩ :: s.irtCache else s.irtCache } t d e := by
  rw [State.remapStep, State.hitIrte_eq_none hmiss]
  dsimp only
  rw [ha, State.sawRead_small hsmall, State.tableRead_ok true hsmall hok, if_pos rfl]
  dsimp only
  rw [he]
  cases c.keepIrte <;> cases t.stale <;> rfl

theorem State.remapStep_failed {s : State} {t : InFlight} {d : Dte} {n : Nat} {c : TxChoice} {a : Addr} {f : ReadFailure}
    (hmiss : ∀ e, ¬s.usesIrte c.useIrte t.tx.dev n e) (ha : s.irteAddr d n = a) (hsmall : a.toNat < 2 ^ s.paSize)
    (hfail : s.readAnswer a.toNat 4 = some f) : s.remapStep t d n c =
      (((s.emit (.ownRead a 4 s.irtAttrs)).raise (s.pageTabErrorEvent t.tx d f a)).refuseTx t .targetAbort) := by
  rw [State.remapStep, State.hitIrte_eq_none hmiss]
  dsimp only
  rw [ha, State.sawRead_small hsmall, State.tableRead_error true hsmall hfail]

/-- Settles O38. -/
theorem interruptsFollowTheirClass : Obligations.InterruptsFollowTheirClass := by
  intro s t d m hkind hrange hm
  have hreq : t.tx.isTransReq = false := decide_eq_false (by rw [hkind]; decide)
  have hin : t.tx.inInterruptRange = true := decide_eq_true hrange
  refine ⟨fun hiv hhigh => ?classes, fun k n c a hk hphase hmiss hbit ha hsmall => ⟨fun hok => ?read, fun f hfail => ?failed⟩,
    fun k n c e hk hphase hhit => ?hit⟩
  case classes =>
    have hjudge : s.judge t.tx d = s.classVerdict t.tx d m.offset.toNat (intClass d m) :=
      (s.judge_interruptMessage d hkind hrange).trans (State.judgeInterrupt_legal hm hiv hhigh)
    split
    · rename_i hclass
      rw [intClass_of_remappable hclass] at hjudge
      split
      · rename_i hctl
        have habort := State.aborts_judged_of_denyRequest (hjudge.trans (if_pos hctl))
        rwa [State.requestEvents, hiv, hreq] at habort
      rename_i hctl
      have hjudge := hjudge.trans (if_neg hctl)
      split
      · rename_i hpass
        exact State.forwards_judged_of_judge_eq_pass (hjudge.trans (if_pos hpass))
      rename_i hpass
      have hjudge := hjudge.trans (if_neg hpass)
      split
      · rename_i hlen
        exact State.blocksInterrupt_of_judge (hjudge.trans (if_pos hlen))
      · rename_i hlen
        exact State.judged_eq_carryOut (hjudge.trans (if_neg hlen))
    · rename_i hclass
      split
      · rename_i hpass
        exact State.forwards_judged_of_judge_eq_pass (hjudge.trans (s.classVerdict_pass t.tx hclass hpass _))
      · rename_i hpass
        exact State.blocksInterrupt_of_judge (hjudge.trans (s.classVerdict_deny t.tx hclass hpass _))
  case read =>
    have haddr : s.irteAddr d n = a := by rw [State.irteAddr, hbit, ha]; rfl
    refine ⟨_, ?_, rfl⟩
    rw [State.advance_of_place hk, State.advanceTx, hphase]
    exact congrArg Host.Outcome.next (State.remapStep_read hmiss haddr hsmall hok _ rfl)
  case failed =>
    have haddr : s.irteAddr d n = a := by rw [State.irteAddr, hbit, ha]; rfl
    have hevent : s.pageTabErrorEvent t.tx d f a =
        .pageTabHardwareError t.tx.dev f.code false (s.rwField t.tx) true (s.eventDomain d) a := by
      rw [State.pageTabErrorEvent, hreq, hin]
    have hact : s.act (.advance k c) = .next
        (((s.emit (.ownRead a 4 s.irtAttrs)).raise (s.pageTabErrorEvent t.tx d f a)).refuseTx t .targetAbort) := by
      rw [State.advance_of_place hk, State.advanceTx, hphase]
      exact congrArg Host.Outcome.next (State.remapStep_failed hmiss haddr hsmall hfail)
    rw [hevent] at hact
    exact ⟨_, s.rwField t.tx, s.eventDomain d, hact, State.eventDomain_of_v, List.append_assoc _ _ _, rfl⟩
  case hit =>
    rw [State.advance_of_place hk, State.advanceTx, hphase]
    exact congrArg Host.Outcome.next (State.remapStep_hit hhit d)

end Sys2Proof.Machine
end


section
/-! PROOFS. The device table lookup (spec/41_device_table.md R223, R224, R249). -/

namespace Sys2Proof.Machine

/-! ### Where an entry is -/

/-- The address of the entry of a device (R223). -/
theorem State.dteAddr_toNat (s : State) (dev : DeviceId) :
    (s.dteAddr dev).toNat = (s.devTabBase.extractLsb' 12 40).toNat * 4096 + 32 * dev.toNat := by
  have hbase : (s.devTabBase.extractLsb' 12 40).toNat < 2 ^ 40 := BitVec.isLt _
  have hdev : dev.toNat < 2 ^ 16 := dev.isLt
  rw [State.dteAddr, BitVec.toNat_add, BitVec.toNat_shiftLeft, BitVec.toNat_setWidth, BitVec.toNat_ofNat, Nat.shiftLeft_eq]
  omega

/-- The two halves stand side by side, and no address wraps (R224). -/
theorem State.dteAddr_high (s : State) (dev : DeviceId) : (s.dteAddr dev + 16).toNat = (s.dteAddr dev).toNat + 16 := by
  have hbase : (s.devTabBase.extractLsb' 12 40).toNat < 2 ^ 40 := BitVec.isLt _
  have hdev : dev.toNat < 2 ^ 16 := dev.isLt
  have haddr := s.dteAddr_toNat dev
  rw [BitVec.toNat_add, show (16 : Addr).toNat = 16 by rfl]
  omega

/-! ### Reading one half -/

/-- The accesses that the read of a half makes: none where the access has been issued before. -/
def State.halfReads (s : State) (h : HalfRead) : List Output :=
  if h.issued = none then [.ownRead h.addr 16 ⟨s.coherent, s.isoc, some s.passPW, some s.resPassPW⟩] else []

/-- The state after those accesses. -/
def State.afterReads (s : State) (reads : List Output) : State := { s with outputs := s.outputs ++ reads }

theorem State.halfReads_trace {s : State} {h : HalfRead} (hsmall : h.addr.toNat < 2 ^ s.paSize) :
    (if h.issued.isNone then s.sawRead h.addr 16 s.devTabAttrs else s) = s.afterReads (s.halfReads h) := by
  rw [State.sawRead_small hsmall, State.halfReads, State.afterReads]
  cases h.issued
  · rfl
  · exact congrArg (fun l => { s with outputs := l }) (List.append_nil _).symm

theorem State.readHalf_ok {s : State} {h : HalfRead} {half : BitVec 128} (hsmall : h.addr.toNat < 2 ^ s.paSize)
    (hok : s.readAnswer h.addr.toNat 16 = none)
    (hhalf : half = wordOf 128 ((if h.issued.getD s.coherent then s.mem else s.dram).readBytes h.addr.toNat 16)) (t : InFlight)
    (k : State → BitVec 128 → State) : s.readHalf t h k = k (s.afterReads (s.halfReads h)) half := by
  rw [State.readHalf, State.halfReads_trace hsmall, State.tableRead_ok _ hsmall hok]
  dsimp only
  rw [← hhalf]

theorem State.readHalf_failed {s : State} {h : HalfRead} {f : ReadFailure} (hsmall : h.addr.toNat < 2 ^ s.paSize)
    (hfail : s.readAnswer h.addr.toNat 16 = some f) (t : InFlight) (k : State → BitVec 128 → State) :
    s.readHalf t h k = (s.afterReads (s.halfReads h)).dteFailed t f h.addr := by
  rw [State.readHalf, State.halfReads_trace hsmall, State.tableRead_error _ hsmall hfail]

/-- A read that has failed, after some accesses (R438). -/
theorem State.lookupFails_dteFailed (s : State) (t : InFlight) (reads : List Output) (f : ReadFailure) (a : Addr) :
    s.lookupFails ((s.afterReads reads).dteFailed t f a) t reads f a :=
  ⟨s.rwField t.tx, fun h => s.rwField_rwIs h, rfl, rfl, rfl⟩

/-- What completes an entry: the read of its second half, after which the whole is judged. -/
theorem State.readHalf_completes (s : State) (t : InFlight) (c : TxChoice) (rest : HalfRead) (whole : BitVec 128 → Dte) :
    s.completesEntry t c rest whole
      (.next (s.readHalf t rest fun u half => (u.keepWhole t c (whole half)).judged t (whole half))) := by
  intro half reads hsmall hhalf hreads
  have hreads : reads = s.halfReads rest := hreads
  subst hreads
  refine ⟨fun hok => ?_, fun f hfail => ?_⟩
  · rw [State.readHalf_ok hsmall hok hhalf, State.keepWhole_eq]
    rfl
  · refine ⟨_, rfl, ?_⟩
    rw [State.readHalf_failed hsmall hfail]
    exact s.lookupFails_dteFailed t _ f _

theorem State.finishHigh_completes (s : State) (t : InFlight) (c : TxChoice) (rest : HalfRead) (lo : BitVec 128) :
    s.completesEntry t c rest (fun hi => ⟨lo, hi⟩) (.next (s.finishHigh t c rest lo)) :=
  s.readHalf_completes t c rest fun hi => ⟨lo, hi⟩

theorem State.finishLow_completes (s : State) (t : InFlight) (c : TxChoice) (rest : HalfRead) (hi : BitVec 128) :
    s.completesEntry t c rest (fun lo => ⟨lo, hi⟩) (.next (s.finishLow t c rest hi)) :=
  s.readHalf_completes t c rest fun lo => ⟨lo, hi⟩

/-! ### Reading both halves -/

/-- The phase of a transaction that has one half and is to read the other. -/
def haveHalf (highFirst : Bool) (half : BitVec 128) (rest : HalfRead) : TxPhase :=
  if highFirst then .haveHigh half rest else .haveLow half rest

theorem State.beginHalf_eq (s : State) (t : InFlight) (c : TxChoice) (lo hi : HalfRead) :
    s.beginHalf t c lo hi = s.readHalf t (if c.highFirst then hi else lo) fun u half =>
      { u with dteCache := u.dteCacheHalf t c half }.setTx t (haveHalf c.highFirst half (if c.highFirst then lo else hi)) := by
  simp only [← State.keepHalf_eq]
  rw [State.beginHalf]
  cases c.highFirst <;> rfl

/-- The two halves are read apart: by accesses of their own, or seen at two moments out of one access (R224, D33). -/
theorem State.readDte_apart (s : State) (t : InFlight) {c : TxChoice} (h : c.wide = false ∨ c.torn = true) :
    s.readDte t c = (if c.wide then s.sawRead (s.dteAddr t.tx.dev) 32 s.devTabAttrs else s).beginHalf t c
      ⟨s.dteAddr t.tx.dev, if c.wide then some s.coherent else none⟩
      ⟨s.dteAddr t.tx.dev + 16, if c.wide then some s.coherent else none⟩ := by
  rw [State.readDte]
  cases hw : c.wide
  · rfl
  · rw [h.resolve_left (by rw [hw]; decide)]
    rfl

theorem State.readDte_whole (s : State) (t : InFlight) {c : TxChoice} (hw : c.wide = true) (ht : c.torn = false) :
    s.readDte t c = s.readWide t fun u d => (u.keepWhole t c d).judged t d := by
  rw [State.readDte, hw, ht]
  rfl

/-- What reading the entry in one access, at one moment, gives (R249). -/
theorem State.readWide_ok {s : State} {t : InFlight} {a : Addr} {m : Memory} (ha : a = s.dteAddr t.tx.dev)
    (hm : m = if s.coherent then s.mem else s.dram) (hsmall : a.toNat + 32 ≤ 2 ^ s.paSize)
    (hlo : s.readAnswer a.toNat 16 = none) (hhi : s.readAnswer (a.toNat + 16) 16 = none) (k : State → Dte → State) {d : Dte}
    (hd : d = ⟨wordOf 128 (m.readBytes a.toNat 16), wordOf 128 (m.readBytes (a.toNat + 16) 16)⟩) :
    s.readWide t k = k (s.afterReads [.ownRead a 32 ⟨s.coherent, s.isoc, some s.passPW, some s.resPassPW⟩]) d := by
  have hhigh : (a + 16).toNat = a.toNat + 16 := by rw [ha, s.dteAddr_high]
  have hsmall' : a.toNat < 2 ^ s.paSize := by omega
  rw [State.readWide, ← ha, State.sawRead_small hsmall', State.tableRead_ok _ hsmall' hlo,
    State.tableRead_ok (a := a + 16) _ (by omega) (by rwa [hhigh]), hhigh, ← hm]
  dsimp only
  rw [← hd]
  rfl

theorem State.readWide_failed_low {s : State} {t : InFlight} {a : Addr} {f : ReadFailure} (ha : a = s.dteAddr t.tx.dev)
    (hsmall : a.toNat < 2 ^ s.paSize) (hfail : s.readAnswer a.toNat 16 = some f) (k : State → Dte → State) : s.readWide t k =
      (s.afterReads [.ownRead a 32 ⟨s.coherent, s.isoc, some s.passPW, some s.resPassPW⟩]).dteFailed t f a := by
  rw [State.readWide, ← ha, State.sawRead_small hsmall, State.tableRead_error _ hsmall hfail]
  rfl

theorem State.readWide_failed_high {s : State} {t : InFlight} {a : Addr} {f : ReadFailure} (ha : a = s.dteAddr t.tx.dev)
    (hsmall : a.toNat + 32 ≤ 2 ^ s.paSize) (hlo : s.readAnswer a.toNat 16 = none)
    (hfail : s.readAnswer (a.toNat + 16) 16 = some f) (k : State → Dte → State) : s.readWide t k =
      (s.afterReads [.ownRead a 32 ⟨s.coherent, s.isoc, some s.passPW, some s.resPassPW⟩]).dteFailed t f (a + 16) := by
  have hhigh : (a + 16).toNat = a.toNat + 16 := by rw [ha, s.dteAddr_high]
  have hsmall' : a.toNat < 2 ^ s.paSize := by omega
  rw [State.readWide, ← ha, State.sawRead_small hsmall', State.tableRead_ok _ hsmall' hlo,
    State.tableRead_error (a := a + 16) _ (by omega) (by rwa [hhigh])]
  rfl

/-! ### The lookup -/

theorem State.lookupDte_inTable {s : State} {t : InFlight} (h : s.inTable t.tx.dev = true) (c : TxChoice) : s.lookupDte t c =
    match s.hitDte c.useLo t.tx.dev false, s.hitDte c.useHi t.tx.dev true with
    | some lo, some hi => s.judged t ⟨lo, hi⟩
    | some lo, none => s.finishHigh t c (s.highHalf t.tx.dev none) lo
    | none, some hi => s.finishLow t c (s.lowHalf t.tx.dev none) hi
    | none, none => s.readDte t c := by
  rw [State.lookupDte, h]
  rfl

theorem State.act_advance_needDte {s : State} {k : Nat} {t : InFlight} (hk : s.inFlight[k]? = some t) (hphase : t.phase = .needDte)
    (c : TxChoice) : s.act (.advance k c) = .next (s.lookupDte t c) := by
  rw [State.advance_of_place hk, State.advanceTx, hphase]

/-- Where no cached half is used the entry is read. -/
theorem State.lookupDte_read {s : State} {t : InFlight} {c : TxChoice} (h : s.inTable t.tx.dev = true)
    (hlo : s.usesNoHalf c.useLo t.tx.dev false) (hhi : s.usesNoHalf c.useHi t.tx.dev true) : s.lookupDte t c = s.readDte t c := by
  rw [State.lookupDte_inTable h, State.hitDte_eq_none.mpr hlo, State.hitDte_eq_none.mpr hhi]

/-- The first half of an entry whose halves are read apart. -/
theorem State.readDte_first {s : State} {t : InFlight} {c : TxChoice} {a first second : Addr} {rest : HalfRead} {read : Output}
    (ha : a = s.dteAddr t.tx.dev) (hapart : c.wide = false ∨ c.torn = true) (hsmall : a.toNat + 32 ≤ 2 ^ s.paSize)
    (hfirst : first = if c.highFirst then a + 16 else a) (hsecond : second = if c.highFirst then a else a + 16)
    (hrest : rest = ⟨second, if c.wide then some s.coherent else none⟩)
    (hread : read = if c.wide then .ownRead a 32 ⟨s.coherent, s.isoc, some s.passPW, some s.resPassPW⟩
      else .ownRead first 16 ⟨s.coherent, s.isoc, some s.passPW, some s.resPassPW⟩) :
    (∀ half, half = wordOf 128 ((if s.coherent then s.mem else s.dram).readBytes first.toNat 16) →
      s.readAnswer first.toNat 16 = none →
      s.readDte t c = { s with outputs := s.outputs ++ [read], dteCache := s.dteCacheHalf t c half }.setTx t
        (haveHalf c.highFirst half rest)) ∧
    (∀ f, s.readAnswer first.toNat 16 = some f → s.readDte t c = (s.afterReads [read]).dteFailed t f first) := by
  have hhigh : (a + 16).toNat = a.toNat + 16 := by rw [ha, s.dteAddr_high]
  have hsmall' : a.toNat < 2 ^ s.paSize := by omega
  have hfirstSmall : first.toNat < 2 ^ s.paSize := by
    rw [hfirst]
    split <;> omega
  have hnow : (if c.highFirst then (⟨a + 16, if c.wide then some s.coherent else none⟩ : HalfRead)
      else ⟨a, if c.wide then some s.coherent else none⟩) = ⟨first, if c.wide then some s.coherent else none⟩ := by
    rw [hfirst]
    split <;> rfl
  have hthen : (if c.highFirst then (⟨a, if c.wide then some s.coherent else none⟩ : HalfRead)
      else ⟨a + 16, if c.wide then some s.coherent else none⟩) = rest := by
    rw [hrest, hsecond]
    split <;> rfl
  have hread' : ∀ half, half = wordOf 128 ((if s.coherent then s.mem else s.dram).readBytes first.toNat 16) →
      half = wordOf 128 ((if (if c.wide then some s.coherent else none).getD s.coherent then s.mem else s.dram).readBytes
        first.toNat 16) := by
    intro half h
    cases c.wide <;> exact h
  rw [s.readDte_apart t hapart, ← ha, State.beginHalf_eq, hnow, hthen]
  cases hw : c.wide with
  | false =>
    rw [hw] at hread hread'
    subst hread
    refine ⟨fun half hhalf hok => ?_, fun f hfail => ?_⟩
    · exact State.readHalf_ok (h := ⟨first, none⟩) hfirstSmall hok (hread' half hhalf) t _
    · exact State.readHalf_failed (h := ⟨first, none⟩) hfirstSmall hfail t _
  | true =>
    rw [hw] at hread hread'
    subst hread
    rw [if_pos rfl, State.sawRead_small hsmall']
    have hnil : (s.emit (.ownRead a 32 s.devTabAttrs)).afterReads [] = s.emit (.ownRead a 32 s.devTabAttrs) :=
      congrArg (fun l => { s.emit (.ownRead a 32 s.devTabAttrs) with outputs := l }) (List.append_nil _)
    refine ⟨fun half hhalf hok => ?_, fun f hfail => ?_⟩
    · have h := State.readHalf_ok (s := s.emit (.ownRead a 32 s.devTabAttrs)) (h := ⟨first, some s.coherent⟩) hfirstSmall hok
        (hread' half hhalf) t fun u half =>
          { u with dteCache := u.dteCacheHalf t c half }.setTx t (haveHalf c.highFirst half rest)
      refine h.trans ?_
      rw [State.halfReads, if_neg (by simp), hnil]
      rfl
    · have h := State.readHalf_failed (s := s.emit (.ownRead a 32 s.devTabAttrs)) (h := ⟨first, some s.coherent⟩) hfirstSmall hfail
        t fun u half => { u with dteCache := u.dteCacheHalf t c half }.setTx t (haveHalf c.highFirst half rest)
      refine h.trans ?_
      rw [State.halfReads, if_neg (by simp), hnil]
      rfl

/-- Settles O40. -/
theorem lookupReadsTheDeviceTable : Obligations.LookupReadsTheDeviceTable := by
  refine ⟨State.dteAddr_toNat, fun s dev => decide_eq_true_iff, fun s k t c a m hk ha hm =>
    ⟨fun hphase hin hlo hhi hsmall => ⟨fun hwide htorn => ⟨fun hok hok' => ?whole, fun f hfail => ?low, fun f hok hfail => ?high⟩,
      fun hapart first second half rest read hfirst hsecond hhalf hrest hread => ⟨fun hok => ?first, fun f hfail => ?failed⟩⟩,
    fun lo rest hphase => ?haveLow, fun hi rest hphase => ?haveHigh,
    fun hphase hin => ⟨fun lo hi hlo hhi => ?both, fun lo hlo hhi => ?lowHit, fun hi hlo hhi => ?highHit⟩⟩⟩
  case whole =>
    refine ⟨_, ?_, rfl⟩
    rw [State.act_advance_needDte hk hphase, State.lookupDte_read hin hlo hhi, s.readDte_whole t hwide htorn,
      State.readWide_ok ha hm hsmall hok hok' _ rfl, State.keepWhole_eq]
    rfl
  case low =>
    refine ⟨_, State.act_advance_needDte hk hphase c, ?_⟩
    rw [State.lookupDte_read hin hlo hhi, s.readDte_whole t hwide htorn, State.readWide_failed_low ha (by omega) hfail]
    exact s.lookupFails_dteFailed t _ f a
  case high =>
    refine ⟨_, State.act_advance_needDte hk hphase c, ?_⟩
    rw [State.lookupDte_read hin hlo hhi, s.readDte_whole t hwide htorn, State.readWide_failed_high ha hsmall hok hfail]
    exact s.lookupFails_dteFailed t _ f _
  case first =>
    subst hm
    refine ⟨_, State.act_advance_needDte hk hphase c, ?_⟩
    rw [State.lookupDte_read hin hlo hhi, (State.readDte_first ha hapart hsmall hfirst hsecond hrest hread).1 half hhalf hok]
    exact ⟨rfl, rfl⟩
  case failed =>
    refine ⟨_, State.act_advance_needDte hk hphase c, ?_⟩
    rw [State.lookupDte_read hin hlo hhi, (State.readDte_first ha hapart hsmall hfirst hsecond hrest hread).2 f hfail]
    exact s.lookupFails_dteFailed t _ f _
  case haveLow =>
    rw [State.advance_of_place hk, State.advanceTx, hphase]
    exact s.finishHigh_completes t c rest lo
  case haveHigh =>
    rw [State.advance_of_place hk, State.advanceTx, hphase]
    exact s.finishLow_completes t c rest hi
  case both =>
    rw [State.act_advance_needDte hk hphase, State.lookupDte_inTable hin, State.hitDte_eq_some.mpr hlo,
      State.hitDte_eq_some.mpr hhi]
  case lowHit =>
    rw [State.act_advance_needDte hk hphase, State.lookupDte_inTable hin, State.hitDte_eq_some.mpr hlo,
      State.hitDte_eq_none.mpr hhi, ha]
    exact s.finishHigh_completes t c _ lo
  case highHit =>
    rw [State.act_advance_needDte hk hphase, State.lookupDte_inTable hin, State.hitDte_eq_none.mpr hlo,
      State.hitDte_eq_some.mpr hhi, ha]
    exact s.finishLow_completes t c _ hi

end Sys2Proof.Machine
end


section
/-! PROOFS. What the host bridge does with forwarded transactions (spec/40_transactions.md R176). -/

namespace Sys2Proof.Machine

/-- Bytes for memory are stored (log entry 25). -/
theorem State.hostStore_memory {s : State} {a : Addr} {data : List Byte} (hrange : rangeOf a = .ordinary)
    (hm : s.isMemory a.toNat data.length = true) : s.hostStore a data = .ok (s.store a.toNat data) := by
  cases data with
  | nil => rfl
  | cons x rest =>
    rw [State.hostStore, if_neg (by simp), if_neg (not_not.mpr hrange), State.isMemory_registers hm, if_neg (by decide), if_pos hm]

/-- What a store of bytes leaves in memory. -/
theorem State.store_lands {s : State} (hc : s.memoryCanonical) (a : Nat) (data : List Byte) :
    (s.store a data).holdsBytes a data ∧ s.sameMemoryOutside (s.store a data) a data.length :=
  ⟨⟨s.mem.readBytes_writeBytes a data hc.1, s.dram.readBytes_writeBytes a data hc.2⟩,
    fun b hb => ⟨s.mem.read_writeBytes_other a b data hb, s.dram.read_writeBytes_other a b data hb⟩⟩

theorem State.act_hostTakesWrite {s u : State} {k : Nat} {f : Forwarded} (hk : s.upWrites[k]? = some f)
    (hstore : (s.dropUpWrite k).hostStore f.sent.addr (f.stores ⟨.ok, [], []⟩) = .ok u) : s.act (.hostTakesWrite k) = .next u := by
  show s.hostTakesWrite k = _
  rw [State.hostTakesWrite, hk]
  dsimp only
  rw [hstore]

/-- An answer that need not be obscured goes to the originator as it is. -/
theorem State.act_hostAnswers {s u : State} {k : Nat} {f : Forwarded} {a : HostAnswer} (hk : s.upReads[k]? = some f)
    (hclear : f.obscure = false)
    (hstore : (s.dropUpRead k).hostStore f.sent.addr (if a.status = .ok then f.stores a else []) = .ok u) :
    s.act (.hostAnswers k a) = .next (u.emit (.completed f.orig a)) := by
  show s.hostAnswers k a = _
  rw [State.hostAnswers, hk]
  dsimp only
  rw [hstore, State.seen, hclear]
  rfl

/-- Settles O52. -/
theorem forwardedWriteLands : Obligations.ForwardedWriteLands := by
  refine ⟨fun s k f data hk hkind hdata hc hrange hm => ?posted, fun s k f a hk hclear =>
    ⟨fun hnothing => ?nothing, fun data hok hc hrange hkind hm => ?stored⟩⟩
  case posted =>
    have hstores : f.stores ⟨.ok, [], []⟩ = data := by rw [Forwarded.stores, hkind, hdata]
    obtain ⟨hholds, houtside⟩ := State.store_lands (s := s.dropUpWrite k) hc f.sent.addr.toNat data
    refine ⟨_, State.act_hostTakesWrite hk ?_, hholds, houtside, rfl⟩
    rw [hstores]
    exact State.hostStore_memory (s := s.dropUpWrite k) hrange hm
  case nothing =>
    have hnone : (if a.status = .ok then f.stores a else []) = [] := by
      split
      · rename_i hok
        rcases hnothing with h | h | h
        · rw [Forwarded.stores, h]
        · rw [Forwarded.stores, h]
        · exact absurd hok h
      · rfl
    refine State.act_hostAnswers (u := s.dropUpRead k) hk hclear ?_
    rw [hnone]
    exact State.hostStore_nil _ _
  case stored =>
    have hstores : f.stores a = data := by
      rcases hkind with ⟨h, hdata⟩ | ⟨h, hdata⟩ <;> rw [Forwarded.stores, h, hdata]
    obtain ⟨hholds, houtside⟩ := State.store_lands (s := s.dropUpRead k) hc f.sent.addr.toNat data
    refine ⟨_, State.act_hostAnswers (u := (s.dropUpRead k).store f.sent.addr.toNat data) hk hclear ?_, hholds, houtside, rfl⟩
    rw [hstores, if_pos hok]
    exact State.hostStore_memory (s := s.dropUpRead k) hrange hm

end Sys2Proof.Machine
end


section
/-! PROOFS. What one entry of a page table gives (spec/42_page_tables.md R274 to R288). -/

namespace Sys2Proof.Machine

/-! ### Fields of an entry -/

theorem pteNext_eq_zero_iff (e : BitVec 64) : e.extractLsb' 9 3 = 0 ↔ pteNext e = 0 := BitVec.toNat_inj.symm

theorem pteNext_eq_seven_iff (e : BitVec 64) : e.extractLsb' 9 3 = 7 ↔ pteNext e = 7 := BitVec.toNat_inj.symm

theorem pteNext_le (e : BitVec 64) : pteNext e ≤ 7 := Nat.le_of_lt_succ (e.extractLsb' 9 3).isLt

theorem pteAddr_toNat (e : BitVec 64) : (pteAddr e).toNat = (e.extractLsb' 12 40).toNat * 4096 := by
  have hfield := (e.extractLsb' 12 40).isLt
  rw [pteAddr, BitVec.toNat_shiftLeft, BitVec.toNat_setWidth, Nat.shiftLeft_eq]
  omega

theorem pteIsPage_iff (e : BitVec 64) : pteIsPage e = true ↔ pteNext e = 0 ∨ pteNext e = 7 := by
  rw [pteIsPage, Bool.or_eq_true, decide_eq_true_eq, decide_eq_true_eq]

theorem pteReserved_of_page {e : BitVec 64} (h : pteNext e = 0 ∨ pteNext e = 7) :
    pteReserved e = true ↔ e.extractLsb' 52 7 ≠ 0 := by
  rw [pteReserved, if_pos ((pteIsPage_iff e).mpr h), decide_eq_true_eq]

theorem pteReserved_of_directory {e : BitVec 64} (h : ¬(pteNext e = 0 ∨ pteNext e = 7)) :
    pteReserved e = true ↔ e.extractLsb' 52 9 ≠ 0 := by
  rw [pteReserved, if_neg (by rwa [pteIsPage_iff]), decide_eq_true_eq]

theorem pteUnreserved_of_page {e : BitVec 64} (h : pteNext e = 0 ∨ pteNext e = 7) :
    pteReserved e = false ↔ e.extractLsb' 52 7 = 0 := by
  rw [← Bool.not_eq_true, pteReserved_of_page h, ne_eq, not_not]

theorem pteUnreserved_of_directory {e : BitVec 64} (h : ¬(pteNext e = 0 ∨ pteNext e = 7)) :
    pteReserved e = false ↔ e.extractLsb' 52 9 = 0 := by
  rw [← Bool.not_eq_true, pteReserved_of_directory h, ne_eq, not_not]

/-! ### The two forms of a translation entry -/

/-- The size of an entry with `Next Level` 111b is a legal one for the level (R276, R287). -/
def legalSize (e : BitVec 64) (level bits : Nat) : Prop :=
  12 < bits ∧ bits ≤ 52 ∧ (∀ j, 12 ≤ j → j < bits - 1 → e.getLsbD j = true) ∧ e.getLsbD (bits - 1) = false ∧
    9 * level + 3 < bits ∧ bits < 9 * (level + 1) + 3

/-- There is at most one size: the first zero bit sets it. -/
theorem legalSize_iff {e : BitVec 64} {k : Nat} (h : firstZero e 12 40 = some k) (level bits : Nat) :
    legalSize e level bits ↔ bits = k + 1 ∧ 9 * level + 3 < k + 1 ∧ k + 1 < 9 * (level + 1) + 3 := by
  obtain ⟨h12, h52, hzero, hones⟩ := (firstZero_eq_some_iff e 12 40 k).mp h
  constructor
  · rintro ⟨hlo, hhi, hall, hbit, hlow, htop⟩
    have hk : bits - 1 = k := by
      rcases Nat.lt_trichotomy (bits - 1) k with hlt | heq | hgt
      · rw [hones _ (by omega) hlt] at hbit
        cases hbit
      · exact heq
      · rw [hall k h12 hgt] at hzero
        cases hzero
    omega
  · rintro ⟨rfl, hlow, htop⟩
    exact ⟨by omega, by omega, hones, hzero, hlow, htop⟩

theorem not_legalSize_of_none {e : BitVec 64} (h : firstZero e 12 40 = none) (level bits : Nat) : ¬legalSize e level bits := by
  rintro ⟨hlo, hhi, -, hbit, -, -⟩
  rw [(firstZero_eq_none_iff e 12 40).mp h (bits - 1) (by omega) (by omega)] at hbit
  cases hbit

/-- An entry with `Next Level` 111b gives a page of its size or is a fault (R276, R287, D26). -/
theorem enterSized_cases (e : BitVec 64) (level : Nat) :
    (∃ bits, legalSize e level bits ∧ enterSized e level = .page (alignDown (pteAddr e) bits) bits) ∨
      (∀ bits, ¬legalSize e level bits) ∧ enterSized e level = .fault true false := by
  unfold enterSized
  cases hz : firstZero e 12 40 with
  | none => exact .inr ⟨not_legalSize_of_none hz level, rfl⟩
  | some k =>
    dsimp only
    split
    · rename_i hsize
      refine .inr ⟨fun bits hbits => ?_, rfl⟩
      obtain ⟨-, hlow, htop⟩ := (legalSize_iff hz level bits).mp hbits
      unfold levelLow at hsize
      omega
    · rename_i hsize
      refine .inl ⟨k + 1, (legalSize_iff hz level (k + 1)).mpr ?_, rfl⟩
      unfold levelLow at hsize
      omega

theorem legalSize_unique {e : BitVec 64} {level bits bits' : Nat} (h : legalSize e level bits) (h' : legalSize e level bits') :
    bits = bits' := by
  cases hz : firstZero e 12 40 with
  | none => exact absurd h (not_legalSize_of_none hz level bits)
  | some k =>
    rw [((legalSize_iff hz level bits).mp h).1, ((legalSize_iff hz level bits').mp h').1]

/-- The address of an entry with `Next Level` 000b is a legal one for the level (R288, D20). -/
def legalDefault (e : BitVec 64) (level : Nat) (l6 : Bool) : Prop :=
  ¬(level = 6 ∧ l6 = false) ∧ (e.extractLsb' 12 40).toNat * 4096 % 2 ^ (9 * level + 3) = 0

theorem enterDefault_cases (e : BitVec 64) (level : Nat) (l6 : Bool) :
    (legalDefault e level l6 ∧ enterDefault e level l6 = .page (pteAddr e) (9 * level + 3)) ∨
      ¬legalDefault e level l6 ∧ enterDefault e level l6 = .fault true false := by
  unfold enterDefault legalDefault levelLow
  rw [pteAddr_toNat]
  by_cases h6 : level = 6 ∧ l6 = false
  · exact .inr ⟨fun h => h.1 h6, if_pos h6⟩
  · by_cases halign : (e.extractLsb' 12 40).toNat * 4096 % 2 ^ (9 * level + 3) = 0
    · exact .inl ⟨⟨h6, halign⟩, by rw [if_neg h6, if_neg (not_not.mpr halign)]⟩
    · exact .inr ⟨fun h => halign h.2, by rw [if_neg h6, if_pos halign]⟩

/-! ### One entry -/

/-- What an entry is, in the order of the tests (R280, R283, R285 to R288). -/
inductive EntryKind (e : BitVec 64) (level : Nat) (l6 : Bool) : Entered → Prop where
  | absent (hp : e.getLsbD 0 = false) : EntryKind e level l6 (.fault false false)
  | reserved (hp : e.getLsbD 0 = true) (hr : pteReserved e = true) : EntryKind e level l6 (.fault true true)
  | sized (hp : e.getLsbD 0 = true) (hr : pteReserved e = false) (hn : pteNext e = 7) (bits : Nat)
      (hsize : legalSize e level bits) : EntryKind e level l6 (.page (alignDown (pteAddr e) bits) bits)
  | badSize (hp : e.getLsbD 0 = true) (hr : pteReserved e = false) (hn : pteNext e = 7)
      (hsize : ∀ bits, ¬legalSize e level bits) : EntryKind e level l6 (.fault true false)
  | default (hp : e.getLsbD 0 = true) (hr : pteReserved e = false) (hn : pteNext e = 0)
      (hdefault : legalDefault e level l6) : EntryKind e level l6 (.page (pteAddr e) (9 * level + 3))
  | badDefault (hp : e.getLsbD 0 = true) (hr : pteReserved e = false) (hn : pteNext e = 0)
      (hdefault : ¬legalDefault e level l6) : EntryKind e level l6 (.fault true false)
  | badLevel (hp : e.getLsbD 0 = true) (hr : pteReserved e = false) (hn : ¬(pteNext e = 0 ∨ pteNext e = 7))
      (hlevel : level ≤ pteNext e) : EntryKind e level l6 (.fault true false)
  | directory (hp : e.getLsbD 0 = true) (hr : pteReserved e = false) (hn : ¬(pteNext e = 0 ∨ pteNext e = 7))
      (hlevel : pteNext e < level) : EntryKind e level l6 (.next (pteAddr e) (pteNext e))

theorem enterPte_kind (e : BitVec 64) (level : Nat) (l6 : Bool) : EntryKind e level l6 (enterPte e level l6) := by
  unfold enterPte ptePresent
  cases hp : e.getLsbD 0 with
  | false => exact .absent hp
  | true =>
    rw [if_neg (by decide)]
    cases hr : pteReserved e with
    | true => exact .reserved hp hr
    | false =>
      rw [if_neg (by decide)]
      by_cases h7 : pteNext e = 7
      · rw [if_pos h7]
        rcases enterSized_cases e level with ⟨bits, hsize, h⟩ | ⟨hsize, h⟩ <;> rw [h]
        · exact .sized hp hr h7 bits hsize
        · exact .badSize hp hr h7 hsize
      · rw [if_neg h7]
        by_cases h0 : pteNext e = 0
        · rw [if_pos h0]
          rcases enterDefault_cases e level l6 with ⟨hdefault, h⟩ | ⟨hdefault, h⟩ <;> rw [h]
          · exact .default hp hr h0 hdefault
          · exact .badDefault hp hr h0 hdefault
        · rw [if_neg h0]
          have hn : ¬(pteNext e = 0 ∨ pteNext e = 7) := fun h => h.elim h0 h7
          split
          · rename_i hlevel
            exact .badLevel hp hr hn hlevel
          · rename_i hlevel
            exact .directory hp hr hn (Nat.lt_of_not_le hlevel)

theorem enterPte_unreserved {e : BitVec 64} (hp : e.getLsbD 0 = true) (hr : pteReserved e = false) (level : Nat) (l6 : Bool) :
    enterPte e level l6 = if pteNext e = 7 then enterSized e level
      else if pteNext e = 0 then enterDefault e level l6
      else if level ≤ pteNext e then .fault true false
      else .next (pteAddr e) (pteNext e) := by
  rw [enterPte, ptePresent, hp, hr]
  rfl

/-- No entry is of two kinds. -/
theorem EntryKind.enterPte_eq {e : BitVec 64} {level : Nat} {l6 : Bool} {r : Entered} (h : EntryKind e level l6 r) :
    enterPte e level l6 = r := by
  cases h with
  | absent hp =>
    rw [enterPte, ptePresent, hp]
    rfl
  | reserved hp hr =>
    rw [enterPte, ptePresent, hp, hr]
    rfl
  | sized hp hr hn bits hsize =>
    rw [enterPte_unreserved hp hr, if_pos hn]
    rcases enterSized_cases e level with ⟨bits', hsize', h⟩ | ⟨hno, -⟩
    · rw [h, legalSize_unique hsize hsize']
    · exact absurd hsize (hno bits)
  | badSize hp hr hn hsize =>
    rw [enterPte_unreserved hp hr, if_pos hn]
    rcases enterSized_cases e level with ⟨bits, hyes, -⟩ | ⟨-, h⟩
    · exact absurd hyes (hsize bits)
    · exact h
  | default hp hr hn hdefault =>
    rw [enterPte_unreserved hp hr, if_neg (by omega), if_pos hn]
    rcases enterDefault_cases e level l6 with ⟨-, h⟩ | ⟨hno, -⟩
    · exact h
    · exact absurd hdefault hno
  | badDefault hp hr hn hdefault =>
    rw [enterPte_unreserved hp hr, if_neg (by omega), if_pos hn]
    rcases enterDefault_cases e level l6 with ⟨hyes, -⟩ | ⟨-, h⟩
    · exact absurd hyes hdefault
    · exact h
  | badLevel hp hr hn hlevel =>
    rw [enterPte_unreserved hp hr, if_neg (by omega), if_neg (by omega), if_pos hlevel]
  | directory hp hr hn hlevel =>
    rw [enterPte_unreserved hp hr, if_neg (by omega), if_neg (by omega), if_neg (by omega)]

theorem enterPte_eq_iff (e : BitVec 64) (level : Nat) (l6 : Bool) (r : Entered) :
    enterPte e level l6 = r ↔ EntryKind e level l6 r :=
  ⟨fun h => h ▸ enterPte_kind e level l6, EntryKind.enterPte_eq⟩

/-- An entry that leads down names a table of a level from 1 to below its own (R280, R286). -/
theorem enterPte_eq_next_iff (e : BitVec 64) {level : Nat} (hlevel : level ≤ 6) (l6 : Bool) (table : Addr) (next : Nat) :
    enterPte e level l6 = .next table next ↔
      (e.getLsbD 0 = true ∧ e.extractLsb' 52 9 = 0 ∧ next = (e.extractLsb' 9 3).toNat ∧ 1 ≤ next ∧ next < level ∧
        table.toNat = (e.extractLsb' 12 40).toNat * 4096) := by
  rw [enterPte_eq_iff, ← pteAddr_toNat]
  constructor
  · intro h
    cases h with
    | directory hp hr hn hlt => exact ⟨hp, (pteUnreserved_of_directory hn).mp hr, rfl, by omega, hlt, rfl⟩
  · rintro ⟨hp, hr, hnext, hpos, hlt, htable⟩
    have hnext : next = pteNext e := hnext
    have hn : ¬(pteNext e = 0 ∨ pteNext e = 7) := by omega
    rw [BitVec.eq_of_toNat_eq htable, hnext]
    exact .directory hp ((pteUnreserved_of_directory hn).mpr hr) hn (hnext ▸ hlt)

/-- An entry that gives a page has a legal alignment or a legal size (R276, R287, R288). -/
theorem enterPte_eq_page_iff (e : BitVec 64) {level : Nat} (hlevel : level ≤ 6) (l6 : Bool) (base : Addr) (bits : Nat) :
    enterPte e level l6 = .page base bits ↔
      (e.getLsbD 0 = true ∧ e.extractLsb' 52 7 = 0 ∧
        ((e.extractLsb' 9 3 = 0 ∧ (level < 6 ∨ l6 = true) ∧ bits = 9 * level + 3 ∧
            (e.extractLsb' 12 40).toNat * 4096 % 2 ^ bits = 0 ∧ base.toNat = (e.extractLsb' 12 40).toNat * 4096) ∨
          (e.extractLsb' 9 3 = 7 ∧ 12 < bits ∧ bits ≤ 52 ∧ (∀ j, 12 ≤ j → j < bits - 1 → e.getLsbD j = true) ∧
            e.getLsbD (bits - 1) = false ∧ 9 * level + 3 < bits ∧ bits < 9 * (level + 1) + 3 ∧
            base.toNat = (e.extractLsb' 12 40).toNat * 4096 / 2 ^ bits * 2 ^ bits))) := by
  have h6 : (level < 6 ∨ l6 = true) ↔ ¬(level = 6 ∧ l6 = false) := by
    rw [not_and_or, Bool.not_eq_false]
    exact or_congr_left (by omega)
  rw [enterPte_eq_iff, pteNext_eq_zero_iff, pteNext_eq_seven_iff, h6, ← pteAddr_toNat]
  constructor
  · intro h
    cases h with
    | sized hp hr hn bits hsize =>
      obtain ⟨hlo, hhi, hall, hbit, hlow, htop⟩ := hsize
      exact ⟨hp, (pteUnreserved_of_page (.inr hn)).mp hr, .inr ⟨hn, hlo, hhi, hall, hbit, hlow, htop, alignDown_toNat _ _⟩⟩
    | default hp hr hn hdefault =>
      refine ⟨hp, (pteUnreserved_of_page (.inl hn)).mp hr, .inl ⟨hn, hdefault.1, rfl, ?_, rfl⟩⟩
      rw [pteAddr_toNat]
      exact hdefault.2
  · rintro ⟨hp, hr, ⟨hn, hnot6, rfl, halign, hbase⟩ | ⟨hn, hlo, hhi, hall, hbit, hlow, htop, hbase⟩⟩
    · rw [BitVec.eq_of_toNat_eq hbase]
      refine .default hp ((pteUnreserved_of_page (.inl hn)).mpr hr) hn ⟨hnot6, ?_⟩
      rwa [pteAddr_toNat] at halign
    · have hbaseEq : base = alignDown (pteAddr e) bits :=
        BitVec.eq_of_toNat_eq (hbase.trans (alignDown_toNat _ _).symm)
      rw [hbaseEq]
      exact .sized hp ((pteUnreserved_of_page (.inr hn)).mpr hr) hn bits ⟨hlo, hhi, hall, hbit, hlow, htop⟩

theorem enterPte_eq_absent_iff (e : BitVec 64) (level : Nat) (l6 rz : Bool) :
    enterPte e level l6 = .fault false rz ↔ (rz = false ∧ e.getLsbD 0 = false) := by
  rw [enterPte_eq_iff]
  constructor
  · intro h
    cases h with
    | absent hp => exact ⟨rfl, hp⟩
  · rintro ⟨rfl, hp⟩
    exact .absent hp

theorem enterPte_eq_reserved_iff (e : BitVec 64) (level : Nat) (l6 : Bool) :
    enterPte e level l6 = .fault true true ↔ (e.getLsbD 0 = true ∧ pteReserved e = true) := by
  rw [enterPte_eq_iff]
  constructor
  · intro h
    cases h with
    | reserved hp hr => exact ⟨hp, hr⟩
  · rintro ⟨hp, hr⟩
    exact .reserved hp hr

/-- Every other illegal entry: its level, alignment or size (R286 to R288). -/
theorem enterPte_eq_illegal_iff (e : BitVec 64) {level : Nat} (hpos : 1 ≤ level) (hlevel : level ≤ 6) (l6 : Bool) :
    enterPte e level l6 = .fault true false ↔
      (e.getLsbD 0 = true ∧ pteReserved e = false ∧
        ((1 ≤ (e.extractLsb' 9 3).toNat ∧ (e.extractLsb' 9 3).toNat ≤ 6 ∧ level ≤ (e.extractLsb' 9 3).toNat) ∨
          (e.extractLsb' 9 3 = 0 ∧ (level = 6 ∧ l6 = false ∨
            (e.extractLsb' 12 40).toNat * 4096 % 2 ^ (9 * level + 3) ≠ 0)) ∨
          (e.extractLsb' 9 3 = 7 ∧ ∀ bits, 9 * level + 3 < bits → bits < 9 * (level + 1) + 3 → bits ≤ 52 →
            (∀ j, 12 ≤ j → j < bits - 1 → e.getLsbD j = true) → e.getLsbD (bits - 1) = true))) := by
  have hsizes : (∀ bits, ¬legalSize e level bits) ↔ ∀ bits, 9 * level + 3 < bits → bits < 9 * (level + 1) + 3 → bits ≤ 52 →
      (∀ j, 12 ≤ j → j < bits - 1 → e.getLsbD j = true) → e.getLsbD (bits - 1) = true := by
    refine forall_congr' fun bits => ⟨fun h hlow htop hhi hall => ?_, fun h ⟨hlo, hhi, hall, hbit, hlow, htop⟩ => ?_⟩
    · by_contra hbit
      exact h ⟨by omega, hhi, hall, by simpa using hbit, hlow, htop⟩
    · rw [h hlow htop hhi hall] at hbit
      cases hbit
  have hdefaults : ¬legalDefault e level l6 ↔
      (level = 6 ∧ l6 = false ∨ (e.extractLsb' 12 40).toNat * 4096 % 2 ^ (9 * level + 3) ≠ 0) := by
    rw [legalDefault, not_and_or, not_not]
  rw [enterPte_eq_iff, pteNext_eq_zero_iff, pteNext_eq_seven_iff, ← hsizes, ← hdefaults]
  have hnext : (e.extractLsb' 9 3).toNat = pteNext e := rfl
  have hle := pteNext_le e
  rw [hnext]
  constructor
  · intro h
    cases h with
    | badSize hp hr hn h => exact ⟨hp, hr, .inr (.inr ⟨hn, h⟩)⟩
    | badDefault hp hr hn h => exact ⟨hp, hr, .inr (.inl ⟨hn, h⟩)⟩
    | badLevel hp hr hn h => exact ⟨hp, hr, .inl ⟨by omega, by omega, h⟩⟩
  · rintro ⟨hp, hr, ⟨h1, h6, h⟩ | ⟨hn, h⟩ | ⟨hn, h⟩⟩
    · exact .badLevel hp hr (by omega) h
    · exact .badDefault hp hr hn h
    · exact .badSize hp hr hn h

/-- Each read leads to a lower level, and the lowest is 1 (R280). -/
theorem levels_descend {level : Nat → Nat} {n : Nat} (htop : level 0 ≤ 6)
    (h : ∀ i, i < n → ∃ e l6 table, enterPte e (level i) l6 = .next table (level (i + 1))) :
    level n + n ≤ 6 ∧ (0 < n → 1 ≤ level n) := by
  induction n with
  | zero => exact ⟨htop, fun h => absurd h (Nat.lt_irrefl 0)⟩
  | succ n ih =>
    obtain ⟨hsum, -⟩ := ih fun i hi => h i (Nat.lt_succ_of_lt hi)
    obtain ⟨e, l6, table, hnext⟩ := h n (Nat.lt_succ_self n)
    obtain ⟨-, -, -, hpos, hlt, -⟩ := (enterPte_eq_next_iff e (by omega) l6 table _).mp hnext
    exact ⟨by omega, fun _ => hpos⟩

/-- Settles O48. -/
theorem walkEntryIsLegal : Obligations.WalkEntryIsLegal := by
  refine ⟨fun e level l6 hpos hlevel => ⟨fun table next => enterPte_eq_next_iff e hlevel l6 table next,
    fun base bits => enterPte_eq_page_iff e hlevel l6 base bits, fun rz => enterPte_eq_absent_iff e level l6 rz,
    enterPte_eq_reserved_iff e level l6, ?reserved, enterPte_eq_illegal_iff e hpos hlevel l6⟩, fun level n htop h => ?levels⟩
  case reserved =>
    split
    · rename_i h
      exact pteReserved_of_page (h.imp (pteNext_eq_zero_iff e).mp (pteNext_eq_seven_iff e).mp)
    · rename_i h
      exact pteReserved_of_directory fun hn => h (hn.imp (pteNext_eq_zero_iff e).mpr (pteNext_eq_seven_iff e).mpr)
  case levels =>
    obtain ⟨hsum, hpos⟩ := levels_descend htop h
    omega

end Sys2Proof.Machine
end


section
/-! PROOFS. The walk of the page tables (spec/42_page_tables.md R274 to R292). -/

namespace Sys2Proof.Machine

/-! ### Places in an address -/

/-- The index into a table is nine bits of the address, or what is left of them at the top (R274). -/
theorem levelIndex_eq {level : Nat} (hlevel : level ≤ 6) (dva : Addr) :
    levelIndex level dva = dva.toNat / 2 ^ (9 * level + 3) % 512 := by
  have hdva : dva.toNat < 2 ^ 64 := dva.isLt
  unfold levelIndex levelTop levelLow
  rcases Nat.lt_or_ge level 6 with h | h
  · rw [Nat.min_eq_left (by omega), show 9 * level + 12 = (9 * level + 3) + 9 by omega, Nat.pow_add, Nat.mod_mul_right_div_self]
  · obtain rfl : level = 6 := by omega
    rw [Nat.min_eq_right (by decide), Nat.mod_eq_of_lt hdva]
    omega

/-- Bits are skipped where one of those above the level's own is set (R284). -/
theorem skippedBits_iff {upper : Nat} (hupper : upper ≤ 64) (level : Nat) (dva : Addr) : skippedBits dva upper level = true ↔
    ∃ n, 9 * level + 12 ≤ n ∧ n < upper ∧ dva.getLsbD n = true := by
  have hbit : ∀ k i, (dva.toNat % 2 ^ upper / 2 ^ k).testBit i = (decide (k + i < upper) && dva.getLsbD (k + i)) := by
    intro k i
    rw [Nat.testBit_div_two_pow, Nat.testBit_mod_two_pow, Nat.add_comm i k]
    rfl
  rw [skippedBits, decide_eq_true_eq]
  constructor
  · intro h
    obtain ⟨i, hi⟩ := Nat.exists_testBit_of_ne_zero h
    rw [hbit, Bool.and_eq_true, decide_eq_true_eq, levelTop] at hi
    have hlow : min (9 * level + 12) 64 = 9 * level + 12 := by omega
    rw [hlow] at hi
    exact ⟨_, Nat.le_add_right _ _, hi⟩
  · rintro ⟨n, hlow, hup, hn⟩ hzero
    have htop : levelTop level = 9 * level + 12 := by
      unfold levelTop
      omega
    have hset := hbit (levelTop level) (n - levelTop level)
    rw [hzero, Nat.zero_testBit, htop, show 9 * level + 12 + (n - (9 * level + 12)) = n by omega, hn, decide_eq_true hup] at hset
    cases hset

/-- The address a page gives: its base and the low bits of the virtual one (R281). -/
theorem joinPage_toNat {base : Addr} {bits : Nat} (hbits : bits ≤ 64) (halign : base.toNat % 2 ^ bits = 0) (dva : Addr) :
    (joinPage base bits dva).toNat = base.toNat + dva.toNat % 2 ^ bits := by
  have hbase : base.toNat / 2 ^ bits * 2 ^ bits = base.toNat := Nat.div_mul_cancel (Nat.dvd_of_mod_eq_zero halign)
  have hlow : dva.toNat % 2 ^ bits < 2 ^ bits := Nat.mod_lt _ (Nat.two_pow_pos bits)
  obtain ⟨m, hm⟩ : 2 ^ bits ∣ 2 ^ 64 - base.toNat :=
    Nat.dvd_sub (Nat.pow_dvd_pow 2 hbits) (Nat.dvd_of_mod_eq_zero halign)
  have hroom : 2 ^ bits ≤ 2 ^ 64 - base.toNat := by
    have hlt : base.toNat < 2 ^ 64 := base.isLt
    rw [hm]
    refine Nat.le_mul_of_pos_right _ (Nat.pos_of_ne_zero ?_)
    rintro rfl
    omega
  rw [joinPage, hbase, BitVec.toNat_ofNat]
  exact Nat.mod_eq_of_lt (by omega)

/-- Within `PAsize` bits nothing of it is lost (R92). -/
theorem State.clip_joinPage {s : State} {base : Addr} {bits : Nat} (hbits : bits ≤ 52) (halign : base.toNat % 2 ^ bits = 0)
    (hroom : base.toNat + 2 ^ bits ≤ 2 ^ s.paSize) (dva : Addr) :
    (s.clip bits (joinPage base bits dva)).toNat = base.toNat + dva.toNat % 2 ^ bits := by
  have hjoin := joinPage_toNat (by omega) halign dva
  have hlow : dva.toNat % 2 ^ bits < 2 ^ bits := Nat.mod_lt _ (Nat.two_pow_pos bits)
  have hlt := (joinPage base bits dva).isLt
  rw [State.clip, if_neg (by omega), BitVec.toNat_ofNat, hjoin, Nat.mod_eq_of_lt (a := base.toNat + _) (b := 2 ^ s.paSize) (by omega),
    Nat.mod_eq_of_lt (by omega)]

/-! ### What an entry that has been read does to the walk -/

/-- The state after these accesses, with these translations cached. -/
def State.walked (s : State) (reads : List Output) (l : List TlbEntry) : State :=
  { s with outputs := s.outputs ++ reads, tlb := l ++ s.tlb }

theorem State.walked_nil (s : State) : s.walked [] [] = s := by rw [State.walked, List.append_nil]; rfl

/-- A result that is kept is kept in pieces of the choice (R124). -/
theorem State.concludeWalk_eq (s : State) (t : InFlight) (d : Dte) (w : Walk) (c : TxChoice) (bits : Nat) (present : Bool)
    (r : WalkResult) (o : Output) : (s.emit o).concludeWalk t d w c bits present r =
      (s.walked [o] (if t.stale = false ∧ (present = true ∨ s.npCache = true) then keptPieces t d w c bits r else [])).finishWalk t d
        ⟨d.domain, alignDown w.dva bits, bits⟩ w.dva w.dteIr w.dteIw r := by
  have hnp : (s.emit o).npCache = s.npCache := rfl
  rw [State.concludeWalk, walkEntries_eq, hnp]
  cases t.stale <;> cases present <;> cases s.npCache <;> rfl

theorem Walk.count_of_counts {w : Walk} {e : BitVec 64} (h : pteCounts e = true) :
    w.count e = { w with ir := w.ir && e.getLsbD 61, iw := w.iw && e.getLsbD 62 } := if_pos h

theorem Walk.count_eq (w : Walk) (e : BitVec 64) : w.count e =
    { w with ir := w.ir && (!pteCounts e || e.getLsbD 61), iw := w.iw && (!pteCounts e || e.getLsbD 62) } := by
  unfold Walk.count pteIr pteIw
  cases pteCounts e <;> simp

/-- The result of the read of a table entry: its trace, and the entry. -/
structure ReadsEntry (s : State) (d : Dte) (w : Walk) (a : Addr) (e : BitVec 64) : Prop where
  unskipped : skippedBits w.dva w.upper w.level = false
  addr : a = entryAddr w.table w.level w.dva
  small : a.toNat < 2 ^ s.paSize
  answered : s.readAnswer a.toNat 8 = none
  entry : e = wordOf 64 ((if d.sd then s.dram else s.mem).readBytes a.toNat 8)

/-- The trace of the read of a table entry (R290). -/
def State.pageRead (s : State) (d : Dte) (a : Addr) : Output := .ownRead a 8 ⟨!d.sd, s.isoc, some s.passPW, some s.resPassPW⟩

/-- What the walk does with the entry `e` that the access `o` has read, by what the entry gives (R280). -/
def State.walkEntered (s : State) (o : Output) (t : InFlight) (d : Dte) (w : Walk) (c : TxChoice) (e : BitVec 64) : Entered → State
  | .page base bits => (s.emit o).concludeWalk t d (w.count e) c bits true
      (.page base bits (w.count e).ir (w.count e).iw (e.getLsbD 60) (e.getLsbD 59))
  | .fault pr rz => (s.emit o).concludeWalk t d (w.count e) c (9 * w.level + 3) (ptePresent e)
      (.fault pr rz (w.count e).ir (w.count e).iw)
  | .next table level => (s.emit o).descendWalk t d (w.count e) c table level

theorem ReadsEntry.walkLevel {s : State} {d : Dte} {w : Walk} {a : Addr} {e : BitVec 64} (h : ReadsEntry s d w a e)
    (t : InFlight) (c : TxChoice) : s.walkLevel t d w c =
      s.walkEntered (s.pageRead d a) t d w c e (enterPte e w.level (s.freeBit .level6)) := by
  have hmem : (if (!d.sd) then s.mem else s.dram) = if d.sd then s.dram else s.mem := by cases d.sd <;> rfl
  rw [State.walkLevel, h.unskipped, if_neg (by decide)]
  dsimp only
  rw [← h.addr, State.sawRead_small h.small, State.tableRead_ok _ h.small h.answered, hmem]
  dsimp only
  rw [← h.entry]
  cases enterPte e w.level (s.freeBit .level6) <;> rfl

theorem State.walkLevel_failed {s : State} {d : Dte} {w : Walk} {a : Addr} {f : ReadFailure}
    (hskip : skippedBits w.dva w.upper w.level = false) (ha : a = entryAddr w.table w.level w.dva)
    (hsmall : a.toNat < 2 ^ s.paSize) (hfail : s.readAnswer a.toNat 8 = some f) (t : InFlight) (c : TxChoice) :
    s.walkLevel t d w c = ((s.emit (s.pageRead d a)).raise (s.pageTabErrorEvent t.tx d f a)).refuseTx t .targetAbort := by
  rw [State.walkLevel, hskip, if_neg (by decide)]
  dsimp only
  rw [← ha, State.sawRead_small hsmall, State.tableRead_error _ hsmall hfail]
  rfl

theorem State.walkLevel_skipped {s : State} {w : Walk} (hskip : skippedBits w.dva w.upper w.level = true) (t : InFlight) (d : Dte)
    (c : TxChoice) : s.walkLevel t d w c = s.finishFault t d false false (w.ir && w.dteIr) (w.iw && w.dteIw) := by
  rw [State.walkLevel, hskip]
  rfl

/-! ### One step of the walk -/

theorem State.act_advance_walking {s : State} {k : Nat} {t : InFlight} {d : Dte} {w : Walk} (hk : s.inFlight[k]? = some t)
    (hphase : t.phase = .walking d w) (hagree : w.fresh = true → s.tablesDisagree d.domain = false) (c : TxChoice) :
    s.act (.advance k c) = .next (s.walkOn t d w c) := by
  rw [State.advance_of_place hk, State.advanceTx, hphase]
  refine if_neg ?_
  rw [Bool.and_eq_true]
  rintro ⟨hf, hd⟩
  rw [hagree hf] at hd
  cases hd

theorem State.hitTlb_eq_none {s : State} {place : Option Nat} {m : DomainId} {dva : Addr} (h : ∀ e, ¬s.usesTlb place m dva e) :
    s.hitTlb place m dva = none :=
  Option.eq_none_iff_forall_ne_some.mpr fun e he => h e (State.hitTlb_eq_some.mp he)

theorem State.hitPdc_eq_none {s : State} {place : Option Nat} {m : DomainId} {dva : Addr} (h : ∀ e, ¬s.usesPdc place m dva e) :
    s.hitPdc place m dva = none :=
  Option.eq_none_iff_forall_ne_some.mpr fun e he => h e (State.hitPdc_eq_some.mp he)

/-- Where no cache answers, an entry is read. -/
theorem State.walkOn_miss {s : State} {d : Dte} {w : Walk} {c : TxChoice}
    (h : w.fresh = true → (∀ e, ¬s.usesTlb c.useTlb d.domain w.dva e) ∧ ∀ e, ¬s.usesPdc c.usePdc d.domain w.dva e) (t : InFlight) :
    s.walkOn t d w c = s.walkLevel t d { w with fresh := false } c := by
  have htlb : (if w.fresh then s.hitTlb c.useTlb d.domain w.dva else none) = none := by
    split
    · rename_i hf
      exact State.hitTlb_eq_none (h hf).1
    · rfl
  have hpdc : (if w.fresh then s.hitPdc c.usePdc d.domain w.dva else none) = none := by
    split
    · rename_i hf
      exact State.hitPdc_eq_none (h hf).2
    · rfl
  rw [State.walkOn, htlb]
  dsimp only
  rw [hpdc]

/-- A cached translation answers for the whole walk (R291). -/
theorem State.walkOn_tlb {s : State} {d : Dte} {w : Walk} {c : TxChoice} {x : TlbEntry} (hf : w.fresh = true)
    (h : s.usesTlb c.useTlb d.domain w.dva x) (t : InFlight) : s.walkOn t d w c =
      s.finishWalk t d ⟨d.domain, x.base, x.bits⟩ w.dva (if c.fillerPerms then x.dteIr else w.dteIr)
        (if c.fillerPerms then x.dteIw else w.dteIw) x.result := by
  rw [State.walkOn, hf, if_pos rfl, State.hitTlb_eq_some.mpr h]

theorem State.walkOn_pdc {s : State} {d : Dte} {w : Walk} {c : TxChoice} {p : PdcEntry} (hf : w.fresh = true)
    (hmiss : ∀ e, ¬s.usesTlb c.useTlb d.domain w.dva e) (h : s.usesPdc c.usePdc d.domain w.dva p) (t : InFlight) :
    s.walkOn t d w c = s.setTx t (.walking d (w.resume p c.fillerPerms)) := by
  rw [State.walkOn, hf, if_pos rfl, State.hitTlb_eq_none hmiss]
  dsimp only
  rw [if_pos rfl, State.hitPdc_eq_some.mpr h]

/-! ### O49 -/

/-- How a walk begins (R280, R229, R230; U30). -/
theorem State.beginTranslate_walk (s : State) (t : InFlight) {d : Dte} (hmode : d.mode ≠ 0) :
    (t.tx.addr.toNat < 2 ^ s.vaSize → s.beginTranslate t d = s.startsWalk t d d.root t.tx.addr) ∧
    (2 ^ s.vaSize ≤ t.tx.addr.toNat →
      s.beginTranslate t d = s.startsWalk t d d.root (BitVec.ofNat 64 (t.tx.addr.toNat % 2 ^ s.vaSize)) ∨
        s.beginTranslate t d = s.finishFault t d false false d.ir d.iw) := by
  rw [State.beginTranslate, if_neg hmode, State.seenVirtual]
  refine ⟨fun h => ?_, fun h => ?_⟩
  · rw [if_pos h]
    rfl
  · rw [if_neg (by omega)]
    cases s.freeBit .wideVirtual
    · exact .inr rfl
    · exact .inl rfl

/-- Whether an entry leads down does not depend on what a level-6 page is (D20). -/
theorem enterPte_next_any {e : BitVec 64} {level : Nat} {l6 : Bool} {table : Addr} {next : Nat}
    (h : enterPte e level l6 = .next table next) (l6' : Bool) : enterPte e level l6' = .next table next := by
  cases (enterPte_eq_iff e level l6 _).mp h with
  | directory hp hr hn hlt => exact (enterPte_eq_iff e level l6' _).mpr (.directory hp hr hn hlt)

/-- A page is aligned to its size. -/
theorem enterPte_page_aligned {e : BitVec 64} {level : Nat} {l6 : Bool} {base : Addr} {bits : Nat}
    (h : enterPte e level l6 = .page base bits) : base.toNat % 2 ^ bits = 0 := by
  cases (enterPte_eq_iff e level l6 _).mp h with
  | sized hp hr hn bits hsize =>
    rw [alignDown_toNat]
    exact Nat.mul_mod_left _ _
  | default hp hr hn hdefault =>
    rw [pteAddr_toNat]
    exact hdefault.2

/-- The walk of a transaction, not at its start, or with no cache that answers. -/
theorem ReadsEntry.fresh {s : State} {d : Dte} {w : Walk} {a : Addr} {e : BitVec 64} (h : ReadsEntry s d w a e) :
    ReadsEntry s d { w with fresh := false } a e := ⟨h.unskipped, h.addr, h.small, h.answered, h.entry⟩

/-- Settles O49. -/
theorem walkStepFollowsTheTable : Obligations.WalkStepFollowsTheTable := by
  refine ⟨fun s t d hpos hle => ?begins, fun level dva hpos hle => levelIndex_eq hle dva,
    fun level upper dva hupper => skippedBits_iff hupper level dva,
    fun s k t d w c a e hk hphase hfresh hskip ha hsmall hok he hp hr =>
      ⟨fun base bits henter hbits hroom => ?page, fun table next l6 henter => ?next⟩,
    fun s k t d w c p hk hphase hf hagree hmiss hhit => ?cached⟩
  case begins =>
    obtain ⟨hin, hout⟩ := s.beginTranslate_walk t (d := d) (by omega)
    have hroot : d.root.toNat = (d.lo.extractLsb' 12 40).toNat * 4096 := by
      have hfield := (d.lo.extractLsb' 12 40).isLt
      rw [Dte.root, BitVec.toNat_shiftLeft, BitVec.toNat_setWidth, Nat.shiftLeft_eq]
      omega
    exact ⟨d.root, hroot, hin, hout⟩
  case page =>
    have hread : ReadsEntry s d w a e := ⟨hskip, ha, hsmall, hok, he⟩
    have hcounts : pteCounts e = true := by rw [pteCounts, ptePresent, hp, hr]; rfl
    have hact : s.act (.advance k c) = .next
        ((s.walked [s.pageRead d a] (if t.stale = false then keptPieces t d w c bits
            (.page base bits (w.ir && e.getLsbD 61) (w.iw && e.getLsbD 62) (e.getLsbD 60) (e.getLsbD 59)) else [])).finishPage t d
          ⟨d.domain, alignDown w.dva bits, bits⟩ (s.clip bits (joinPage base bits w.dva)) bits
          (w.ir && e.getLsbD 61 && w.dteIr) (w.iw && e.getLsbD 62 && w.dteIw) (e.getLsbD 60) (e.getLsbD 59)) := by
      rw [State.act_advance_walking hk hphase (fun hf => (hfresh hf).1), State.walkOn_miss (fun hf => (hfresh hf).2),
        hread.fresh.walkLevel, henter, State.walkEntered, Walk.count_of_counts hcounts, State.concludeWalk_eq]
      simp only [true_or, and_true]
      rfl
    refine ⟨_, _, State.clip_joinPage hbits (enterPte_page_aligned (henter true)) hroom w.dva, hact, ?_, fun hkind hperm => ?_⟩
    · rw [State.walked]
      cases t.stale <;> rfl
    · have hperm' : t.tx.kind.permitted (w.ir && e.getLsbD 61 && w.dteIr) (w.iw && e.getLsbD 62 && w.dteIw) = true := by
        rwa [Bool.and_right_comm w.ir, Bool.and_right_comm w.iw]
      rw [State.finishPage_memory _ hkind] at hact
      obtain ⟨-, houtputs, hevents, hunder⟩ := State.forwards_finishMemory (s := s.walked [s.pageRead d a] _) hperm' d
        ⟨d.domain, alignDown w.dva bits, bits⟩ (s.clip bits (joinPage base bits w.dva)) (e.getLsbD 60)
      exact ⟨_, hact, hevents, houtputs.trans (List.append_assoc _ _ _), hunder⟩
  case next =>
    have hread : ReadsEntry s d w a e := ⟨hskip, ha, hsmall, hok, he⟩
    have hcounts : pteCounts e = true := by rw [pteCounts, ptePresent, hp, hr]; rfl
    rw [State.act_advance_walking hk hphase (fun hf => (hfresh hf).1), State.walkOn_miss (fun hf => (hfresh hf).2),
      hread.fresh.walkLevel, enterPte_next_any henter, State.walkEntered, Walk.count_of_counts hcounts, State.descendWalk]
    cases c.keepPdc <;> cases t.stale <;> rfl
  case cached =>
    rw [State.act_advance_walking hk hphase (fun _ => hagree), State.walkOn_pdc hf hmiss hhit]
    rfl

end Sys2Proof.Machine
end


section
/-! PROOFS. How a walk ends without a page of its own (spec/42_page_tables.md R283 to R292). -/

namespace Sys2Proof.Machine

/-! ### Page faults of a walk -/

/-- Of a walk's page fault `RZ`, `RW` and `PE` say something where `PR` = 1 (R443). -/
def faultFields (t : InFlight) (pr rz ir iw : Bool) (rz' pe rw : Bool) : Prop :=
  pr = true → rz' = rz ∧ t.tx.kind.rwIs rw ∧ pe = !(t.tx.kind.permitted ir iw)

/-- A page fault of a walk is a target abort (R443 to R445). -/
theorem State.aborts_finishFault (s : State) {t : InFlight} (hkind : t.tx.kind ≠ .transReq)
    (hrange : rangeOf t.tx.addr ≠ .interruptEoi) (d : Dte) (pr rz ir iw : Bool) :
    ∃ rz' pe rw, faultFields t pr rz ir iw rz' pe rw ∧
      s.aborts (s.finishFault t d pr rz ir iw) t .targetAbort (s.faultEvents t d rz' pe rw pr) := by
  have hreq : t.tx.isTransReq = false := decide_eq_false hkind
  refine ⟨if pr then rz else s.openBit 1, s.peField t.tx pr ir iw, if pr then s.rwField t.tx else s.freeBit .event, ?_, ?_⟩
  · rintro rfl
    exact ⟨rfl, s.rwField_rwIs hrange, rfl⟩
  · have hevent : s.pageFaultEvent t.tx d pr (if pr then rz else s.openBit 1) (s.peField t.tx pr ir iw) =
        .ioPageFault t.tx.dev false (if pr then rz else s.openBit 1) (s.peField t.tx pr ir iw)
          (if pr then s.rwField t.tx else s.freeBit .event) pr false d.domain t.tx.addr := by
      rw [State.pageFaultEvent, hreq]
    rw [State.finishFault, hreq, if_neg (by decide), hevent]
    exact s.aborts_raisePageFault_refuseTx t d _ _

/-- A translation request learns that nothing is present (R207). -/
theorem State.answersAbsent_finishFault (s : State) {t : InFlight} (hkind : t.tx.kind = .transReq) (d : Dte)
    (reads : List Output) (l : List TlbEntry) (pr rz ir iw : Bool) :
    s.answersAbsent ((s.walked reads l).finishFault t d pr rz ir iw) t reads := by
  rw [State.finishFault_transReq _ hkind]
  exact ⟨rfl, rfl, _, _, rfl, rfl, rfl, by simp⟩

theorem State.finishFault_tlb (s : State) (t : InFlight) (d : Dte) (pr rz ir iw : Bool) :
    (s.finishFault t d pr rz ir iw).tlb = s.tlb := (s.finishFault_ended t d pr rz ir iw).caches.tlb

/-- The event of a read that fails during the walk of a memory access (R440). -/
theorem State.pageTabErrorEvent_memory (s : State) {tx : Transaction} (h : rangeOf tx.addr ≠ .interruptEoi) (d : Dte)
    (f : ReadFailure) (a : Addr) : s.pageTabErrorEvent tx d f a =
      .pageTabHardwareError tx.dev f.code (decide (tx.kind = .transReq)) (s.rwField tx) false (s.eventDomain d) a := by
  have hrange : tx.inInterruptRange = false := decide_eq_false h
  rw [State.pageTabErrorEvent, hrange]
  rfl

/-- The permissions of an entry at fault count where it is present and no reserved bit is set (R292). -/
theorem enterPte_fault_counts {e : BitVec 64} {level : Nat} {l6 pr rz : Bool} (h : enterPte e level l6 = .fault pr rz) :
    ptePresent e = pr ∧ pteCounts e = (pr && !rz) := by
  unfold pteCounts ptePresent
  cases (enterPte_eq_iff e level l6 _).mp h with
  | absent hp => rw [hp]; exact ⟨rfl, rfl⟩
  | reserved hp hr => rw [hp, hr]; exact ⟨rfl, rfl⟩
  | badSize hp hr hn hsize => rw [hp, hr]; exact ⟨rfl, rfl⟩
  | badDefault hp hr hn hdefault => rw [hp, hr]; exact ⟨rfl, rfl⟩
  | badLevel hp hr hn hlevel => rw [hp, hr]; exact ⟨rfl, rfl⟩

theorem not_and_not (pr rz : Bool) : (!(pr && !rz)) = (!pr || rz) := by cases pr <;> cases rz <;> rfl

/-- The result of an entry at fault: it may be kept, with the permissions counted so far, and the walk ends
(R283 to R288, R53). -/
theorem ReadsEntry.walkLevel_fault {s : State} {d : Dte} {w : Walk} {a : Addr} {e : BitVec 64} (h : ReadsEntry s d w a e) {pr rz : Bool}
    (henter : ∀ l6, enterPte e w.level l6 = .fault pr rz) (t : InFlight) (c : TxChoice) {ir iw : Bool}
    (hir : ir = (w.ir && (!pr || rz || e.getLsbD 61))) (hiw : iw = (w.iw && (!pr || rz || e.getLsbD 62))) : s.walkLevel t d w c =
      (s.walked [s.pageRead d a] (if t.stale = false ∧ (pr = true ∨ s.npCache = true) then
        keptPieces t d w c (9 * w.level + 3) (.fault pr rz ir iw) else [])).finishFault t d pr rz (ir && w.dteIr) (iw && w.dteIw) := by
  obtain ⟨hpresent, hcounts⟩ := enterPte_fault_counts (henter true)
  have hcount : w.count e = { w with ir := ir, iw := iw } := by
    rw [Walk.count_eq, hcounts, not_and_not, hir, hiw]
  rw [h.walkLevel, henter, State.walkEntered, hcount, hpresent, State.concludeWalk_eq]
  rfl

/-! ### Translations from the cache -/

theorem State.answers_finishPage (s : State) {t : InFlight} (hkind : t.tx.kind = .transReq) (d : Dte) (use : PageUse) (spa : Addr)
    (bits : Nat) (ir iw fc u : Bool) : ∃ rest, rest.length = t.tx.npages - 1 ∧
      s.answers (s.finishPage t d use spa bits ir iw fc u) t (⟨alignDown spa 12, ir, iw, fc, u, bits⟩ :: rest) := by
  rw [s.finishPage_transReq hkind]
  obtain ⟨rest, hanswer, hrest⟩ := s.answers_answerPages t ⟨alignDown spa 12, ir, iw, fc, u, bits⟩
  exact ⟨rest, hrest, hanswer⟩

/-- Settles O50. -/
theorem walkEndsOtherwise : Obligations.WalkEndsOtherwise := by
  intro s k t d w c a hk hphase hagree hrange ha
  have hact := State.act_advance_walking hk hphase hagree c
  refine ⟨fun hmiss => ⟨fun hskip => ?skipped, fun hskip hsmall => ⟨fun f hfail => ?failed, fun e pr rz hok he henter => ?fault⟩⟩,
    fun x dir diw hf hhit hdir hdiw => ⟨fun base bits ir iw fc mark hx hbits halign hroom => ?page, fun pr rz ir iw hx => ?absent⟩⟩
  case skipped =>
    rw [State.walkOn_miss hmiss, State.walkLevel_skipped (w := { w with fresh := false }) hskip] at hact
    refine ⟨_, hact, s.finishFault_tlb t d _ _ _ _, fun hkind => ?_, fun hkind => ?_⟩
    · obtain ⟨rz, pe, rw', -, habort⟩ := s.aborts_finishFault hkind hrange d false false (w.ir && w.dteIr) (w.iw && w.dteIw)
      exact ⟨rz, pe, rw', habort⟩
    · have hanswer := s.answersAbsent_finishFault hkind d [] [] false false (w.ir && w.dteIr) (w.iw && w.dteIw)
      rwa [s.walked_nil] at hanswer
  case failed =>
    rw [State.walkOn_miss hmiss, State.walkLevel_failed (w := { w with fresh := false }) hskip ha hsmall hfail,
      s.pageTabErrorEvent_memory hrange] at hact
    exact ⟨_, s.rwField t.tx, s.eventDomain d, hact, rfl, s.rwField_rwIs hrange, State.eventDomain_of_v,
      List.append_assoc _ _ _, rfl⟩
  case fault =>
    have hread : ReadsEntry s d { w with fresh := false } a e := ⟨hskip, ha, hsmall, hok, he⟩
    rw [State.walkOn_miss hmiss, hread.walkLevel_fault henter t c rfl rfl] at hact
    refine ⟨_, hact, ⟨_, _, rfl, rfl, State.finishFault_tlb _ t d _ _ _ _⟩, fun hkind => ?_, fun hkind => ?_⟩
    · obtain ⟨rz', pe, rw', hfields, hleaves, houtputs, hevents, -, -⟩ :=
        State.aborts_finishFault (s.walked [s.pageRead d a] (if t.stale = false ∧ (pr = true ∨ s.npCache = true) then
          keptPieces t d { w with fresh := false } c (9 * w.level + 3)
            (.fault pr rz (w.ir && (!pr || rz || e.getLsbD 61)) (w.iw && (!pr || rz || e.getLsbD 62))) else [])) hkind hrange d pr rz
          (w.ir && (!pr || rz || e.getLsbD 61) && w.dteIr) (w.iw && (!pr || rz || e.getLsbD 62) && w.dteIw)
      refine ⟨rz', pe, rw', hleaves, fun hpr => ?_, houtputs.trans (List.append_assoc _ _ _), hevents⟩
      obtain ⟨hrz, hrw, hpe⟩ := hfields hpr
      refine ⟨hrz, hrw, hpe.trans ?_⟩
      rw [hpr, Bool.and_right_comm w.ir, Bool.and_right_comm w.iw]
      rfl
    · exact s.answersAbsent_finishFault hkind d _ _ _ _ _ _
  case page =>
    rw [State.walkOn_tlb hf hhit, hx, ← hdir, ← hdiw] at hact
    refine ⟨_, s.clip bits (joinPage base bits w.dva), hact, State.clip_joinPage hbits halign hroom w.dva,
      fun hkind => s.answers_finishPage hkind d _ _ _ _ _ _ _, fun hkind hperm => ?_, fun hkind hperm => ?_⟩
    · rw [State.finishWalk, s.finishPage_memory hkind]
      exact State.forwards_finishMemory hperm d _ _ fc
    · rw [State.finishWalk, s.finishPage_memory hkind]
      exact State.aborts_finishMemory hperm hrange d _ _ fc
  case absent =>
    rw [State.walkOn_tlb hf hhit, hx, ← hdir, ← hdiw] at hact
    refine ⟨_, hact, fun hkind => ?_, fun hkind => s.aborts_finishFault hkind hrange d pr rz (ir && dir) (iw && diw)⟩
    have hanswer := s.answersAbsent_finishFault hkind d [] [] pr rz (ir && dir) (iw && diw)
    rwa [s.walked_nil] at hanswer

end Sys2Proof.Machine
end
